-- ==== Sys2Proof/Word.lean ====
section
/-! DEFINITION. The words and index types of the Mesbaro 7240 (spec 00 Conventions, 12.1, 12.11). -/

namespace Sys2Proof

/-- A byte of exchange memory. -/
abbrev Byte := BitVec 8
/-- A 16-bit quantity at the host port (R178). -/
abbrev Word := BitVec 16
/-- A reading of the 32-bit millisecond clock (R182). -/
abbrev Clock := BitVec 32
/-- An edition number (R154). -/
abbrev Edition := BitVec 32
/-- A 24-bit quantity: fault codes, cumulative counts, odometers (R1). -/
abbrev Triple := BitVec 24

/-- A channel, A to D as 0 to 3 (R117). -/
abbrev ChanId := Fin 4
/-- A transaction context, 0 to 7 (R91). -/
abbrev CtxId := Fin 8
/-- A unit directory index, 0 to 63; 0 is the collector (R49). -/
abbrev UnitId := Fin 64
/-- An order slot, 0 to 15 (R163). -/
abbrev SlotId := Fin 16
/-- A fault record of the pool, 0 to 1535 (section 1). -/
abbrev RecId := Fin 1536

end Sys2Proof
end

