-- ==== Sys2Proof/Syntax.lean ====
section
/-! DEFINITION. The commands of the 7240: one constructor per row of spec/opcode_table.json, in the table's order. -/

namespace Sys2Proof

/-- A CAN frame as it stands on a segment (R71, 12.12).
The identifier of a base-format frame is its low 11 bits. -/
structure Frame where
  extended : Bool
  remote   : Bool
  ident    : BitVec 29
  dlc      : BitVec 4
  data     : Vector Byte 8
  deriving DecidableEq, Repr

/-- The two kinds of transmit error that R119 tells apart. -/
inductive TxErrorKind where
  | acknowledgement
  | other
  deriving DecidableEq, Repr

/-- The commands: host accesses, timer expiries, segment events and pool operations. -/
inductive Instr where
  /-- FULL_RESET (R183). -/
  | fullReset
  /-- INITIALISATION_END (R183). -/
  | initialisationEnd
  /-- SIGNAL_WRITE (R165). -/
  | signalWrite (value : Word)
  /-- ATTENTION_WRITE (R180). -/
  | attentionWrite (value : Word)
  /-- ATTN_MASK_WRITE (R181). -/
  | attnMaskWrite (value : Word)
  /-- CLOCK_LO_READ (R182). -/
  | clockLoRead
  /-- REGISTER_WRITE_IGNORED (R179). -/
  | registerWriteIgnored (addr value : Word)
  /-- SLOT_STATE_WRITE (R164). -/
  | slotStateWrite (slot : SlotId) (value : Word)
  /-- HOST_MEMORY_WRITE (R178): a word address of the lower half. -/
  | hostMemoryWrite (addr : BitVec 15) (value : Word)
  /-- ORDER_SCAN_TIMER_EXPIRY (R165). -/
  | orderScanTimerExpiry
  /-- POOL_OPERATION_BEGIN (R13). -/
  | poolOperationBegin
  /-- COMMIT (R28): the begun COMMIT operation runs to its end. -/
  | commit
  /-- SELF_COMMIT (R42). -/
  | selfCommit
  /-- ERASE_CLEAR (R44). -/
  | eraseClear
  /-- DELIST_RETIRE (R46). -/
  | delistRetire
  /-- RELEASE (R21). -/
  | release
  /-- HOLD_RUN_OUT (R56). -/
  | holdRunOut (target : UnitId)
  /-- FRAME_RECEIVED (R123): a frame of another node, received without error. -/
  | frameReceived (ch : ChanId) (frame : Frame)
  /-- RECEIVE_ERROR (R119). -/
  | receiveError (ch : ChanId)
  /-- TRANSMIT_ERROR (R119). -/
  | transmitError (ch : ChanId) (kind : TxErrorKind)
  /-- RECOVERY_HOLD_EXPIRY (R121). -/
  | recoveryHoldExpiry (ch : ChanId)
  /-- RECOVERY_COMPLETE (R121). -/
  | recoveryComplete (ch : ChanId)
  /-- FRAME_SENT (R122). -/
  | frameSent (ch : ChanId)
  /-- LOAD_WINDOW_EXPIRY (R130). -/
  | loadWindowExpiry (ch : ChanId)
  /-- PACING_TIMER_EXPIRY (R135). -/
  | pacingTimerExpiry (ch : ChanId)
  /-- SETTLE_TIMER_EXPIRY (R127). -/
  | settleTimerExpiry (ch : ChanId)
  /-- GRANT (R75): the staging port passes the frame whose turn it is, a GRANT. -/
  | grant
  /-- HOLD (R80). -/
  | hold
  /-- ENTRY_A (R77). -/
  | entryA
  /-- ENTRY_B (R77). -/
  | entryB
  /-- CLOSE (R78). -/
  | close
  /-- ERASED (R82). -/
  | erased
  /-- ANSWER_WINDOW_EXPIRY (R100). -/
  | answerWindowExpiry (ctx : CtxId)
  /-- GAP_WINDOW_EXPIRY (R103). -/
  | gapWindowExpiry (ctx : CtxId)
  /-- STOP_WINDOW_EXPIRY (R90). -/
  | stopWindowExpiry (ctx : CtxId)
  /-- HOLD_WINDOW_EXPIRY (R111). -/
  | holdWindowExpiry (ctx : CtxId)
  /-- BUDGET_TIMER_EXPIRY (R152). -/
  | budgetTimerExpiry
  /-- SCHEDULE_TIMER_EXPIRY (R160). -/
  | scheduleTimerExpiry
  /-- ENGINE_RESET_END (R184). -/
  | engineResetEnd
  /-- TRANSMISSION_BEGIN (R122). -/
  | transmissionBegin (ch : ChanId)
  deriving DecidableEq, Repr

end Sys2Proof
end

