-- ==== Sys2Proof/Config.lean ====
section
/-! DEFINITION. What revision 1 silicon fixes: sizes, periods, limits, defaults and the numeric encodings of 12.3 to 12.12.
The spec leaves no value of any step open, so Config holds no opaque constant (see notes/assumptions/1.md). -/

namespace Sys2Proof.Config

/-- Records of the pool (chapter 1). -/
def poolSize : Nat := 1536
/-- Places of the pool request queue (R10). -/
def poolQueueDepth : Nat := 16
/-- Places of a channel's transmit queue (R122). -/
def txQueueDepth : Nat := 8
/-- Frames a response FIFO holds (R123). -/
def fifoDepth : Nat := 32
/-- Entries of the self history (R63). -/
def selfDepth : Nat := 64
/-- The cap of a pacer's credits (R136). -/
def creditCap : Nat := 64
/-- The free count below which POOL_LOW is raised (R23). -/
def poolLowMark : Nat := 64
/-- Order-scan timer period in ms (R165). -/
def scanPeriod : Nat := 50
/-- Pacing timer period in ms (R135). -/
def pacingPeriod : Nat := 100
/-- Holds at which a request ends HELD_OUT (R56, R111). -/
def holdLimit : Nat := 8
/-- Sendings of one OPEN or ERASE (R74, R82). -/
def maxAttempts : Nat := 3
/-- Mending rounds of one segment (R102). -/
def maxMendRounds : Nat := 2
/-- Indices of one PICK (R79). -/
def pickMax : Nat := 7
/-- Largest whole-kilometre odometer (R64). -/
def odoMax : Nat := 16777215
/-- Broadcast node address (R72). -/
def broadcast : Byte := 254
/-- Default part node address (R72, R117). -/
def defaultAddress : Byte := 249
/-- Priority field of every frame sent (R71). -/
def txPriority : BitVec 3 := 6

/-- Byte offsets of exchange memory (12.1). -/
def slotBase : Nat := 0x0000
def slotSize : Nat := 64
def odometerAt : Nat := 0x0400
/-- First byte offset the host does not write (12.1). -/
def hostAreaEnd : Nat := 0x0404

/-- Register word addresses (12.11). -/
def identAt : Word := 0x8000
def revisionAt : Word := 0x8001
def signalAt : Word := 0x8002
def attentionAt : Word := 0x8003
def attnMaskAt : Word := 0x8004
def clockLoAt : Word := 0x8005
def clockHiAt : Word := 0x8006
def identValue : Word := 0x7240
def revisionValue : Word := 0x0001

/-- Order slot field offsets (12.3). -/
def slotStateOff : Nat := 0x00
def slotKindOff : Nat := 0x02
def slotParamOff : Nat := 0x04
def slotResultOff : Nat := 0x10
def slotWordsOff : Nat := 0x12
def slotEditionOff : Nat := 0x1C
def slotClockOff : Nat := 0x20

/-- Slot state words (12.3). -/
def stFree : Word := 0
def stPosted : Word := 1
def stTaken : Word := 2
def stDone : Word := 3
def stRefused : Word := 4

end Sys2Proof.Config
end

