-- ==== Sys2Proof/Machine/State.lean ====
section
/-! DEFINITION. The state of the 7240 as plain data, block by block (spec 00 Block overview), its faults and refusals,
and the machine right after a full reset. -/

namespace Sys2Proof.Machine

/-- No command of the part ends in a fault: an event that cannot take place in the state at hand leaves the state as it is
(notes/assumptions/2.md), so no constructor is needed. -/
inductive Fault where
  deriving DecidableEq, Repr

/-- Reasons for which a command would be given no meaning. -/
inductive Refusal where
  /-- Raised by an arm of `exec` whose command has no meaning yet; no arm raises it. Safe. -/
  | notModelled (mnemonic : String)
  deriving DecidableEq, Repr

/-! ### Host-written exchange memory (R178, 12.1) -/

/-- The host-written part of exchange memory, byte offsets 0x0000 to 0x0403, as a canonical list of cells:
addresses strictly rising, no cell equal to `Memory.unlisted`. -/
abbrev Memory := List Host.Cell

/-- What an unlisted byte reads as: a full reset sets every slot word and the odometer to 0 (R163, R178). -/
def Memory.unlisted : Byte := 0

/-! ### Host port (R178 to R183) -/

/-- The host port: the registers it holds, ATTN_N, and the value last driven on D0 to D15 by a CLOCK_LO read. -/
structure HostPort where
  /-- A cause of full reset persists or initialisation runs (R183). -/
  initialising : Bool
  /-- The six attention bits (R180). -/
  attention : BitVec 6
  /-- The attention mask (R181). -/
  mask : BitVec 6
  /-- ATTN_N driven low (R181). -/
  attnLow : Bool
  /-- The latched high half of the clock (R182). -/
  clockLatch : Word
  /-- The word last returned by a CLOCK_LO read (R182). -/
  dataOut : Word
  deriving DecidableEq, Repr

/-! ### Orders (chapter 9) -/

/-- Encodings of a channel's bit rate (12.4). -/
inductive BitRate where
  | off | r125 | r250 | r500
  deriving DecidableEq, Repr

/-- What a full response FIFO loses (R124). -/
inductive OverflowPolicy where
  | keepOldest | keepNewest
  deriving DecidableEq, Repr

/-- Pool policy (R24). -/
inductive PoolPolicy where
  | keep | reclaim
  deriving DecidableEq, Repr

/-- SET CHANNEL's parameters as applied (R118). -/
structure ChanSettings where
  bitRate : BitRate
  address : Byte
  policy : OverflowPolicy
  wake : Bool
  limit : Nat
  recoveryHold : Nat
  deriving DecidableEq, Repr

/-- SET PACING's parameters as applied (R140); times in ms. -/
structure PacingSettings where
  floor : Nat
  ceiling : Nat
  lowMark : Nat
  highMark : Nat
  upTime : Nat
  downTime : Nat
  loadWindow : Nat
  deriving DecidableEq, Repr

/-- The five timing values of the read-out engine (R114); `settle` in ms. -/
structure Timing where
  answer : Nat
  gap : Nat
  stop : Nat
  settle : Nat
  limit : Nat
  deriving DecidableEq, Repr

/-- The sixteen order kinds with their parameters as applied (R166, section 9.5). -/
inductive Order where
  | clearStart
  | resetPart
  | setChannel (ch : ChanId) (v : ChanSettings)
  | setPacing (ch : ChanId) (v : PacingSettings)
  | setTiming (v : Timing)
  | setSchedule (period : Nat) (mask : BitVec 4) (budget : Nat)
  | setPool (policy : PoolPolicy)
  | enlistUnit (u : UnitId) (ch : ChanId) (address : Byte) (label : Word) (cls : Fin 4)
  | delistUnit (u : UnitId)
  | sweep (mask : BitVec 4) (budget : Nat)
  | readUnit (u : UnitId)
  | eraseUnit (u : UnitId)
  | pauseSweep
  | resumeSweep
  | abortSweep
  | releaseEdition (e : Edition)
  deriving DecidableEq, Repr

/-- Outcomes of a sweep (12.9). -/
inductive SweepOutcome where
  | none | complete | budget | aborted | reset
  deriving DecidableEq, Repr

/-- What a SWEEP order keeps from its sweep's return to IDLE until its edition closes (R158, R174). -/
structure SweepResult where
  outcome : SweepOutcome
  readOk : Nat
  truncated : Nat
  deriving DecidableEq, Repr

/-- The copy of a TAKEN slot from which its order works (R164, R166): the order, the edition its work belongs to (R168),
and for a SWEEP the outcome of its sweep once it has returned to IDLE (R158). -/
structure Taken where
  order : Order
  edition : Edition
  sweepResult : Option SweepResult
  deriving DecidableEq, Repr

/-- The order engine (R165, R167, R169, R177). -/
structure OrderEngine where
  taken : Vector (Option Taken) 16
  /-- Clock value at which the order-scan timer next expires (R165). -/
  scanTimer : Clock
  /-- The scan halt field, NONE or the slot (R167). -/
  scanHalt : Option SlotId
  /-- The START flag (R169). -/
  start : Bool
  /-- The RESET PART slot while an engine reset is in progress (R177, R184). -/
  resetting : Option SlotId
  deriving DecidableEq, Repr

/-! ### Sweep controller (chapter 8) -/

/-- Sweep states (R144). -/
inductive SweepState where
  | idle | running | paused | draining
  deriving DecidableEq, Repr

/-- Origin of a sweep (R145). -/
inductive SweepOrigin where
  | slot (n : SlotId)
  | schedule
  deriving DecidableEq, Repr

/-- The eight tallies (R145). -/
structure Tallies where
  readOk : Nat
  truncated : Nat
  absent : Nat
  heldOut : Nat
  faulty : Nat
  stopped : Nat
  channelLost : Nat
  skipped : Nat
  deriving DecidableEq, Repr

/-- Why an edition was last closed (R155). -/
inductive CloseCause where
  | none | normal | reset
  deriving DecidableEq, Repr

/-- The sweep record, the edition fields and the schedule, under one revision (R145, R155, R159), and the two timers. -/
structure SweepCtl where
  revision : BitVec 8
  state : SweepState
  origin : SweepOrigin
  outcome : SweepOutcome
  mask : BitVec 4
  autoDue : Bool
  budget : Nat
  edition : Edition
  startClock : Clock
  endClock : Clock
  tallies : Tallies
  counter : Edition
  openEdition : Edition
  openClock : Clock
  lastClosed : Edition
  closeClock : Clock
  closeCause : CloseCause
  schedMask : BitVec 4
  schedPeriod : Nat
  schedBudget : Nat
  budgetTimer : Option Clock
  scheduleTimer : Option Clock
  deriving DecidableEq, Repr

/-! ### Unit directory and self history (chapter 3) -/

/-- Unit states (R52). -/
inductive UnitState where
  | vacant | idle | reading | held | absent | faulty | erasing | delisting
  deriving DecidableEq, Repr

/-- Sweep marks (R60). -/
inductive SweepMark where
  | none | pending | done | skipped
  deriving DecidableEq, Repr

/-- Outcomes of reads, erases and sweep decisions (R59, 12.9). -/
inductive UnitOutcome where
  | none | readOk | readTruncated | absent | heldOut | unitFaulty | channelLost | stopped
  | erased | faultySkipped | reset
  deriving DecidableEq, Repr

/-- A directory entry (R49). `holdRunOut` is the internal latch of R56: once a hold has run out it stays run out. -/
structure DirEntry where
  revision : BitVec 8
  state : UnitState
  channel : ChanId
  address : Byte
  label : Word
  cls : Fin 4
  neverRead : Bool
  truncated : Bool
  malformed : Bool
  generation : Word
  epoch : Byte
  reportedTotal : Nat
  liveCount : Nat
  chainHead : Option RecId
  mark : SweepMark
  lastOutcome : UnitOutcome
  holdUntil : Clock
  holdRunOut : Bool
  holdCount : Nat
  absentStreak : Nat
  restartCount : Nat
  lastRead : Edition
  lastSuccess : Edition
  readsOk : Nat
  deriving DecidableEq, Repr

/-- The six kinds of self-history occurrence (R63). -/
inductive SelfCode where
  | busOff | responseOverflow | poolExhausted | budgetExpired | unitFaulty | protocolError
  deriving DecidableEq, Repr

/-- A self-history entry (R63). -/
structure SelfEntry where
  code : SelfCode
  mode : Byte
  count : Byte
  activeNow : Bool
  firstOdo : Triple
  lastOdo : Triple
  deriving DecidableEq, Repr

/-- The self history with its view's revision (R63, R69). -/
structure SelfHistory where
  revision : BitVec 8
  entries : List SelfEntry
  generation : Word
  epoch : Byte
  deriving DecidableEq, Repr

/-! ### Record pool (chapter 1) -/

/-- Record states (R2). -/
inductive RecState where
  | free | active | stored | cleared | lapsed | delisted
  deriving DecidableEq, Repr

/-- A fault record (R1). `owner` is its unit index field. -/
structure FaultRecord where
  revision : BitVec 8
  state : RecState
  owner : UnitId
  activeNow : Bool
  confirmed : Bool
  lamp : Bool
  saturated : Bool
  code : Triple
  mode : Byte
  cumulative : Triple
  lastCount : Byte
  firstOdo : Triple
  lastOdo : Triple
  link : Option RecId
  created : Edition
  changed : Edition
  retired : Edition
  deriving DecidableEq, Repr

/-- Who asked for a SELF COMMIT (R10). -/
inductive SelfOrigin where
  | sweep
  | slot (n : SlotId)
  deriving DecidableEq, Repr

/-- Pool requests with the data they carry (R10, R27, R44). -/
inductive PoolRequest where
  | commit (ctx : CtxId) (u : UnitId) (gen : Word) (epoch : Byte) (total : Nat) (trunc : Bool)
  | selfCommit (origin : SelfOrigin)
  | eraseClear (u : UnitId) (gen : Word) (epoch : Byte) (slot : SlotId) (ctx : Option CtxId)
  | delistRetire (u : UnitId) (slot : SlotId)
  | release (edition : Edition) (slot : SlotId)
  deriving DecidableEq, Repr

/-- The operation in progress, with what it took at its beginning: the policy (R24), a SELF COMMIT's snapshot (R42),
a RELEASE's applied edition (R21). -/
structure PoolOp where
  request : PoolRequest
  policy : PoolPolicy
  snapshot : SelfHistory
  applied : Edition
  deriving DecidableEq, Repr

/-- The pool manager: the records, the pool summary (R15), the request queue, the waiting offers (R11), the operation. -/
structure Pool where
  records : Vector FaultRecord 1536
  revision : BitVec 8
  policy : PoolPolicy
  freeTop : Option RecId
  freeCount : Nat
  retHead : Option RecId
  retTail : Option RecId
  retCount : Nat
  liveCount : Nat
  reclaimed : BitVec 32
  queue : List PoolRequest
  waiting : List PoolRequest
  op : Option PoolOp
  deriving DecidableEq, Repr

/-! ### Transaction contexts (chapter 5) -/

/-- Context states (R93). -/
inductive CtxState where
  | free | paced | opening | receiving | mending | stopping | committing
  deriving DecidableEq, Repr

/-- What an assignment is for (R91). -/
inductive Purpose where
  | read | erase
  deriving DecidableEq, Repr

/-- Kinds of frame the part sends (R71). -/
inductive TxKind where
  | openFrame | pickFrame | stopFrame | eraseFrame | wakeFrame
  deriving DecidableEq, Repr

/-- The timer of a context (R91). -/
inductive WindowKind where
  | answer | gap | stop | hold
  deriving DecidableEq, Repr

/-- Half A of a staged entry (R77). -/
structure HalfA where
  code : Triple
  mode : Byte
  count : Byte
  activeNow : Bool
  confirmed : Bool
  lamp : Bool
  deriving DecidableEq, Repr

/-- Half B of a staged entry (R77). -/
structure HalfB where
  firstOdo : Triple
  lastOdo : Triple
  deriving DecidableEq, Repr

/-- A staging place: a half is present exactly when its received mark is set (R91). -/
structure Place where
  halfA : Option HalfA
  halfB : Option HalfB
  deriving DecidableEq, Repr

/-- A transaction context (R91). The tag, the origin and the mirrored counts are computed from it and from the directory. -/
structure Context where
  revision : BitVec 8
  state : CtxState
  target : UnitId
  channel : ChanId
  purpose : Purpose
  /-- Attached order slots, bit n for slot n. -/
  attached : BitVec 16
  parity : Bool
  firstOpening : Bool
  truncMark : Bool
  generation : Word
  epoch : Byte
  total : Nat
  segFirst : Nat
  countAsked : Nat
  granted : Nat
  mendRound : Nat
  attempt : Nat
  creditNeed : Nat
  frameQueued : Option TxKind
  pickList : List Nat
  /-- The running timer and the clock value at which it expires. -/
  window : Option (WindowKind × Clock)
  /-- Timing in use (R98): answer, gap and stop windows and restart limit. -/
  useAnswer : Nat
  useGap : Nat
  useStop : Nat
  useLimit : Nat
  staging : Vector Place 64
  deriving DecidableEq, Repr

/-! ### Channels and pacers (chapters 6 and 7) -/

/-- Controller states (R119). -/
inductive ChanState where
  | off | active | passive | busOff | recovering
  deriving DecidableEq, Repr

/-- A frame of the part's own, waiting or in transmission (R122): `live` while a context waits for its sending;
`withdrawn` when its withdrawal was asked during its transmission. -/
structure TxEntry where
  frame : Frame
  kind : TxKind
  ctx : Option CtxId
  live : Bool
  transmitting : Bool
  withdrawn : Bool
  deriving DecidableEq, Repr

/-- A pacer (R133). -/
structure Pacer where
  settings : PacingSettings
  target : Nat
  current : Nat
  credits : Nat
  remainder : Nat
  /-- The waiting line, head first (R138); each need stands in its context. -/
  line : List CtxId
  /-- When the pacing timer next expires; none while stopped (R135). -/
  timer : Option Clock
  deriving DecidableEq, Repr

/-- A channel: settings (R117), controller (R119), queues (R122, R123), settling (R127), load monitor (R129), tallies
(R126), pacer (R133). -/
structure Channel where
  revision : BitVec 8
  settings : ChanSettings
  state : ChanState
  txErrors : Nat
  rxErrors : Nat
  txQueue : List TxEntry
  /-- Frames waiting outside the full queue (R122). -/
  txOutside : List TxEntry
  /-- Frames waiting for their context's withdrawn frame to leave the queue (R122). -/
  txDeferred : List TxEntry
  fifo : List Frame
  settling : Bool
  settleTimer : Option Clock
  recoveryTimer : Option Clock
  /-- Runs of 11 recessive bits counted in RECOVERING (R121). -/
  idleRuns : Nat
  /-- The load window in progress: bits, frames, length in ms, expiry (R129). -/
  accumulator : Nat
  windowFrames : Nat
  windowLength : Nat
  loadTimer : Option Clock
  lastLoad : Nat
  lastFrames : Nat
  strayTally : Nat
  overflowTally : Nat
  pacer : Pacer
  deriving DecidableEq, Repr

/-! ### The machine -/

/-- The whole part, and the queue of commands that wait. -/
structure State where
  port : HostPort
  clock : Clock
  mem : Memory
  orders : OrderEngine
  sweep : SweepCtl
  dir : Vector DirEntry 64
  self : SelfHistory
  pool : Pool
  ctxs : Vector Context 8
  timing : Timing
  chans : Vector Channel 4
  /-- The channel the staging port served last (R125). -/
  portLast : ChanId
  /-- Commands waiting, first in, first out. -/
  pending : List Instr
  deriving DecidableEq, Repr

/-! ### Reset values -/

/-- The port at the end of initialisation (R179, R183): ATTENTION and ATTN_MASK hold START only, so ATTN_N is low. -/
def HostPort.fresh : HostPort :=
  { initialising := false, attention := 1, mask := 1, attnLow := true, clockLatch := 0, dataOut := 0 }

/-- The order engine after a full reset (R163, R165, R167, R169). -/
def OrderEngine.fresh : OrderEngine :=
  { taken := Vector.replicate 16 none, scanTimer := BitVec.ofNat 32 Config.scanPeriod, scanHalt := none,
    start := true, resetting := none }

/-- All tallies 0. -/
def Tallies.zero : Tallies :=
  { readOk := 0, truncated := 0, absent := 0, heldOut := 0, faulty := 0, stopped := 0, channelLost := 0, skipped := 0 }

/-- The sweep controller after a full reset (R162). -/
def SweepCtl.fresh : SweepCtl :=
  { revision := 0, state := .idle, origin := .slot 0, outcome := .none, mask := 0, autoDue := false, budget := 0,
    edition := 0, startClock := 0, endClock := 0, tallies := Tallies.zero, counter := 0, openEdition := 0,
    openClock := 0, lastClosed := 0, closeClock := 0, closeCause := .none, schedMask := 0, schedPeriod := 0,
    schedBudget := 0, budgetTimer := none, scheduleTimer := none }

/-- A VACANT entry (R51). -/
def DirEntry.vacant : DirEntry :=
  { revision := 0, state := .vacant, channel := 0, address := 0, label := 0, cls := 0, neverRead := false,
    truncated := false, malformed := false, generation := 0, epoch := 0, reportedTotal := 0, liveCount := 0,
    chainHead := none, mark := .none, lastOutcome := .none, holdUntil := 0, holdRunOut := false, holdCount := 0,
    absentStreak := 0, restartCount := 0, lastRead := 0, lastSuccess := 0, readsOk := 0 }

/-- Unit 0 after a full reset (R67). -/
def DirEntry.collector : DirEntry := { DirEntry.vacant with state := .idle, neverRead := true }

/-- The empty self history (R67, R69). -/
def SelfHistory.fresh : SelfHistory := { revision := 0, entries := [], generation := 0, epoch := 0 }

/-- A FREE record that links to `next` (R2). -/
def FaultRecord.freed (next : Option RecId) : FaultRecord :=
  { revision := 0, state := .free, owner := 0, activeNow := false, confirmed := false, lamp := false,
    saturated := false, code := 0, mode := 0, cumulative := 0, lastCount := 0, firstOdo := 0, lastOdo := 0,
    link := next, created := 0, changed := 0, retired := 0 }

/-- The records after a full reset: record n links to n + 1, the last to none (R26). -/
def freshRecords : Vector FaultRecord 1536 :=
  ⟨⟨(List.range 1536).map fun i => FaultRecord.freed (if h : i + 1 < 1536 then some ⟨i + 1, h⟩ else none)⟩,
    by rw [List.size_toArray, List.length_map, List.length_range]⟩

/-- The pool after a full reset (R26). -/
def Pool.fresh : Pool :=
  { records := freshRecords, revision := 0, policy := .keep, freeTop := some 0, freeCount := Config.poolSize,
    retHead := none, retTail := none, retCount := 0, liveCount := 0, reclaimed := 0, queue := [], waiting := [],
    op := none }

/-- An empty staging area (R116). -/
def emptyStaging : Vector Place 64 := Vector.replicate 64 { halfA := none, halfB := none }

/-- A FREE context with every field 0 but the revision and the kept opening parity (R92, R116). -/
def Context.freed (revision : BitVec 8) (parity : Bool) : Context :=
  { revision := revision, state := .free, target := 0, channel := 0, purpose := .read, attached := 0, parity := parity,
    firstOpening := false, truncMark := false, generation := 0, epoch := 0, total := 0, segFirst := 0,
    countAsked := 0, granted := 0, mendRound := 0, attempt := 0, creditNeed := 0, frameQueued := none,
    pickList := [], window := none, useAnswer := 0, useGap := 0, useStop := 0, useLimit := 0,
    staging := emptyStaging }

/-- Default timing values (R114). -/
def Timing.fresh : Timing := { answer := 25, gap := 50, stop := 30, settle := 200, limit := 3 }

/-- Reset values of a channel's settings (R117). -/
def ChanSettings.fresh : ChanSettings :=
  { bitRate := .off, address := Config.defaultAddress, policy := .keepOldest, wake := false, limit := 2,
    recoveryHold := 1000 }

/-- Reset values of a pacer's settings (R133). -/
def PacingSettings.fresh : PacingSettings :=
  { floor := 20, ceiling := 200, lowMark := 300, highMark := 700, upTime := 2000, downTime := 500, loadWindow := 1000 }

/-- A pacer after either reset (R133). -/
def Pacer.fresh : Pacer :=
  { settings := PacingSettings.fresh, target := 0, current := 0, credits := 0, remainder := 0, line := [], timer := none }

/-- A channel in its reset state, with the revision given (R132). -/
def Channel.fresh (revision : BitVec 8) : Channel :=
  { revision := revision, settings := ChanSettings.fresh, state := .off, txErrors := 0, rxErrors := 0, txQueue := [],
    txOutside := [], txDeferred := [], fifo := [], settling := false, settleTimer := none, recoveryTimer := none,
    idleRuns := 0, accumulator := 0, windowFrames := 0, windowLength := 0, loadTimer := none, lastLoad := 0,
    lastFrames := 0, strayTally := 0, overflowTally := 0, pacer := Pacer.fresh }

/-- The machine right after a full reset, at the moment INITIALISATION_END leaves it (R183): every block at its
full-reset values, START set and raised, no command waiting. -/
def State.reset : State :=
  { port := HostPort.fresh
    clock := 0
    mem := []
    orders := OrderEngine.fresh
    sweep := SweepCtl.fresh
    dir := (Vector.replicate 64 DirEntry.vacant).set 0 DirEntry.collector
    self := SelfHistory.fresh
    pool := Pool.fresh
    ctxs := Vector.replicate 8 (Context.freed 0 false)
    timing := Timing.fresh
    chans := Vector.replicate 4 (Channel.fresh 0)
    portLast := 3
    pending := [] }

end Sys2Proof.Machine
end

