-- ==== Sys2Proof/Machine/Flags.lean ====
section
/-! DEFINITION. Flags and encodings: attention bits and ATTN_N, kind codes, outcome and refusal codes, the identity order. -/

namespace Sys2Proof.Machine

/-! ### Arithmetic on bit vectors -/

/-- The smaller of two unsigned values. -/
def bvMin {n : Nat} (a b : BitVec n) : BitVec n := if a.toNat ≤ b.toNat then a else b
/-- The larger of two unsigned values. -/
def bvMax {n : Nat} (a b : BitVec n) : BitVec n := if a.toNat ≤ b.toNat then b else a
/-- A count clamped into the range lo to hi (spec 00, Clamping). -/
def clampNat (lo hi n : Nat) : Nat := max lo (min hi n)
/-- A count raised by 1 that stops at `top` (spec 00, Arithmetic). -/
def satSucc (top n : Nat) : Nat := min top (n + 1)

/-! ### Attention (R180, R181) -/

/-- The six attention bits (12.11). -/
inductive AttnBit where
  | start | orderDone | editionClosed | poolLow | channelFault | selfGrew
  deriving DecidableEq, Repr

/-- A bit's place in ATTENTION and ATTN_MASK (12.11). -/
def AttnBit.bit : AttnBit → BitVec 6
  | .start => 1
  | .orderDone => 2
  | .editionClosed => 4
  | .poolLow => 8
  | .channelFault => 16
  | .selfGrew => 32

/-- ATTN_N is low while a bit is set in both registers, and released during initialisation (R181, R183). -/
def attnDriven (p : HostPort) : Bool := !p.initialising && (p.attention &&& p.mask) != 0

/-! ### Fault identities (R1) -/

/-- Identity order: code first, then mode. -/
def identLt (c1 : Triple) (m1 : Byte) (c2 : Triple) (m2 : Byte) : Bool :=
  decide (c1.toNat < c2.toNat) || (c1 == c2 && decide (m1.toNat < m2.toNat))

/-- The code's number (R63). -/
def SelfCode.number : SelfCode → Triple
  | .busOff => 1
  | .responseOverflow => 2
  | .poolExhausted => 3
  | .budgetExpired => 4
  | .unitFaulty => 5
  | .protocolError => 6

/-! ### Protocol kinds (R71) -/

/-- The six unit-to-part kinds. -/
inductive RxKind where
  | grant | hold | entryA | entryB | close | erased
  deriving DecidableEq, Repr

/-- Code of a part-to-unit kind (R71). -/
def TxKind.code : TxKind → BitVec 5
  | .openFrame => 0x01
  | .pickFrame => 0x02
  | .stopFrame => 0x03
  | .eraseFrame => 0x04
  | .wakeFrame => 0x05

/-- The unit-to-part kind of a kind code (R71). -/
def RxKind.ofCode (c : BitVec 5) : Option RxKind :=
  if c = 0x11 then some .grant
  else if c = 0x12 then some .hold
  else if c = 0x13 then some .entryA
  else if c = 0x14 then some .entryB
  else if c = 0x15 then some .close
  else if c = 0x16 then some .erased
  else none

/-- Least DLC a received kind needs (R86). -/
def RxKind.leastDlc : RxKind → Nat
  | .grant => 5
  | .hold => 2
  | .entryA => 7
  | .entryB => 7
  | .close => 5
  | .erased => 3

/-! ### Result codes (12.5) and field encodings (12.8, 12.9) -/

/-- Last outcome encoding; 1 to 8 are the result codes of the same names (12.9). -/
def UnitOutcome.code : UnitOutcome → Nat
  | .none => 0
  | .readOk => 1
  | .readTruncated => 2
  | .absent => 3
  | .heldOut => 4
  | .unitFaulty => 5
  | .channelLost => 6
  | .stopped => 7
  | .erased => 8
  | .faultySkipped => 9
  | .reset => 10

/-- Sweep outcome encoding of the sweep record (12.9). -/
def SweepOutcome.code : SweepOutcome → Nat
  | .none => 0
  | .complete => 1
  | .budget => 2
  | .aborted => 3
  | .reset => 4

/-- Result code of a SWEEP order (12.5). -/
def SweepOutcome.result : SweepOutcome → Word
  | .complete => 0x09
  | .budget => 0x0A
  | .aborted => 0x0B
  | .none => 0
  | .reset => 0

/-- Refusal codes (12.5, R166). -/
inductive OrderRefusal where
  | unknownKind | startPending | badValue | limitSpan | sweepBusy | noSweep | unitVacant | unitOccupied
  | duplicateAddress | channelOff | channelBusy | resetAborted
  deriving DecidableEq, Repr

def OrderRefusal.code : OrderRefusal → Word
  | .unknownKind => 0x80
  | .startPending => 0x81
  | .badValue => 0x82
  | .limitSpan => 0x83
  | .sweepBusy => 0x84
  | .noSweep => 0x85
  | .unitVacant => 0x86
  | .unitOccupied => 0x87
  | .duplicateAddress => 0x88
  | .channelOff => 0x89
  | .channelBusy => 0x8A
  | .resetAborted => 0x8B

def BitRate.code : BitRate → Nat
  | .off => 0
  | .r125 => 1
  | .r250 => 2
  | .r500 => 3

/-- The bit rate in bit/s (R117, R130). -/
def BitRate.bitsPerSecond : BitRate → Nat
  | .off => 0
  | .r125 => 125000
  | .r250 => 250000
  | .r500 => 500000

def BitRate.ofCode (b : Byte) : Option BitRate :=
  if b = 0 then some .off
  else if b = 1 then some .r125
  else if b = 2 then some .r250
  else if b = 3 then some .r500
  else none

def OverflowPolicy.code : OverflowPolicy → Nat
  | .keepOldest => 0
  | .keepNewest => 1

def OverflowPolicy.ofCode (b : Byte) : Option OverflowPolicy :=
  if b = 0 then some .keepOldest else if b = 1 then some .keepNewest else none

def PoolPolicy.code : PoolPolicy → Nat
  | .keep => 0
  | .reclaim => 1

def PoolPolicy.ofCode (b : Byte) : Option PoolPolicy :=
  if b = 0 then some .keep else if b = 1 then some .reclaim else none

/-- The controller is joined to its segment: ACTIVE or PASSIVE (R119). -/
def ChanState.joined : ChanState → Bool
  | .active => true
  | .passive => true
  | .off => false
  | .busOff => false
  | .recovering => false

/-- The channel waits out a bus-off: BUS_OFF or RECOVERING. -/
def ChanState.silent : ChanState → Bool
  | .busOff => true
  | .recovering => true
  | .off => false
  | .active => false
  | .passive => false

/-- The context is busy on its channel (R93). -/
def CtxState.busy : CtxState → Bool
  | .paced => true
  | .opening => true
  | .receiving => true
  | .mending => true
  | .stopping => true
  | .free => false
  | .committing => false

/-- The states in which a frame can match a context (R85). -/
def CtxState.takesFrames : CtxState → Bool
  | .opening => true
  | .receiving => true
  | .mending => true
  | .stopping => true
  | .free => false
  | .paced => false
  | .committing => false

end Sys2Proof.Machine
end

