-- ==== Sys2Proof/Machine/Operands.lean ====
section
/-! DEFINITION. Operand forms: the fields of received frames, the frames the part sends (12.12), and the parameters of an
order slot (12.3, 12.4) with their value checks and clamps (R114, R118, R140, R170 to R175). -/

namespace Sys2Proof.Machine

/-! ### Memory reads used by operands -/

/-- The byte at a byte offset of host-written exchange memory. -/
def Memory.read : Memory → Nat → Byte
  | [], _ => Memory.unlisted
  | (k, b) :: rest, a => if k = a then b else Memory.read rest a

/-- The word whose lower-addressed byte is at `a`, low byte first (R178). -/
def Memory.readWord (m : Memory) (a : Nat) : Word := Memory.read m (a + 1) ++ Memory.read m a

end Sys2Proof.Machine

namespace Sys2Proof

open Sys2Proof.Machine

/-! ### Received frames -/

def Frame.byte (f : Frame) (i : Nat) : Byte := f.data.toList.getD i 0
/-- A two-byte field, low byte first (12.12). -/
def Frame.word (f : Frame) (i : Nat) : Word := f.byte (i + 1) ++ f.byte i
/-- A three-byte field, low byte first (12.12). -/
def Frame.triple (f : Frame) (i : Nat) : Triple := f.byte (i + 2) ++ (f.byte (i + 1) ++ f.byte i)

def Frame.formatBit (f : Frame) : BitVec 1 := f.ident.extractLsb' 25 1
def Frame.kindCode (f : Frame) : BitVec 5 := f.ident.extractLsb' 20 5
def Frame.tag (f : Frame) : BitVec 4 := f.ident.extractLsb' 16 4
def Frame.destination (f : Frame) : Byte := f.ident.extractLsb' 8 8
def Frame.source (f : Frame) : Byte := f.ident.extractLsb' 0 8
/-- The context a tag names: its low three bits (R73). -/
def Frame.tagCtx (f : Frame) : CtxId := (f.tag.extractLsb' 0 3).toFin
/-- The opening parity a tag carries: its top bit (R73). -/
def Frame.tagParity (f : Frame) : Bool := f.tag.getLsbD 3

/-- The unit-to-part kind of a read-out frame (R71); none for every other frame. -/
def Frame.rxKind (f : Frame) : Option RxKind :=
  if f.extended && !f.remote && f.formatBit == 0 then RxKind.ofCode f.kindCode else none

/-- Whether a frame is too short for its kind (R86). -/
def Frame.short (f : Frame) (k : RxKind) : Bool := decide (f.dlc.toNat < k.leastDlc)

/-- GRANT fields (12.12). -/
def Frame.grantGeneration (f : Frame) : Word := f.word 0
def Frame.grantEpoch (f : Frame) : Byte := f.byte 2
def Frame.grantTotal (f : Frame) : Nat := (f.byte 3).toNat
def Frame.grantCount (f : Frame) : Nat := (f.byte 4).toNat

/-- HOLD reason is one of BUSY, REWRITING, SERVICE (R80). -/
def Frame.holdReasonOk (f : Frame) : Bool := decide (1 ≤ (f.byte 0).toNat) && decide ((f.byte 0).toNat ≤ 3)
/-- HOLD time in ms: a count of 0 is read as 1 (R80). -/
def Frame.holdMs (f : Frame) : Nat := 10 * max 1 (f.byte 1).toNat

def Frame.entryIndex (f : Frame) : Nat := (f.byte 0).toNat
/-- ENTRY_A content (R77, 12.12). -/
def Frame.halfA (f : Frame) : HalfA :=
  { code := f.triple 1, mode := f.byte 4, count := f.byte 5, activeNow := (f.byte 6).getLsbD 0,
    confirmed := (f.byte 6).getLsbD 1, lamp := (f.byte 6).getLsbD 2 }
/-- ENTRY_B content (R77, 12.12). -/
def Frame.halfB (f : Frame) : HalfB := { firstOdo := f.triple 1, lastOdo := f.triple 4 }

/-- ERASED fields (12.12). -/
def Frame.erasedGeneration (f : Frame) : Word := f.word 0
def Frame.erasedEpoch (f : Frame) : Byte := f.byte 2

/-- The DLC as counted: above 8 counts as 8 (R129). -/
def Frame.countedDlc (f : Frame) : Nat := min 8 f.dlc.toNat
/-- The load cost of a frame in bits (R129). -/
def Frame.cost (f : Frame) : Nat :=
  (if f.extended then 67 else 47) + (if f.remote then 0 else 8 * f.countedDlc)

end Sys2Proof

namespace Sys2Proof.Machine

/-! ### Sent frames -/

/-- The identifier of a frame the part sends (12.12, R71, R72). -/
def txIdent (kind : TxKind) (tag : BitVec 4) (dest src : Byte) : BitVec 29 :=
  Config.txPriority ++ ((0 : BitVec 1) ++ (kind.code ++ (tag ++ (dest ++ src))))

/-- Eight data bytes from a list, padded with 0. -/
def dataBytes (l : List Byte) : Vector Byte 8 :=
  #v[l.getD 0 0, l.getD 1 0, l.getD 2 0, l.getD 3 0, l.getD 4 0, l.getD 5 0, l.getD 6 0, l.getD 7 0]

/-- A data frame of the part's own with the data given (R72). -/
def txFrame (kind : TxKind) (tag : BitVec 4) (dest src : Byte) (data : List Byte) : Frame :=
  { extended := true, remote := false, ident := txIdent kind tag dest src, dlc := BitVec.ofNat 4 data.length,
    data := dataBytes data }

/-- The tag of a context's opening (R73). -/
def tagOf (k : CtxId) (parity : Bool) : BitVec 4 := BitVec.ofNat 4 (k.val + if parity then 8 else 0)

/-! ### Order slots -/

/-- Byte offset of a slot (12.1). -/
def slotAt (n : SlotId) : Nat := Config.slotBase + Config.slotSize * n.val

def slotWord (m : Memory) (n : SlotId) (off : Nat) : Word := Memory.readWord m (slotAt n + off)
def slotState (m : Memory) (n : SlotId) : Word := slotWord m n Config.slotStateOff
def slotKind (m : Memory) (n : SlotId) : Word := slotWord m n Config.slotKindOff
/-- Byte i of the parameter area (12.4). -/
def paramByte (m : Memory) (n : SlotId) (i : Nat) : Byte := Memory.read m (slotAt n + Config.slotParamOff + i)
/-- The 16-bit parameter in bytes i and i + 1 of the parameter area (12.4). -/
def paramWord (m : Memory) (n : SlotId) (i : Nat) : Word := Memory.readWord m (slotAt n + Config.slotParamOff + i)

/-- What the value checks of a kind give: the order with its parameters as applied, or the refusal and its word 0. -/
inductive Parsed where
  | order (o : Order)
  | refused (r : OrderRefusal) (word0 : Word)
  deriving DecidableEq, Repr

def asFin (n : Nat) (v : Nat) : Option (Fin n) := if h : v < n then some ⟨v, h⟩ else none

/-- A node address a party may have: 1 to 253 (R72). -/
def addressOk (b : Byte) : Bool := decide (1 ≤ b.toNat) && decide (b.toNat ≤ 253)

def badValue (position : Nat) : Parsed := .refused .badValue (BitVec.ofNat 16 position)

/-- SET CHANNEL (R118 check 1; limit and recovery hold clamped). -/
def parseSetChannel (m : Memory) (n : SlotId) : Parsed :=
  match asFin 4 (paramByte m n 0).toNat with
  | none => badValue 1
  | some ch =>
    match BitRate.ofCode (paramByte m n 1) with
    | none => badValue 2
    | some rate =>
      if addressOk (paramByte m n 2) then
        match OverflowPolicy.ofCode (paramByte m n 3) with
        | none => badValue 4
        | some pol =>
          .order (.setChannel ch
            { bitRate := rate, address := paramByte m n 2, policy := pol, wake := paramByte m n 4 != 0,
              limit := clampNat 1 4 (paramByte m n 5).toNat,
              recoveryHold := clampNat 100 6500 (paramWord m n 6).toNat })
      else badValue 3

/-- SET PACING (R140). -/
def parseSetPacing (m : Memory) (n : SlotId) : Parsed :=
  match asFin 4 (paramByte m n 0).toNat with
  | none => badValue 1
  | some ch =>
    let ceiling := min 600 (paramWord m n 4).toNat
    let floor := clampNat 1 600 (paramWord m n 2).toNat
    let low := min 1000 (paramWord m n 6).toNat
    let high := min 1000 (paramWord m n 8).toNat
    if ceiling < floor + 10 then .refused .limitSpan 1
    else if high < low + 50 then .refused .limitSpan 2
    else
      .order (.setPacing ch
        { floor := floor, ceiling := ceiling, lowMark := low, highMark := high,
          upTime := 100 * clampNat 1 255 (paramByte m n 1).toNat,
          downTime := 100 * clampNat 1 255 (paramByte m n 10).toNat,
          loadWindow := 100 * clampNat 1 65 (paramByte m n 11).toNat })

/-- SET TIMING (R114, R170): never refused. -/
def parseSetTiming (m : Memory) (n : SlotId) : Parsed :=
  .order (.setTiming
    { answer := clampNat 5 255 (paramByte m n 0).toNat, gap := clampNat 5 255 (paramByte m n 1).toNat,
      stop := clampNat 5 255 (paramByte m n 2).toNat, settle := 10 * (paramByte m n 3).toNat,
      limit := clampNat 1 7 (paramByte m n 4).toNat })

/-- SET SCHEDULE (R159). -/
def parseSetSchedule (m : Memory) (n : SlotId) : Parsed :=
  .order (.setSchedule (min 1440 (paramWord m n 0).toNat) ((paramByte m n 2).extractLsb' 0 4) (paramWord m n 4).toNat)

/-- SET POOL (R170). -/
def parseSetPool (m : Memory) (n : SlotId) : Parsed :=
  match PoolPolicy.ofCode (paramByte m n 0) with
  | none => badValue 1
  | some p => .order (.setPool p)

/-- ENLIST UNIT (R171 check 1). -/
def parseEnlist (m : Memory) (n : SlotId) : Parsed :=
  match asFin 64 (paramByte m n 0).toNat with
  | none => badValue 1
  | some u =>
    if u = 0 then badValue 1 else
    match asFin 4 (paramByte m n 1).toNat with
    | none => badValue 2
    | some ch =>
      if addressOk (paramByte m n 2) then
        match asFin 4 (paramByte m n 6).toNat with
        | none => badValue 5
        | some cls => .order (.enlistUnit u ch (paramByte m n 2) (paramWord m n 4) cls)
      else badValue 3

/-- DELIST UNIT (R171): units 1 to 63. -/
def parseDelist (m : Memory) (n : SlotId) : Parsed :=
  match asFin 64 (paramByte m n 0).toNat with
  | none => badValue 1
  | some u => if u = 0 then badValue 1 else .order (.delistUnit u)

/-- READ UNIT and ERASE UNIT (R172, R173): units 0 to 63. -/
def parseUnit (m : Memory) (n : SlotId) (k : UnitId → Order) : Parsed :=
  match asFin 64 (paramByte m n 0).toNat with
  | none => badValue 1
  | some u => .order (k u)

/-- The edition of RELEASE EDITION, low word in bytes 0 to 1 (12.4). -/
def paramEdition (m : Memory) (n : SlotId) : Edition := paramWord m n 2 ++ paramWord m n 0

/-- Whether a kind word is one of the sixteen order kinds (12.4). -/
def kindKnown (k : Word) : Bool := decide (1 ≤ k.toNat) && decide (k.toNat ≤ 16)

/-- The kinds taken while START is set: CLEAR START and RESET PART (R169). -/
def kindTakenAtStart (k : Word) : Bool := k == 1 || k == 2

/-- The value checks and clamps of the slot's kind (R166 step 3). -/
def parseOrder (m : Memory) (n : SlotId) : Parsed :=
  match (slotKind m n).toNat with
  | 1 => .order .clearStart
  | 2 => .order .resetPart
  | 3 => parseSetChannel m n
  | 4 => parseSetPacing m n
  | 5 => parseSetTiming m n
  | 6 => parseSetSchedule m n
  | 7 => parseSetPool m n
  | 8 => parseEnlist m n
  | 9 => parseDelist m n
  | 10 => .order (.sweep ((paramByte m n 0).extractLsb' 0 4) (paramWord m n 2).toNat)
  | 11 => parseUnit m n .readUnit
  | 12 => parseUnit m n .eraseUnit
  | 13 => .order .pauseSweep
  | 14 => .order .resumeSweep
  | 15 => .order .abortSweep
  | 16 => .order (.releaseEdition (paramEdition m n))
  | _ => .refused .unknownKind 0

end Sys2Proof.Machine
end

