-- ==== Sys2Proof/Machine/Ops.lean ====
section
/-! DEFINITION. The shared operations: host-written memory, block updates, the clock, directory writes, the self history,
order completion, edition opening, pool offers, and the revisions an event steps. -/

namespace Sys2Proof.Machine

/-! ### Fixed lists and vectors -/

def allSlots : List SlotId := [0, 1, 2, 3, 4, 5, 6, 7, 8, 9, 10, 11, 12, 13, 14, 15]
def allChans : List ChanId := [0, 1, 2, 3]
def allCtxs : List CtxId := [0, 1, 2, 3, 4, 5, 6, 7]
def allUnits : List UnitId := List.finRange 64

/-- Applies `f` once for each element, in list order. -/
def forEach {α σ : Type} (l : List α) (f : α → σ → σ) (s : σ) : σ := l.foldl (fun t a => f a t) s

/-- A vector's entries replaced by their images. -/
def vecMap {α : Type} {n : Nat} (f : α → α) (v : Vector α n) : Vector α n :=
  ⟨⟨v.toList.map f⟩, by rw [List.size_toArray, List.length_map, Vector.length_toList]⟩

/-! ### Host-written exchange memory -/

/-- Writing a byte keeps the canonical form: a byte that reads as unlisted is not listed. -/
def Memory.write : Memory → Nat → Byte → Memory
  | [], a, b => if b = Memory.unlisted then [] else [(a, b)]
  | (k, v) :: rest, a, b =>
    if a < k then (if b = Memory.unlisted then (k, v) :: rest else (a, b) :: (k, v) :: rest)
    else if a = k then (if b = Memory.unlisted then rest else (a, b) :: rest)
    else (k, v) :: Memory.write rest a b

/-- A word is stored low byte first (R178). -/
def Memory.writeWord (m : Memory) (a : Nat) (w : Word) : Memory :=
  Memory.write (Memory.write m a (w.extractLsb' 0 8)) (a + 1) (w.extractLsb' 8 8)

/-- Canonical form from a lowest address on. -/
def Memory.wfFrom : Nat → Memory → Bool
  | _, [] => true
  | lo, (k, b) :: rest => decide (lo ≤ k) && b != Memory.unlisted && Memory.wfFrom (k + 1) rest

/-- Addresses strictly rising, no cell equal to what an unlisted address reads as. -/
def Memory.wf (m : Memory) : Bool := Memory.wfFrom 0 m

/-! ### Block updates -/

def State.updPort (f : HostPort → HostPort) (s : State) : State := { s with port := f s.port }
def State.updMem (f : Memory → Memory) (s : State) : State := { s with mem := f s.mem }
def State.updOrders (f : OrderEngine → OrderEngine) (s : State) : State := { s with orders := f s.orders }
def State.updSweep (f : SweepCtl → SweepCtl) (s : State) : State := { s with sweep := f s.sweep }
def State.updPool (f : Pool → Pool) (s : State) : State := { s with pool := f s.pool }
def State.updSelf (f : SelfHistory → SelfHistory) (s : State) : State := { s with self := f s.self }
def State.updCtx (k : CtxId) (f : Context → Context) (s : State) : State :=
  { s with ctxs := s.ctxs.set k (f s.ctxs[k]) }
def State.updChan (c : ChanId) (f : Channel → Channel) (s : State) : State :=
  { s with chans := s.chans.set c (f s.chans[c]) }
def State.updPacer (c : ChanId) (f : Pacer → Pacer) (s : State) : State :=
  s.updChan c fun ch => { ch with pacer := f ch.pacer }

/-- An engine reset is in progress (R184). -/
def State.resetting (s : State) : Bool := s.orders.resetting.isSome

/-! ### The clock (R182) -/

/-- A clock value has been reached: the clock less the value, modulo 2^32, is below 2^31 (the test of R56). -/
def clockReached (now t : Clock) : Bool := decide ((now - t).toNat < 2147483648)

/-- A clock value `ms` milliseconds after another. -/
def clockAfter (t : Clock) (ms : Nat) : Clock := t + BitVec.ofNat 32 ms

/-- Once a hold has run out it stays run out until its unit leaves HELD (R56). -/
def DirEntry.latchHold (now : Clock) (e : DirEntry) : DirEntry :=
  if e.state = .held ∧ clockReached now e.holdUntil = true then { e with holdRunOut := true } else e

/-- The clock takes a value; holds that have run out by then are latched. -/
def State.setClock (t : Clock) (s : State) : State :=
  { s with clock := t, dir := vecMap (DirEntry.latchHold t) s.dir }

/-- Time passes until a timer's expiry, if it has not been reached (notes/assumptions/3.md). -/
def State.advanceTo (t : Clock) (s : State) : State := if clockReached s.clock t then s else s.setClock t

/-- One millisecond passes; the clock stands still during initialisation (R182, R183; notes/assumptions/4.md). -/
def State.tick (s : State) : State := if s.port.initialising then s else s.setClock (s.clock + 1)

/-! ### Attention (R180) -/

/-- Raising a bit that is already set leaves it set (R180). -/
def State.raiseAttn (b : AttnBit) (s : State) : State :=
  s.updPort fun p => { p with attention := p.attention ||| b.bit }

/-! ### Directory writes (R50) -/

/-- One write of a directory entry: its revision advances by 2; a write that changes no field is not made (R50). -/
def State.writeEntry (u : UnitId) (f : DirEntry → DirEntry) (s : State) : State :=
  let e := s.dir[u]
  let e' := f e
  if e' = e then s else { s with dir := s.dir.set u { e' with revision := e.revision + 2 } }

/-! ### The self history (R63 to R69) -/

/-- The odometer the host last wrote, clamped (R64, R178). -/
def State.odometer (s : State) : Triple :=
  let v : BitVec 32 := Memory.readWord s.mem (Config.odometerAt + 2) ++ Memory.readWord s.mem Config.odometerAt
  BitVec.ofNat 24 (min Config.odoMax v.toNat)

/-- The entry carries the identity. -/
def SelfEntry.hasIdent (code : SelfCode) (mode : Byte) (e : SelfEntry) : Bool := e.code == code && e.mode == mode

/-- A change of the history: generation up by 1, the view written once (R64, R66, R69). -/
def SelfHistory.changed (es : List SelfEntry) (h : SelfHistory) : SelfHistory :=
  { h with entries := es, generation := h.generation + 1, revision := h.revision + 2 }

/-- One occurrence of an identity already present (R64). -/
def SelfEntry.again (odo : Triple) (active : Bool) (e : SelfEntry) : SelfEntry :=
  { e with count := e.count + 1, lastOdo := odo, activeNow := e.activeNow || active }

/-- One logging request (R64); `active` is set for BUS_OFF alone. -/
def State.logSelf (code : SelfCode) (mode : Byte) (active : Bool) (s : State) : State :=
  if s.self.entries.any (SelfEntry.hasIdent code mode) then
    (s.updSelf (SelfHistory.changed
      (s.self.entries.map fun e => if e.hasIdent code mode then e.again s.odometer active else e))).raiseAttn .selfGrew
  else if s.self.entries.length < Config.selfDepth then
    (s.updSelf (SelfHistory.changed
      (s.self.entries ++ [{ code := code, mode := mode, count := 1, activeNow := active, firstOdo := s.odometer,
                            lastOdo := s.odometer }]))).raiseAttn .selfGrew
  else s

/-- Occurrences whose mode is a number. -/
def State.logSelfNat (code : SelfCode) (mode : Nat) (s : State) : State := s.logSelf code (BitVec.ofNat 8 mode) false

/-- The directory clears ACTIVE_NOW of a channel's BUS_OFF entry, if there is one that has it set (R66). -/
def State.clearBusOffActive (c : ChanId) (s : State) : State :=
  if s.self.entries.any fun e => e.hasIdent .busOff (BitVec.ofNat 8 c.val) && e.activeNow then
    s.updSelf (SelfHistory.changed
      (s.self.entries.map fun e =>
        if e.hasIdent .busOff (BitVec.ofNat 8 c.val) then { e with activeNow := false } else e))
  else s

/-- ERASE UNIT 0 on the self history: emptied, epoch and generation up by 1, the view written (R45, R68). -/
def State.eraseSelf (s : State) : State :=
  s.updSelf fun h =>
    { h with entries := [], generation := h.generation + 1, epoch := h.epoch + 1, revision := h.revision + 2 }

/-! ### Orders: taking and completion (R164, R166, R168) -/

/-- Writes a word of a slot. -/
def State.putSlot (n : SlotId) (off : Nat) (w : Word) (s : State) : State :=
  s.updMem fun m => Memory.writeWord m (slotAt n + off) w

/-- The slot's copy is set or cleared. -/
def State.setTaken (n : SlotId) (t : Option Taken) (s : State) : State :=
  s.updOrders fun o => { o with taken := o.taken.set n t }

/-- The slot is taken with the order as applied (R166). -/
def State.takeSlot (n : SlotId) (o : Order) (s : State) : State :=
  (s.putSlot n Config.slotStateOff Config.stTaken).setTaken n
    (some { order := o, edition := s.sweep.openEdition, sweepResult := none })

/-- What a completion reports: the code and four result words (R168). -/
structure OrderResult where
  code : Word
  w0 : Word := 0
  w1 : Word := 0
  w2 : Word := 0
  w3 : Word := 0
  deriving DecidableEq, Repr

/-- A completion writes code, words, edition, clock, then state, and raises ORDER_DONE (R168). -/
def State.completeSlot (n : SlotId) (final : Word) (r : OrderResult) (ed : Edition) (s : State) : State :=
  (((((((((((s.putSlot n Config.slotResultOff r.code).putSlot n Config.slotWordsOff r.w0).putSlot n
    (Config.slotWordsOff + 2) r.w1).putSlot n (Config.slotWordsOff + 4) r.w2).putSlot n
    (Config.slotWordsOff + 6) r.w3).putSlot n Config.slotEditionOff (ed.extractLsb' 0 16)).putSlot n
    (Config.slotEditionOff + 2) (ed.extractLsb' 16 16)).putSlot n Config.slotClockOff
    (s.clock.extractLsb' 0 16)).putSlot n (Config.slotClockOff + 2) (s.clock.extractLsb' 16 16)).putSlot n
    Config.slotStateOff final).setTaken n none).raiseAttn .orderDone

def State.doneSlot (n : SlotId) (r : OrderResult) (ed : Edition) (s : State) : State :=
  s.completeSlot n Config.stDone r ed

def State.refuseSlot (n : SlotId) (r : OrderRefusal) (word0 : Word) (ed : Edition) (s : State) : State :=
  s.completeSlot n Config.stRefused { code := r.code, w0 := word0 } ed

/-! ### Slot sets and waiting orders (R94, R97) -/

def slotBit (n : SlotId) : BitVec 16 := BitVec.ofNat 16 (2 ^ n.val)
def hasSlot (b : BitVec 16) (n : SlotId) : Bool := b.getLsbD n.val
def slotsOf (b : BitVec 16) : List SlotId := allSlots.filter (hasSlot b)
def slotSet (l : List SlotId) : BitVec 16 := l.foldl (fun b n => b ||| slotBit n) 0

/-- The context that serves a unit (R52). -/
def State.servedBy (s : State) (u : UnitId) : Option CtxId :=
  allCtxs.find? fun k => s.ctxs[k].state != .free && s.ctxs[k].target == u

/-- Slots attached to some context. -/
def State.attachedAll (s : State) : BitVec 16 := allCtxs.foldl (fun b k => b ||| s.ctxs[k].attached) 0

/-- The unit a READ UNIT or ERASE UNIT order names. -/
def Order.readsUnit (u : UnitId) : Order → Bool
  | .readUnit v => u == v
  | _ => false

def Order.erasesUnit (u : UnitId) : Order → Bool
  | .eraseUnit v => u == v
  | _ => false

def Order.delistsUnit (u : UnitId) : Order → Bool
  | .delistUnit v => u == v
  | _ => false

/-- TAKEN slots, attached to no context, whose order satisfies `p`, lowest first. -/
def State.waitingSlots (s : State) (p : Order → Bool) : List SlotId :=
  allSlots.filter fun n =>
    match s.orders.taken[n] with
    | some t => p t.order && !hasSlot s.attachedAll n
    | none => false

/-- READ UNIT orders waiting on a unit, those attached to its HELD request included (R56, R94). -/
def State.waitingReads (s : State) (u : UnitId) : List SlotId := s.waitingSlots (Order.readsUnit u)
def State.waitingErases (s : State) (u : UnitId) : List SlotId := s.waitingSlots (Order.erasesUnit u)
/-- READ UNIT and ERASE UNIT orders waiting on a unit. -/
def State.waitingOrders (s : State) (u : UnitId) : List SlotId :=
  s.waitingSlots fun o => o.readsUnit u || o.erasesUnit u

/-- READ UNIT's result words (R172). -/
def readWords (e : DirEntry) (code : Word) : OrderResult :=
  { code := code, w0 := BitVec.ofNat 16 e.liveCount, w1 := BitVec.ofNat 16 e.reportedTotal,
    w2 := BitVec.ofNat 16 e.restartCount, w3 := BitVec.ofNat 16 e.holdCount }

/-- ERASE UNIT's result words (R173). -/
def eraseWords (e : DirEntry) (code : Word) : OrderResult :=
  { code := code, w0 := e.generation, w1 := e.epoch.setWidth 16, w2 := BitVec.ofNat 16 e.holdCount }

/-- A READ UNIT or ERASE UNIT order completes DONE with the outcome (R113, R172, R173). -/
def State.completeUnitOrder (out : UnitOutcome) (n : SlotId) (s : State) : State :=
  match s.orders.taken[n] with
  | some t =>
    match t.order with
    | .readUnit u => s.doneSlot n (readWords s.dir[u] (BitVec.ofNat 16 out.code)) t.edition
    | .eraseUnit u => s.doneSlot n (eraseWords s.dir[u] (BitVec.ofNat 16 out.code)) t.edition
    | _ => s
  | none => s

/-- Every attached order completes, in ascending slot order (R113, R172). -/
def State.completeUnitOrders (out : UnitOutcome) (slots : List SlotId) (s : State) : State :=
  forEach slots (State.completeUnitOrder out) s

/-! ### Editions (R154, R156) -/

/-- The counter rises by 1 and saturates (R154). -/
def nextEdition (e : Edition) : Edition := if e = 0xFFFFFFFF then e else e + 1

/-- Opens an edition if none is open (R156). -/
def State.needEdition (s : State) : State :=
  if s.sweep.openEdition = 0 then
    s.updSweep fun w =>
      { w with counter := nextEdition w.counter, openEdition := nextEdition w.counter, openClock := s.clock }
  else s

/-! ### Pool requests (R10 to R12) -/

/-- The requests whose offer opens an edition when none is open (R12). -/
def PoolRequest.opensEdition : PoolRequest → Bool
  | .selfCommit _ => true
  | .eraseClear _ _ _ _ _ => true
  | .delistRetire _ _ => true
  | .commit _ _ _ _ _ _ => false
  | .release _ _ => false

/-- Every request but RELEASE belongs to an edition (R12). -/
def PoolRequest.ofEdition : PoolRequest → Bool
  | .release _ _ => false
  | .selfCommit _ => true
  | .eraseClear _ _ _ _ _ => true
  | .delistRetire _ _ => true
  | .commit _ _ _ _ _ _ => true

/-- Admission at the tail, or a waiting offer when the queue is full (R10, R11). -/
def Pool.admitOrHold (r : PoolRequest) (p : Pool) : Pool :=
  if p.queue.length < Config.poolQueueDepth then { p with queue := p.queue ++ [r] }
  else { p with waiting := p.waiting ++ [r] }

/-- An offer to the pool manager; one made after an engine reset was taken is discarded (R25). -/
def State.offer (r : PoolRequest) (s : State) : State :=
  if s.resetting then s
  else (if r.opensEdition then s.needEdition else s).updPool (Pool.admitOrHold r)

/-! ### Sweep outcomes (R148, R149) -/

/-- The mark and the tally of an outcome (R149). -/
def outcomeMark : UnitOutcome → SweepMark
  | .stopped => .skipped
  | .channelLost => .skipped
  | .none => .done
  | .readOk => .done
  | .readTruncated => .done
  | .absent => .done
  | .heldOut => .done
  | .unitFaulty => .done
  | .erased => .done
  | .faultySkipped => .done
  | .reset => .done

def Tallies.count (out : UnitOutcome) (t : Tallies) : Tallies :=
  match out with
  | .readOk => { t with readOk := t.readOk + 1 }
  | .readTruncated => { t with truncated := t.truncated + 1 }
  | .absent => { t with absent := t.absent + 1 }
  | .heldOut => { t with heldOut := t.heldOut + 1 }
  | .unitFaulty => { t with faulty := t.faulty + 1 }
  | .stopped => { t with stopped := t.stopped + 1 }
  | .channelLost => { t with channelLost := t.channelLost + 1 }
  | .none => t
  | .erased => t
  | .faultySkipped => t
  | .reset => t

/-- The sweep takes a unit's outcome if its mark is PENDING (R148, R149). -/
def State.sweepTake (u : UnitId) (out : UnitOutcome) (s : State) : State :=
  if s.dir[u].mark = .pending then
    (s.writeEntry u fun e => { e with mark := outcomeMark out }).updSweep fun w =>
      { w with tallies := w.tallies.count out }
  else s

/-- A PENDING mark turns SKIPPED without an outcome (R149). -/
def State.skipPending (u : UnitId) (s : State) : State :=
  if s.dir[u].mark = .pending then
    (s.writeEntry u fun e => { e with mark := .skipped }).updSweep fun w =>
      { w with tallies := { w.tallies with skipped := w.tallies.skipped + 1 } }
  else s

/-! ### A unit being delisted (R61) -/

/-- A unit being delisted that no context serves: a PENDING mark becomes SKIPPED, and the DELIST-RETIRE is offered for the
order that delists it (R61). -/
def State.offerDelist (u : UnitId) (s : State) : State :=
  if s.dir[u].state = .delisting then
    match s.waitingSlots (Order.delistsUnit u) with
    | n :: _ => (s.skipPending u).offer (.delistRetire u n)
    | [] => s.skipPending u
  else s

end Sys2Proof.Machine
end

