-- ==== Sys2Proof/Machine/Transmit.lean ====
section
/-! DEFINITION. Channels' own operations: the transmit queue (R122), error counters (R119), load monitor (R129, R130),
pacer arithmetic (R134 to R136, R140 to R143), response FIFO (R124) and the response to a mode change. -/

namespace Sys2Proof.Machine

/-! ### Transmit queue (R122) -/

/-- A frame joins the queue's tail, or waits outside when the queue holds 8. -/
def Channel.enqueue (e : TxEntry) (c : Channel) : Channel :=
  if c.txQueue.length < Config.txQueueDepth then { c with txQueue := c.txQueue ++ [e] }
  else { c with txOutside := c.txOutside ++ [e] }

/-- The earliest frame waiting outside is admitted at the tail when the queue has room. -/
def Channel.admitOutside (c : Channel) : Channel :=
  match c.txOutside with
  | [] => c
  | e :: rest =>
    if c.txQueue.length < Config.txQueueDepth then { c with txQueue := c.txQueue ++ [e], txOutside := rest } else c

/-- Whether the head of the queue is a frame of context `k` in transmission whose withdrawal has been asked. -/
def Channel.blocksCtx (k : Option CtxId) (c : Channel) : Bool :=
  match c.txQueue with
  | h :: _ => h.transmitting && h.withdrawn && h.ctx.isSome && h.ctx == k
  | [] => false

/-- A frame is offered to the queue; a context's frame waits for its withdrawn predecessor to leave (R122). -/
def Channel.offerFrame (e : TxEntry) (c : Channel) : Channel :=
  if c.blocksCtx e.ctx then { c with txDeferred := c.txDeferred ++ [e] } else c.enqueue e

/-- The head leaves the queue: a frame waiting outside is admitted, then the frames deferred behind the head are offered. -/
def Channel.headLeaves (c : Channel) : Channel :=
  match c.txQueue with
  | [] => c
  | _ :: rest =>
    let c1 := ({ c with txQueue := rest, txDeferred := [] }).admitOutside
    forEach c.txDeferred Channel.enqueue c1

/-- The frame a context waits to have sent. -/
def TxEntry.waitsFor (k : CtxId) (e : TxEntry) : Bool := e.live && e.ctx == some k

/-- A context's unsent frame is withdrawn (R122): in transmission it only loses its sender and its retry. -/
def Channel.withdraw (k : CtxId) (c : Channel) : Channel :=
  match c.txQueue with
  | [] =>
    { c with txOutside := c.txOutside.filter fun e => !e.waitsFor k,
             txDeferred := c.txDeferred.filter fun e => !e.waitsFor k }
  | h :: rest =>
    if h.waitsFor k && h.transmitting then { c with txQueue := { h with live := false, withdrawn := true } :: rest }
    else if c.txQueue.any (TxEntry.waitsFor k) then
      ({ c with txQueue := c.txQueue.filter fun e => !e.waitsFor k }).admitOutside
    else
      { c with txOutside := c.txOutside.filter fun e => !e.waitsFor k,
               txDeferred := c.txDeferred.filter fun e => !e.waitsFor k }

def TxEntry.orphan (k : CtxId) (e : TxEntry) : TxEntry := if e.ctx == some k then { e with live := false } else e

/-- The context of a waiting frame has ended: a STOP of its stays and is sent in its turn (R90, R122). -/
def Channel.orphan (k : CtxId) (c : Channel) : Channel :=
  { c with txQueue := c.txQueue.map (TxEntry.orphan k), txOutside := c.txOutside.map (TxEntry.orphan k),
           txDeferred := c.txDeferred.map (TxEntry.orphan k) }

/-- The queue and the FIFO are emptied without tallies (R118, R120, R128). -/
def Channel.flush (c : Channel) : Channel := { c with txQueue := [], txOutside := [], txDeferred := [], fifo := [] }

/-- Some WAKE still waits unsent (R127). -/
def Channel.wakeWaits (c : Channel) : Bool :=
  (c.txQueue ++ c.txOutside ++ c.txDeferred).any fun e => e.kind == .wakeFrame

/-! ### Error counters (R119) -/

/-- The comparison made after every change that is not a bus-off. -/
def Channel.compareErrors (c : Channel) : Channel :=
  match c.state with
  | .active => if 128 ≤ c.txErrors ∨ 128 ≤ c.rxErrors then { c with state := .passive } else c
  | .passive => if c.txErrors < 128 ∧ c.rxErrors < 128 then { c with state := .active } else c
  | .off => c
  | .busOff => c
  | .recovering => c

/-- A frame sent without error. -/
def Channel.sentOk (c : Channel) : Channel := ({ c with txErrors := c.txErrors - 1 }).compareErrors
/-- A frame received without error. -/
def Channel.receivedOk (c : Channel) : Channel := ({ c with rxErrors := c.rxErrors - 1 }).compareErrors
/-- An error while receiving. -/
def Channel.receiveError (c : Channel) : Channel := ({ c with rxErrors := satSucc 255 c.rxErrors }).compareErrors
/-- An error while sending that does not drive the controller off its bus. -/
def Channel.sendError (c : Channel) : Channel := ({ c with txErrors := c.txErrors + 8 }).compareErrors

/-! ### Load monitor (R129, R130) -/

/-- A frame completed without error is counted. -/
def Channel.countFrame (f : Frame) (c : Channel) : Channel :=
  { c with accumulator := c.accumulator + f.cost, windowFrames := satSucc 65535 c.windowFrames }

/-- The load of a window in per mille (R130). -/
def loadOf (bits rate ms : Nat) : Nat := min 1000 (bits * 1000000 / (rate * ms))

/-- A new window begins at a clock value with the length set by SET PACING (R129). -/
def Channel.startWindow (at_ : Clock) (c : Channel) : Channel :=
  { c with accumulator := 0, windowFrames := 0, windowLength := c.pacer.settings.loadWindow,
           loadTimer := some (clockAfter at_ c.pacer.settings.loadWindow) }

/-! ### Pacer arithmetic -/

/-- The target pace for a load (R134). -/
def targetPace (p : PacingSettings) (load : Nat) : Nat :=
  if load ≤ p.lowMark then p.ceiling
  else if p.highMark ≤ load then p.floor
  else p.floor + (p.ceiling - p.floor) * (p.highMark - load) / (p.highMark - p.lowMark)

/-- The step of the ramp over a time (R135). -/
def rampStep (ceiling time : Nat) : Nat := max 1 (ceiling * 100 / time)

/-- One step of the current pace toward the target (R135). -/
def Pacer.ramp (p : Pacer) : Pacer :=
  { p with
    current :=
      if p.current < p.target then min p.target (p.current + rampStep p.settings.ceiling p.settings.upTime)
      else if p.target < p.current then max p.target (p.current - rampStep p.settings.ceiling p.settings.downTime)
      else p.current }

/-- The credits of one tick (R136). -/
def Pacer.issue (p : Pacer) : Pacer :=
  { p with credits := min Config.creditCap (p.credits + (p.remainder + p.current) / 10),
           remainder := (p.remainder + p.current) % 10 }

/-- The pacer starts afresh at a bit rate (R142); the waiting line is empty then. -/
def Pacer.startRate (now : Clock) (lastLoad : Nat) (p : Pacer) : Pacer :=
  { p with target := targetPace p.settings lastLoad, current := p.settings.floor, credits := 0, remainder := 0,
           line := [], timer := some (clockAfter now Config.pacingPeriod) }

/-- The pacer of a channel set OFF (R142). -/
def Pacer.stopRate (p : Pacer) : Pacer :=
  { p with target := 0, current := 0, credits := 0, remainder := 0, line := [], timer := none }

/-- The pacer at bus-off entry (R143). -/
def Pacer.busOff (p : Pacer) : Pacer :=
  { p with current := p.settings.floor, credits := 0, remainder := 0, line := [] }

/-- An applied SET PACING (R141). -/
def Channel.applyPacing (v : PacingSettings) (c : Channel) : Channel :=
  let p := { c.pacer with settings := v }
  { c with
    pacer :=
      match c.state with
      | .off => { p with target := 0, current := 0 }
      | .active => { p with target := targetPace v c.lastLoad, current := clampNat v.floor v.ceiling p.current }
      | .passive => { p with target := targetPace v c.lastLoad, current := clampNat v.floor v.ceiling p.current }
      | .busOff => { p with target := targetPace v c.lastLoad, current := v.floor }
      | .recovering => { p with target := targetPace v c.lastLoad, current := v.floor } }

/-! ### Response FIFO (R124, R126) -/

/-- A passed frame meets a FIFO with room, or the overflow policy, which loses exactly one frame. -/
def Channel.pushFifo (f : Frame) (c : Channel) : Channel :=
  if c.fifo.length < Config.fifoDepth then { c with fifo := c.fifo ++ [f] }
  else
    let c := { c with overflowTally := satSucc 65535 c.overflowTally }
    match c.settings.policy with
    | .keepOldest => c
    | .keepNewest => { c with fifo := c.fifo.tail ++ [f] }

/-- The filter (R123): a read-out frame of a unit-to-part kind for the part's address. -/
def Channel.passes (f : Frame) (c : Channel) : Bool := f.rxKind.isSome && f.destination == c.settings.address

/-- A frame routed to no context is counted (R126). -/
def Channel.countStray (c : Channel) : Channel := { c with strayTally := satSucc 65535 c.strayTally }

/-! ### WAKE and settling (R84, R127) -/

/-- The WAKE of a channel. -/
def Channel.wakeEntry (c : Channel) : TxEntry :=
  { frame := txFrame .wakeFrame 0 Config.broadcast c.settings.address [], kind := .wakeFrame, ctx := none, live := false,
    transmitting := false, withdrawn := false }

/-- A channel asked to wake its segment queues one WAKE and settles. -/
def Channel.wake (c : Channel) : Channel := { c.enqueue c.wakeEntry with settling := true, settleTimer := none }

/-- A WAKE has been sent: the settle timer starts unless a later WAKE still waits; a settle time of 0 ends settling. -/
def Channel.wakeSent (now : Clock) (settle : Nat) (c : Channel) : Channel :=
  if c.wakeWaits then c
  else if settle = 0 then { c with settling := false, settleTimer := none }
  else { c with settleTimer := some (clockAfter now settle) }

/-! ### Mode changes -/

/-- The controller started afresh at a rate (R118, R142). -/
def Channel.startRate (now : Clock) (v : ChanSettings) (c : Channel) : Channel :=
  ({ c.flush with settings := v, state := .active, txErrors := 0, rxErrors := 0, settling := false, settleTimer := none,
                  recoveryTimer := none, pacer := c.pacer.startRate now c.lastLoad }).startWindow now

/-- The channel taken off its segment (R128, R142). -/
def Channel.stopRate (v : ChanSettings) (c : Channel) : Channel :=
  { c.flush with settings := v, state := .off, txErrors := 0, rxErrors := 0, settling := false, settleTimer := none,
                 recoveryTimer := none, accumulator := 0, windowFrames := 0, windowLength := 0, loadTimer := none,
                 lastLoad := 0, lastFrames := 0, pacer := c.pacer.stopRate }

/-- Bus-off entry at the controller (R120, R143): the load window keeps running. -/
def Channel.enterBusOff (now : Clock) (c : Channel) : Channel :=
  { c.flush with state := .busOff, txErrors := 255, settling := false, settleTimer := none,
                 recoveryTimer := some (clockAfter now c.settings.recoveryHold), pacer := c.pacer.busOff }

end Sys2Proof.Machine
end

