-- ==== Sys2Proof/Machine/Contexts.lean ====
section
/-! DEFINITION. Transaction contexts: their views, frames and windows, the waiting line, openings, mending, restarts, stops
and endings (R91 to R113, R137 to R139). -/

namespace Sys2Proof.Machine

/-! ### Staging (R77, R102) -/

def Place.complete (p : Place) : Bool := p.halfA.isSome && p.halfB.isSome

/-- Both marks of the place are set; no place stands above index 63. -/
def Context.placeComplete (c : Context) (i : Nat) : Bool :=
  match c.staging.toList[i]? with
  | some p => p.complete
  | none => false

/-- Missing places of the current segment's granted range, ascending (R79). -/
def Context.missing (c : Context) : List Nat :=
  ((List.range c.granted).map (· + c.segFirst)).filter fun i => !c.placeComplete i

/-- Complete places of the staging area (R92). -/
def Context.completeCount (c : Context) : Nat := c.staging.toList.countP Place.complete

/-- The PICK list formed afresh: at most the 7 lowest missing places (R79, R102, R103). -/
def Context.formPick (c : Context) : List Nat := c.missing.take Config.pickMax

def Context.setPlace (i : Nat) (f : Place → Place) (c : Context) : Context :=
  if h : i < 64 then { c with staging := c.staging.set i (f c.staging[i]) } else c

/-! ### Windows (R88) -/

def Context.startTimer (now : Clock) (k : WindowKind) (ms : Nat) (c : Context) : Context :=
  { c with window := some (k, clockAfter now ms) }

def Context.stopTimer (c : Context) : Context := { c with window := none }

/-! ### Views (R92) -/

/-- What a context view shows beside its revision (12.8). -/
structure CtxView where
  state : CtxState
  target : Nat
  channel : Nat
  purpose : Purpose
  parity : Bool
  firstOpening : Bool
  truncMark : Bool
  tag : BitVec 4
  origin : Nat
  attached : BitVec 16
  generation : Word
  epoch : Byte
  total : Nat
  segFirst : Nat
  countAsked : Nat
  granted : Nat
  mendRound : Nat
  attempt : Nat
  restartCount : Nat
  holdCount : Nat
  creditNeed : Nat
  frameQueued : Option TxKind
  window : Option (WindowKind × Clock)
  complete : Nat
  missing : Nat
  pickList : List Nat
  useAnswer : Nat
  useGap : Nat
  useStop : Nat
  useLimit : Nat
  deriving DecidableEq, Repr

/-- The origin field: the lowest attached slot, or SWEEP as 16 (R91, 12.8). -/
def originCode (attached : BitVec 16) : Nat :=
  match slotsOf attached with
  | n :: _ => n.val
  | [] => 16

/-- The view of a context; a FREE context shows 0 but for its parity (R92). Restart and hold counts mirror the directory (R91). -/
def State.ctxView (s : State) (k : CtxId) : CtxView :=
  let c := s.ctxs[k]
  let busy := c.state != .free
  { state := c.state, target := c.target.val, channel := c.channel.val, purpose := c.purpose, parity := c.parity,
    firstOpening := c.firstOpening, truncMark := c.truncMark, tag := if busy then tagOf k c.parity else 0,
    origin := if busy then originCode c.attached else 0, attached := c.attached, generation := c.generation,
    epoch := c.epoch, total := c.total, segFirst := c.segFirst, countAsked := c.countAsked, granted := c.granted,
    mendRound := c.mendRound, attempt := c.attempt,
    restartCount := if busy then s.dir[c.target].restartCount else 0,
    holdCount := if busy then s.dir[c.target].holdCount else 0, creditNeed := c.creditNeed,
    frameQueued := c.frameQueued, window := c.window, complete := c.completeCount, missing := c.missing.length,
    pickList := c.pickList, useAnswer := c.useAnswer, useGap := c.useGap, useStop := c.useStop, useLimit := c.useLimit }

/-- What a channel status block shows beside its revision (R131). -/
structure ChanView where
  state : ChanState
  txErrors : Nat
  rxErrors : Nat
  settings : ChanSettings
  settling : Bool
  lastLoad : Nat
  lastFrames : Nat
  target : Nat
  current : Nat
  credits : Nat
  strayTally : Nat
  overflowTally : Nat
  deriving DecidableEq, Repr

def Channel.view (c : Channel) : ChanView :=
  { state := c.state, txErrors := c.txErrors, rxErrors := c.rxErrors, settings := c.settings, settling := c.settling,
    lastLoad := c.lastLoad, lastFrames := c.lastFrames, target := c.pacer.target, current := c.pacer.current,
    credits := c.pacer.credits, strayTally := c.strayTally, overflowTally := c.overflowTally }

/-- What the control block shows under the sweep revision (R145): all but the revision and the timers. -/
def SweepCtl.view (w : SweepCtl) : SweepCtl := { w with revision := 0, budgetTimer := none, scheduleTimer := none }

/-! ### Events: one write of each block changed, and ATTN_N follows (R92, R131, R145, R181) -/

def State.stampCtx (s0 s1 : State) (k : CtxId) : Context :=
  if s1.ctxView k = s0.ctxView k then s1.ctxs[k] else { s1.ctxs[k] with revision := s1.ctxs[k].revision + 2 }

def stampChan (c0 c1 : Channel) : Channel := if c1.view = c0.view then c1 else { c1 with revision := c1.revision + 2 }

def stampSweep (w0 w1 : SweepCtl) : SweepCtl := if w1.view = w0.view then w1 else { w1 with revision := w1.revision + 2 }

/-- The revisions one event steps: by 2 for each context view, channel status block and sweep record whose shown fields it
changed; ATTN_N takes the level the two registers give. -/
def State.stamp (s0 s1 : State) : State :=
  { s1 with
    ctxs := Vector.ofFn fun k => State.stampCtx s0 s1 k
    chans := Vector.ofFn fun c => stampChan s0.chans[c] s1.chans[c]
    sweep := stampSweep s0.sweep s1.sweep
    port := { s1.port with attnLow := attnDriven s1.port } }

/-- One event of the part. -/
def event (f : State → State) (s : State) : State := State.stamp s (f s)

/-- An event that takes place only while the part runs; during initialisation nothing does (R183). -/
def partEvent (f : State → State) (s : State) : State := if s.port.initialising then s else event f s

/-! ### Sending frames (R72, R99) -/

/-- The data of a context's frame (R72). -/
def Context.frameData (kind : TxKind) (c : Context) : List Byte :=
  match kind with
  | .openFrame => [BitVec.ofNat 8 c.segFirst, BitVec.ofNat 8 c.countAsked]
  | .pickFrame => BitVec.ofNat 8 c.pickList.length :: c.pickList.map (BitVec.ofNat 8)
  | .stopFrame => []
  | .eraseFrame => []
  | .wakeFrame => []

/-- The frame of a context: its tag, its unit's address, the part's address on the channel (R72, R73). -/
def State.ctxEntry (k : CtxId) (kind : TxKind) (s : State) : TxEntry :=
  let c := s.ctxs[k]
  { frame := txFrame kind (tagOf k c.parity) s.dir[c.target].address s.chans[c.channel].settings.address
      (c.frameData kind),
    kind := kind, ctx := some k, live := true, transmitting := false, withdrawn := false }

/-- A context places a frame in its channel's transmit queue; the view shows it at once, also while it waits behind the
context's withdrawn frame (notes/assumptions/29.md). -/
def State.sendFrame (k : CtxId) (kind : TxKind) (s : State) : State :=
  (s.updChan s.ctxs[k].channel (Channel.offerFrame (s.ctxEntry k kind))).updCtx k fun c =>
    { c with frameQueued := some kind }

/-- The kind a context sends when it is granted credits (R99). -/
def Context.grantedKind (c : Context) : TxKind :=
  match c.state, c.purpose with
  | .mending, _ => .pickFrame
  | _, .erase => .eraseFrame
  | _, .read => .openFrame

/-- A granted context leaves PACED for OPENING, or stays, and places its frame (R99). -/
def State.placeGranted (k : CtxId) (s : State) : State :=
  let kind := s.ctxs[k].grantedKind
  (s.updCtx k fun c => { c with creditNeed := 0, state := if c.state = .paced then .opening else c.state }).sendFrame k
    kind

/-! ### The waiting line (R138, R139) -/

/-- Grants from the head while its need can be met; nothing while contexts are frozen (R138, R143). -/
def State.serveLine (ch : ChanId) : Nat → State → State
  | 0, s => s
  | fuel + 1, s =>
    if s.resetting then s
    else
      match s.chans[ch].pacer.line with
      | [] => s
      | k :: rest =>
        if s.ctxs[k].creditNeed ≤ s.chans[ch].pacer.credits then
          State.serveLine ch fuel
            ((s.updPacer ch fun p => { p with credits := p.credits - s.ctxs[k].creditNeed, line := rest }).placeGranted k)
        else s

/-- Service of a channel's whole line. -/
def State.serve (ch : ChanId) (s : State) : State := s.serveLine ch s.chans[ch].pacer.line.length

/-- A context joins its channel's line at the tail; an empty line is served at once (R138). -/
def State.joinLine (k : CtxId) (need : Nat) (s : State) : State :=
  let ch := s.ctxs[k].channel
  let wasEmpty := s.chans[ch].pacer.line.isEmpty
  let s := (s.updCtx k fun c => { c with creditNeed := need }).updPacer ch fun p => { p with line := p.line ++ [k] }
  if wasEmpty then s.serve ch else s

/-- A context's place in its channel's line is given up without a grant; the line is not served (R139). -/
def State.quitLine (k : CtxId) (s : State) : State :=
  let ch := s.ctxs[k].channel
  if s.chans[ch].pacer.line.contains k then
    (s.updCtx k fun c => { c with creditNeed := 0 }).updPacer ch fun p => { p with line := p.line.erase k }
  else s

/-- A context leaves the line without a grant; a new head is served in the same event (R139). -/
def State.leaveLine (k : CtxId) (s : State) : State :=
  let ch := s.ctxs[k].channel
  if s.chans[ch].pacer.line.head? = some k then (s.quitLine k).serve ch else s.quitLine k

/-- The context's unsent frame, if any, is withdrawn (R99, R122). -/
def State.withdrawFrame (k : CtxId) (s : State) : State :=
  (s.updChan s.ctxs[k].channel (Channel.withdraw k)).updCtx k fun c => { c with frameQueued := none }

/-- Leaves the line or withdraws the unsent frame, and stops the window. -/
def State.detach (k : CtxId) (s : State) : State :=
  ((s.withdrawFrame k).leaveLine k).updCtx k Context.stopTimer

/-! ### Openings (R98) -/

/-- What a context takes at the beginning of an opening (R98); an erase's opening concerns no segment. -/
def Context.beginOpening (t : Timing) (first : Bool) (c : Context) : Context :=
  { c with
    state := .paced, parity := !c.parity, firstOpening := first, generation := 0, epoch := 0, total := 0,
    truncMark := false, staging := emptyStaging, segFirst := 0, countAsked := if c.purpose = .read then 16 else 0,
    granted := 0, mendRound := 0, pickList := [], attempt := 1, window := none, useAnswer := t.answer, useGap := t.gap,
    useStop := t.stop, useLimit := t.limit }

/-- The credit need of an opening's first frame (R96, R137). -/
def openingNeed (p : Purpose) : Nat :=
  match p with
  | .read => 16
  | .erase => 1

/-! ### Endings (R55 to R58, R113) -/

/-- The context becomes FREE, keeping its parity; a STOP of its still unsent goes out in its turn (R90, R92). -/
def State.freeContext (k : CtxId) (s : State) : State :=
  (s.updChan s.ctxs[k].channel (Channel.orphan k)).updCtx k fun c => Context.freed c.revision c.parity

/-- The directory state an ending writes; a unit being delisted stays DELISTING (R57, R58, R61). -/
def endState (next : UnitState) (e : DirEntry) : UnitState := if e.state = .delisting then .delisting else next

/-- The directory write of a read request ending without a commit (R55, R56, R57). -/
def DirEntry.endRead (out : UnitOutcome) (ed : Edition) (e : DirEntry) : DirEntry :=
  let next : UnitState := match out with
    | .absent => .absent
    | .unitFaulty => .faulty
    | _ => .idle
  { e with state := endState next e, lastOutcome := out, lastRead := ed, holdRunOut := false,
           absentStreak := if out = .absent then satSucc 255 e.absentStreak else e.absentStreak }

/-- The directory's part of a read request ending without a commit: one write, with what else it changes (`g`), then
UNIT_FAULTY, then PROTOCOL_ERROR (R56, R57). -/
def State.endRequestWith (g : DirEntry → DirEntry) (u : UnitId) (out : UnitOutcome) (s : State) : State :=
  let s := s.writeEntry u fun e => DirEntry.endRead out s.sweep.openEdition (g e)
  let s := if out = .unitFaulty then s.logSelfNat .unitFaulty u.val else s
  if s.dir[u].malformed then s.logSelfNat .protocolError u.val else s

def State.endRequest (u : UnitId) (out : UnitOutcome) (s : State) : State := s.endRequestWith id u out

/-- A read with a context ends without a commit: directory, sweep, orders (R113), then a pending delisting (R61). `told` is the
outcome the sweep receives. -/
def State.endReadAs (g : DirEntry → DirEntry) (k : CtxId) (out told : UnitOutcome) (s : State) : State :=
  let c := s.ctxs[k]
  ((((s.endRequestWith g c.target out).freeContext k).sweepTake c.target told).completeUnitOrders out
    (slotsOf c.attached)).offerDelist c.target

/-- A read ends with one outcome for the directory, the sweep and its orders (R113). -/
def State.endReadWith (g : DirEntry → DirEntry) (k : CtxId) (out : UnitOutcome) (s : State) : State := s.endReadAs g k out out

def State.endRead (k : CtxId) (out : UnitOutcome) (s : State) : State := s.endReadWith id k out

/-- The directory write of an erase request ending other than with ERASED (R58). -/
def DirEntry.endErase (out : UnitOutcome) (e : DirEntry) : DirEntry :=
  { e with state := endState .idle e, lastOutcome := out,
           absentStreak := if out = .absent then satSucc 255 e.absentStreak else e.absentStreak }

def State.endErase (k : CtxId) (out : UnitOutcome) (s : State) : State :=
  let c := s.ctxs[k]
  (((s.writeEntry c.target (DirEntry.endErase out)).freeContext k).completeUnitOrders out
    (slotsOf c.attached)).offerDelist c.target

/-- A context ends with an outcome other than a commit's or an erase-clear's. -/
def State.endContext (k : CtxId) (out : UnitOutcome) (s : State) : State :=
  match s.ctxs[k].purpose with
  | .read => s.endRead k out
  | .erase => s.endErase k out

/-- A context whose COMMIT or ERASE-CLEAR has ended: FREE, sweep (reads only), orders, a pending delisting (R41, R44, R113). -/
def State.endCommitting (k : CtxId) (out : UnitOutcome) (s : State) : State :=
  let c := s.ctxs[k]
  let s := s.freeContext k
  let s := match c.purpose with
    | .read => s.sweepTake c.target out
    | .erase => s
  (s.completeUnitOrders out (slotsOf c.attached)).offerDelist c.target

/-! ### Stops (R108, R109) -/

/-- A cause stops a context, according to its state (R109); where it leaves the head of its line, the new head's frame is queued
before the STOP (notes/assumptions/10.md). -/
def State.stopContext (k : CtxId) (s : State) : State :=
  match s.ctxs[k].state with
  | .paced => (s.detach k).endContext k .stopped
  | .opening => ((s.detach k).updCtx k fun c => { c with state := .stopping }).sendFrame k .stopFrame
  | .receiving => ((s.detach k).updCtx k fun c => { c with state := .stopping }).sendFrame k .stopFrame
  | .mending => ((s.detach k).updCtx k fun c => { c with state := .stopping }).sendFrame k .stopFrame
  | .stopping => s
  | .committing => s
  | .free => s

/-- The channel of a context in STOPPING is lost: it ends STOPPED (R112, R120); the sweep that drains receives CHANNEL_LOST for
its own read (R152; notes/assumptions/27.md). -/
def State.loseStopped (k : CtxId) (s : State) : State :=
  match s.ctxs[k].purpose with
  | .read =>
    s.endReadAs id k .stopped (if s.sweep.state = .draining ∧ s.ctxs[k].attached = 0 then .channelLost else .stopped)
  | .erase => s.endErase k .stopped

/-- Every context of a lost channel ends, lowest number first (R112). -/
def State.loseContext (ch : ChanId) (k : CtxId) (s : State) : State :=
  if s.ctxs[k].channel = ch then
    match s.ctxs[k].state with
    | .paced => s.endContext k .channelLost
    | .opening => s.endContext k .channelLost
    | .receiving => s.endContext k .channelLost
    | .mending => s.endContext k .channelLost
    | .stopping => s.loseStopped k
    | .committing => s
    | .free => s
  else s

/-- The contexts of a channel whose line and queue have been emptied wait for no credit and no sending. -/
def State.clearWaits (ch : ChanId) (s : State) : State :=
  forEach allCtxs
    (fun k s =>
      if s.ctxs[k].channel = ch ∧ s.ctxs[k].state ≠ .free then
        s.updCtx k fun c => { c with creditNeed := 0, frameQueued := none }
      else s) s

def State.loseContexts (ch : ChanId) (s : State) : State := forEach allCtxs (State.loseContext ch) s

/-! ### Restarts and mending (R102 to R105) -/

/-- A read restarts, or ends UNIT_FAULTY at the limit of the opening abandoned (R105, R55, R114). -/
def State.restart (k : CtxId) (s : State) : State :=
  let u := s.ctxs[k].target
  let limit := s.ctxs[k].useLimit
  let s := (s.detach k).writeEntry u fun e => { e with restartCount := satSucc 7 e.restartCount }
  if s.dir[u].restartCount < limit then
    (s.updCtx k (Context.beginOpening s.timing false)).joinLine k (openingNeed .read)
  else s.endRead k .unitFaulty

/-- A mending round begins with a list formed afresh; an empty PICK is placed at once (R79, R102, R103, R104). -/
def State.startMending (k : CtxId) (round : Nat) (s : State) : State :=
  let list := s.ctxs[k].formPick
  let s := s.updCtx k fun c => { c with state := .mending, mendRound := round, pickList := list, window := none }
  if list.isEmpty then s.sendFrame k .pickFrame else s.joinLine k list.length

/-- The context enters COMMITTING and offers its COMMIT (R106). -/
def State.offerCommit (k : CtxId) (s : State) : State :=
  let s := s.updCtx k fun c => { c with state := .committing, window := none }
  let c := s.ctxs[k]
  s.offer (.commit k c.target c.generation c.epoch c.total c.truncMark)

/-- The completion test at an accepted CLOSE (R102). -/
def State.completionTest (k : CtxId) (s : State) : State :=
  let s := s.updCtx k Context.stopTimer
  let c := s.ctxs[k]
  if c.missing.isEmpty then
    let next := c.segFirst + c.granted
    if next < c.total then
      (s.updCtx k fun c =>
        { c with state := .paced, segFirst := next, countAsked := min 16 (c.total - next), granted := 0, mendRound := 0,
                 pickList := [], attempt := 1 }).joinLine k (min 16 (c.total - next))
    else s.offerCommit k
  else if c.mendRound < Config.maxMendRounds then s.startMending k (c.mendRound + 1)
  else s.restart k

/-- A matching frame that cannot be used marks its unit MALFORMED (R86). -/
def State.markMalformed (k : CtxId) (s : State) : State :=
  s.writeEntry s.ctxs[k].target fun e => { e with malformed := true }

end Sys2Proof.Machine
end

