-- ==== Sys2Proof/Machine/Sweeps.lean ====
section
/-! DEFINITION. Sweeps, editions and the allocator: starts, marking, draining, completion, the edition's close, assignment, and
the settling of an event (R94 to R97, R144 to R160). -/

namespace Sys2Proof.Machine

/-! ### Starting a sweep (R146, R147) -/

/-- Whether a class is in a mask (R145). -/
def inMask (mask : BitVec 4) (cls : Fin 4) : Bool := mask.getLsbD cls.val

/-- The tally a start mark raises (R147). -/
inductive MarkTally where
  | nothing | faulty | skipped
  deriving DecidableEq, Repr

/-- The mark a directory entry takes at sweep start, and the tally it raises; rows from the top (R147). -/
def State.startMark (s : State) (mask : BitVec 4) (u : UnitId) : SweepMark × MarkTally :=
  let e := s.dir[u]
  if u = 0 then (if inMask mask 0 then (.pending, .nothing) else (.none, .nothing))
  else if e.state = .vacant then (.none, .nothing)
  else if !inMask mask e.cls then (.none, .nothing)
  else if e.state = .faulty then (.skipped, .faulty)
  else if s.chans[e.channel].state = .off then (.skipped, .skipped)
  else if e.state = .delisting ∧ s.servedBy u = none then (.skipped, .skipped)
  else (.pending, .nothing)

/-- Marks one entry in one write; FAULTY_SKIPPED is written with it (R60, R147). -/
def State.markUnit (mask : BitVec 4) (u : UnitId) (s : State) : State :=
  let m := s.startMark mask u
  let s1 := s.writeEntry u fun e =>
    { e with mark := m.1, lastOutcome := if m.2 = .faulty then .faultySkipped else e.lastOutcome }
  match m.2 with
  | .nothing => s1
  | .faulty => s1.updSweep fun w => { w with tallies := { w.tallies with faulty := w.tallies.faulty + 1 } }
  | .skipped => s1.updSweep fun w => { w with tallies := { w.tallies with skipped := w.tallies.skipped + 1 } }

/-- Some unit on the channel is PENDING (R127). -/
def State.pendingOn (s : State) (ch : ChanId) : Bool :=
  allUnits.any fun u => u != 0 && s.dir[u].mark == .pending && s.dir[u].channel == ch

/-- A channel asked to wake its segment at a sweep start (R127). -/
def State.wakeChannel (ch : ChanId) (s : State) : State :=
  if s.chans[ch].settings.wake && s.chans[ch].state.joined && s.pendingOn ch then s.updChan ch Channel.wake else s

/-- A sweep starts, in the order of R146. -/
def State.startSweep (origin : SweepOrigin) (mask : BitVec 4) (budget : Nat) (s : State) : State :=
  let s := s.needEdition
  let s := s.updSweep fun w =>
    { w with state := .running, origin := origin, outcome := .none, mask := mask, budget := budget,
             edition := w.openEdition, startClock := s.clock, endClock := 0, tallies := Tallies.zero,
             budgetTimer := if budget = 0 then none else some (clockAfter s.clock (budget * 1000)) }
  let s := forEach allUnits (State.markUnit mask) s
  let s := forEach allChans State.wakeChannel s
  if inMask mask 0 then s.offer (.selfCommit .sweep) else s

/-! ### Draining (R152) -/

/-- A held request with no READ UNIT order attached is withdrawn with outcome STOPPED (R56). -/
def State.withdrawHeld (u : UnitId) (s : State) : State :=
  if s.dir[u].state = .held ∧ s.waitingReads u = [] then s.endRequest u .stopped else s

/-- The unit is served by a context whose origin is SWEEP (R152). -/
def State.sweepServes (s : State) (u : UnitId) : Bool :=
  match s.servedBy u with
  | some k => s.ctxs[k].attached == 0
  | none => false

/-- At a drain a PENDING unit no sweep context serves is skipped (R152 step 2). -/
def State.drainUnit (u : UnitId) (s : State) : State :=
  if u ≠ 0 ∧ s.dir[u].mark = .pending ∧ s.sweepServes u = false then (s.skipPending u).withdrawHeld u else s

/-- A drain stops the context: its origin is SWEEP (R108, R152 step 3). -/
def State.sweepContext (s : State) (k : CtxId) : Bool := s.ctxs[k].state != .free && s.ctxs[k].attached == 0

/-- The head of the channel's line is a context the drain stops (R139). -/
def State.headStops (s : State) (ch : ChanId) : Bool := s.chans[ch].pacer.line.head?.any s.sweepContext

/-- Every context whose origin is SWEEP is stopped in one event (R109, R152 step 3): all of them leave their lines before a
line that has lost its head is served, so that none is granted credits in the drain that stops it
(notes/assumptions/10.md). -/
def State.stopSweep (s : State) : State :=
  let stopped := allCtxs.filter s.sweepContext
  let lines := allChans.filter s.headStops
  forEach lines State.serve (forEach stopped State.stopContext (forEach stopped State.quitLine s))

/-- Entry to DRAINING (R152). -/
def State.enterDraining (out : SweepOutcome) (s : State) : State :=
  let s := s.updSweep fun w => { w with state := .draining, outcome := out, budgetTimer := none }
  let s := (forEach allUnits State.drainUnit s).stopSweep
  if out = .budget then s.logSelf .budgetExpired 0 false else s

/-! ### Completion and drain end (R150, R153, R158) -/

def State.anyPending (s : State) : Bool := allUnits.any fun u => s.dir[u].mark == .pending

/-- The outcome and tallies a finished sweep leaves (R158). -/
def SweepCtl.result (w : SweepCtl) : SweepResult :=
  { outcome := w.outcome, readOk := w.tallies.readOk, truncated := w.tallies.truncated }

def Taken.withResult (r : SweepResult) (t : Taken) : Taken := { t with sweepResult := some r }

/-- The finished sweep's outcome and tallies are handed to its SWEEP order (R150, R153, R174). -/
def State.handToOrder (s : State) : State :=
  match s.sweep.origin with
  | .schedule => s
  | .slot n =>
    match s.orders.taken[n] with
    | none => s
    | some t =>
      match t.order, t.sweepResult with
      | .sweep _ _, none =>
        s.setTaken n (some (t.withResult s.sweep.result))
      | _, _ => s

/-- The return to IDLE, and the start that auto-due asks for (R150, R153, R160). -/
def State.finishSweep (s : State) : State :=
  let s := s.updSweep fun w =>
    { w with state := .idle, outcome := if w.state = .draining then w.outcome else .complete, endClock := s.clock,
             budgetTimer := none }
  let s := s.handToOrder
  if s.sweep.autoDue then
    (s.updSweep fun w => { w with autoDue := false }).startSweep .schedule s.sweep.schedMask s.sweep.schedBudget
  else s

/-- A sweep that is not IDLE returns to it when no entry is PENDING (R150, R153). -/
def State.sweepTest (s : State) : State := if s.sweep.state ≠ .idle ∧ s.anyPending = false then s.finishSweep else s

/-! ### Closing the edition (R157, R158) -/

/-- An order that keeps the edition open while TAKEN (R157). -/
def Order.keepsEdition : Order → Bool
  | .readUnit _ => true
  | .eraseUnit _ => true
  | .delistUnit _ => true
  | _ => false

def State.orderKeepsEdition (s : State) : Bool :=
  allSlots.any fun n =>
    match s.orders.taken[n] with
    | some t => t.order.keepsEdition
    | none => false

/-- A request of the edition is queued, waiting as an offer, or being served (R12, R157). -/
def State.requestKeepsEdition (s : State) : Bool :=
  s.pool.queue.any PoolRequest.ofEdition || s.pool.waiting.any PoolRequest.ofEdition ||
    (match s.pool.op with
     | some o => o.request.ofEdition
     | none => false)

/-- The three conditions of R157, with an edition open. -/
def State.closeReady (s : State) : Bool :=
  s.sweep.openEdition != 0 && s.sweep.state == .idle && !s.orderKeepsEdition && !s.requestKeepsEdition

/-- The edition fields of a close (R157, R161). -/
def SweepCtl.closed (now : Clock) (cause : CloseCause) (w : SweepCtl) : SweepCtl :=
  { w with lastClosed := w.openEdition, closeClock := now, closeCause := cause, openEdition := 0, openClock := 0 }

/-- SWEEP's result words (R174). -/
def sweepResultWords (ed : Edition) (r : SweepResult) : OrderResult :=
  { code := r.outcome.result, w0 := ed.extractLsb' 0 16, w1 := ed.extractLsb' 16 16, w2 := BitVec.ofNat 16 r.readOk,
    w3 := BitVec.ofNat 16 r.truncated }

/-- A SWEEP order waiting for the close completes DONE (R158). -/
def State.completeSweepOrder (ed : Edition) (n : SlotId) (s : State) : State :=
  match s.orders.taken[n] with
  | some t =>
    match t.order, t.sweepResult with
    | .sweep _ _, some r => s.doneSlot n (sweepResultWords ed r) t.edition
    | _, _ => s
  | none => s

/-- The close: the edition fields, EDITION_CLOSED, the SWEEP orders (R157). -/
def State.closeEdition (s : State) : State :=
  forEach allSlots (State.completeSweepOrder s.sweep.openEdition)
    ((s.updSweep (SweepCtl.closed s.clock .normal)).raiseAttn .editionClosed)

def State.closeTest (s : State) : State := if s.closeReady then s.closeEdition else s

/-! ### The allocator (R94 to R96) -/

/-- Contexts busy on a channel (R93). -/
def State.busyOn (s : State) (ch : ChanId) : Nat :=
  allCtxs.countP fun k => s.ctxs[k].state.busy && s.ctxs[k].channel == ch

/-- The unit states from which a purpose may be assigned (R95); R52's table would let an erase leave HELD, R95 does not
(notes/assumptions/26.md). -/
def DirEntry.assignable (p : Purpose) (e : DirEntry) : Bool :=
  match e.state with
  | .idle => true
  | .absent => true
  | .faulty => true
  | .held => p == .read && e.holdRunOut
  | .vacant => false
  | .reading => false
  | .erasing => false
  | .delisting => false

/-- Eligibility but for the sweep's state (R95). -/
def State.eligible (s : State) (u : UnitId) (p : Purpose) : Bool :=
  let e := s.dir[u]
  let c := s.chans[e.channel]
  u != 0 && e.assignable p && (s.servedBy u).isNone && c.state.joined && !c.settling &&
    decide (s.busyOn e.channel < c.settings.limit)

/-- The purpose of a unit with waiting orders: READ while its read request is suspended, else as its lowest slot asks (R94). -/
def State.purposeFor (s : State) (u : UnitId) : Purpose :=
  if s.dir[u].state = .held then .read
  else
    match s.waitingOrders u with
    | n :: _ => if (s.waitingErases u).contains n then .erase else .read
    | [] => .read

/-- The unit of a waiting READ UNIT or ERASE UNIT order; unit 0 waits for no context (R68). -/
def State.waitingUnit (s : State) (n : SlotId) : Option UnitId :=
  match s.orders.taken[n] with
  | some t =>
    if hasSlot s.attachedAll n then none
    else
      match t.order with
      | .readUnit u => if u = 0 then none else some u
      | .eraseUnit u => if u = 0 then none else some u
      | _ => none
  | none => none

/-- Units of the first group, by slot (R94). -/
def State.firstGroup (s : State) : List UnitId := allSlots.filterMap s.waitingUnit

/-- Units of the second group, by index, while the sweep is RUNNING (R94, R95). -/
def State.secondGroup (s : State) : List UnitId :=
  if s.sweep.state = .running then
    allUnits.filter fun u => s.dir[u].mark == .pending && !(s.firstGroup.contains u)
  else []

/-- The next unit the allocator takes, with its purpose (R94). -/
def State.nextUnit (s : State) : Option (UnitId × Purpose) :=
  match s.firstGroup.find? fun u => s.eligible u (s.purposeFor u) with
  | some u => some (u, s.purposeFor u)
  | none => (s.secondGroup.find? fun u => s.eligible u .read).map fun u => (u, .read)

def State.freeCtx (s : State) : Option CtxId := allCtxs.find? fun k => s.ctxs[k].state == .free

/-- The directory write of an assignment (R54, R58). -/
def DirEntry.assigned (p : Purpose) (e : DirEntry) : DirEntry :=
  match p with
  | .erase => { e with state := .erasing, holdCount := 0, holdRunOut := false }
  | .read =>
    if e.state = .held then { e with state := .reading, holdRunOut := false }
    else
      { e with state := .reading, restartCount := 0, holdCount := 0, holdUntil := 0, malformed := false,
               holdRunOut := false }

/-- The slots an assignment attaches (R94): every waiting READ UNIT, also those behind an ERASE UNIT of lower slot
(notes/assumptions/31.md). -/
def State.attachFor (s : State) (u : UnitId) (p : Purpose) : BitVec 16 :=
  match p with
  | .read => slotSet (s.waitingReads u)
  | .erase => slotSet ((s.waitingErases u).take 1)

/-- One assignment, made whole (R96). -/
def State.assign (k : CtxId) (u : UnitId) (p : Purpose) (s : State) : State :=
  let slots := s.attachFor u p
  let first := s.dir[u].state != .held
  let ch := s.dir[u].channel
  let s := s.writeEntry u (DirEntry.assigned p)
  let s := s.updCtx k fun c =>
    ({ c with target := u, channel := ch, purpose := p, attached := slots }).beginOpening s.timing first
  s.joinLine k (openingNeed p)

/-- Assigns while a FREE context and an eligible unit remain; not during an engine reset (R94, R115). -/
def State.allocate : Nat → State → State
  | 0, s => s
  | fuel + 1, s =>
    if s.resetting then s
    else
      match s.freeCtx, s.nextUnit with
      | some k, some (u, p) => State.allocate fuel (s.assign k u p)
      | _, _ => s

/-! ### Settling an event -/

/-- What an event leads to at once: the sweep's completion (twice, for a sweep that auto-due starts and that has nothing to
read), the edition's close, the assignments. -/
def State.settle (s : State) : State := (((s.sweepTest).sweepTest).closeTest).allocate 8

/-- An event of the part with all it leads to. -/
def settledEvent (f : State → State) (s : State) : State := partEvent (fun s => (f s).settle) s

end Sys2Proof.Machine
end

