-- ==== Sys2Proof/Machine/ChannelEvents.lean ====
section
/-! DEFINITION. Events of the four channels and their pacers (R56, R119 to R143). -/

namespace Sys2Proof.Machine

/-! ### Holds (R56) -/

/-- The latch of a run-out hold; the entry is not written (R56). -/
def State.runOut (u : UnitId) (s : State) : State := { s with dir := s.dir.set u { s.dir[u] with holdRunOut := true } }

/-- HOLD_RUN_OUT: a HELD unit becomes eligible again (R56). -/
def execHoldRunOut (u : UnitId) (s : State) : Host.Outcome State Fault Refusal :=
  .next (if s.dir[u].state = .held then
      settledEvent (fun s => (s.advanceTo s.dir[u].holdUntil).runOut u) s
    else s)

/-! ### Frames on the segment (R119, R122, R123) -/

/-- A frame received without error: counters, load, filter, FIFO, and RESPONSE_OVERFLOW for the frame a full FIFO loses
(R119, R123, R124, R129). -/
def State.receiveFrame (ch : ChanId) (f : Frame) (s : State) : State :=
  let s := s.updChan ch fun c => (c.receivedOk).countFrame f
  if s.chans[ch].passes f then
    let full := decide (Config.fifoDepth ≤ s.chans[ch].fifo.length)
    let s := s.updChan ch (Channel.pushFifo f)
    if full then s.logSelfNat .responseOverflow ch.val else s
  else s

/-- FRAME_RECEIVED on a joined channel (R123). -/
def execFrameReceived (ch : ChanId) (f : Frame) (s : State) : Host.Outcome State Fault Refusal :=
  .next (if s.chans[ch].state.joined then partEvent (State.receiveFrame ch f) s else s)

/-- RECEIVE_ERROR on a joined channel (R119). -/
def execReceiveError (ch : ChanId) (s : State) : Host.Outcome State Fault Refusal :=
  .next (if s.chans[ch].state.joined then partEvent (State.updChan ch Channel.receiveError) s else s)

/-- The head after a transmit error: tried again, or gone if its withdrawal was asked (R122). -/
def Channel.headFails (c : Channel) : Channel :=
  match c.txQueue with
  | [] => c
  | h :: rest =>
    if h.withdrawn then c.headLeaves else { c with txQueue := { h with transmitting := false } :: rest }

/-- The controller enters BUS_OFF (R120); no frozen context ends. -/
def State.busOff (ch : ChanId) (s : State) : State :=
  let s := (s.updChan ch (Channel.enterBusOff s.clock)).clearWaits ch
  let s := if s.resetting then s else s.loseContexts ch
  (s.logSelf .busOff (BitVec.ofNat 8 ch.val) true).raiseAttn .channelFault

/-- A transmit error (R119): BUS_OFF past 255, no change of counters for an acknowledgement error while PASSIVE. -/
def State.transmitError (ch : ChanId) (kind : TxErrorKind) (s : State) : State :=
  let c := s.chans[ch]
  if c.state = .passive ∧ kind = .acknowledgement then s.updChan ch Channel.headFails
  else if 255 < c.txErrors + 8 then s.busOff ch
  else s.updChan ch fun c => (c.sendError).headFails

/-- TRANSMIT_ERROR on a joined channel (R119). -/
def execTransmitError (ch : ChanId) (kind : TxErrorKind) (s : State) : Host.Outcome State Fault Refusal :=
  .next (if s.chans[ch].state.joined then settledEvent (State.transmitError ch kind) s else s)

/-- The window a sent frame calls for (R89, R90). -/
def Context.windowFor (now : Clock) (kind : TxKind) (c : Context) : Context :=
  match kind with
  | .openFrame => c.startTimer now .answer c.useAnswer
  | .pickFrame => c.startTimer now .answer c.useAnswer
  | .eraseFrame => c.startTimer now .answer c.useAnswer
  | .stopFrame => c.startTimer now .stop c.useStop
  | .wakeFrame => c

/-- A context is told that its frame has been sent; a frozen one starts no window (R72, R115). -/
def State.tellSender (k : CtxId) (kind : TxKind) (s : State) : State :=
  let frozen := s.resetting
  s.updCtx k fun c =>
    let c := { c with frameQueued := none }
    if frozen then c else c.windowFor s.clock kind

/-- The sender of the frame that has left the queue is told (R122, R127). -/
def State.afterSent (ch : ChanId) (h : TxEntry) (s : State) : State :=
  match h.ctx with
  | some k => if h.live then s.tellSender k h.kind else s
  | none => s.updChan ch (Channel.wakeSent s.clock s.timing.settle)

/-- The head of the queue has been sent (R122). -/
def State.frameSent (ch : ChanId) (s : State) : State :=
  match s.chans[ch].txQueue with
  | [] => s
  | h :: _ => (s.updChan ch fun c => ((c.sentOk).countFrame h.frame).headLeaves).afterSent ch h

/-- FRAME_SENT on a joined channel (R122). -/
def execFrameSent (ch : ChanId) (s : State) : Host.Outcome State Fault Refusal :=
  .next (if s.chans[ch].state.joined then settledEvent (State.frameSent ch) s else s)

/-- The head of the queue is in transmission (R122), until it is sent or meets an error; a lost arbitration does not end that
(notes/assumptions/13.md). -/
def Channel.beginHead (c : Channel) : Channel :=
  match c.txQueue with
  | [] => c
  | h :: rest => { c with txQueue := { h with transmitting := true } :: rest }

/-- TRANSMISSION_BEGIN on a joined channel (R122). -/
def execTransmissionBegin (ch : ChanId) (s : State) : Host.Outcome State Fault Refusal :=
  .next (if s.chans[ch].state.joined then partEvent (State.updChan ch Channel.beginHead) s else s)

/-! ### Recovery (R121) -/

/-- The channel enters RECOVERING; the runs are counted from 0. -/
def Channel.startRecovery (c : Channel) : Channel := { c with state := .recovering, recoveryTimer := none, idleRuns := 0 }

/-- RECOVERY_HOLD_EXPIRY (R121). -/
def execRecoveryHoldExpiry (ch : ChanId) (s : State) : Host.Outcome State Fault Refusal :=
  .next (match s.chans[ch].state, s.chans[ch].recoveryTimer with
    | .busOff, some t => settledEvent (fun s => (s.advanceTo t).updChan ch Channel.startRecovery) s
    | _, _ => s)

/-- The 128th run has been counted: ACTIVE, both counters 0. -/
def Channel.recovered (c : Channel) : Channel := { c with state := .active, txErrors := 0, rxErrors := 0, idleRuns := 128 }

/-- RECOVERY_COMPLETE (R121, R66). -/
def execRecoveryComplete (ch : ChanId) (s : State) : Host.Outcome State Fault Refusal :=
  .next (if s.chans[ch].state = .recovering then
      settledEvent (fun s => (s.updChan ch Channel.recovered).clearBusOffActive ch) s
    else s)

/-! ### Load window, pacing timer, settle timer -/

/-- The window that expired at `t` is measured and the next begins (R130). -/
def Channel.measure (t : Clock) (c : Channel) : Channel :=
  let load := loadOf c.accumulator c.settings.bitRate.bitsPerSecond c.windowLength
  ({ c with lastLoad := load, lastFrames := c.windowFrames,
            pacer := { c.pacer with target := targetPace c.pacer.settings load } }).startWindow t

/-- LOAD_WINDOW_EXPIRY (R130). -/
def execLoadWindowExpiry (ch : ChanId) (s : State) : Host.Outcome State Fault Refusal :=
  .next (match s.chans[ch].loadTimer with
    | some t => settledEvent (fun s => (s.advanceTo t).updChan ch (Channel.measure t)) s
    | none => s)

/-- The pacing timer keeps its phase; a joined channel's pacer ramps and issues its credits (R135, R136, R143). -/
def Channel.pacerTick (t : Clock) (c : Channel) : Channel :=
  let p := { c.pacer with timer := some (clockAfter t Config.pacingPeriod) }
  { c with pacer := if c.state.joined then (p.ramp).issue else p }

/-- A pacing-timer expiry at the clock value `t`. -/
def State.pacingTick (ch : ChanId) (t : Clock) (s : State) : State :=
  let s := (s.advanceTo t).updChan ch (Channel.pacerTick t)
  if s.chans[ch].state.joined then s.serve ch else s

/-- PACING_TIMER_EXPIRY (R135): the ramp, the credits, and the service of the line (R138). -/
def execPacingTimerExpiry (ch : ChanId) (s : State) : Host.Outcome State Fault Refusal :=
  .next (match s.chans[ch].pacer.timer with
    | some t => settledEvent (State.pacingTick ch t) s
    | none => s)

/-- The settling flag is cleared. -/
def Channel.settled (c : Channel) : Channel := { c with settling := false, settleTimer := none }

/-- SETTLE_TIMER_EXPIRY (R127). -/
def execSettleTimerExpiry (ch : ChanId) (s : State) : Host.Outcome State Fault Refusal :=
  .next (match s.chans[ch].settleTimer with
    | some t => settledEvent (fun s => (s.advanceTo t).updChan ch Channel.settled) s
    | none => s)

end Sys2Proof.Machine
end

