-- ==== Sys2Proof/Machine/OrderTable.lean ====
section
/-! DEFINITION. The order engine: the judging, taking and application of orders, and the pass over the table
(R163 to R177). -/

namespace Sys2Proof.Machine

/-! ### Checks on the state of the part (R166 step 4) -/

/-- Some unit enlisted on the channel, DELISTING included, has the address (R118, R171). -/
def State.addressUsed (s : State) (ch : ChanId) (a : Byte) : Bool :=
  allUnits.any fun u => u != 0 && s.dir[u].state != .vacant && s.dir[u].channel == ch && s.dir[u].address == a

/-- The checks READ UNIT and ERASE UNIT share (R172, R173). -/
def State.checkUnit (s : State) (u : UnitId) : Option OrderRefusal :=
  if u = 0 then none
  else if s.dir[u].state = .vacant ∨ s.dir[u].state = .delisting then some .unitVacant
  else if s.chans[s.dir[u].channel].state = .off then some .channelOff
  else none

/-- SET CHANNEL's checks 2 and 3 (R118). -/
def State.checkSetChannel (s : State) (ch : ChanId) (v : ChanSettings) : Option OrderRefusal :=
  if s.sweep.state ≠ .idle ∨ (v.bitRate ≠ .off ∧ s.busyOn ch ≠ 0) then some .channelBusy
  else if s.addressUsed ch v.address then some .duplicateAddress
  else none

/-- ENLIST UNIT's checks 2 and 3 (R171). -/
def State.checkEnlist (s : State) (u : UnitId) (ch : ChanId) (a : Byte) : Option OrderRefusal :=
  if s.dir[u].state ≠ .vacant then some .unitOccupied
  else if s.addressUsed ch a ∨ a = s.chans[ch].settings.address then some .duplicateAddress
  else none

/-- The check of the state of the part that the kind's rule gives; none when it passes. -/
def State.checkOrder (s : State) : Order → Option OrderRefusal
  | .setChannel ch v => s.checkSetChannel ch v
  | .enlistUnit u ch a _ _ => s.checkEnlist u ch a
  | .delistUnit u =>
    if s.dir[u].state = .vacant ∨ s.dir[u].state = .delisting then some .unitVacant else none
  | .sweep _ _ => if s.sweep.state = .idle then none else some .sweepBusy
  | .readUnit u => s.checkUnit u
  | .eraseUnit u => s.checkUnit u
  | .pauseSweep => if s.sweep.state = .running then none else some .noSweep
  | .resumeSweep => if s.sweep.state = .paused then none else some .noSweep
  | .abortSweep => if s.sweep.state = .running ∨ s.sweep.state = .paused then none else some .noSweep
  | .clearStart => none
  | .resetPart => none
  | .setPacing _ _ => none
  | .setTiming _ => none
  | .setSchedule _ _ _ => none
  | .setPool _ => none
  | .releaseEdition _ => none

/-- The orders whose taking offers a pool request (R167). -/
def State.takingOffers (s : State) : Order → Bool
  | .releaseEdition _ => true
  | .readUnit u => u == 0
  | .eraseUnit u => u == 0
  | .delistUnit u => (s.servedBy u).isNone
  | .clearStart => false
  | .resetPart => false
  | .setChannel _ _ => false
  | .setPacing _ _ => false
  | .setTiming _ => false
  | .setSchedule _ _ _ => false
  | .setPool _ => false
  | .enlistUnit _ _ _ _ _ => false
  | .sweep _ _ => false
  | .pauseSweep => false
  | .resumeSweep => false
  | .abortSweep => false

/-- What a pass decides about a POSTED slot (R166). -/
inductive Verdict where
  | refused (r : OrderRefusal) (word0 : Word)
  | halted
  | taken (o : Order)
  deriving DecidableEq, Repr

/-- The five checks in their order; the first that fails decides (R166). -/
def State.judge (n : SlotId) (s : State) : Verdict :=
  if !kindKnown (slotKind s.mem n) then .refused .unknownKind 0
  else if s.orders.start && !kindTakenAtStart (slotKind s.mem n) then .refused .startPending 0
  else
    match parseOrder s.mem n with
    | .refused r w => .refused r w
    | .order o =>
      match s.checkOrder o with
      | some r => .refused r 0
      | none =>
        if s.takingOffers o && decide (Config.poolQueueDepth ≤ s.pool.queue.length) then .halted else .taken o

/-! ### Immediate orders -/

/-- An immediate order completes DONE with OK in the open edition, or 0 (R168). -/
def State.doneNow (n : SlotId) (w0 w1 w2 w3 : Word) (s : State) : State :=
  s.doneSlot n { code := 0, w0 := w0, w1 := w1, w2 := w2, w3 := w3 } s.sweep.openEdition

/-- CLEAR START (R169). -/
def State.clearStart (s : State) : State :=
  (s.updOrders fun o => { o with start := false }).updPort fun p =>
    { p with attention := p.attention &&& ~~~AttnBit.start.bit }

/-- READ UNIT orders waiting on a HELD unit of a channel set OFF end its request (R176). -/
def State.loseHeld (ch : ChanId) (u : UnitId) (s : State) : State :=
  if s.dir[u].state = .held ∧ s.dir[u].channel = ch ∧ s.waitingReads u ≠ [] then s.endRequest u .channelLost else s

/-- The order names a unit enlisted on the channel. -/
def State.ordersUnitOn (s : State) (ch : ChanId) (o : Order) : Bool :=
  match o with
  | .readUnit u => u != 0 && s.dir[u].channel == ch
  | .eraseUnit u => u != 0 && s.dir[u].channel == ch
  | _ => false

/-- A channel set OFF (R128): its contexts end (R112), and the orders waiting on its units complete CHANNEL_LOST (R176). -/
def State.setChannelOff (ch : ChanId) (v : ChanSettings) (s : State) : State :=
  let s := (((s.updChan ch (Channel.stopRate v)).clearWaits ch).loseContexts ch)
  let s := forEach allUnits (State.loseHeld ch) s
  s.completeUnitOrders .channelLost (s.waitingSlots (s.ordersUnitOn ch))

/-- A channel set to a rate (R118, R142). -/
def State.setChannelRate (ch : ChanId) (v : ChanSettings) (s : State) : State :=
  s.updChan ch (Channel.startRate s.clock v)

/-- SET CHANNEL applied (R118, R66). -/
def State.applySetChannel (ch : ChanId) (v : ChanSettings) (s : State) : State :=
  let silent := s.chans[ch].state.silent
  let s := if v.bitRate = .off then s.setChannelOff ch v else s.setChannelRate ch v
  if silent then s.clearBusOffActive ch else s

/-- SET PACING's 64-bit result (12.5). -/
def pacingResult (v : PacingSettings) : BitVec 64 :=
  BitVec.ofNat 64 (v.floor + 2 ^ 10 * v.ceiling + 2 ^ 20 * v.lowMark + 2 ^ 30 * v.highMark + 2 ^ 40 * (v.upTime / 100) +
    2 ^ 48 * (v.downTime / 100) + 2 ^ 56 * (v.loadWindow / 100))

/-- SET SCHEDULE applied (R159). -/
def State.applySchedule (period : Nat) (mask : BitVec 4) (budget : Nat) (s : State) : State :=
  s.updSweep fun w =>
    { w with schedPeriod := period, schedMask := mask, schedBudget := budget, autoDue := false,
             scheduleTimer := if period = 0 then none else some (clockAfter s.clock (period * 60000)) }

/-- SET POOL applied (R15, R24): outside an operation the write is a step of the summary revision. -/
def Pool.setPolicy (policy : PoolPolicy) (p : Pool) : Pool :=
  { p with policy := policy, revision := if p.op.isNone then p.revision + 2 else p.revision }

/-- ENLIST UNIT's write (R53). -/
def DirEntry.enlisted (ch : ChanId) (a : Byte) (label : Word) (cls : Fin 4) (e : DirEntry) : DirEntry :=
  { DirEntry.vacant with revision := e.revision, state := .idle, channel := ch, address := a, label := label, cls := cls,
                         neverRead := true }

/-! ### Long orders -/

/-- READ UNIT of units 1 to 63 joins a read in progress, or waits (R97, R172); it joins whatever ERASE UNIT waits
(notes/assumptions/31.md). -/
def State.joinRead (n : SlotId) (u : UnitId) (s : State) : State :=
  match s.servedBy u with
  | some k =>
    if s.ctxs[k].purpose = .read ∧ s.ctxs[k].state ≠ .stopping then
      s.updCtx k fun c => { c with attached := c.attached ||| slotBit n }
    else s
  | none => s

/-- READ UNIT taken (R172); READ UNIT 0 offers a SELF COMMIT (R68). -/
def State.takeRead (n : SlotId) (u : UnitId) (s : State) : State :=
  let s := s.needEdition.takeSlot n (.readUnit u)
  if u = 0 then s.offer (.selfCommit (.slot n)) else s.joinRead n u

/-- ERASE UNIT taken (R173); ERASE UNIT 0 empties the self history and offers an ERASE-CLEAR (R45). -/
def State.takeErase (n : SlotId) (u : UnitId) (s : State) : State :=
  let s := s.needEdition.takeSlot n (.eraseUnit u)
  if u = 0 then
    let s := s.eraseSelf
    s.offer (.eraseClear 0 s.self.generation s.self.epoch n none)
  else s

/-- Requests still waiting on a unit that becomes DELISTING end STOPPED (R61): a suspended read request, the orders with
no context, and a PENDING mark whose read has no context. -/
def State.endWaiting (u : UnitId) (wasHeld : Bool) (s : State) : State :=
  let s := if wasHeld then s.endRequest u .stopped else s
  let s := s.completeUnitOrders .stopped (s.waitingOrders u)
  match s.servedBy u with
  | some k => if s.ctxs[k].purpose = .read then s else s.skipPending u
  | none => s

/-- DELIST UNIT taken (R61, R171). -/
def State.takeDelist (n : SlotId) (u : UnitId) (s : State) : State :=
  let served := s.servedBy u
  let held := decide (s.dir[u].state = .held)
  let s := (if served.isNone then s.needEdition else s).takeSlot n (.delistUnit u)
  let s := (s.writeEntry u fun e => { e with state := .delisting, holdRunOut := false }).endWaiting u held
  match served with
  | some k => s.stopContext k
  | none => s.offerDelist u

/-- SWEEP taken (R174). -/
def State.takeSweep (n : SlotId) (mask : BitVec 4) (budget : Nat) (s : State) : State :=
  (s.needEdition.takeSlot n (.sweep mask budget)).startSweep (.slot n) mask budget

/-- The frames of a frozen context that wait unsent are withdrawn; one in transmission stays (R132). -/
def Channel.freezeCtx (k : CtxId) (c : Channel) : Channel :=
  let keep := fun (e : TxEntry) => e.transmitting || !e.waitsFor k
  ({ c with txQueue := c.txQueue.filter keep, txOutside := c.txOutside.filter keep,
            txDeferred := c.txDeferred.filter keep }).admitOutside

/-- A context not COMMITTING freezes (R115). -/
def State.freezeCtx (k : CtxId) (s : State) : State :=
  let c := s.ctxs[k]
  if c.state = .free ∨ c.state = .committing then s
  else
    let s := s.updChan c.channel (Channel.freezeCtx k)
    if s.chans[c.channel].txQueue.any (TxEntry.waitsFor k) then s
    else s.updCtx k fun c => { c with frameQueued := none }

/-- The sweep controller at the taking of an engine reset (R161). -/
def SweepCtl.resetTaken (w : SweepCtl) : SweepCtl :=
  { w with budgetTimer := none, scheduleTimer := none, schedPeriod := 0, schedMask := 0, schedBudget := 0,
           autoDue := false }

/-- RESET PART taken: the engine reset begins (R177, R184 stage 1). -/
def State.takeReset (n : SlotId) (s : State) : State :=
  let s := (s.takeSlot n .resetPart).updOrders fun o => { o with resetting := some n, scanHalt := none }
  (forEach allCtxs State.freezeCtx s).updSweep SweepCtl.resetTaken

/-! ### Taking (R166, R170 to R175) -/

/-- An accepted order is taken: an immediate one is applied and completed, a long one handed to its owner. -/
def State.take (n : SlotId) (o : Order) (s : State) : State :=
  match o with
  | .clearStart => s.clearStart.doneNow n 0 0 0 0
  | .resetPart => s.takeReset n
  | .setChannel ch v =>
    (s.applySetChannel ch v).doneNow n (BitVec.ofNat 16 v.bitRate.code) (v.address.setWidth 16)
      (BitVec.ofNat 16 v.limit) (BitVec.ofNat 16 v.recoveryHold)
  | .setPacing ch v =>
    (s.updChan ch (Channel.applyPacing v)).doneNow n ((pacingResult v).extractLsb' 0 16)
      ((pacingResult v).extractLsb' 16 16) ((pacingResult v).extractLsb' 32 16) ((pacingResult v).extractLsb' 48 16)
  | .setTiming v =>
    ({ s with timing := v }).doneNow n (BitVec.ofNat 16 (v.answer + 256 * v.gap))
      (BitVec.ofNat 16 (v.stop + 256 * (v.settle / 10))) (BitVec.ofNat 16 v.limit) 0
  | .setSchedule p m b =>
    (s.applySchedule p m b).doneNow n (BitVec.ofNat 16 p) (m.setWidth 16) (BitVec.ofNat 16 b) 0
  | .setPool p => (s.updPool (Pool.setPolicy p)).doneNow n (BitVec.ofNat 16 p.code) 0 0 0
  | .enlistUnit u ch a label cls =>
    (s.writeEntry u (DirEntry.enlisted ch a label cls)).doneNow n (BitVec.ofNat 16 u.val) 0 0 0
  | .delistUnit u => s.takeDelist n u
  | .sweep m b => s.takeSweep n m b
  | .readUnit u => s.takeRead n u
  | .eraseUnit u => s.takeErase n u
  | .pauseSweep => (s.updSweep fun w => { w with state := .paused }).doneNow n 0 0 0 0
  | .resumeSweep => (s.updSweep fun w => { w with state := .running }).doneNow n 0 0 0 0
  | .abortSweep => (s.enterDraining .aborted).doneNow n 0 0 0 0
  | .releaseEdition e => (s.takeSlot n (.releaseEdition e)).offer (.release e n)

/-! ### The pass (R165 to R167) -/

/-- What a visit leaves: the pass goes on, or it has ended. -/
inductive Visit where
  | goOn (s : State)
  | ended (s : State)
  deriving DecidableEq, Repr

def State.setHalt (h : Option SlotId) (s : State) : State := s.updOrders fun o => { o with scanHalt := h }

/-- The visit of one slot, dealt with completely before the next (R165). -/
def State.visit (n : SlotId) (s : State) : Visit :=
  if slotState s.mem n = Config.stPosted then
    match s.judge n with
    | .refused r w => .goOn (event (fun s => (s.refuseSlot n r w s.sweep.openEdition).settle) s)
    | .halted => .ended (s.setHalt (some n))
    | .taken .resetPart => .ended (event (fun s => (s.take n .resetPart).settle) s)
    | .taken o => .goOn (event (fun s => (s.take n o).settle) s)
  else .goOn s

/-- The visits of the slots given, in order. -/
def State.passFrom : List SlotId → State → State
  | [], s => s.setHalt none
  | n :: rest, s =>
    match s.visit n with
    | .goOn t => State.passFrom rest t
    | .ended t => t

/-- One pass; none is made while an engine reset is in progress (R165, R177). -/
def State.pass (s : State) : State := if s.resetting then s else s.passFrom allSlots

end Sys2Proof.Machine
end

