-- ==== Sys2Proof/WellFormed.lean ====
section
/-! DEFINITION. Which terms of Instr are commands the outside can send. -/

namespace Sys2Proof

/-- A frame a CAN segment can carry: an identifier of its format's width; a remote frame carries no data. -/
def Frame.wellFormed (f : Frame) : Bool :=
  (f.extended || decide (f.ident.toNat < 2048)) &&
    (!f.remote || decide (f.data.toList = List.replicate 8 0))

/-- The register addresses whose writes R179 ignores. -/
def ignoredRegister (addr : Word) : Bool :=
  decide (0x8000 ≤ addr.toNat) && addr != Config.signalAt && addr != Config.attentionAt &&
    addr != Config.attnMaskAt

/-- Byte offset of a word address of exchange memory (R178). -/
def byteOffset (addr : BitVec 15) : Nat := 2 * addr.toNat

/-- Whether a word address is an order slot's state word (12.3): such a write is SLOT_STATE_WRITE. -/
def isSlotStateWord (addr : BitVec 15) : Bool :=
  decide (byteOffset addr < 1024) && decide (byteOffset addr % 64 = 0)

/-- The command is one its row's summary describes; every other operand range is held by its type.
A HOLD_RUN_OUT names an enlisted unit, never unit 0, which has no hold (R67). -/
def Instr.wellFormed : Instr → Bool
  | .registerWriteIgnored addr _ => ignoredRegister addr
  | .hostMemoryWrite addr _ => !isSlotStateWord addr
  | .holdRunOut u => u != 0
  | .frameReceived _ f => f.wellFormed
  | .fullReset | .initialisationEnd | .signalWrite _ | .attentionWrite _ | .attnMaskWrite _
  | .clockLoRead | .slotStateWrite _ _ | .orderScanTimerExpiry | .poolOperationBegin | .commit
  | .selfCommit | .eraseClear | .delistRetire | .release | .receiveError _ | .transmitError _ _
  | .recoveryHoldExpiry _ | .recoveryComplete _ | .frameSent _ | .loadWindowExpiry _
  | .pacingTimerExpiry _ | .settleTimerExpiry _ | .grant | .hold | .entryA | .entryB | .close
  | .erased | .answerWindowExpiry _ | .gapWindowExpiry _ | .stopWindowExpiry _
  | .holdWindowExpiry _ | .budgetTimerExpiry | .scheduleTimerExpiry | .engineResetEnd
  | .transmissionBegin _ => true

end Sys2Proof
end

