-- ==== Sys2Proof/Machine/HostPort.lean ====
section
/-! DEFINITION. The host's accesses: registers, order slots, exchange memory, and the order-scan timer
(R163 to R165, R178 to R182). -/

namespace Sys2Proof.Machine

/-- SIGNAL_WRITE: any value starts one pass (R165). -/
def execSignalWrite (_value : Word) (s : State) : Host.Outcome State Fault Refusal :=
  .next (if s.port.initialising then s else s.pass)

/-- ATTENTION_WRITE: every bit written as 1 is cleared; the START flag is not touched (R180). -/
def execAttentionWrite (value : Word) (s : State) : Host.Outcome State Fault Refusal :=
  .next (partEvent (fun s =>
    s.updPort fun p => { p with attention := p.attention &&& ~~~(value.extractLsb' 0 6) }) s)

/-- ATTN_MASK_WRITE: the six enables take the value; ATTN_N follows (R179, R181). -/
def execAttnMaskWrite (value : Word) (s : State) : Host.Outcome State Fault Refusal :=
  .next (partEvent (fun s => s.updPort fun p => { p with mask := value.extractLsb' 0 6 }) s)

/-- CLOCK_LO_READ: returns the low half and latches the high half (R182); during initialisation every read returns 0 (R183). -/
def execClockLoRead (s : State) : Host.Outcome State Fault Refusal :=
  .next (if s.port.initialising then s.updPort fun p => { p with dataOut := 0 }
    else s.updPort fun p =>
      { p with dataOut := s.clock.extractLsb' 0 16, clockLatch := s.clock.extractLsb' 16 16 })

/-- REGISTER_WRITE_IGNORED: no effect (R179). -/
def execRegisterWriteIgnored (_addr _value : Word) (s : State) : Host.Outcome State Fault Refusal := .next s

/-- A host write to a slot's state word: FREE or POSTED on a slot that is not TAKEN (R164). -/
def State.hostSlotState (n : SlotId) (value : Word) (s : State) : State :=
  if (value = Config.stFree ∨ value = Config.stPosted) ∧ slotState s.mem n ≠ Config.stTaken then
    s.putSlot n Config.slotStateOff value
  else s

/-- SLOT_STATE_WRITE (R164). -/
def execSlotStateWrite (n : SlotId) (value : Word) (s : State) : Host.Outcome State Fault Refusal :=
  .next (if s.port.initialising then s else s.hostSlotState n value)

/-- The slot a byte offset of the order table lies in. -/
def slotOfOffset (a : Nat) : SlotId := ⟨a / 64 % 16, Nat.mod_lt _ (by decide)⟩

/-- A host write to exchange memory: slot words and the odometer are taken, every other word is discarded (R178). -/
def State.hostWrite (addr : BitVec 15) (value : Word) (s : State) : State :=
  if isSlotStateWord addr then s.hostSlotState (slotOfOffset (byteOffset addr)) value
  else if byteOffset addr < Config.hostAreaEnd then s.updMem fun m => Memory.writeWord m (byteOffset addr) value
  else s

/-- HOST_MEMORY_WRITE (R178). -/
def execHostMemoryWrite (addr : BitVec 15) (value : Word) (s : State) : Host.Outcome State Fault Refusal :=
  .next (if s.port.initialising then s else s.hostWrite addr value)

/-- The order-scan timer expires and runs on in its phase (R165). -/
def State.scanExpired (s : State) : State :=
  (s.advanceTo s.orders.scanTimer).updOrders fun o => { o with scanTimer := clockAfter o.scanTimer Config.scanPeriod }

/-- ORDER_SCAN_TIMER_EXPIRY: the timer runs on and one pass is made; the pass is dropped during an engine reset (R165). -/
def execOrderScanTimerExpiry (s : State) : Host.Outcome State Fault Refusal :=
  .next (if s.port.initialising then s else (settledEvent State.scanExpired s).pass)

end Sys2Proof.Machine
end

