-- ==== Sys2Proof/Machine/Records.lean ====
section
/-! DEFINITION. The record pool's working operations: record writes, the three collections, allocation, screening, the epoch
step and the merge (R3 to R9, R16 to R20, R29 to R37). -/

namespace Sys2Proof.Machine

/-! ### Working values of an operation (R15) -/

/-- What an operation works on before its summary is written: the records, the working top, head, tail and counts, the
unit's chain head and live count, and what it has met so far. -/
structure PoolWork where
  records : Vector FaultRecord 1536
  freeTop : Option RecId
  freeCount : Nat
  retHead : Option RecId
  retTail : Option RecId
  retCount : Nat
  liveCount : Nat
  chainHead : Option RecId
  chainCount : Nat
  /-- Records reclaimed in this operation (R18, R20). -/
  reclaimed : Nat
  /-- An allocation of this operation failed (R17, R19). -/
  failed : Bool
  deriving DecidableEq, Repr

/-- The working values at the beginning of an operation on a unit's chain. -/
def PoolWork.start (p : Pool) (e : DirEntry) : PoolWork :=
  { records := p.records, freeTop := p.freeTop, freeCount := p.freeCount, retHead := p.retHead, retTail := p.retTail,
    retCount := p.retCount, liveCount := p.liveCount, chainHead := e.chainHead, chainCount := e.liveCount,
    reclaimed := 0, failed := false }

/-- The revision after a whole write of a record: up by 2, from 254 to 2 (R3). -/
def nextRecordRevision (r : BitVec 8) : BitVec 8 := if r = 254 then 2 else r + 2

/-- One write of a record (R3). -/
def PoolWork.writeRecord (r : RecId) (f : FaultRecord → FaultRecord) (w : PoolWork) : PoolWork :=
  { w with
    records := w.records.set r { f w.records[r] with revision := nextRecordRevision w.records[r].revision } }

/-- A change of link is a write of the record (R3). -/
def PoolWork.writeLink (r : RecId) (next : Option RecId) (w : PoolWork) : PoolWork :=
  w.writeRecord r fun x => { x with link := next }

/-- The place before a chain position takes a new link: the predecessor, or the chain head held for the directory step (R6). -/
def PoolWork.setNext (prev : Option RecId) (next : Option RecId) (w : PoolWork) : PoolWork :=
  match prev with
  | some p => w.writeLink p next
  | none => { w with chainHead := next }

/-- Appends an unlinked live record to the retired queue in the state given, stamped with the edition (R8). -/
def PoolWork.retire (st : RecState) (ed : Edition) (r : RecId) (w : PoolWork) : PoolWork :=
  let w := w.writeRecord r fun x => { x with state := st, changed := ed, retired := ed, link := none }
  let w := match w.retTail with
    | none => { w with retHead := some r }
    | some t => w.writeLink t (some r)
  { w with retTail := some r, chainCount := w.chainCount - 1, liveCount := w.liveCount - 1, retCount := w.retCount + 1 }

/-- Retires the whole live chain from its head in chain order (R31, R44, R46); `fuel` bounds the walk. -/
def PoolWork.retireAll (st : RecState) (ed : Edition) : Nat → PoolWork → PoolWork
  | 0, w => w
  | fuel + 1, w =>
    match w.chainHead with
    | none => w
    | some r => PoolWork.retireAll st ed fuel ({ w with chainHead := w.records[r].link }.retire st ed r)

/-- Frees the head of the retired queue (R9): zeroed, pushed onto the free stack. -/
def PoolWork.freeHead (r : RecId) (w : PoolWork) : PoolWork :=
  let next := w.records[r].link
  { w with
    records := w.records.set r (FaultRecord.freed w.freeTop), freeTop := some r, freeCount := w.freeCount + 1,
    retHead := next, retTail := if next = none then none else w.retTail, retCount := w.retCount - 1 }

/-- Frees retired records from the head while their retire edition is at most the applied edition (R21). -/
def PoolWork.releaseUpTo (applied : Edition) : Nat → PoolWork → PoolWork
  | 0, w => w
  | fuel + 1, w =>
    match w.retHead with
    | none => w
    | some r =>
      if w.records[r].retired.toNat ≤ applied.toNat then PoolWork.releaseUpTo applied fuel (w.freeHead r) else w

/-- Allocation (R16 to R19): the free stack's top; on an empty stack under RECLAIM the head of the retired queue; else none. -/
def PoolWork.alloc (policy : PoolPolicy) (w : PoolWork) : Option (RecId × PoolWork) :=
  match w.freeTop with
  | some r => some (r, { w with freeTop := w.records[r].link, freeCount := w.freeCount - 1 })
  | none =>
    match policy, w.retHead with
    | .reclaim, some r =>
      let next := w.records[r].link
      some (r, { w with retHead := next, retTail := if next = none then none else w.retTail,
                        retCount := w.retCount - 1, reclaimed := w.reclaimed + 1 })
    | _, _ => none

/-! ### Screening (R29, R30) -/

/-- One entry of the read list. -/
structure ReadEntry where
  code : Triple
  mode : Byte
  count : Byte
  activeNow : Bool
  confirmed : Bool
  lamp : Bool
  firstOdo : Triple
  lastOdo : Triple
  deriving DecidableEq, Repr

/-- The entry a complete staging place holds (R27). -/
def Place.entry? (p : Place) : Option ReadEntry :=
  match p.halfA, p.halfB with
  | some a, some b =>
    some { code := a.code, mode := a.mode, count := a.count, activeNow := a.activeNow, confirmed := a.confirmed,
           lamp := a.lamp, firstOdo := b.firstOdo, lastOdo := b.lastOdo }
  | _, _ => none

/-- The staged entries at indices 0 to N - 1, in index order (R27). -/
def stagedEntries (staging : Vector Place 64) (n : Nat) : List ReadEntry :=
  (staging.toList.take n).filterMap Place.entry?

/-- The snapshot's entries; CONFIRMED and LAMP are clear (R42). -/
def snapshotEntries (h : SelfHistory) : List ReadEntry :=
  h.entries.map fun e =>
    { code := e.code.number, mode := e.mode, count := e.count, activeNow := e.activeNow, confirmed := false,
      lamp := false, firstOdo := e.firstOdo, lastOdo := e.lastOdo }

def ReadEntry.sameIdent (a b : ReadEntry) : Bool := a.code == b.code && a.mode == b.mode

/-- An entry is dropped for code 0 or an identity already entered (R29); `seen` holds the entries entered so far. -/
def screenFrom : List ReadEntry → List ReadEntry → List ReadEntry
  | _, [] => []
  | seen, e :: rest =>
    if e.code = 0 ∨ seen.any (ReadEntry.sameIdent e) = true then screenFrom seen rest
    else e :: screenFrom (e :: seen) rest

def screen (l : List ReadEntry) : List ReadEntry := screenFrom [] l

/-- The malformed mark: some entry was dropped (R29). -/
def screenDrops (l : List ReadEntry) : Bool := decide ((screen l).length ≠ l.length)

/-- Insertion in ascending identity (R30). -/
def insertEntry (e : ReadEntry) : List ReadEntry → List ReadEntry
  | [] => [e]
  | x :: rest => if identLt x.code x.mode e.code e.mode then x :: insertEntry e rest else e :: x :: rest

/-- The read list: what survives screening, in ascending identity (R30). -/
def readList (l : List ReadEntry) : List ReadEntry := (screen l).foldr insertEntry []

/-! ### The merge (R32 to R37) -/

def liveState (activeNow : Bool) : RecState := if activeNow then .active else .stored

/-- The occurrence difference modulo 256 (R33). -/
def countDelta (old new : Byte) : Nat := (new - old).toNat

/-- The updated record, before the changed edition and the revision (R33 to R35). -/
def FaultRecord.updated (e : ReadEntry) (x : FaultRecord) : FaultRecord :=
  let cum := min Config.odoMax (x.cumulative.toNat + countDelta x.lastCount e.count)
  let first := bvMin x.firstOdo e.firstOdo
  { x with
    state := liveState e.activeNow, activeNow := e.activeNow, confirmed := e.confirmed, lamp := e.lamp,
    saturated := x.saturated || decide (cum = Config.odoMax), cumulative := BitVec.ofNat 24 cum, lastCount := e.count,
    firstOdo := first, lastOdo := bvMax (bvMax x.lastOdo e.lastOdo) first }

/-- The created record, before the revision (R36). -/
def FaultRecord.filled (u : UnitId) (ed : Edition) (e : ReadEntry) (next : Option RecId) (x : FaultRecord) :
    FaultRecord :=
  { x with
    state := liveState e.activeNow, owner := u, activeNow := e.activeNow, confirmed := e.confirmed, lamp := e.lamp,
    saturated := false, code := e.code, mode := e.mode, cumulative := BitVec.ofNat 24 (max 1 e.count.toNat),
    lastCount := e.count, firstOdo := e.firstOdo, lastOdo := bvMax e.firstOdo e.lastOdo, link := next, created := ed,
    changed := ed, retired := 0 }

/-- The update case: an untouched record is not written (R35). -/
def PoolWork.update (ed : Edition) (e : ReadEntry) (r : RecId) (w : PoolWork) : PoolWork :=
  if w.records[r].updated e = w.records[r] then w
  else w.writeRecord r fun x => { x.updated e with changed := ed }

/-- The create case (R16 to R19, R36): the record allocated, filled in one write and linked in after `prev`. -/
def PoolWork.create (policy : PoolPolicy) (u : UnitId) (ed : Edition) (e : ReadEntry) (prev next : Option RecId)
    (w : PoolWork) : Option RecId × PoolWork :=
  match w.alloc policy with
  | none => (prev, { w with failed := true })
  | some (r, w) =>
    let w := w.writeRecord r (FaultRecord.filled u ed e next)
    let w := w.setNext prev (some r)
    (some r, { w with chainCount := w.chainCount + 1, liveCount := w.liveCount + 1 })

/-- The lapse case (R37): unlinked where the walk meets it, retired as LAPSED. -/
def PoolWork.lapse (ed : Edition) (prev : Option RecId) (r : RecId) (w : PoolWork) : PoolWork :=
  (w.setNext prev w.records[r].link).retire .lapsed ed r

/-- The walk over the read list and the live chain (R32): `prev` is the live record passed last, `cur` the next. -/
def PoolWork.merge (policy : PoolPolicy) (u : UnitId) (ed : Edition) :
    Nat → List ReadEntry → Option RecId → Option RecId → PoolWork → PoolWork
  | 0, _, _, _, w => w
  | _ + 1, [], _, none, w => w
  | fuel + 1, e :: rest, prev, none, w =>
    let (prev', w') := w.create policy u ed e prev none
    PoolWork.merge policy u ed fuel rest prev' none w'
  | fuel + 1, [], prev, some r, w =>
    PoolWork.merge policy u ed fuel [] prev w.records[r].link (w.lapse ed prev r)
  | fuel + 1, e :: rest, prev, some r, w =>
    let x := w.records[r]
    if e.code = x.code ∧ e.mode = x.mode then
      PoolWork.merge policy u ed fuel rest (some r) x.link (w.update ed e r)
    else if identLt e.code e.mode x.code x.mode then
      let (prev', w') := w.create policy u ed e prev (some r)
      PoolWork.merge policy u ed fuel rest prev' (some r) w'
    else PoolWork.merge policy u ed fuel (e :: rest) prev x.link (w.lapse ed prev r)

/-- A bound on the steps of one walk: every read entry and every record of the pool once. -/
def walkFuel (n : Nat) : Nat := n + Config.poolSize + 1

/-- The epoch step (R31): nothing under NEVER_READ or equal epochs, else the chain is retired as CLEARED. -/
def PoolWork.epochStep (entry : DirEntry) (epoch : Byte) (ed : Edition) (w : PoolWork) : PoolWork :=
  if entry.neverRead = true ∨ epoch = entry.epoch then w else w.retireAll .cleared ed (walkFuel 0)

/-- Epoch step and merge of one read list against a unit's chain (R28 steps 3 and 4). -/
def PoolWork.reconcile (policy : PoolPolicy) (u : UnitId) (entry : DirEntry) (epoch : Byte) (ed : Edition)
    (entries : List ReadEntry) (w : PoolWork) : PoolWork :=
  let w := w.epochStep entry epoch ed
  w.merge policy u ed (walkFuel entries.length) entries none w.chainHead

end Sys2Proof.Machine
end

