-- ==== Sys2Proof/Machine/PoolManager.lean ====
section
/-! DEFINITION. The pool manager's operations: their beginning and, each run to its end, COMMIT, SELF COMMIT, ERASE-CLEAR,
DELIST-RETIRE and RELEASE (R13, R21 to R24, R28, R38 to R48). -/

namespace Sys2Proof.Machine

/-! ### The beginning (R13) -/

/-- The earliest waiting offer is admitted at the tail (R11). -/
def Pool.admitWaiting (p : Pool) : Pool :=
  match p.waiting with
  | [] => p
  | r :: rest => { p with queue := p.queue ++ [r], waiting := rest }

/-- The applied edition of a RELEASE, formed at its beginning (R21). -/
def appliedEdition (lastClosed : Edition) : PoolRequest → Edition
  | .release e _ => bvMin e lastClosed
  | .commit _ _ _ _ _ _ => 0
  | .selfCommit _ => 0
  | .eraseClear _ _ _ _ _ => 0
  | .delistRetire _ _ => 0

/-- The head request leaves the queue and its operation begins: the summary revision becomes odd (R13, R15); the policy, the
snapshot of the self history and the last-closed edition are taken (R21, R24, R42). -/
def Pool.begin (self : SelfHistory) (lastClosed : Edition) (p : Pool) : Pool :=
  match p.op, p.queue with
  | none, r :: rest =>
    { ({ p with queue := rest }).admitWaiting with
      revision := p.revision + 1
      op := some { request := r, policy := p.policy, snapshot := self, applied := appliedEdition lastClosed r } }
  | _, _ => p

/-- POOL_OPERATION_BEGIN (R13); nothing while an operation runs or the queue is empty. -/
def execPoolOperationBegin (s : State) : Host.Outcome State Fault Refusal :=
  .next (partEvent (fun s => s.updPool (Pool.begin s.self s.sweep.lastClosed)) s)

/-! ### The end (R15, R20, R23) -/

/-- A 32-bit count raised by n that stops at its largest value (R20). -/
def satAdd32 (c : BitVec 32) (n : Nat) : BitVec 32 := BitVec.ofNat 32 (min 4294967295 (c.toNat + n))

/-- The summary takes its new values, its revision becomes even, and the operation is over (R15). -/
def Pool.finish (w : PoolWork) (p : Pool) : Pool :=
  { p with
    records := w.records, freeTop := w.freeTop, freeCount := w.freeCount, retHead := w.retHead, retTail := w.retTail,
    retCount := w.retCount, liveCount := w.liveCount, reclaimed := satAdd32 p.reclaimed w.reclaimed,
    revision := p.revision + 1, op := none }

/-- The free count has fallen below 64 (R23). -/
def crossesLow (before after : Nat) : Bool := decide (Config.poolLowMark ≤ before) && decide (after < Config.poolLowMark)

/-- The end of an operation at the summary, and POOL_LOW (R15, R23). -/
def State.finishPool (w : PoolWork) (s : State) : State :=
  let low := crossesLow s.pool.freeCount w.freeCount
  let s := s.updPool (Pool.finish w)
  if low then s.raiseAttn .poolLow else s

/-- POOL_EXHAUSTED occurrences of an operation (R40). -/
def State.logExhausted (w : PoolWork) (s : State) : State :=
  let s := if w.reclaimed ≠ 0 then s.logSelfNat .poolExhausted 1 else s
  if w.failed then s.logSelfNat .poolExhausted 0 else s

/-- The operation in progress ends when its command names its kind; any other command leaves the state as it is. -/
def runOperation (f : PoolOp → Option (State → State)) (s : State) : State :=
  match s.pool.op with
  | none => s
  | some o =>
    match f o with
    | some g => settledEvent g s
    | none => s

/-! ### COMMIT (R28, R38 to R41) -/

/-- The outcome of a commit (R38). -/
def commitOutcome (truncated : Bool) : UnitOutcome := if truncated then .readTruncated else .readOk

/-- The directory step of a commit (R39); a DELISTING unit stays DELISTING. -/
def DirEntry.committed (gen : Word) (epoch : Byte) (total : Nat) (truncated malformed : Bool) (ed : Edition) (w : PoolWork)
    (e : DirEntry) : DirEntry :=
  { e with
    state := endState .idle e, generation := gen, epoch := epoch, reportedTotal := total, liveCount := w.chainCount,
    chainHead := w.chainHead, neverRead := false, truncated := truncated, malformed := e.malformed || malformed,
    lastOutcome := commitOutcome truncated, lastRead := ed, lastSuccess := ed, restartCount := 0, holdCount := 0,
    absentStreak := 0, readsOk := satSucc 65535 e.readsOk }

/-- What screening, the epoch step and the merge leave of the pool (R28 steps 2 to 4). -/
def State.commitWork (policy : PoolPolicy) (u : UnitId) (epoch : Byte) (entries : List ReadEntry) (s : State) : PoolWork :=
  (PoolWork.start s.pool s.dir[u]).reconcile policy u s.dir[u] epoch s.sweep.counter (readList entries)

/-- A COMMIT runs to its end (R28). -/
def State.runCommit (policy : PoolPolicy) (k : CtxId) (u : UnitId) (gen : Word) (epoch : Byte) (total : Nat)
    (trunc : Bool) (s : State) : State :=
  let staged := stagedEntries s.ctxs[k].staging total
  let w := s.commitWork policy u epoch staged
  let truncated := trunc || w.failed
  let s := s.writeEntry u (DirEntry.committed gen epoch total truncated (screenDrops staged) s.sweep.counter w)
  let s := (s.finishPool w).logExhausted w
  let s := if s.dir[u].malformed then s.logSelfNat .protocolError u.val else s
  s.endCommitting k (commitOutcome truncated)

/-- COMMIT (R28). -/
def execCommit (s : State) : Host.Outcome State Fault Refusal :=
  .next (runOperation (fun o =>
    match o.request with
    | .commit k u gen epoch total trunc => some (State.runCommit o.policy k u gen epoch total trunc)
    | .selfCommit _ => none
    | .eraseClear _ _ _ _ _ => none
    | .delistRetire _ _ => none
    | .release _ _ => none) s)

/-! ### SELF COMMIT (R42, R43) -/

/-- The end of a SELF COMMIT is reported to its origin (R43). -/
def State.reportSelf (origin : SelfOrigin) (out : UnitOutcome) (s : State) : State :=
  match origin with
  | .sweep => s.sweepTake 0 out
  | .slot n => s.completeUnitOrder out n

/-- A SELF COMMIT runs to its end (R42, R43). -/
def State.runSelfCommit (policy : PoolPolicy) (h : SelfHistory) (origin : SelfOrigin) (s : State) : State :=
  let w := s.commitWork policy 0 h.epoch (snapshotEntries h)
  let s := s.writeEntry 0 (DirEntry.committed h.generation h.epoch h.entries.length w.failed false s.sweep.counter w)
  ((s.finishPool w).logExhausted w).reportSelf origin (commitOutcome w.failed)

/-- SELF_COMMIT (R42). -/
def execSelfCommit (s : State) : Host.Outcome State Fault Refusal :=
  .next (runOperation (fun o =>
    match o.request with
    | .selfCommit origin => some (State.runSelfCommit o.policy o.snapshot origin)
    | .commit _ _ _ _ _ _ => none
    | .eraseClear _ _ _ _ _ => none
    | .delistRetire _ _ => none
    | .release _ _ => none) s)

/-! ### ERASE-CLEAR (R44, R45) -/

/-- The directory write of an ERASE-CLEAR (R44). -/
def DirEntry.eraseCleared (gen : Word) (epoch : Byte) (e : DirEntry) : DirEntry :=
  { e with
    state := endState .idle e, generation := gen, epoch := epoch, reportedTotal := 0, liveCount := 0, chainHead := none,
    lastOutcome := .erased, restartCount := 0, holdCount := 0 }

/-- The pool after a unit's whole live chain has been retired (R44, R46). -/
def State.retireWork (st : RecState) (u : UnitId) (s : State) : PoolWork :=
  (PoolWork.start s.pool s.dir[u]).retireAll st s.sweep.counter (walkFuel 0)

/-- An ERASE-CLEAR runs to its end (R44); for unit 0 no context takes part (R45). -/
def State.runEraseClear (u : UnitId) (gen : Word) (epoch : Byte) (n : SlotId) (ctx : Option CtxId) (s : State) : State :=
  let w := s.retireWork .cleared u
  let s := (s.writeEntry u (DirEntry.eraseCleared gen epoch)).finishPool w
  match ctx with
  | some k => s.endCommitting k .erased
  | none => s.completeUnitOrder .erased n

/-- ERASE_CLEAR (R44). -/
def execEraseClear (s : State) : Host.Outcome State Fault Refusal :=
  .next (runOperation (fun o =>
    match o.request with
    | .eraseClear u gen epoch n ctx => some (State.runEraseClear u gen epoch n ctx)
    | .commit _ _ _ _ _ _ => none
    | .selfCommit _ => none
    | .delistRetire _ _ => none
    | .release _ _ => none) s)

/-! ### DELIST-RETIRE (R46) -/

/-- The write that makes an entry VACANT; its revision goes on counting (R50, R51). -/
def DirEntry.vacated (e : DirEntry) : DirEntry := { DirEntry.vacant with revision := e.revision }

/-- A DELIST-RETIRE runs to its end; the order reports the records retired (R46, R171), with result code OK
(notes/assumptions/30.md). -/
def State.runDelistRetire (u : UnitId) (n : SlotId) (s : State) : State :=
  let w := s.retireWork .delisted u
  let retired := w.retCount - s.pool.retCount
  let s := (s.writeEntry u DirEntry.vacated).finishPool w
  s.doneSlot n { code := 0, w0 := BitVec.ofNat 16 retired } s.sweep.counter

/-- DELIST_RETIRE (R46). -/
def execDelistRetire (s : State) : Host.Outcome State Fault Refusal :=
  .next (runOperation (fun o =>
    match o.request with
    | .delistRetire u n => some (State.runDelistRetire u n)
    | .commit _ _ _ _ _ _ => none
    | .selfCommit _ => none
    | .eraseClear _ _ _ _ _ => none
    | .release _ _ => none) s)

/-! ### RELEASE (R21, R22) -/

/-- The pool after a release up to the applied edition (R21). -/
def State.releaseWork (applied : Edition) (s : State) : PoolWork :=
  (PoolWork.start s.pool DirEntry.vacant).releaseUpTo applied (walkFuel 0)

/-- A RELEASE runs to its end and completes its order (R22, R175), with result code OK (notes/assumptions/30.md). -/
def State.runRelease (applied : Edition) (n : SlotId) (s : State) : State :=
  let w := s.releaseWork applied
  let freed := w.freeCount - s.pool.freeCount
  let s := s.finishPool w
  s.doneSlot n { code := 0, w0 := applied.extractLsb' 0 16, w1 := applied.extractLsb' 16 16,
                 w2 := BitVec.ofNat 16 freed } s.sweep.openEdition

/-- RELEASE (R21). -/
def execRelease (s : State) : Host.Outcome State Fault Refusal :=
  .next (runOperation (fun o =>
    match o.request with
    | .release _ n => some (State.runRelease o.applied n)
    | .commit _ _ _ _ _ _ => none
    | .selfCommit _ => none
    | .eraseClear _ _ _ _ _ => none
    | .delistRetire _ _ => none) s)

end Sys2Proof.Machine
end

