-- ==== Sys2Proof/Machine/Protocol.lean ====
section
/-! DEFINITION. The staging write port and the answers of units: routing, the phase table, and what an accepted frame does
(R75 to R82, R85 to R87, R107, R110, R111, R125). -/

namespace Sys2Proof.Machine

/-! ### The port (R125, R85) -/

/-- The channel after `c`, counted modulo 4. -/
def nextChan (c : ChanId) (i : Nat) : ChanId := ⟨(c.val + i) % 4, Nat.mod_lt _ (by decide)⟩

/-- The channel whose turn it is: the first holding a frame after the one served last (R125). -/
def State.portTurn (s : State) : Option ChanId :=
  [nextChan s.portLast 1, nextChan s.portLast 2, nextChan s.portLast 3, nextChan s.portLast 4].find? fun c =>
    !s.chans[c].fifo.isEmpty

/-- Whether a frame of a channel matches the context its tag names (R85); a frozen context takes none (R115). -/
def State.matchesCtx (s : State) (ch : ChanId) (f : Frame) : Bool :=
  let c := s.ctxs[f.tagCtx]
  !s.resetting && c.state.takesFrames && c.channel == ch && s.dir[c.target].address == f.source && c.parity == f.tagParity

/-- The frame leaves its FIFO, and is handed to its context or counted stray (R85, R126). -/
def State.portPass (ch : ChanId) (f : Frame) (rest : List Frame) (h : CtxId → Frame → State → State) (s : State) :
    State :=
  let s := { s.updChan ch (fun c => { c with fifo := rest }) with portLast := ch }
  if s.matchesCtx ch f then h f.tagCtx f s else s.updChan ch Channel.countStray

/-- The port takes the frame whose turn it is, if it is of the kind named and no operation holds the port (R14, R125). -/
def portTake (kind : RxKind) (h : CtxId → Frame → State → State) (s : State) : State :=
  match s.pool.op, s.portTurn with
  | none, some ch =>
    match s.chans[ch].fifo with
    | f :: rest => if f.rxKind = some kind then settledEvent (State.portPass ch f rest h) s else s
    | [] => s
  | _, _ => s

/-- How a frame in a context is met before its content is looked at: STOPPING takes a CLOSE and discards the rest (R81);
a frame too short for its kind is malformed (R86); otherwise `h` takes it. -/
def State.meet (kind : RxKind) (h : CtxId → Frame → State → State) (k : CtxId) (f : Frame) (s : State) : State :=
  if s.ctxs[k].state = .stopping then (if kind = .close then s.endContext k .stopped else s)
  else if f.short kind then s.markMalformed k
  else h k f s

/-! ### GRANT (R75, R76, R101) -/

/-- The frame's generation and epoch are those recorded at the opening's first GRANT (R83). -/
def Context.agrees (f : Frame) (c : Context) : Bool :=
  c.generation == f.grantGeneration && c.epoch == f.grantEpoch

/-- A total clamped to 64. -/
def Frame.clampedTotal (f : Frame) : Nat := min 64 f.grantTotal

/-- The current segment is a later one of its opening. -/
def Context.laterSegment (c : Context) : Bool := decide (c.segFirst ≠ 0)

/-- The total a GRANT in OPENING is checked against: the recorded one on a later segment (R75). -/
def Context.totalFor (f : Frame) (c : Context) : Nat := if c.laterSegment then c.total else Frame.clampedTotal f

/-- The count check (R75). -/
def Context.countOk (f : Frame) (c : Context) : Bool :=
  (decide (1 ≤ f.grantCount) && decide (f.grantCount ≤ c.countAsked) && decide (c.segFirst + f.grantCount ≤ c.totalFor f)) ||
    (decide (f.grantCount = 0) && decide (c.totalFor f ≤ c.segFirst))

/-- An accepted GRANT (R75, R101). -/
def Context.grant (now : Clock) (f : Frame) (c : Context) : Context :=
  let c := if c.laterSegment then c
    else { c with generation := f.grantGeneration, epoch := f.grantEpoch, total := Frame.clampedTotal f,
                  truncMark := decide (64 < f.grantTotal) }
  ({ c with state := .receiving, granted := f.grantCount, mendRound := 0 }).startTimer now .gap c.useGap

/-- A GRANT in OPENING (R75, R100). -/
def State.grantOpening (k : CtxId) (f : Frame) (s : State) : State :=
  let c := s.ctxs[k]
  if c.laterSegment && !c.agrees f then s.restart k
  else if c.laterSegment && Frame.clampedTotal f != c.total then s.markMalformed k
  else if c.countOk f then (s.detach k).updCtx k (Context.grant s.clock f)
  else s.markMalformed k

/-- A GRANT in RECEIVING or MENDING (R76). -/
def State.grantCompared (k : CtxId) (f : Frame) (s : State) : State :=
  let c := s.ctxs[k]
  if !c.agrees f then s.restart k
  else if Frame.clampedTotal f = c.total ∧ f.grantCount = c.granted then s
  else s.markMalformed k

def State.takeGrant (k : CtxId) (f : Frame) (s : State) : State :=
  match s.ctxs[k].purpose, s.ctxs[k].state with
  | .erase, _ => s.markMalformed k
  | .read, .opening => s.grantOpening k f
  | .read, .receiving => s.grantCompared k f
  | .read, .mending => s.grantCompared k f
  | .read, .free => s
  | .read, .paced => s
  | .read, .stopping => s
  | .read, .committing => s

/-- GRANT (R75). -/
def execGrant (s : State) : Host.Outcome State Fault Refusal :=
  .next (portTake .grant (State.meet .grant State.takeGrant) s)

/-! ### HOLD (R80, R107, R111) -/

/-- The directory write of a hold below the limit (R56). -/
def DirEntry.heldFor (until_ : Clock) (e : DirEntry) : DirEntry :=
  { e with state := .held, holdCount := e.holdCount + 1, holdUntil := until_, holdRunOut := false }

/-- The hold count raised by 1. -/
def DirEntry.countHold (e : DirEntry) : DirEntry := { e with holdCount := satSucc Config.holdLimit e.holdCount }

/-- A HOLD accepted by a read context (R56, R107). -/
def State.holdRead (k : CtxId) (f : Frame) (s : State) : State :=
  let u := s.ctxs[k].target
  let s := s.detach k
  if s.dir[u].holdCount + 1 < Config.holdLimit then
    (s.writeEntry u (DirEntry.heldFor (clockAfter s.clock f.holdMs))).freeContext k
  else s.endReadWith DirEntry.countHold k .heldOut

/-- A HOLD accepted by an erase context (R58, R111). -/
def State.holdErase (k : CtxId) (f : Frame) (s : State) : State :=
  let u := s.ctxs[k].target
  let s := (s.detach k).writeEntry u DirEntry.countHold
  if s.dir[u].holdCount < Config.holdLimit then s.updCtx k (Context.startTimer s.clock .hold f.holdMs)
  else s.endErase k .heldOut

/-- How a HOLD is met by purpose and state (R87); in RECEIVING it is discarded whatever its reason (notes/assumptions/11.md). -/
def State.takeHold (k : CtxId) (f : Frame) (s : State) : State :=
  match s.ctxs[k].purpose, s.ctxs[k].state with
  | .erase, _ => if f.holdReasonOk then s.holdErase k f else s.markMalformed k
  | .read, .opening => if f.holdReasonOk then s.holdRead k f else s.markMalformed k
  | .read, .mending => if f.holdReasonOk then s.holdRead k f else s.markMalformed k
  | .read, .receiving => s
  | .read, .free => s
  | .read, .paced => s
  | .read, .stopping => s
  | .read, .committing => s

/-- HOLD (R80). -/
def execHold (s : State) : Host.Outcome State Fault Refusal :=
  .next (portTake .hold (State.meet .hold State.takeHold) s)

/-! ### ENTRY_A and ENTRY_B (R77, R104) -/

/-- The gap window restarts at a stored half, but for a half stored before the round's PICK has been sent (R89, R104). -/
def Context.restartGap (now : Clock) (c : Context) : Context :=
  if c.window.isSome then c.startTimer now .gap c.useGap else c

/-- A half for an index: stored in the granted range, discarded below the segment, malformed beyond it (R77). -/
def State.storeHalf (k : CtxId) (f : Frame) (g : Place → Place) (s : State) : State :=
  let c := s.ctxs[k]
  if f.entryIndex < c.segFirst then s
  else if f.entryIndex < c.segFirst + c.granted then
    s.updCtx k fun c => (c.setPlace f.entryIndex g).restartGap s.clock
  else s.markMalformed k

/-- The phase table's row for entry halves (R87). -/
def State.takeHalf (g : Frame → Place → Place) (k : CtxId) (f : Frame) (s : State) : State :=
  match s.ctxs[k].purpose, s.ctxs[k].state with
  | .erase, _ => s.markMalformed k
  | .read, .receiving => s.storeHalf k f (g f)
  | .read, .mending => s.storeHalf k f (g f)
  | .read, .opening => s
  | .read, .free => s
  | .read, .paced => s
  | .read, .stopping => s
  | .read, .committing => s

/-- Half A takes its place (R77). -/
def setHalfA (f : Frame) (p : Place) : Place := { p with halfA := some f.halfA }
/-- Half B takes its place (R77). -/
def setHalfB (f : Frame) (p : Place) : Place := { p with halfB := some f.halfB }

/-- ENTRY_A (R77). -/
def execEntryA (s : State) : Host.Outcome State Fault Refusal :=
  .next (portTake .entryA (State.meet .entryA (State.takeHalf setHalfA)) s)

/-- ENTRY_B (R77). -/
def execEntryB (s : State) : Host.Outcome State Fault Refusal :=
  .next (portTake .entryB (State.meet .entryB (State.takeHalf setHalfB)) s)

/-! ### CLOSE (R78, R102, R104) -/

/-- The round's PICK has not been sent: MENDING with no window running (R93, R104). -/
def Context.pickUnsent (c : Context) : Bool := c.state == .mending && c.window.isNone

/-- A CLOSE in RECEIVING or MENDING (R78); one accepted while the PICK is unsent applies no test (R104). -/
def State.closeSegment (k : CtxId) (f : Frame) (s : State) : State :=
  let c := s.ctxs[k]
  if !c.agrees f then s.restart k
  else if Frame.clampedTotal f ≠ c.total ∨ c.granted < f.grantCount then s.markMalformed k
  else if c.pickUnsent then s
  else s.completionTest k

def State.takeClose (k : CtxId) (f : Frame) (s : State) : State :=
  match s.ctxs[k].purpose, s.ctxs[k].state with
  | .erase, _ => s.markMalformed k
  | .read, .receiving => s.closeSegment k f
  | .read, .mending => s.closeSegment k f
  | .read, .opening => s
  | .read, .free => s
  | .read, .paced => s
  | .read, .stopping => s
  | .read, .committing => s

/-- CLOSE (R78). -/
def execClose (s : State) : Host.Outcome State Fault Refusal :=
  .next (portTake .close (State.meet .close State.takeClose) s)

/-! ### ERASED (R82, R110) -/

/-- The slot of the one order an erase context serves. -/
def Context.eraseSlot (c : Context) : SlotId :=
  match slotsOf c.attached with
  | n :: _ => n
  | [] => 0

/-- An ERASED accepted: COMMITTING, and the ERASE-CLEAR offered (R110, R44). -/
def State.acceptErased (k : CtxId) (f : Frame) (s : State) : State :=
  let s := (s.detach k).updCtx k fun c =>
    { c with state := .committing, generation := f.erasedGeneration, epoch := f.erasedEpoch }
  s.offer (.eraseClear s.ctxs[k].target f.erasedGeneration f.erasedEpoch s.ctxs[k].eraseSlot (some k))

def State.takeErased (k : CtxId) (f : Frame) (s : State) : State :=
  match s.ctxs[k].purpose with
  | .read => s.markMalformed k
  | .erase => s.acceptErased k f

/-- ERASED (R82). -/
def execErased (s : State) : Host.Outcome State Fault Refusal :=
  .next (portTake .erased (State.meet .erased State.takeErased) s)

end Sys2Proof.Machine
end

