-- ==== Sys2Proof/Machine/Resets.lean ====
section
/-! DEFINITION. The full reset and the end of an engine reset (R62, R115, R132, R161, R177, R183, R184). -/

namespace Sys2Proof.Machine

/-! ### Full reset (R183) -/

/-- The part while a cause of full reset persists and initialisation runs: reset values, START not yet set, ATTN_N released. -/
def State.initialisation : State :=
  { State.reset with
    port := { HostPort.fresh with initialising := true, attention := 0, attnLow := false }
    orders := { OrderEngine.fresh with start := false } }

/-- FULL_RESET (R183): whatever the part was doing is abandoned; the commands that wait outside are kept. -/
def execFullReset (s : State) : Host.Outcome State Fault Refusal :=
  .next { State.initialisation with pending := s.pending }

/-- INITIALISATION_END (R183). -/
def execInitialisationEnd (s : State) : Host.Outcome State Fault Refusal :=
  .next (if s.port.initialising then { State.reset with pending := s.pending } else s)

/-! ### The steps of an engine reset (R184 stage 3) -/

/-- Every context FREE, keeping its parity (R115). -/
def State.resetContexts (s : State) : State :=
  forEach allCtxs (fun k s => s.updCtx k fun c => Context.freed c.revision c.parity) s

/-- A channel in its reset state; one that was off its bus has its BUS_OFF entry cleared of ACTIVE_NOW (R70, R132). -/
def State.resetChannel (ch : ChanId) (s : State) : State :=
  let silent := s.chans[ch].state.silent
  let s := s.updChan ch fun c => Channel.fresh c.revision
  if silent then s.clearBusOffActive ch else s

/-- A sweep that is not IDLE ends with outcome RESET; its tallies stand (R161). -/
def SweepCtl.resetEnd (now : Clock) (w : SweepCtl) : SweepCtl :=
  if w.state = .idle then w else { w with state := .idle, outcome := .reset, endClock := now, budgetTimer := none }

/-- The reset's close of an open edition (R161). -/
def State.resetClose (s : State) : State :=
  if s.sweep.openEdition = 0 then s
  else (s.updSweep (SweepCtl.closed s.clock .reset)).raiseAttn .editionClosed

/-- The directory's reset step (R62); the mark shares the one write (notes/assumptions/28.md). -/
def DirEntry.resetStep (e : DirEntry) : DirEntry :=
  match e.state with
  | .reading => { e with state := .idle, lastOutcome := .reset, holdRunOut := false, mark := .none }
  | .erasing => { e with state := .idle, lastOutcome := .reset, holdRunOut := false, mark := .none }
  | .held => { e with state := .idle, lastOutcome := .reset, holdRunOut := false, mark := .none }
  | .delisting => { e with state := .idle, lastOutcome := .reset, holdRunOut := false, mark := .none }
  | .vacant => { e with mark := .none }
  | .idle => { e with mark := .none }
  | .absent => { e with mark := .none }
  | .faulty => { e with mark := .none }

/-- The policy becomes KEEP (R24, R25); the write of a changed field steps the summary revision. -/
def Pool.keepPolicy (p : Pool) : Pool := if p.policy = .keep then p else { p with policy := .keep, revision := p.revision + 2 }

/-- A slot still TAKEN, other than the RESET PART slot, is refused RESET_ABORTED (R177). -/
def State.abortSlot (n : SlotId) (s : State) : State :=
  match s.orders.taken[n] with
  | some t => if t.order = .resetPart then s else s.refuseSlot n .resetAborted 0 t.edition
  | none => s

/-- The order engine's reset step (R177). -/
def State.resetOrders (n : SlotId) (s : State) : State :=
  let s := (forEach allSlots State.abortSlot s).doneSlot n { code := 0 } s.sweep.openEdition
  (s.updOrders fun o => { o with start := true, scanHalt := none, resetting := none }).raiseAttn .start

/-- The reset steps, in the order of R184. -/
def State.resetSteps (n : SlotId) (s : State) : State :=
  let s := forEach allChans State.resetChannel s.resetContexts
  let s := (({ s with portLast := 3, timing := Timing.fresh }).updSweep (SweepCtl.resetEnd s.clock)).resetClose
  let s := forEach allUnits (fun u s => s.writeEntry u DirEntry.resetStep) s
  (s.updPool Pool.keepPolicy).resetOrders n

/-- The pool manager has worked through its queue and its waiting offers (R25). -/
def Pool.drained (p : Pool) : Bool := p.op.isNone && p.queue.isEmpty && p.waiting.isEmpty

/-- ENGINE_RESET_END (R184): nothing while no engine reset is in progress or the pool still works. -/
def execEngineResetEnd (s : State) : Host.Outcome State Fault Refusal :=
  .next (match s.orders.resetting with
    | some n => if s.pool.drained then partEvent (State.resetSteps n) s else s
    | none => s)

end Sys2Proof.Machine
end

