-- ==== Sys2Proof/Machine/Windows.lean ====
section
/-! DEFINITION. The expiries of the contexts' windows and of the sweep controller's timers (R88 to R90, R100, R103, R104,
R110, R111, R152, R160). -/

namespace Sys2Proof.Machine

/-- An expiry of a context's window: it takes place when that window runs and the context is not frozen (R88, R115). -/
def windowExpiry (k : CtxId) (kind : WindowKind) (f : CtxId → State → State) (s : State) : State :=
  match s.ctxs[k].window with
  | some (w, t) => if w = kind ∧ s.resetting = false then settledEvent (fun s => f k (s.advanceTo t)) s else s
  | none => s

/-! ### Answer and gap windows -/

/-- The same OPEN or ERASE is asked for again (R100, R110). -/
def State.resend (k : CtxId) (need : Nat) (s : State) : State :=
  (s.updCtx k fun c => { c with attempt := c.attempt + 1, window := none }).joinLine k need

/-- Silence after an OPEN (R100). -/
def State.openSilence (k : CtxId) (s : State) : State :=
  let c := s.ctxs[k]
  if c.attempt < Config.maxAttempts then s.resend k c.countAsked
  else if c.segFirst = 0 ∧ c.firstOpening = true then s.endRead k .absent
  else s.restart k

/-- Silence after an ERASE (R110). -/
def State.eraseSilence (k : CtxId) (s : State) : State :=
  if s.ctxs[k].attempt < Config.maxAttempts then s.resend k 1 else s.endErase k .absent

/-- Silence in MENDING (R104). -/
def State.mendSilence (k : CtxId) (s : State) : State :=
  if s.ctxs[k].mendRound < Config.maxMendRounds then s.startMending k (s.ctxs[k].mendRound + 1) else s.restart k

def State.answerExpired (k : CtxId) (s : State) : State :=
  match s.ctxs[k].state, s.ctxs[k].purpose with
  | .opening, .read => s.openSilence k
  | .opening, .erase => s.eraseSilence k
  | .mending, _ => s.mendSilence k
  | .free, _ => s
  | .paced, _ => s
  | .receiving, _ => s
  | .stopping, _ => s
  | .committing, _ => s

/-- ANSWER_WINDOW_EXPIRY (R100, R104, R110). -/
def execAnswerWindowExpiry (k : CtxId) (s : State) : Host.Outcome State Fault Refusal :=
  .next (windowExpiry k .answer State.answerExpired s)

def State.gapExpired (k : CtxId) (s : State) : State :=
  match s.ctxs[k].state with
  | .receiving => s.startMending k (s.ctxs[k].mendRound + 1)
  | .mending => s.mendSilence k
  | .free => s
  | .paced => s
  | .opening => s
  | .stopping => s
  | .committing => s

/-- GAP_WINDOW_EXPIRY (R103, R104). -/
def execGapWindowExpiry (k : CtxId) (s : State) : Host.Outcome State Fault Refusal :=
  .next (windowExpiry k .gap State.gapExpired s)

/-! ### Stop and hold windows -/

def State.stopExpired (k : CtxId) (s : State) : State :=
  if s.ctxs[k].state = .stopping then s.endContext k .stopped else s

/-- STOP_WINDOW_EXPIRY (R90). -/
def execStopWindowExpiry (k : CtxId) (s : State) : Host.Outcome State Fault Refusal :=
  .next (windowExpiry k .stop State.stopExpired s)

/-- An erase's hold wait ends: attempt 1, and 1 credit asked for (R111). -/
def State.holdExpired (k : CtxId) (s : State) : State :=
  (s.updCtx k fun c => { c with attempt := 1, window := none }).joinLine k 1

/-- HOLD_WINDOW_EXPIRY (R111). -/
def execHoldWindowExpiry (k : CtxId) (s : State) : Host.Outcome State Fault Refusal :=
  .next (windowExpiry k .hold State.holdExpired s)

/-! ### Budget and schedule timers -/

/-- BUDGET_TIMER_EXPIRY (R152). -/
def execBudgetTimerExpiry (s : State) : Host.Outcome State Fault Refusal :=
  .next (match s.sweep.budgetTimer with
    | some t =>
      if s.sweep.state = .running ∨ s.sweep.state = .paused then
        settledEvent (fun s => (s.advanceTo t).enterDraining .budget) s
      else s
    | none => s)

/-- The timer restarts with the same period (R160). -/
def SweepCtl.restartSchedule (t : Clock) (w : SweepCtl) : SweepCtl :=
  { w with scheduleTimer := some (clockAfter t (w.schedPeriod * 60000)) }

/-- What else a schedule expiry does (R160). -/
def State.scheduleDue (s : State) : State :=
  if s.orders.start then s
  else if s.sweep.state = .idle then s.startSweep .schedule s.sweep.schedMask s.sweep.schedBudget
  else s.updSweep fun w => { w with autoDue := true }

/-- SCHEDULE_TIMER_EXPIRY (R160). -/
def execScheduleTimerExpiry (s : State) : Host.Outcome State Fault Refusal :=
  .next (match s.sweep.scheduleTimer with
    | some t => settledEvent (fun s => ((s.advanceTo t).updSweep (SweepCtl.restartSchedule t)).scheduleDue) s
    | none => s)

end Sys2Proof.Machine
end

