-- ==== Sys2Proof/Machine/Dispatch.lean ====
section
/-! DEFINITION. exec: one arm per command, each one call of its meaning. -/

namespace Sys2Proof.Machine

def exec (i : Instr) (s : State) : Host.Outcome State Fault Refusal :=
  match i with
  | .fullReset => Sys2Proof.Machine.execFullReset s
  | .initialisationEnd => Sys2Proof.Machine.execInitialisationEnd s
  | .signalWrite value => Sys2Proof.Machine.execSignalWrite value s
  | .attentionWrite value => Sys2Proof.Machine.execAttentionWrite value s
  | .attnMaskWrite value => Sys2Proof.Machine.execAttnMaskWrite value s
  | .clockLoRead => Sys2Proof.Machine.execClockLoRead s
  | .registerWriteIgnored addr value => Sys2Proof.Machine.execRegisterWriteIgnored addr value s
  | .slotStateWrite slot value => Sys2Proof.Machine.execSlotStateWrite slot value s
  | .hostMemoryWrite addr value => Sys2Proof.Machine.execHostMemoryWrite addr value s
  | .orderScanTimerExpiry => Sys2Proof.Machine.execOrderScanTimerExpiry s
  | .poolOperationBegin => Sys2Proof.Machine.execPoolOperationBegin s
  | .commit => Sys2Proof.Machine.execCommit s
  | .selfCommit => Sys2Proof.Machine.execSelfCommit s
  | .eraseClear => Sys2Proof.Machine.execEraseClear s
  | .delistRetire => Sys2Proof.Machine.execDelistRetire s
  | .release => Sys2Proof.Machine.execRelease s
  | .holdRunOut target => Sys2Proof.Machine.execHoldRunOut target s
  | .frameReceived ch frame => Sys2Proof.Machine.execFrameReceived ch frame s
  | .receiveError ch => Sys2Proof.Machine.execReceiveError ch s
  | .transmitError ch kind => Sys2Proof.Machine.execTransmitError ch kind s
  | .recoveryHoldExpiry ch => Sys2Proof.Machine.execRecoveryHoldExpiry ch s
  | .recoveryComplete ch => Sys2Proof.Machine.execRecoveryComplete ch s
  | .frameSent ch => Sys2Proof.Machine.execFrameSent ch s
  | .loadWindowExpiry ch => Sys2Proof.Machine.execLoadWindowExpiry ch s
  | .pacingTimerExpiry ch => Sys2Proof.Machine.execPacingTimerExpiry ch s
  | .settleTimerExpiry ch => Sys2Proof.Machine.execSettleTimerExpiry ch s
  | .grant => Sys2Proof.Machine.execGrant s
  | .hold => Sys2Proof.Machine.execHold s
  | .entryA => Sys2Proof.Machine.execEntryA s
  | .entryB => Sys2Proof.Machine.execEntryB s
  | .close => Sys2Proof.Machine.execClose s
  | .erased => Sys2Proof.Machine.execErased s
  | .answerWindowExpiry ctx => Sys2Proof.Machine.execAnswerWindowExpiry ctx s
  | .gapWindowExpiry ctx => Sys2Proof.Machine.execGapWindowExpiry ctx s
  | .stopWindowExpiry ctx => Sys2Proof.Machine.execStopWindowExpiry ctx s
  | .holdWindowExpiry ctx => Sys2Proof.Machine.execHoldWindowExpiry ctx s
  | .budgetTimerExpiry => Sys2Proof.Machine.execBudgetTimerExpiry s
  | .scheduleTimerExpiry => Sys2Proof.Machine.execScheduleTimerExpiry s
  | .engineResetEnd => Sys2Proof.Machine.execEngineResetEnd s
  | .transmissionBegin ch => Sys2Proof.Machine.execTransmissionBegin ch s

end Sys2Proof.Machine
end

