-- ==== Sys2Proof/Machine/View.lean ====
section
/-! DEFINITION. What the host reads: every region of exchange memory and every register (R92, R131, R145, R178, R179, R182,
R183, chapter 12). -/

namespace Sys2Proof.Machine

/-! ### Bytes -/

/-- A multi-byte field, low byte first (chapter 12). -/
def le16 (n : Nat) : List Byte := [BitVec.ofNat 8 n, BitVec.ofNat 8 (n / 256)]
def le24 (n : Nat) : List Byte := le16 n ++ [BitVec.ofNat 8 (n / 65536)]
def le32 (n : Nat) : List Byte := le16 n ++ le16 (n / 65536)
def byte1 (n : Nat) : List Byte := [BitVec.ofNat 8 n]
/-- Bytes marked "not used" read 0. -/
def unused (n : Nat) : List Byte := List.replicate n 0
def flag (i : Nat) (b : Bool) : Nat := if b then 2 ^ i else 0
/-- A record index, or 0xFFFF for none. -/
def recWord (r : Option RecId) : Nat := match r with
  | some i => i.val
  | none => 65535

/-! ### Encodings of 12.2 and 12.6 to 12.9 -/

def SweepState.code : SweepState → Nat
  | .idle => 0
  | .running => 1
  | .paused => 2
  | .draining => 3

def SweepOrigin.code : SweepOrigin → Nat
  | .slot n => n.val
  | .schedule => 16

def CloseCause.code : CloseCause → Nat
  | .none => 0
  | .normal => 1
  | .reset => 2

def UnitState.code : UnitState → Nat
  | .vacant => 0
  | .idle => 1
  | .reading => 2
  | .held => 3
  | .absent => 4
  | .faulty => 5
  | .erasing => 6
  | .delisting => 7

def SweepMark.code : SweepMark → Nat
  | .none => 0
  | .pending => 1
  | .done => 2
  | .skipped => 3

def RecState.code : RecState → Nat
  | .free => 0
  | .active => 1
  | .stored => 2
  | .cleared => 3
  | .lapsed => 4
  | .delisted => 5

def ChanState.code : ChanState → Nat
  | .off => 0
  | .active => 1
  | .passive => 2
  | .busOff => 3
  | .recovering => 4

def CtxState.code : CtxState → Nat
  | .free => 0
  | .paced => 1
  | .opening => 2
  | .receiving => 3
  | .mending => 4
  | .stopping => 5
  | .committing => 6

def Purpose.code : Purpose → Nat
  | .read => 0
  | .erase => 1

/-- The frame queued field; a WAKE belongs to no context (12.8). -/
def frameCode : Option TxKind → Nat
  | none => 0
  | some .openFrame => 1
  | some .pickFrame => 2
  | some .stopFrame => 3
  | some .eraseFrame => 4
  | some .wakeFrame => 0

def windowCode : Option (WindowKind × Clock) → Nat
  | none => 0
  | some (.answer, _) => 1
  | some (.gap, _) => 2
  | some (.stop, _) => 3
  | some (.hold, _) => 4

def windowExpiryOf : Option (WindowKind × Clock) → Nat
  | none => 0
  | some (_, t) => t.toNat

/-! ### Blocks -/

/-- The pool summary, from 0x0410 (12.2). -/
def Pool.bytes (p : Pool) : List Byte :=
  byte1 p.revision.toNat ++ byte1 p.policy.code ++ le16 (recWord p.freeTop) ++ le16 p.freeCount ++
    le16 (recWord p.retHead) ++ le16 (recWord p.retTail) ++ le16 p.retCount ++ le16 p.liveCount ++ unused 2 ++
    le32 p.reclaimed.toNat

def Tallies.bytes (t : Tallies) : List Byte :=
  byte1 t.readOk ++ byte1 t.truncated ++ byte1 t.absent ++ byte1 t.heldOut ++ byte1 t.faulty ++ byte1 t.stopped ++
    byte1 t.channelLost ++ byte1 t.skipped

/-- The sweep record, edition fields and schedule, from 0x0440 (12.2). -/
def SweepCtl.bytes (w : SweepCtl) : List Byte :=
  byte1 w.revision.toNat ++ byte1 w.state.code ++ byte1 w.origin.code ++ byte1 w.outcome.code ++ byte1 w.mask.toNat ++
    byte1 (flag 0 w.autoDue) ++ le16 w.budget ++ le32 w.edition.toNat ++ le32 w.startClock.toNat ++
    le32 w.endClock.toNat ++ w.tallies.bytes ++ le32 w.counter.toNat ++ le32 w.openEdition.toNat ++
    le32 w.openClock.toNat ++ le32 w.lastClosed.toNat ++ le32 w.closeClock.toNat ++ byte1 w.closeCause.code ++
    byte1 w.schedMask.toNat ++ le16 w.schedPeriod ++ le16 w.schedBudget

/-- The scan halt field: NONE 0, slot n as n + 1 (12.2). -/
def haltCode : Option SlotId → Nat
  | none => 0
  | some n => n.val + 1

/-- A directory entry (12.6); unit 0 has no channel. -/
def DirEntry.bytes (u : UnitId) (e : DirEntry) : List Byte :=
  byte1 e.revision.toNat ++ byte1 e.state.code ++ byte1 (if u = 0 then 255 else e.channel.val) ++
    byte1 e.address.toNat ++ le16 e.label.toNat ++ byte1 e.cls.val ++
    byte1 (flag 0 e.neverRead + flag 1 e.truncated + flag 2 e.malformed) ++ le16 e.generation.toNat ++
    byte1 e.epoch.toNat ++ byte1 e.reportedTotal ++ byte1 e.liveCount ++ byte1 e.mark.code ++
    le16 (recWord e.chainHead) ++ byte1 e.lastOutcome.code ++ byte1 e.holdCount ++ byte1 e.absentStreak ++
    byte1 e.restartCount ++ le32 e.holdUntil.toNat ++ le32 e.lastRead.toNat ++ le32 e.lastSuccess.toNat ++ le16 e.readsOk

/-- A fault record (12.7). -/
def FaultRecord.bytes (x : FaultRecord) : List Byte :=
  byte1 x.revision.toNat ++ byte1 x.state.code ++ byte1 x.owner.val ++
    byte1 (flag 0 x.activeNow + flag 1 x.confirmed + flag 2 x.lamp + flag 7 x.saturated) ++ le24 x.code.toNat ++
    byte1 x.mode.toNat ++ le24 x.cumulative.toNat ++ byte1 x.lastCount.toNat ++ le24 x.firstOdo.toNat ++
    le24 x.lastOdo.toNat ++ le16 (recWord x.link) ++ le32 x.created.toNat ++ le32 x.changed.toNat ++ le32 x.retired.toNat

/-- A channel status block (12.8). -/
def Channel.bytes (c : Channel) : List Byte :=
  byte1 c.revision.toNat ++ byte1 c.state.code ++ byte1 c.txErrors ++ byte1 c.rxErrors ++ byte1 c.settings.bitRate.code ++
    byte1 c.settings.address.toNat ++ byte1 c.settings.policy.code ++
    byte1 (flag 0 c.settings.wake + flag 1 c.settling) ++ byte1 c.settings.limit ++ unused 1 ++
    le16 c.settings.recoveryHold ++ le16 c.lastLoad ++ le16 c.lastFrames ++ le16 c.pacer.target ++ le16 c.pacer.current ++
    byte1 c.pacer.credits ++ unused 1 ++ le16 c.strayTally ++ le16 c.overflowTally

/-- A context view (12.8). -/
def CtxView.bytes (revision : BitVec 8) (v : CtxView) : List Byte :=
  byte1 revision.toNat ++ byte1 v.state.code ++ byte1 v.target ++ byte1 v.channel ++ byte1 v.purpose.code ++
    byte1 (flag 0 v.parity + flag 1 v.firstOpening + flag 2 v.truncMark) ++ byte1 v.tag.toNat ++ byte1 v.origin ++
    le16 v.attached.toNat ++ le16 v.generation.toNat ++ byte1 v.epoch.toNat ++ byte1 v.total ++ byte1 v.segFirst ++
    byte1 v.countAsked ++ byte1 v.granted ++ byte1 v.mendRound ++ byte1 v.attempt ++ byte1 v.restartCount ++
    byte1 v.holdCount ++ byte1 v.creditNeed ++ byte1 (frameCode v.frameQueued) ++ byte1 (windowCode v.window) ++
    le32 (windowExpiryOf v.window) ++ byte1 v.complete ++ byte1 v.missing ++ byte1 v.pickList.length ++
    (v.pickList ++ List.replicate (7 - v.pickList.length) 0).map (BitVec.ofNat 8) ++ byte1 v.useAnswer ++ byte1 v.useGap ++
    byte1 v.useStop ++ byte1 v.useLimit

/-- A self-history entry (12.10). -/
def SelfEntry.bytes (e : SelfEntry) : List Byte :=
  le24 e.code.number.toNat ++ byte1 e.mode.toNat ++ byte1 e.count.toNat ++ byte1 (flag 0 e.activeNow) ++
    le24 e.firstOdo.toNat ++ le24 e.lastOdo.toNat

/-- The self-history view, from 0x1800 (12.10). -/
def SelfHistory.bytes (h : SelfHistory) : List Byte :=
  byte1 h.revision.toNat ++ byte1 h.entries.length ++ le16 h.generation.toNat ++ byte1 h.epoch.toNat ++ unused 11 ++
    h.entries.flatMap SelfEntry.bytes

/-! ### The map (12.1) -/

/-- A byte of the control block's part area (12.2). -/
def State.controlByte (s : State) (a : Nat) : Byte :=
  if a = 0x476 then BitVec.ofNat 8 (haltCode s.orders.scanHalt)
  else if 0x440 ≤ a then s.sweep.bytes.getD (a - 0x440) 0
  else if 0x410 ≤ a then s.pool.bytes.getD (a - 0x410) 0
  else 0

/-- The index of a block of `size` bytes at `base`, in a table of n. -/
def blockIndex (n : Nat) (h : 0 < n) (base size a : Nat) : Fin n := ⟨(a - base) / size % n, Nat.mod_lt _ h⟩

/-- The byte of exchange memory at a byte offset (12.1). -/
def State.exchangeByte (s : State) (a : Nat) : Byte :=
  if a < Config.hostAreaEnd then Memory.read s.mem a
  else if a < 0x500 then s.controlByte a
  else if a < 0x600 then s.chans[blockIndex 4 (by decide) 0x500 64 a].bytes.getD ((a - 0x500) % 64) 0
  else if a < 0x800 then
    let k := blockIndex 8 (by decide) 0x600 64 a
    ((s.ctxView k).bytes s.ctxs[k].revision).getD ((a - 0x600) % 64) 0
  else if a < 0x1800 then
    let u := blockIndex 64 (by decide) 0x800 64 a
    (s.dir[u].bytes u).getD ((a - 0x800) % 64) 0
  else if a < 0x1C00 then s.self.bytes.getD (a - 0x1800) 0
  else if a < 0x4000 then 0
  else s.pool.records[blockIndex 1536 (by decide) 0x4000 32 a].bytes.getD ((a - 0x4000) % 32) 0

/-- A register's value (12.11, R179); every unassigned address reads 0. -/
def State.register (s : State) (addr : Word) : Word :=
  if addr = Config.identAt then Config.identValue
  else if addr = Config.revisionAt then Config.revisionValue
  else if addr = Config.attentionAt then s.port.attention.setWidth 16
  else if addr = Config.attnMaskAt then s.port.mask.setWidth 16
  else if addr = Config.clockLoAt then s.clock.extractLsb' 0 16
  else if addr = Config.clockHiAt then s.port.clockLatch
  else 0

/-- The word a host read of a word address returns (R178, R179); 0 during initialisation (R183). -/
def State.hostRead (s : State) (addr : Word) : Word :=
  if s.port.initialising then 0
  else if addr.toNat < 0x8000 then s.exchangeByte (2 * addr.toNat + 1) ++ s.exchangeByte (2 * addr.toNat)
  else s.register addr

end Sys2Proof.Machine
end

