-- ==== Sys2Proof/Safety.lean ====
section
/-! DEFINITION. What every run keeps, and the words in which statements about a command are made: which blocks it may touch,
and what the follow-up work of the part (R94, R150, R153, R157) may touch beside them. -/

namespace Sys2Proof.Machine

/-! ### What every run keeps -/

/-- ATTN_N is low exactly while an enabled attention bit is set, and released during initialisation (R181, R183). -/
def State.lineOk (s : State) : Prop :=
  s.port.attnLow = true ↔
    s.port.initialising = false ∧ ∃ b : AttnBit, s.port.attention &&& b.bit ≠ 0 ∧ s.port.mask &&& b.bit ≠ 0

/-- Host-written exchange memory is in its canonical form. -/
def State.memOk (s : State) : Prop := s.mem.wf = true

/-- The summary revision is odd exactly while an operation runs (R15). -/
def State.parityOk (s : State) : Prop := s.pool.revision.toNat % 2 = 1 ↔ s.pool.op.isSome = true

/-- No queue, FIFO or history holds more than it has places for, and credits stay under their cap (R10, R63, R122, R123,
R136). -/
def State.roomOk (s : State) : Prop :=
  s.pool.queue.length ≤ 16 ∧ s.self.entries.length ≤ 64 ∧
    ∀ c : ChanId, s.chans[c].txQueue.length ≤ 8 ∧ s.chans[c].fifo.length ≤ 32 ∧ s.chans[c].pacer.credits ≤ 64

/-! ### Blocks but for what follow-up work writes -/

/-- Two contexts that differ at most in the revision of their view. -/
def Context.same (c d : Context) : Prop := { c with revision := d.revision } = d

/-- Two channels that differ at most in the revision of their block. -/
def Channel.same (c d : Channel) : Prop := { c with revision := d.revision } = d

/-- A context but for its revision and its wait for credits and for a sending, which an opening or a PICK may already have
ended. -/
def Context.plan (c : Context) : Context := { c with revision := 0, state := .free, creditNeed := 0, frameQueued := none }

/-- What a directory entry records of its unit, its reads and its chain: no assignment, sweep mark or hold is part of it. -/
def DirEntry.record (e : DirEntry) : DirEntry :=
  { e with revision := 0, state := .vacant, malformed := false, mark := .none, lastOutcome := .none, holdUntil := 0,
           holdRunOut := false, holdCount := 0, restartCount := 0 }

/-- A channel but for its revision, its transmit queue, its settling and the spending of its credits. -/
def Channel.link (c : Channel) : Channel :=
  { c with revision := 0, txQueue := [], txOutside := [], txDeferred := [], settling := false, settleTimer := none,
           pacer := { c.pacer with credits := 0, line := [] } }

/-- What SET SCHEDULE sets, and the timer it starts (R159). -/
def SweepCtl.schedule (w : SweepCtl) : BitVec 4 × Nat × Nat × Option Clock :=
  (w.schedMask, w.schedPeriod, w.schedBudget, w.scheduleTimer)

/-- What the last close of an edition wrote (R157). -/
def SweepCtl.lastClose (w : SweepCtl) : Edition × Clock × CloseCause := (w.lastClosed, w.closeClock, w.closeCause)

/-- The pool but for its request queue and the waiting offers. -/
def Pool.store (p : Pool) : Pool := { p with queue := [], waiting := [] }

/-- The port but for the attention bits and the line they drive. -/
def HostPort.quiet (p : HostPort) : HostPort := { p with attention := 0, attnLow := false }

/-- The order engine but for the copies of the slots. -/
def OrderEngine.scan (o : OrderEngine) : OrderEngine := { o with taken := Vector.replicate 16 none }

/-- Two entries of the sweep controller that differ at most in the revision. -/
def SweepCtl.same (v w : SweepCtl) : Prop := { v with revision := w.revision } = w

/-- The slot is TAKEN by a SWEEP order. -/
def State.sweepSlot (s : State) (n : SlotId) : Prop :=
  ∃ t mask budget, s.orders.taken[n] = some t ∧ t.order = .sweep mask budget

/-- A byte offset lies in a slot. -/
def inSlot (n : SlotId) (a : Nat) : Prop := slotAt n ≤ a ∧ a < slotAt n + 64

/-- What a command may touch: contexts, channels, directory entries, order slots and the schedule. -/
structure Touch where
  ctxs : CtxId → Prop := fun _ => False
  chans : ChanId → Prop := fun _ => False
  units : UnitId → Prop := fun _ => False
  slots : SlotId → Prop := fun _ => False
  schedule : Prop := False

/-- From `s` to `t` the part changed only what `d` names and what follow-up work writes: assignments of FREE contexts to
units, the completion of a sweep with the start of the next, the close of the edition with the completion of SWEEP orders.
Follow-up work raises attention bits and never lowers one; the edition counter never falls (R154), and an edition it closes
shows the cause NORMAL and EDITION_CLOSED (R157). -/
structure Rest (d : Touch) (s t : State) : Prop where
  timing : t.timing = s.timing
  pending : t.pending = s.pending
  port : t.port.quiet = s.port.quiet
  attention : s.port.attention &&& t.port.attention = s.port.attention
  store : t.pool.store = s.pool.store
  queue : s.pool.queue <+: t.pool.queue
  waiting : s.pool.waiting <+: t.pool.waiting
  ctxs : ∀ j, ¬ d.ctxs j → s.ctxs[j].state ≠ .free → t.ctxs[j].same s.ctxs[j]
  links : ∀ c, ¬ d.chans c → t.chans[c].link = s.chans[c].link
  sending : ∀ c, ¬ d.chans c → s.chans[c].txQueue <+: t.chans[c].txQueue
  dir : ∀ v, ¬ d.units v → t.dir[v].record = s.dir[v].record
  scan : t.orders.scan = s.orders.scan
  taken : ∀ n, ¬ d.slots n → ¬ s.sweepSlot n → t.orders.taken[n] = s.orders.taken[n]
  schedule : ¬ d.schedule → t.sweep.schedule = s.sweep.schedule
  counter : s.sweep.counter.toNat ≤ t.sweep.counter.toNat
  closed : t.sweep.lastClose = s.sweep.lastClose ∨
    t.sweep.closeCause = .normal ∧ t.port.attention &&& AttnBit.editionClosed.bit = AttnBit.editionClosed.bit
  mem : s.memOk → t.memOk ∧ ∀ a, (∀ n, d.slots n ∨ s.sweepSlot n → ¬ inSlot n a) → t.mem.read a = s.mem.read a

/-! ### States in which a command finds its work -/

/-- The part runs: no initialisation is in progress (R183). -/
def State.running (s : State) : Prop := s.port.initialising = false

/-- No pool operation holds the staging port, and the port's next frame is `f`, of kind `kind`, on channel `ch` with `rest`
behind it (R14, R125). -/
def State.nextFrame (s : State) (kind : RxKind) (ch : ChanId) (f : Frame) (rest : List Frame) : Prop :=
  s.running ∧ s.pool.op = none ∧ s.portTurn = some ch ∧ s.chans[ch].fifo = f :: rest ∧ f.rxKind = some kind

/-- The command by which the staging port passes a frame of the kind (R85). -/
def RxKind.command : RxKind → Instr
  | .grant => .grant
  | .hold => .hold
  | .entryA => .entryA
  | .entryB => .entryB
  | .close => .close
  | .erased => .erased

/-- Orders waiting on a context's unit that complete with it: its READ UNIT orders, or its ERASE UNIT order (R113). -/
def State.awaits (s : State) (k : CtxId) (n : SlotId) (x : Taken) : Prop :=
  hasSlot s.ctxs[k].attached n = true ∧ s.orders.taken[n] = some x ∧
    x.order = (match s.ctxs[k].purpose with | .read => .readUnit s.ctxs[k].target | .erase => .eraseUnit s.ctxs[k].target)

/-- The frame matches context `k` (R85), and no engine reset has frozen it (R115). -/
def State.reaches (s : State) (ch : ChanId) (f : Frame) (k : CtxId) : Prop :=
  f.tagCtx = k ∧ s.orders.resetting = none ∧
    (s.ctxs[k].state = .opening ∨ s.ctxs[k].state = .receiving ∨ s.ctxs[k].state = .mending ∨
      s.ctxs[k].state = .stopping) ∧
    s.ctxs[k].channel = ch ∧ s.dir[s.ctxs[k].target].address = f.source ∧ s.ctxs[k].parity = f.tagParity

/-- The context's timer of the kind given runs out: the part runs and no engine reset has frozen the context (R88, R115). -/
def State.expires (s : State) (k : CtxId) (kind : WindowKind) (at_ : Clock) : Prop :=
  s.running ∧ s.orders.resetting = none ∧ s.ctxs[k].window = some (kind, at_)

/-- The clock value at which an expiry is met: its own, or the clock if it has passed it. -/
def State.meetsAt (s : State) (at_ : Clock) : Clock := if clockReached s.clock at_ then s.clock else at_

/-- The operation in progress is the one requested. -/
def State.operates (s : State) (r : PoolRequest) (o : PoolOp) : Prop :=
  s.running ∧ s.pool.op = some o ∧ o.request = r

/-- The one POSTED slot of the order table is `n` (12.3, R166). -/
def State.onlyPosted (s : State) (n : SlotId) : Prop :=
  slotState s.mem n = Config.stPosted ∧ ∀ j, j ≠ n → slotState s.mem j ≠ Config.stPosted

/-- A pass of the order engine finds `n` as the one POSTED slot: the part runs and no engine reset drops the pass (R165). -/
def State.visits (s : State) (n : SlotId) : Prop :=
  s.running ∧ s.memOk ∧ s.orders.resetting = none ∧ s.onlyPosted n

/-- A slot's result area as a completion writes it: code, words, edition, clock and state (R168). -/
def State.slotShows (s : State) (n : SlotId) (final code w0 w1 w2 w3 : Word) (ed : Edition) (at_ : Clock) : Prop :=
  slotState s.mem n = final ∧ slotWord s.mem n Config.slotResultOff = code ∧
    slotWord s.mem n Config.slotWordsOff = w0 ∧ slotWord s.mem n (Config.slotWordsOff + 2) = w1 ∧
    slotWord s.mem n (Config.slotWordsOff + 4) = w2 ∧ slotWord s.mem n (Config.slotWordsOff + 6) = w3 ∧
    slotWord s.mem n (Config.slotEditionOff + 2) ++ slotWord s.mem n Config.slotEditionOff = ed ∧
    slotWord s.mem n (Config.slotClockOff + 2) ++ slotWord s.mem n Config.slotClockOff = at_

/-- A slot shows DONE with the code given, in its order's edition; its copy is dropped (R168). -/
def State.slotDone (s : State) (n : SlotId) (code : Word) (ed : Edition) (at_ : Clock) : Prop :=
  s.orders.taken[n] = none ∧ ∃ w0 w1 w2 w3, s.slotShows n 3 code w0 w1 w2 w3 ed at_

/-- An attention bit is set (R180). -/
def State.hasAttn (s : State) (b : AttnBit) : Prop := s.port.attention &&& b.bit = b.bit

/-! ### Words for what follows at once -/

/-- No READ UNIT, ERASE UNIT or DELIST UNIT order is TAKEN, and no request of an edition is queued, waits as an offer or is being
served: only a RELEASE may be (R12, R157). -/
def State.nothingKeeps (s : State) : Prop :=
  (∀ (n : SlotId) (x : Taken) (u : UnitId), s.orders.taken[n] = some x →
    x.order ≠ .readUnit u ∧ x.order ≠ .eraseUnit u ∧ x.order ≠ .delistUnit u) ∧
  (∀ r ∈ s.pool.queue ++ s.pool.waiting, ∃ e n, r = .release e n) ∧
  ∀ o, s.pool.op = some o → ∃ e n, o.request = .release e n

/-- Nothing that follows at once is left undone: a sweep that is not IDLE waits for some unit, and an open edition has a reason to
be open (R150, R153, R157). -/
def State.settled (s : State) : Prop :=
  (s.sweep.state ≠ .idle → ∃ u : UnitId, s.dir[u].mark = .pending) ∧
  (s.sweep.openEdition ≠ 0 → s.sweep.state = .idle → ¬ s.nothingKeeps)

/-- A slot whose order is TAKEN shows TAKEN (R164, R166), and no sweep waits for a VACANT entry (R51, R147). -/
def State.tidy (s : State) : Prop :=
  (∀ (n : SlotId) (x : Taken), s.orders.taken[n] = some x → slotState s.mem n = Config.stTaken) ∧
  ∀ u : UnitId, u ≠ 0 → s.dir[u].state = .vacant → s.dir[u].mark ≠ .pending

/-- The sweep controller stands as it did, its revision included: what a command leaves that ends no read, order or operation of
the part and begins no work of an edition, if nothing was left undone before it (R145, R150, R153, R157). -/
def State.still (s t : State) : Prop := s.settled → s.tidy → t.sweep = s.sweep

/-! ### Words for what becomes of a context and its unit -/

/-- The context's frame of the kind waits for its sending, in the queue, outside it, or behind the context's withdrawn frame
(log entry 12, DEDUCED), and shows as its frame queued in each of these places (for the last, log entry 29, the model's choice);
it carries the context's tag, its unit's address and the part's own (R72, R73, R99, R122). -/
def State.sends (t : State) (k : CtxId) (kind : TxKind) : Prop :=
  let c := t.ctxs[k]
  let ch := t.chans[c.channel]
  c.frameQueued = some kind ∧ ∃ e ∈ ch.txQueue ++ ch.txOutside ++ ch.txDeferred, e.ctx = some k ∧ e.kind = kind ∧
    e.live = true ∧ e.frame.kindCode = kind.code ∧ e.frame.tag = BitVec.ofNat 4 (k.val + if c.parity then 8 else 0) ∧
    e.frame.destination = t.dir[c.target].address ∧ e.frame.source = ch.settings.address

/-- What the pacer leaves of the credits and of the line when it serves the line from its head: a head whose need the credits cover
is granted it and leaves, and the first that they do not cover holds back those behind it (R138). -/
def grants (need : CtxId → Nat) : Nat → List CtxId → Nat × List CtxId
  | credits, [] => (credits, [])
  | credits, k :: rest => if need k ≤ credits then grants need (credits - need k) rest else (credits, k :: rest)

/-- The context asks for `need` credits to send a frame of the kind: it waits in its channel's line, in the state given, or it
has been granted them in the same event (R99, R138). -/
def State.asksFor (t : State) (k : CtxId) (need : Nat) (kind : TxKind) (waits : CtxState) : Prop :=
  let c := t.ctxs[k]
  (c.state = waits ∧ c.creditNeed = need ∧ k ∈ t.chans[c.channel].pacer.line) ∨
    (c.state = (if waits = .paced then .opening else waits) ∧ c.creditNeed = 0 ∧ t.sends k kind)

/-- The context has been released: it is FREE with its parity kept, or a new assignment has already taken it (R92, R94, R98). -/
def State.released (s t : State) (k : CtxId) : Prop :=
  t.ctxs[k].same (Context.freed 0 s.ctxs[k].parity) ∨
    ((t.ctxs[k].state = .paced ∨ t.ctxs[k].state = .opening) ∧ t.ctxs[k].parity = !s.ctxs[k].parity ∧
      t.ctxs[k].attempt = 1 ∧ t.ctxs[k].segFirst = 0)

/-- The unit's request has ended in the state and with the outcome given: a unit being delisted stays DELISTING (R61), another
may have been assigned again at once; a sweep that auto-due starts in the same event may have marked it anew. -/
def State.unitEnds (s t : State) (u : UnitId) (next : UnitState) (out : UnitOutcome) : Prop :=
  (if s.dir[u].state = .delisting then t.dir[u].state = .delisting
    else t.dir[u].state = next ∨ t.dir[u].state = .reading ∨ t.dir[u].state = .erasing) ∧
  (s.sweep.autoDue = false → t.dir[u].lastOutcome = out)

/-- One occurrence of the identity has been logged: an entry that stood has its count raised by 1, a new one is appended, and
only a new identity that meets 64 entries is dropped (R64). -/
def State.logs (s t : State) (code : SelfCode) (mode : Byte) (active : Bool) : Prop :=
  let entry := fun x : State => x.self.entries.find? fun e => e.code == code && e.mode == mode
  match entry s with
  | some e =>
    entry t = some { e with count := e.count + 1, activeNow := e.activeNow || active, lastOdo := s.odometer } ∧
      t.hasAttn .selfGrew
  | none =>
    (entry t = some { code := code, mode := mode, count := 1, activeNow := active, firstOdo := s.odometer
                      lastOdo := s.odometer } ∧ t.hasAttn .selfGrew) ∨
      (entry t = none ∧ 64 ≤ t.self.entries.length)

/-- A sweep that waits for the unit takes the outcome of its read: the mark and the tally it calls for, unless auto-due starts the
next sweep in the same event (R148, R149). -/
def State.counts (s t : State) (u : UnitId) (mark : SweepMark) (tally : Tallies → Tallies) : Prop :=
  s.dir[u].mark = .pending → s.sweep.autoDue = false →
    t.dir[u].mark = mark ∧ t.sweep.tallies = tally s.sweep.tallies

/-- No two contexts serve one unit, and no order is attached to two (R52, R97). -/
def State.apart (s : State) : Prop :=
  ∀ j k : CtxId, j ≠ k → s.ctxs[j].state ≠ .free → s.ctxs[k].state ≠ .free →
    s.ctxs[j].target ≠ s.ctxs[k].target ∧
      ∀ n : SlotId, ¬ (hasSlot s.ctxs[j].attached n = true ∧ hasSlot s.ctxs[k].attached n = true)

/-- The channel has been lost with no reset in progress: each context busy on it is released, its unit ended, its orders
completed and its sweep told CHANNEL_LOST; one in STOPPING ends STOPPED, and only a draining sweep receives CHANNEL_LOST for its
own read (R57, R58, R112, R113, R149, R152; log entry 27, the model's choice). -/
def State.endsLost (s t : State) (ch : ChanId) (own : SlotId → Prop) : Prop :=
  let lost := fun k : CtxId => s.ctxs[k].channel = ch ∧ s.ctxs[k].state.busy = true
  let stopping := fun k : CtxId => s.ctxs[k].state = .stopping
  let toldStop := fun k : CtxId => stopping k ∧ ¬ (s.sweep.state = .draining ∧ s.ctxs[k].attached = 0)
  let counted := fun k : CtxId => lost k ∧ s.ctxs[k].purpose = .read ∧ s.dir[s.ctxs[k].target].mark = .pending
  (∀ k, lost k →
    s.released t k ∧ s.unitEnds t s.ctxs[k].target .idle (if stopping k then .stopped else .channelLost) ∧
    (∀ n x, ¬ own n → s.awaits k n x → t.slotDone n (if stopping k then 7 else 6) x.edition s.clock) ∧
    (counted k → s.sweep.autoDue = false → t.dir[s.ctxs[k].target].mark = .skipped)) ∧
  (s.sweep.autoDue = false →
    t.sweep.tallies.channelLost =
      s.sweep.tallies.channelLost + (List.finRange 8).countP (fun k => decide (counted k ∧ ¬ toldStop k)) ∧
    t.sweep.tallies.stopped = s.sweep.tallies.stopped + (List.finRange 8).countP fun k => decide (counted k ∧ toldStop k))

/-- What the command touches when context `k` leaves its channel's line without a grant: the context, and those that stood in
the line with it (R139). -/
def State.leaving (s : State) (k j : CtxId) : Prop :=
  j = k ∨ k ∈ s.chans[s.ctxs[k].channel].pacer.line ∧ j ∈ s.chans[s.ctxs[k].channel].pacer.line

/-- The read of context `k` begins a new opening from index 0; at the restart limit of the opening abandoned it ends
UNIT_FAULTY instead, its context released and its unit FAULTY (R55, R57, R98, R105, R113, R114, R149). -/
def State.beginsAgain (s t : State) (k : CtxId) (at_ : Clock) : Prop :=
  let c := s.ctxs[k]
  let u := c.target
  let count := min 7 (s.dir[u].restartCount + 1)
  (count < c.useLimit → t.dir[u].restartCount = count ∧ t.asksFor k 16 .openFrame .paced ∧ t.self = s.self ∧ s.still t ∧
    t.ctxs[k].plan =
      { c.plan with
        parity := !c.parity, firstOpening := false, generation := 0, epoch := 0, total := 0, truncMark := false
        staging := Vector.replicate 64 { halfA := none, halfB := none }
        segFirst := 0, countAsked := 16, granted := 0, mendRound := 0, pickList := [], attempt := 1, window := none
        useAnswer := s.timing.answer, useGap := s.timing.gap, useStop := s.timing.stop, useLimit := s.timing.limit } ∧
    Rest { ctxs := s.leaving k, chans := (· = c.channel) } s t) ∧
  (c.useLimit ≤ count → t.dir[u].record = { s.dir[u].record with lastRead := s.sweep.openEdition } ∧
    s.released t k ∧ s.unitEnds t u .faulty .unitFaulty ∧
    s.counts t u .done (fun x => { x with faulty := x.faulty + 1 }) ∧
    (64 ≤ t.self.entries.length ∨ ∃ e ∈ t.self.entries, e.code = .unitFaulty ∧ e.mode = BitVec.ofNat 8 u.val) ∧
    (∀ n x, s.awaits k n x → t.slotDone n 5 x.edition at_) ∧
    Rest { ctxs := s.leaving k, chans := (· = c.channel), units := (· = u),
           slots := fun n => hasSlot c.attached n = true } s t)

/-- The context is the lowest that serves the unit, and reads it; in STOPPING it takes no further order (R97). -/
def State.readsUnit (s : State) (u : UnitId) (k : CtxId) : Prop :=
  s.ctxs[k].state ≠ .free ∧ s.ctxs[k].target = u ∧ s.ctxs[k].purpose = .read ∧ s.ctxs[k].state ≠ .stopping ∧
    ∀ j : CtxId, j < k → s.ctxs[j].state = .free ∨ s.ctxs[j].target ≠ u

/-- An order taken now in slot `n` for the unit is the allocator's next: the unit is at rest and eligible, context `k` is the
lowest FREE one, no other READ UNIT or ERASE UNIT order is TAKEN, and no sweep is due (R94, R95). -/
def State.assignsFirst (s : State) (n : SlotId) (u : UnitId) (k : CtxId) : Prop :=
  let ch := s.chans[s.dir[u].channel]
  (s.dir[u].state = .idle ∨ s.dir[u].state = .absent ∨ s.dir[u].state = .faulty) ∧
    (∀ j : CtxId, s.ctxs[j].state = .free ∨ s.ctxs[j].target ≠ u) ∧ ch.state.joined = true ∧ ch.settling = false ∧
    ((List.finRange 8).countP fun j : CtxId => s.ctxs[j].state.busy && s.ctxs[j].channel == s.dir[u].channel) <
      ch.settings.limit ∧
    s.ctxs[k].state = .free ∧ (∀ j : CtxId, j < k → s.ctxs[j].state ≠ .free) ∧
    (∀ j : CtxId, hasSlot s.ctxs[j].attached n = false) ∧ s.sweep.autoDue = false ∧
    ∀ j x w, j ≠ n → s.orders.taken[j] = some x → x.order ≠ .readUnit w ∧ x.order ≠ .eraseUnit w

/-! ### Words for sweeps and editions -/

/-- The edition that work offered now belongs to: the open one, or the next, which it opens (R154, R156). -/
def State.editionFor (s : State) : Edition :=
  if s.sweep.openEdition ≠ 0 then s.sweep.openEdition
  else if s.sweep.counter = 0xFFFFFFFF then 0xFFFFFFFF else s.sweep.counter + 1

/-- The edition that was open in `s` has closed, with cause NORMAL (R157). -/
def State.closesEdition (s t : State) (at_ : Clock) : Prop :=
  t.sweep.openEdition = 0 ∧ t.sweep.openClock = 0 ∧ t.sweep.lastClosed = s.sweep.openEdition ∧
    t.sweep.closeCause = .normal ∧ t.sweep.closeClock = at_ ∧ t.hasAttn .editionClosed

/-- The result code of a SWEEP order (12.5). -/
def sweepCode : SweepOutcome → Word
  | .complete => 0x09
  | .budget => 0x0A
  | .aborted => 0x0B
  | .none => 0
  | .reset => 0

/-- The sweep has returned to IDLE with the outcome; if nothing keeps the edition open it has closed, and the sweep's own SWEEP
order, in a slot that the command does not itself complete (`own`), is DONE with the edition's number, the outcome and the
two tallies (R150, R153, R157, R158, R174). -/
def State.sweepReturns (s t : State) (out : SweepOutcome) (at_ : Clock) (own : SlotId → Prop) : Prop :=
  t.sweep.state = .idle ∧ t.sweep.outcome = out ∧ t.sweep.endClock = at_ ∧ t.sweep.budgetTimer = none ∧
  (s.sweep.openEdition ≠ 0 → s.nothingKeeps → s.closesEdition t at_ ∧
    ∀ n x mask budget, ¬ own n → s.orders.taken[n] = some x → x.order = .sweep mask budget → x.sweepResult = none →
      s.sweep.origin = .slot n → t.orders.taken[n] = none ∧
        t.slotShows n 3 (sweepCode out) (s.sweep.openEdition.extractLsb' 0 16) (s.sweep.openEdition.extractLsb' 16 16)
          (BitVec.ofNat 16 t.sweep.tallies.readOk) (BitVec.ofNat 16 t.sweep.tallies.truncated) x.edition at_)

/-- The mark a sweep's start gives a unit (R147). -/
def State.markFor (s : State) (mask : BitVec 4) (u : UnitId) : SweepMark :=
  let e := s.dir[u]
  if u = 0 then (if mask.getLsbD 0 then .pending else .none)
  else if e.state = .vacant ∨ mask.getLsbD e.cls.val = false then .none
  else if e.state = .faulty ∨ s.chans[e.channel].state = .off ∨
    (e.state = .delisting ∧ ∀ k : CtxId, s.ctxs[k].state = .free ∨ s.ctxs[k].target ≠ u) then .skipped
  else .pending

/-- A sweep has started: the record is written afresh, every entry marked and the marks without a read counted, the channels
with a unit to read asked to wake, and for class 0 a SELF COMMIT offered; with no unit PENDING it has returned to IDLE in the
same event (R127, R144 to R147, R150, R156). -/
def State.sweepStarts (s t : State) (origin : SweepOrigin) (mask : BitVec 4) (budget : Nat) (at_ : Clock) : Prop :=
  let included := fun u : UnitId => u ≠ 0 ∧ s.dir[u].state ≠ .vacant ∧ mask.getLsbD s.dir[u].cls.val = true
  t.sweep.origin = origin ∧ t.sweep.mask = mask ∧ t.sweep.budget = budget ∧ t.sweep.edition = s.editionFor ∧
  t.sweep.startClock = at_ ∧ (∀ u : UnitId, t.dir[u].mark = s.markFor mask u) ∧
  (∀ u, included u → s.dir[u].state = .faulty → t.dir[u].lastOutcome = .faultySkipped) ∧
  t.sweep.tallies =
    { readOk := 0, truncated := 0, absent := 0, heldOut := 0, stopped := 0, channelLost := 0
      faulty := (List.finRange 64).countP fun u => decide (included u ∧ s.dir[u].state = .faulty)
      skipped := (List.finRange 64).countP fun u =>
        decide (s.dir[u].state ≠ .faulty ∧ s.markFor mask u = .skipped) } ∧
  (mask.getLsbD 0 = true → .selfCommit .sweep ∈ t.pool.queue ++ t.pool.waiting) ∧
  (∀ c : ChanId, t.chans[c].settling = true ↔ s.chans[c].settling = true ∨
    (s.chans[c].settings.wake = true ∧ s.chans[c].state.joined = true ∧
      ∃ u : UnitId, u ≠ 0 ∧ s.markFor mask u = .pending ∧ s.dir[u].channel = c)) ∧
  ((∃ u, s.markFor mask u = .pending) → t.sweep.state = .running ∧ t.sweep.outcome = .none ∧ t.sweep.endClock = 0 ∧
    t.sweep.openEdition = s.editionFor ∧
    t.sweep.budgetTimer = (if budget = 0 then none else some (at_ + BitVec.ofNat 32 (budget * 1000)))) ∧
  ((∀ u, s.markFor mask u ≠ .pending) → t.sweep.state = .idle ∧ t.sweep.outcome = .complete ∧ t.sweep.endClock = at_)

/-- A context with origin SWEEP serves the unit (R108). -/
def State.readBySweep (s : State) (u : UnitId) (k : CtxId) : Prop :=
  s.ctxs[k].state ≠ .free ∧ s.ctxs[k].target = u ∧ s.ctxs[k].attached = 0

/-- The context stands at most once in its own channel's line and in no other, and no other context serves its unit (R52,
R138). -/
def State.alone (s : State) (k : CtxId) : Prop :=
  (∀ c : ChanId, k ∈ s.chans[c].pacer.line → c = s.ctxs[k].channel) ∧
  s.chans[s.ctxs[k].channel].pacer.line.count k ≤ 1 ∧
  ∀ j : CtxId, s.ctxs[j].state ≠ .free → s.ctxs[j].target = s.ctxs[k].target → j = k

/-- The context has been stopped while its unit answered: its window is stopped, and its STOP waits for its sending (R81,
R109), perhaps behind its withdrawn frame (log entries 12 and 29, the model's). -/
def State.stopsWith (s t : State) (k : CtxId) : Prop :=
  t.ctxs[k].state = .stopping ∧ t.ctxs[k].window = none ∧ t.sends k .stopFrame ∧
    t.ctxs[k].parity = s.ctxs[k].parity ∧ t.ctxs[k].target = s.ctxs[k].target ∧ t.ctxs[k].attached = s.ctxs[k].attached

/-- A sweep has been drained with the outcome: PENDING units that no context of the sweep serves are skipped, and a held request
of theirs withdrawn if no READ UNIT order waits on it; contexts of the sweep in PACED are FREE at once, the others that still ask
or receive send STOP; with no unit left PENDING the sweep is IDLE (R56, R109, R149, R152, R153). -/
def State.drains (s t : State) (out : SweepOutcome) (at_ : Clock) (own : SlotId → Prop) : Prop :=
  t.sweep.outcome = out ∧ t.sweep.budgetTimer = none ∧
  (∀ u : UnitId, u ≠ 0 → s.dir[u].mark = .pending → (∀ k, ¬ s.readBySweep u k) →
    t.dir[u].mark = .skipped ∧
      (s.dir[u].state = .held → (∀ (n : SlotId) (x : Taken), s.orders.taken[n] = some x → x.order ≠ .readUnit u) →
        s.unitEnds t u .idle .stopped)) ∧
  (s.dir[(0 : UnitId)].mark = .pending → (∀ k, ¬ s.readBySweep 0 k) → t.dir[(0 : UnitId)].mark = .pending) ∧
  (∀ (u : UnitId) (k : CtxId), s.readBySweep u k → s.alone k → s.ctxs[k].purpose = .read → s.dir[u].mark = .pending →
    (s.ctxs[k].state = .paced → s.released t k ∧ t.dir[u].mark = .skipped ∧ s.unitEnds t u .idle .stopped) ∧
    ((s.ctxs[k].state = .opening ∨ s.ctxs[k].state = .receiving ∨ s.ctxs[k].state = .mending) →
      s.stopsWith t k ∧ t.dir[u].mark = .pending) ∧
    ((s.ctxs[k].state = .stopping ∨ s.ctxs[k].state = .committing) → (∀ c : ChanId, k ∉ s.chans[c].pacer.line) →
      t.ctxs[k].same s.ctxs[k] ∧ t.dir[u].mark = .pending)) ∧
  ((∀ u k, ¬ s.readBySweep u k) → t.sweep.tallies =
    { s.sweep.tallies with
      skipped := s.sweep.tallies.skipped +
        (List.finRange 64).countP fun u => decide (u ≠ 0 ∧ s.dir[u].mark = .pending) }) ∧
  ((∃ u : UnitId, t.dir[u].mark = .pending) → t.sweep.state = .draining) ∧
  ((∀ u : UnitId, t.dir[u].mark ≠ .pending) → s.sweepReturns t out at_ own)

/-- In a sweep that runs, with the marks given and the channels settling for which `settles` holds, unit `u` is the allocator's
next and context `k` the lowest FREE one: `u` is the lowest PENDING unit that is eligible, and no READ UNIT or ERASE UNIT order
waits unattached, so that the first group is empty (R94, R95). -/
def State.assignsSweep (s : State) (mark : UnitId → SweepMark) (settles : ChanId → Prop) (u : UnitId) (k : CtxId) : Prop :=
  let eligible := fun v : UnitId => v ≠ 0 ∧ mark v = .pending ∧
    (s.dir[v].state = .idle ∨ s.dir[v].state = .absent ∨ s.dir[v].state = .faulty ∨
      s.dir[v].state = .held ∧ s.dir[v].holdRunOut = true) ∧
    (∀ j : CtxId, s.ctxs[j].state = .free ∨ s.ctxs[j].target ≠ v) ∧ s.chans[s.dir[v].channel].state.joined = true ∧
    ¬ settles s.dir[v].channel ∧
    ((List.finRange 8).countP fun j : CtxId => s.ctxs[j].state.busy && s.ctxs[j].channel == s.dir[v].channel) <
      s.chans[s.dir[v].channel].settings.limit
  eligible u ∧ (∀ v : UnitId, v < u → ¬ eligible v) ∧ s.ctxs[k].state = .free ∧
    (∀ j : CtxId, j < k → s.ctxs[j].state ≠ .free) ∧
    ∀ n : SlotId, (∀ j : CtxId, hasSlot s.ctxs[j].attached n = false) →
      ∀ (x : Taken) (w : UnitId), s.orders.taken[n] = some x → x.order ≠ .readUnit w ∧ x.order ≠ .eraseUnit w

/-- Context `k` has been assigned unit `u` for the sweep alone: a read with no order attached, its opening begun with the timing
values in force, the other parity, and the unit READING; a HELD unit goes on with its suspended request (R54, R56, R94, R96, R98). -/
def State.openedBySweep (s t : State) (u : UnitId) (k : CtxId) : Prop :=
  let c := t.ctxs[k]
  c.target = u ∧ c.channel = s.dir[u].channel ∧ c.purpose = .read ∧ c.attached = 0 ∧ c.parity = (!s.ctxs[k].parity) ∧
    c.firstOpening = decide (s.dir[u].state ≠ .held) ∧ c.attempt = 1 ∧ c.segFirst = 0 ∧ c.countAsked = 16 ∧
    c.useAnswer = s.timing.answer ∧ c.useGap = s.timing.gap ∧ c.useStop = s.timing.stop ∧ c.useLimit = s.timing.limit ∧
    t.asksFor k 16 .openFrame .paced ∧ t.dir[u].state = .reading ∧
    t.dir[u].holdCount = (if s.dir[u].state = .held then s.dir[u].holdCount else 0)

/-! ### Words for the revisions of the blocks the part writes -/

/-- Between two commands every block but the pool summary stands whole: its revision is even (R3, R50, R69, R92, R131, R145). -/
def State.blocksEven (s : State) : Prop :=
  (∀ u : UnitId, s.dir[u].revision.toNat % 2 = 0) ∧ (∀ k : CtxId, s.ctxs[k].revision.toNat % 2 = 0) ∧
  (∀ c : ChanId, s.chans[c].revision.toNat % 2 = 0) ∧ s.sweep.revision.toNat % 2 = 0 ∧
  s.self.revision.toNat % 2 = 0 ∧ ∀ r : RecId, s.pool.records[r].revision.toNat % 2 = 0

/-! ### The collections of the pool -/

/-- The records linked from `head` to the end, in order: a chain, the free stack or the retired queue (R5, R6, R7). -/
def linked (rs : Vector FaultRecord 1536) : Option RecId → List RecId → Prop
  | head, [] => head = none
  | head, r :: rest => head = some r ∧ linked rs rs[r].link rest

/-- From `p` to `p'` the records `l` of one chain joined the retired queue `q` at its tail, in chain order, in the state and
under the edition given; the record before them took the link to the first, and every other record is as it was (R8). -/
structure Pool.retires (p p' : Pool) (st : RecState) (ed : Edition) (l q : List RecId) : Prop where
  queue : linked p'.records p'.retHead (q ++ l)
  tail : p'.retTail = (q ++ l).getLast?
  count : p'.retCount = p.retCount + l.length
  live : p'.liveCount = p.liveCount - l.length
  stamped : ∀ r ∈ l, { p'.records[r] with revision := 0, link := none } =
    { p.records[r] with revision := 0, link := none, state := st, changed := ed, retired := ed }
  kept : ∀ r, r ∉ l → q.getLast? ≠ some r → p'.records[r] = p.records[r]
  before : ∀ r, r ∉ l → { p'.records[r] with revision := 0, link := none } = { p.records[r] with revision := 0, link := none }
  free : p'.freeTop = p.freeTop ∧ p'.freeCount = p.freeCount ∧ p'.reclaimed = p.reclaimed

/-- The three collections an operation works on: its unit's chain, the free stack and the retired queue, none sharing a
record with another (R4). -/
structure PoolWork.holds (w : PoolWork) (chain f q : List RecId) : Prop where
  onChain : linked w.records w.chainHead chain
  onFree : linked w.records w.freeTop f
  onQueue : linked w.records w.retHead q
  last : w.retTail = q.getLast?
  nodup : (chain ++ f ++ q).Nodup

/-- The pool's collections, given as lists: every record stands in exactly one of the free stack, the retired queue and the chain of
one unit, and the counts are theirs (R4 to R7); chains ascend by identity and carry live records of their unit, whose first
odometer is at most the last (R6, R35, R36); the retired queue is in order of retire edition, none above the counter (R7, R154); a
VACANT entry has no chain (R51). -/
structure State.poolHolds (s : State) (chain : UnitId → List RecId) (f q : List RecId) : Prop where
  onFree : linked s.pool.records s.pool.freeTop f
  onQueue : linked s.pool.records s.pool.retHead q
  last : s.pool.retTail = q.getLast?
  onChain : ∀ u : UnitId, linked s.pool.records s.dir[u].chainHead (chain u)
  parts : (f ++ q ++ (List.finRange 64).flatMap chain).Perm (List.finRange 1536)
  freeCount : s.pool.freeCount = f.length
  retCount : s.pool.retCount = q.length
  liveCount : s.pool.liveCount = ((List.finRange 64).flatMap chain).length
  chainCount : ∀ u : UnitId, s.dir[u].liveCount = (chain u).length
  vacant : ∀ u : UnitId, s.dir[u].state = .vacant → chain u = []
  free : ∀ r ∈ f, s.pool.records[r].state = .free
  retired : ∀ r ∈ q, (s.pool.records[r].state = .cleared ∨ s.pool.records[r].state = .lapsed ∨
    s.pool.records[r].state = .delisted) ∧ s.pool.records[r].retired.toNat ≤ s.sweep.counter.toNat
  inOrder : q.Pairwise fun a b => s.pool.records[a].retired.toNat ≤ s.pool.records[b].retired.toNat
  live : ∀ u : UnitId, ∀ r ∈ chain u, s.pool.records[r].owner = u ∧
    (s.pool.records[r].state = .active ∨ s.pool.records[r].state = .stored) ∧
    s.pool.records[r].firstOdo.toNat ≤ s.pool.records[r].lastOdo.toNat
  ascending : ∀ u : UnitId, (chain u).Pairwise fun a b =>
    identLt s.pool.records[a].code s.pool.records[a].mode s.pool.records[b].code s.pool.records[b].mode = true

/-- The pool's three collections stand as R4 to R7 ask. -/
def State.poolOk (s : State) : Prop := ∃ chain f q, s.poolHolds chain f q

end Sys2Proof.Machine
end

