-- ==== Sys2Proof/Certificates/Slice0/Obligations.lean ====
section
/-! DEFINITION. The statements for the provers, from the numbered rules of spec/. -/

open Sys2Proof Sys2Proof.Machine

/-! ### The queue of commands and time -/

/-- A step runs the command at the front of the queue on the state with the queue's rest (the form this block has). -/
def Obligations.StepRunsFrontCommand : Prop :=
  ∀ (c : Instr) (rest : List Instr) (s : State), step { s with pending := c :: rest } = exec c { s with pending := rest }

/-- R182 with log entry 4, the model's choice: with no command waiting one millisecond passes; a running part's clock rises by 1
modulo 2^32, holds that run out by then are latched, nothing else moves; during initialisation nothing does. -/
def Obligations.IdleStepPassesOneMillisecond : Prop :=
  ∀ s : State, s.pending = [] → ∃ t, step s = .next t ∧
    (s.port.initialising = true → t = s) ∧
    (s.running → t.clock = s.clock + 1 ∧ t = { s with clock := s.clock + 1, dir := t.dir } ∧
      ∀ u : UnitId, t.dir[u] =
        { s.dir[u] with
          holdRunOut := s.dir[u].holdRunOut ||
            (s.dir[u].state == .held && decide ((s.clock + 1 - s.dir[u].holdUntil).toNat < 2147483648)) })

/-- No command stops the part: every command answers a next state (one whose event cannot take place leaves the state as it is:
log entry 2, the model's choice), and leaves the queue of commands as it stands (log entry 22, the model's choice). What follows
at once from a command is part of its answer: a sweep not IDLE still waits for some unit (R150, R153), and an edition still open
has a reason to be (R157), if that held before. And so is that a TAKEN order's slot shows TAKEN (R164), and that no sweep waits for
a VACANT entry (R51, R147). -/
def Obligations.EveryCommandAnswers : Prop :=
  ∀ (c : Instr) (s : State), ∃ t, exec c s = .next t ∧ t.pending = s.pending ∧ (s.settled → t.settled) ∧
    (s.memOk → s.tidy → t.tidy)

/-! ### Full reset -/

/-- R183: a full reset abandons everything but the commands waiting outside (log entry 22, the model's choice); while it lasts
every read returns 0, host writes are discarded, ATTN_N is released and no channel takes part in its segment; its end answers
IDENT, sets START and raises it, and drives ATTN_N low. -/
def Obligations.FullResetAndItsEnd : Prop :=
  ∀ s : State, ∃ t, exec .fullReset s = .next t ∧ t.pending = s.pending ∧
    (∀ addr : Word, t.hostRead addr = 0) ∧ t.port.attnLow = false ∧ (∀ c : ChanId, t.chans[c].state = .off) ∧
    (∀ n v, exec (.slotStateWrite n v) t = .next t) ∧ (∀ a v, exec (.hostMemoryWrite a v) t = .next t) ∧
    (∀ v, exec (.signalWrite v) t = .next t ∧ exec (.attentionWrite v) t = .next t ∧
      exec (.attnMaskWrite v) t = .next t) ∧
    ∃ u, exec .initialisationEnd t = .next u ∧ u.pending = s.pending ∧ u.hostRead 0x8000 = 0x7240 ∧
      u.hostRead 0x8001 = 0x0001 ∧ u.hostRead 0x8003 = 0x0001 ∧ u.hostRead 0x8004 = 0x0001 ∧ u.clock = 0 ∧
      u.port.attnLow = true ∧ u.orders.start = true ∧ u.orders.resetting = none ∧ u.orders.scanHalt = none ∧
      u.orders.scanTimer = 50 ∧ (∀ n : SlotId, u.orders.taken[n] = none) ∧ (∀ a, u.mem.read a = 0) ∧
      (∀ c : ChanId, u.chans[c].state = .off)

/-- R26: a full reset reinitialises the pool whatever it was doing. -/
def Obligations.FullResetPool : Prop :=
  ∀ s t u : State, exec .fullReset s = .next t → exec .initialisationEnd t = .next u →
    u.pool.op = none ∧ u.pool.queue = [] ∧ u.pool.waiting = [] ∧
    (∀ n : RecId, u.pool.records[n] =
      { revision := 0, state := .free, owner := 0, activeNow := false, confirmed := false, lamp := false,
        saturated := false, code := 0, mode := 0, cumulative := 0, lastCount := 0, firstOdo := 0, lastOdo := 0,
        link := if h : n.val + 1 < 1536 then some ⟨n.val + 1, h⟩ else none, created := 0, changed := 0, retired := 0 }) ∧
    u.pool.freeTop = some 0 ∧ u.pool.freeCount = 1536 ∧ u.pool.retHead = none ∧ u.pool.retTail = none ∧
    u.pool.retCount = 0 ∧ u.pool.liveCount = 0 ∧ u.pool.reclaimed = 0 ∧ u.pool.policy = .keep ∧ u.pool.revision = 0 ∧
    (∀ v : UnitId, u.dir[v].chainHead = none ∧ u.dir[v].liveCount = 0) ∧ u.port.attention &&& AttnBit.poolLow.bit = 0

/-- R162: a full reset sets the sweep controller, whatever it was doing. -/
def Obligations.FullResetSweep : Prop :=
  ∀ s t u : State, exec .fullReset s = .next t → exec .initialisationEnd t = .next u →
    u.sweep =
      { revision := 0, state := .idle, origin := .slot 0, outcome := .none, mask := 0, autoDue := false, budget := 0,
        edition := 0, startClock := 0, endClock := 0,
        tallies := { readOk := 0, truncated := 0, absent := 0, heldOut := 0, faulty := 0, stopped := 0, channelLost := 0,
                     skipped := 0 },
        counter := 0, openEdition := 0, openClock := 0, lastClosed := 0, closeClock := 0, closeCause := .none,
        schedMask := 0, schedPeriod := 0, schedBudget := 0, budgetTimer := none, scheduleTimer := none } ∧
    u.port.attention &&& AttnBit.editionClosed.bit = 0

/-- R116: a full reset sets every context FREE with every field 0, its parity 0, its staging empty, and sends no frame; the
timing values take their defaults (R114). Entries 1 to 63 are VACANT (R51), and unit 0 is the collector, IDLE and NEVER_READ,
with an empty self history (R67). -/
def Obligations.FullResetContextsAndDirectory : Prop :=
  ∀ s t u : State, exec .fullReset s = .next t → exec .initialisationEnd t = .next u →
    (∀ k : CtxId, u.ctxs[k].state = .free ∧ u.ctxs[k].parity = false ∧ u.ctxs[k].window = none ∧
      u.ctxs[k].frameQueued = none ∧ u.ctxs[k].attached = 0 ∧ u.ctxs[k].useAnswer = 0 ∧
      (∀ i : Fin 64, u.ctxs[k].staging[i] = { halfA := none, halfB := none }) ∧
      ∀ i : Fin 64, u.exchangeByte (0x600 + 64 * k.val + i.val) = 0) ∧
    u.timing = { answer := 25, gap := 50, stop := 30, settle := 200, limit := 3 } ∧
    (∀ c : ChanId, u.chans[c].txQueue = [] ∧ u.chans[c].txOutside = [] ∧ u.chans[c].txDeferred = []) ∧
    (∀ v : UnitId, u.dir[v] =
      { revision := 0, state := if v = 0 then .idle else .vacant, channel := 0, address := 0, label := 0, cls := 0,
        neverRead := decide (v = 0), truncated := false, malformed := false, generation := 0, epoch := 0,
        reportedTotal := 0, liveCount := 0, chainHead := none, mark := .none, lastOutcome := .none, holdUntil := 0,
        holdRunOut := false, holdCount := 0, absentStreak := 0, restartCount := 0, lastRead := 0, lastSuccess := 0,
        readsOk := 0 }) ∧
    u.self = { revision := 0, entries := [], generation := 0, epoch := 0 }

/-! ### Host port -/

/-- R180: a write to ATTENTION clears every bit written as 1, leaves the others and the START flag, and moves nothing else
than the line that follows (R181). -/
def Obligations.AttentionWriteClearsOnes : Prop :=
  ∀ (v : Word) (s : State), s.running → ∃ t, exec (.attentionWrite v) s = .next t ∧
    (∀ i < 6, t.port.attention.getLsbD i = (s.port.attention.getLsbD i && !v.getLsbD i)) ∧ t.lineOk ∧
    t.orders.start = s.orders.start ∧
    t = { s with port := { s.port with attention := t.port.attention, attnLow := t.port.attnLow } }

/-- R181: a write to ATTN_MASK changes only the mask, and the line follows at once. -/
def Obligations.MaskWriteMovesTheLine : Prop :=
  ∀ (v : Word) (s : State), s.running → ∃ t, exec (.attnMaskWrite v) s = .next t ∧
    (∀ i < 6, t.port.mask.getLsbD i = v.getLsbD i) ∧ t.lineOk ∧
    t = { s with port := { s.port with mask := t.port.mask, attnLow := t.port.attnLow } }

/-- R182: a read of CLOCK_LO returns the low half and latches the high half of the same instant, which CLOCK_HI then reads
whatever the clock shows; during initialisation the read returns 0 (R183). -/
def Obligations.ClockReadLatchesHighHalf : Prop :=
  ∀ s : State, ∃ t, exec .clockLoRead s = .next t ∧
    (s.port.initialising = true → t = { s with port := { s.port with dataOut := 0 } }) ∧
    (s.running → t.port.dataOut = s.hostRead 0x8005 ∧
      t = { s with port := { s.port with dataOut := t.port.dataOut, clockLatch := t.port.clockLatch } } ∧
      ∀ u : State, u.port = t.port → u.hostRead 0x8006 ++ t.port.dataOut = s.clock)

/-- R179: a write to any register but SIGNAL, ATTENTION and ATTN_MASK is ignored, and an address no register has reads 0. -/
def Obligations.OtherRegisterWritesIgnored : Prop :=
  ∀ (addr value : Word) (s : State),
    exec (.registerWriteIgnored addr value) s = .next s ∧ (0x8007 ≤ addr.toNat → s.hostRead addr = 0)

/-- R164: a host write to a slot's state word takes effect only for FREE or POSTED on a slot that is not TAKEN; it changes
that word alone. -/
def Obligations.SlotStateWriteRule : Prop :=
  ∀ (n : SlotId) (v : Word) (s : State), s.running → s.memOk →
    ∃ t, exec (.slotStateWrite n v) s = .next t ∧ t = { s with mem := t.mem } ∧ t.memOk ∧
      ((v = 0 ∨ v = 1) ∧ slotState s.mem n ≠ 2 → slotState t.mem n = v ∧
        ∀ a, a ≠ slotAt n → a ≠ slotAt n + 1 → t.exchangeByte a = s.exchangeByte a) ∧
      (¬ ((v = 0 ∨ v = 1) ∧ slotState s.mem n ≠ 2) → t = s)

/-- R178: a host write to a slot word or the odometer is taken low byte first and changes those two bytes of exchange memory
alone; a write to any other region is discarded. -/
def Obligations.HostMemoryWriteRule : Prop :=
  ∀ (addr : BitVec 15) (v : Word) (s : State), s.running → s.memOk → isSlotStateWord addr = false →
    ∃ t, exec (.hostMemoryWrite addr v) s = .next t ∧ t = { s with mem := t.mem } ∧ t.memOk ∧
      (2 * addr.toNat < 0x404 →
        t.exchangeByte (2 * addr.toNat) = v.extractLsb' 0 8 ∧ t.exchangeByte (2 * addr.toNat + 1) = v.extractLsb' 8 8 ∧
        ∀ a, a ≠ 2 * addr.toNat → a ≠ 2 * addr.toNat + 1 → t.exchangeByte a = s.exchangeByte a) ∧
      (0x404 ≤ 2 * addr.toNat → t = s)

/-! ### The order engine -/

/-- R165, R166: slots that are not POSTED are passed over, so a pass over them changes the scan halt field alone; while an
engine reset is in progress no pass is made. -/
def Obligations.PassesWithNothingPosted : Prop :=
  ∀ (v : Word) (s : State),
    (s.running → s.orders.resetting = none → (∀ n, slotState s.mem n ≠ 1) →
      exec (.signalWrite v) s = .next { s with orders := { s.orders with scanHalt := none } }) ∧
    (s.orders.resetting ≠ none → exec (.signalWrite v) s = .next s)

/-- R165: at an expiry the order-scan timer runs on by 50 ms in its phase, and one pass is made, the same as for a write to
SIGNAL; `m` is the part between the expiry and the pass. The clock at the expiry is log entry 3, the model's choice. -/
def Obligations.ScanTimerMakesOnePass : Prop :=
  ∀ s : State, s.running → ∃ m, m.clock = s.meetsAt s.orders.scanTimer ∧ m.self = s.self ∧ m.portLast = s.portLast ∧
    s.still m ∧ Rest {} { s with orders := { s.orders with scanTimer := s.orders.scanTimer + 50 } } m ∧
    ∃ t, exec .orderScanTimerExpiry s = .next t ∧ ∀ v, exec (.signalWrite v) m = .next t

/-- R169, R168: CLEAR START clears the START flag and the START bit and completes DONE with OK in the visit; taken while START
is clear it changes nothing else either. R151, R174, with START clear: PAUSE SWEEP taken in RUNNING sets PAUSED, RESUME SWEEP
taken in PAUSED sets RUNNING, each in one write of the sweep record (R145), and completes DONE with OK in the visit. R94, R95:
a RESUME SWEEP assigns at once: the lowest PENDING unit that is eligible takes the lowest FREE context, where no order waits
for one. -/
def Obligations.ClearStartBySignal : Prop :=
  (∀ (v : Word) (n : SlotId) (s : State), s.visits n → slotKind s.mem n = 1 →
    ∃ t, exec (.signalWrite v) s = .next t ∧ t.orders.start = false ∧ t.port.attention &&& AttnBit.start.bit = 0 ∧
      t.slotShows n 3 0 0 0 0 0 s.sweep.openEdition s.clock ∧ t.hasAttn .orderDone ∧ t.orders.taken[n] = none ∧
      t.clock = s.clock ∧ t.self = s.self ∧
      Rest { slots := (· = n) }
        { s with orders := { s.orders with start := false, scanHalt := none },
                 port := { s.port with attention := s.port.attention &&& ~~~AttnBit.start.bit } } t) ∧
  ∀ (v : Word) (n : SlotId) (next : SweepState) (s : State), s.visits n → s.orders.start = false →
    (slotKind s.mem n = 13 ∧ s.sweep.state = .running ∧ next = .paused ∨
      slotKind s.mem n = 14 ∧ s.sweep.state = .paused ∧ next = .running) →
    (∃ u : UnitId, s.dir[u].mark = .pending) →
    ∃ t, exec (.signalWrite v) s = .next t ∧
      t.sweep = { s.sweep with state := next, revision := s.sweep.revision + 2 } ∧
      (next = .running → ∀ (u : UnitId) (k : CtxId),
        s.assignsSweep (fun v => s.dir[v].mark) (fun c => s.chans[c].settling = true) u k → s.openedBySweep t u k) ∧
      t.slotShows n 3 0 0 0 0 0 s.sweep.openEdition s.clock ∧ t.hasAttn .orderDone ∧ t.orders.taken[n] = none ∧
      t.clock = s.clock ∧ t.self = s.self ∧
      Rest { slots := (· = n) } { s with orders := { s.orders with scanHalt := none } } t

/-- R166, R168: an unknown kind is refused UNKNOWN_KIND, and while START is set every known kind but CLEAR START and RESET PART
is refused START_PENDING. With START clear, the checks of each kind, the first that fails deciding: SET CHANNEL (R118), SET
PACING (R140), SET POOL (R170), ENLIST UNIT (R171), DELIST, READ and ERASE UNIT (R171 to R173), SWEEP, PAUSE, RESUME and ABORT
SWEEP (R174). The slot is completed REFUSED in the visit with the code and word 0 given, and nothing is applied: the sweep
controller stands as it did, where nothing was left undone before. -/
def Obligations.RefusedAtTheVisit : Prop :=
  ∀ (v : Word) (n : SlotId) (s : State), s.visits n →
    let k := (slotKind s.mem n).toNat
    let b := fun i => (paramByte s.mem n i).toNat
    let w := fun i => (paramWord s.mem n i).toNat
    let u := b 0
    let inChannel := b 0 ≤ 3 ∧ b 1 ≤ 3 ∧ 1 ≤ b 2 ∧ b 2 ≤ 253 ∧ b 3 ≤ 1
    let busyOn := fun ch : ChanId => ∃ j : CtxId, s.ctxs[j].channel = ch ∧ s.ctxs[j].state.busy = true
    let used := fun (ch : ChanId) (a : Byte) => ∃ x : UnitId, x ≠ 0 ∧ s.dir[x].state ≠ .vacant ∧ s.dir[x].channel = ch ∧
      s.dir[x].address = a
    let span := fun lo hi least => ¬ (lo + least ≤ hi)
    let floorSpan := span (max 1 (min 600 (w 2))) (min 600 (w 4)) 10
    let inUnit := 1 ≤ u ∧ u ≤ 63 ∧ b 1 ≤ 3 ∧ 1 ≤ b 2 ∧ b 2 ≤ 253 ∧ b 6 ≤ 3
    ∀ code w0 : Word,
    (((k = 0 ∨ 16 < k) ∧ code = 0x80 ∧ w0 = 0) ∨
      (s.orders.start = true ∧ 3 ≤ k ∧ k ≤ 16 ∧ code = 0x81 ∧ w0 = 0) ∨
      (s.orders.start = false ∧
        ((k = 3 ∧ ¬ inChannel ∧ code = 0x82 ∧
            w0 = (if 3 < b 0 then 1 else if 3 < b 1 then 2 else if b 2 = 0 ∨ 253 < b 2 then 3 else 4)) ∨
          (∃ ch : ChanId, k = 3 ∧ inChannel ∧ b 0 = ch.val ∧ (s.sweep.state ≠ .idle ∨ b 1 ≠ 0 ∧ busyOn ch) ∧
            code = 0x8A ∧ w0 = 0) ∨
          (∃ ch : ChanId, k = 3 ∧ inChannel ∧ b 0 = ch.val ∧ s.sweep.state = .idle ∧ (b 1 = 0 ∨ ¬ busyOn ch) ∧
            used ch (paramByte s.mem n 2) ∧ code = 0x88 ∧ w0 = 0) ∨
          (k = 4 ∧ 3 < b 0 ∧ code = 0x82 ∧ w0 = 1) ∨
          (k = 4 ∧ b 0 ≤ 3 ∧ floorSpan ∧ code = 0x83 ∧ w0 = 1) ∨
          (k = 4 ∧ b 0 ≤ 3 ∧ ¬ floorSpan ∧ span (min 1000 (w 6)) (min 1000 (w 8)) 50 ∧ code = 0x83 ∧ w0 = 2) ∨
          (k = 7 ∧ 1 < b 0 ∧ code = 0x82 ∧ w0 = 1) ∨
          (k = 8 ∧ ¬ inUnit ∧ code = 0x82 ∧
            w0 = (if u = 0 ∨ 63 < u then 1 else if 3 < b 1 then 2 else if b 2 = 0 ∨ 253 < b 2 then 3 else 5)) ∨
          (∃ x : UnitId, k = 8 ∧ inUnit ∧ u = x.val ∧ s.dir[x].state ≠ .vacant ∧ code = 0x87 ∧ w0 = 0) ∨
          (∃ (x : UnitId) (ch : ChanId), k = 8 ∧ inUnit ∧ u = x.val ∧ b 1 = ch.val ∧ s.dir[x].state = .vacant ∧
            (used ch (paramByte s.mem n 2) ∨ paramByte s.mem n 2 = s.chans[ch].settings.address) ∧ code = 0x88 ∧ w0 = 0) ∨
          (k = 10 ∧ s.sweep.state ≠ .idle ∧ code = 0x84 ∧ w0 = 0) ∨
          (k = 13 ∧ s.sweep.state ≠ .running ∧ code = 0x85 ∧ w0 = 0) ∨
          (k = 14 ∧ s.sweep.state ≠ .paused ∧ code = 0x85 ∧ w0 = 0) ∨
          (k = 15 ∧ s.sweep.state ≠ .running ∧ s.sweep.state ≠ .paused ∧ code = 0x85 ∧ w0 = 0) ∨
          ((k = 9 ∨ k = 11 ∨ k = 12) ∧ (63 < u ∨ k = 9 ∧ u = 0) ∧ code = 0x82 ∧ w0 = 1) ∨
          (∃ x : UnitId, (k = 9 ∨ k = 11 ∨ k = 12) ∧ x ≠ 0 ∧ u = x.val ∧
            (s.dir[x].state = .vacant ∨ s.dir[x].state = .delisting) ∧ code = 0x86 ∧ w0 = 0) ∨
          (∃ x : UnitId, (k = 11 ∨ k = 12) ∧ x ≠ 0 ∧ u = x.val ∧ s.dir[x].state ≠ .vacant ∧ s.dir[x].state ≠ .delisting ∧
            s.chans[s.dir[x].channel].state = .off ∧ code = 0x89 ∧ w0 = 0)))) →
    ∃ t, exec (.signalWrite v) s = .next t ∧
      t.slotShows n 4 code w0 0 0 0 s.sweep.openEdition s.clock ∧ t.hasAttn .orderDone ∧
      t.clock = s.clock ∧ t.self = s.self ∧ t.orders.start = s.orders.start ∧ s.still t ∧
      Rest { slots := (· = n) } { s with orders := { s.orders with scanHalt := none } } t

/-- The setting orders but SET CHANNEL. R170, R114: SET TIMING is taken whatever its values, each clamped into its range, and
completes DONE with them. R140, R141: an accepted SET PACING clamps its values and completes DONE with them packed (12.5); on a
joined channel the pace is clamped into the new range and the target computed anew, off its bus the pace is the floor, OFF both
are 0. R159: SET SCHEDULE clamps its period, restarts the schedule timer and clears auto-due. R24, R15: SET POOL writes the
policy, with a step of the summary revision of its own only while no operation runs. -/
def Obligations.SetTimingClamps : Prop :=
  (∀ (v : Word) (n : SlotId) (s : State), s.visits n → slotKind s.mem n = 5 → s.orders.start = false →
    let p := fun i => (paramByte s.mem n i).toNat
    let into := fun lo hi x => max lo (min hi x)
    let settings : Timing :=
      { answer := into 5 255 (p 0), gap := into 5 255 (p 1), stop := into 5 255 (p 2), settle := 10 * p 3,
        limit := into 1 7 (p 4) }
    ∃ t, exec (.signalWrite v) s = .next t ∧ t.timing = settings ∧
      t.slotShows n 3 0 (BitVec.ofNat 16 (settings.answer + 256 * settings.gap))
        (BitVec.ofNat 16 (settings.stop + 256 * p 3)) (BitVec.ofNat 16 settings.limit) 0 s.sweep.openEdition s.clock ∧
      t.hasAttn .orderDone ∧ t.clock = s.clock ∧ t.self = s.self ∧ s.still t ∧
      Rest { slots := (· = n) } { s with timing := settings, orders := { s.orders with scanHalt := none } } t) ∧
  (∀ (v : Word) (n : SlotId) (ch : ChanId) (s : State), s.visits n → slotKind s.mem n = 4 → s.orders.start = false →
    (paramByte s.mem n 0).toNat = ch.val →
    let into := fun lo hi x => max lo (min hi x)
    let w := fun i => (paramWord s.mem n i).toNat
    let b := fun i => (paramByte s.mem n i).toNat
    let p : PacingSettings :=
      { floor := into 1 600 (w 2), ceiling := min 600 (w 4), lowMark := min 1000 (w 6), highMark := min 1000 (w 8)
        upTime := 100 * into 1 255 (b 1), downTime := 100 * into 1 255 (b 10), loadWindow := 100 * into 1 65 (b 11) }
    p.floor + 10 ≤ p.ceiling → p.lowMark + 50 ≤ p.highMark →
    let c := s.chans[ch]
    let target := if c.lastLoad ≤ p.lowMark then p.ceiling
      else if p.highMark ≤ c.lastLoad then p.floor
      else p.floor + (p.ceiling - p.floor) * (p.highMark - c.lastLoad) / (p.highMark - p.lowMark)
    ∃ t, exec (.signalWrite v) s = .next t ∧
      t.chans[ch].link = { c.link with pacer := { c.link.pacer with
        settings := p
        target := if c.state = .off then 0 else target
        current := if c.state = .off then 0
          else if c.state.joined then into p.floor p.ceiling c.pacer.current else p.floor } } ∧
      (∃ w0 w1 w2 w3 : Word, t.slotShows n 3 0 w0 w1 w2 w3 s.sweep.openEdition s.clock ∧
        w3 ++ (w2 ++ (w1 ++ w0)) = BitVec.ofNat 64 (p.floor + 2 ^ 10 * p.ceiling + 2 ^ 20 * p.lowMark + 2 ^ 30 * p.highMark +
          2 ^ 40 * into 1 255 (b 1) + 2 ^ 48 * into 1 255 (b 10) + 2 ^ 56 * into 1 65 (b 11))) ∧
      t.hasAttn .orderDone ∧ t.clock = s.clock ∧ t.self = s.self ∧ s.still t ∧
      Rest { chans := (· = ch), slots := (· = n) } { s with orders := { s.orders with scanHalt := none } } t) ∧
  (∀ (v : Word) (n : SlotId) (s : State), s.visits n → slotKind s.mem n = 6 → s.orders.start = false →
    let period := min 1440 (paramWord s.mem n 0).toNat
    let mask := (paramByte s.mem n 2).extractLsb' 0 4
    ∃ t, exec (.signalWrite v) s = .next t ∧ t.sweep.schedPeriod = period ∧ t.sweep.schedMask = mask ∧
      t.sweep.schedBudget = (paramWord s.mem n 4).toNat ∧ t.sweep.autoDue = false ∧
      t.sweep.scheduleTimer = (if period = 0 then none else some (s.clock + BitVec.ofNat 32 (period * 60000))) ∧
      t.slotShows n 3 0 (BitVec.ofNat 16 period) (mask.setWidth 16) (paramWord s.mem n 4) 0 s.sweep.openEdition s.clock ∧
      t.hasAttn .orderDone ∧ t.clock = s.clock ∧ t.self = s.self ∧
      (s.settled → s.tidy → t.sweep.same
        { s.sweep with
          schedPeriod := period, schedMask := mask, schedBudget := (paramWord s.mem n 4).toNat, autoDue := false
          scheduleTimer := t.sweep.scheduleTimer }) ∧
      Rest { slots := (· = n), schedule := True } { s with orders := { s.orders with scanHalt := none } } t) ∧
  ∀ (v : Word) (n : SlotId) (policy : PoolPolicy) (s : State), s.visits n → slotKind s.mem n = 7 → s.orders.start = false →
    (paramByte s.mem n 0).toNat = (if policy = .keep then 0 else 1) →
    ∃ t, exec (.signalWrite v) s = .next t ∧
      t.slotShows n 3 0 (if policy = .keep then 0 else 1) 0 0 0 s.sweep.openEdition s.clock ∧ t.hasAttn .orderDone ∧
      t.clock = s.clock ∧ t.self = s.self ∧ s.still t ∧
      Rest { slots := (· = n) }
        { s with orders := { s.orders with scanHalt := none },
                 pool := { s.pool with policy := policy, revision :=
                   if s.pool.op = none then s.pool.revision + 2 else s.pool.revision } } t

/-- R53, R171: an accepted ENLIST UNIT writes the VACANT entry it names in one write (no sweep starting in the same event) and
completes DONE at once. R61, R108, R109: an accepted DELIST UNIT writes its unit DELISTING and stays TAKEN. A unit no context
serves has its DELIST-RETIRE offered, its waiting orders completed STOPPED and a PENDING mark skipped; with 16 requests queued
the pass halts instead (R167). A context that serves it is stopped: FREE at once from PACED, with the DELIST-RETIRE offered,
else sending STOP; one in STOPPING or COMMITTING goes on. That a HELD unit's request ends STOPPED is log entry 16, DEDUCED; a
STOP may wait behind the context's withdrawn frame (log entry 12, DEDUCED), and shows as queued then too (log entry 29, the
model's choice). -/
def Obligations.EnlistWritesTheEntry : Prop :=
  (∀ (v : Word) (n : SlotId) (u : UnitId) (ch : ChanId) (cls : Fin 4) (s : State),
    s.visits n → slotKind s.mem n = 8 → s.orders.start = false →
    (paramByte s.mem n 0).toNat = u.val → u ≠ 0 → (paramByte s.mem n 1).toNat = ch.val →
    1 ≤ (paramByte s.mem n 2).toNat → (paramByte s.mem n 2).toNat ≤ 253 → (paramByte s.mem n 6).toNat = cls.val →
    s.dir[u].state = .vacant → paramByte s.mem n 2 ≠ s.chans[ch].settings.address →
    (∀ w : UnitId, w ≠ 0 → s.dir[w].state ≠ .vacant → s.dir[w].channel = ch →
      s.dir[w].address ≠ paramByte s.mem n 2) →
    ∃ t, exec (.signalWrite v) s = .next t ∧
      t.dir[u].record =
        { DirEntry.vacant with
          channel := ch, address := paramByte s.mem n 2, label := paramWord s.mem n 4, cls := cls, neverRead := true } ∧
      (t.dir[u].state = .idle ∨ t.dir[u].state = .reading ∨ t.dir[u].state = .erasing) ∧
      t.dir[u].lastOutcome = .none ∧
      (t.dir[u].state = .idle → (s.sweep.autoDue = false ∨ s.settled ∧ s.tidy) →
        t.dir[u].revision = s.dir[u].revision + 2) ∧
      t.self = s.self ∧ t.clock = s.clock ∧ s.still t ∧
      t.slotShows n 3 0 (BitVec.ofNat 16 u.val) 0 0 0 s.sweep.openEdition s.clock ∧ t.hasAttn .orderDone ∧
      Rest { slots := (· = n), units := (· = u) } { s with orders := { s.orders with scanHalt := none } } t) ∧
  ∀ (v : Word) (n : SlotId) (u : UnitId) (s : State), s.visits n → slotKind s.mem n = 9 → s.orders.start = false →
    (paramByte s.mem n 0).toNat = u.val → u ≠ 0 → s.dir[u].state ≠ .vacant → s.dir[u].state ≠ .delisting →
    (∀ (j : SlotId) (x : Taken), s.orders.taken[j] = some x → x.order ≠ .delistUnit u) →
    (∀ k : CtxId, hasSlot s.ctxs[k].attached n = false) →
    let waits := fun j => j ≠ n ∧ (∀ k : CtxId, hasSlot s.ctxs[k].attached j = false) ∧
      ∃ x, s.orders.taken[j] = some x ∧ (x.order = .readUnit u ∨ x.order = .eraseUnit u)
    let delisted := fun (e : Edition) (t : State) =>
      t.dir[u].state = .delisting ∧ slotState t.mem n = 2 ∧
        t.orders.taken[n] = some { order := .delistUnit u, edition := e, sweepResult := none } ∧
        (∀ j x, waits j → s.orders.taken[j] = some x → t.slotDone j 7 x.edition s.clock) ∧ t.clock = s.clock
    ((∀ k : CtxId, s.ctxs[k].state = .free ∨ s.ctxs[k].target ≠ u) →
      (16 ≤ s.pool.queue.length →
        exec (.signalWrite v) s = .next { s with orders := { s.orders with scanHalt := some n } }) ∧
      (s.pool.queue.length < 16 → ∃ t, exec (.signalWrite v) s = .next t ∧ delisted s.editionFor t ∧
        s.pool.queue ++ [.delistRetire u n] <+: t.pool.queue ∧ t.sweep.openEdition = s.editionFor ∧
        (s.sweep.autoDue = false →
          t.dir[u].mark = if s.dir[u].mark = .pending then .skipped else s.dir[u].mark) ∧
        (s.dir[u].state = .held → s.sweep.autoDue = false → t.dir[u].lastOutcome = .stopped) ∧
        Rest { slots := fun j => j = n ∨ waits j, units := (· = u) }
          { s with orders := { s.orders with scanHalt := none } } t)) ∧
    ∀ k : CtxId, s.ctxs[k].state ≠ .free → s.ctxs[k].target = u → s.alone k →
      ∃ t, exec (.signalWrite v) s = .next t ∧ delisted s.sweep.openEdition t ∧
        (s.ctxs[k].state = .paced → s.released t k ∧ .delistRetire u n ∈ t.pool.queue ++ t.pool.waiting ∧
          (∀ j x, s.awaits k j x → j ≠ n → t.slotDone j 7 x.edition s.clock)) ∧
        ((s.ctxs[k].state = .opening ∨ s.ctxs[k].state = .receiving ∨ s.ctxs[k].state = .mending) →
          s.stopsWith t k) ∧
        ((s.ctxs[k].state = .stopping ∨ s.ctxs[k].state = .committing) → t.ctxs[k].same s.ctxs[k]) ∧
        (s.ctxs[k].state ≠ .paced → s.ctxs[k].purpose = .read → s.still t) ∧
        Rest { ctxs := s.leaving k, chans := (· = s.ctxs[k].channel), units := (· = u),
               slots := fun j => j = n ∨ waits j ∨ hasSlot s.ctxs[k].attached j = true }
          { s with orders := { s.orders with scanHalt := none } } t

/-- R167, R175: RELEASE EDITION is taken whatever its edition, and its RELEASE joins the queue's tail; while the queue holds
16 requests the order is left POSTED instead, and the pass halts there, naming the slot, with nothing else changed. READ UNIT
0 and ERASE UNIT 0 offer and halt in the same way: a SELF COMMIT (R68), or an ERASE-CLEAR after the self history has been
emptied (R45). R172, R173, R97: an accepted READ or ERASE UNIT of another unit is TAKEN in the open edition, or the one it
opens; a READ UNIT joins a read in progress. That it joins also where an ERASE UNIT of lower slot waits on the unit is log
entry 31, the model's choice: the joining case of R97 says so, a later sentence of R97 has it wait for that erase. R94 to R96,
R98: with no other such order TAKEN, an eligible unit is assigned the lowest FREE context at once. -/
def Obligations.ReleaseEditionOffersOrHalts : Prop :=
  (∀ (v : Word) (n : SlotId) (s : State), s.visits n → slotKind s.mem n = 16 → s.orders.start = false →
    let e : Edition := paramWord s.mem n 2 ++ paramWord s.mem n 0
    (16 ≤ s.pool.queue.length →
      exec (.signalWrite v) s = .next { s with orders := { s.orders with scanHalt := some n } }) ∧
    (s.pool.queue.length < 16 →
      ∃ t, exec (.signalWrite v) s = .next t ∧ slotState t.mem n = 2 ∧ t.orders.scanHalt = none ∧
        s.pool.queue ++ [.release e n] <+: t.pool.queue ∧ t.pool.store = s.pool.store ∧
        (∃ x, t.orders.taken[n] = some x ∧ x.order = .releaseEdition e) ∧ t.clock = s.clock ∧ t.self = s.self ∧ s.still t)) ∧
  (∀ (v : Word) (n : SlotId) (p : Purpose) (s : State), s.visits n → s.orders.start = false →
    slotKind s.mem n = (match p with | .read => 11 | .erase => 12) → (paramByte s.mem n 0).toNat = 0 →
    let o : Order := match p with | .read => .readUnit 0 | .erase => .eraseUnit 0
    let r : PoolRequest := match p with
      | .read => .selfCommit (.slot n)
      | .erase => .eraseClear 0 (s.self.generation + 1) (s.self.epoch + 1) n none
    (16 ≤ s.pool.queue.length →
      exec (.signalWrite v) s = .next { s with orders := { s.orders with scanHalt := some n } }) ∧
    (s.pool.queue.length < 16 →
      ∃ t, exec (.signalWrite v) s = .next t ∧ slotState t.mem n = 2 ∧ s.pool.queue ++ [r] <+: t.pool.queue ∧
        t.orders.taken[n] = some { order := o, edition := s.editionFor, sweepResult := none } ∧
        t.sweep.openEdition = s.editionFor ∧ (s.sweep.openEdition ≠ 0 → s.still t) ∧ t.clock = s.clock ∧
        t.self = (match p with
          | .read => s.self
          | .erase => { entries := [], generation := s.self.generation + 1, epoch := s.self.epoch + 1
                        revision := s.self.revision + 2 }) ∧
        Rest { slots := (· = n) } { s with orders := { s.orders with scanHalt := none } } t)) ∧
  ∀ (v : Word) (n : SlotId) (p : Purpose) (u : UnitId) (s : State), s.visits n → s.orders.start = false →
    slotKind s.mem n = (match p with | .read => 11 | .erase => 12) → (paramByte s.mem n 0).toNat = u.val → u ≠ 0 →
    s.dir[u].state ≠ .vacant → s.dir[u].state ≠ .delisting → s.chans[s.dir[u].channel].state ≠ .off →
    let o : Order := match p with | .read => .readUnit u | .erase => .eraseUnit u
    ∃ t, exec (.signalWrite v) s = .next t ∧ slotState t.mem n = 2 ∧
      t.orders.taken[n] = some { order := o, edition := s.editionFor, sweepResult := none } ∧
      t.sweep.openEdition = s.editionFor ∧ (s.sweep.openEdition ≠ 0 → s.still t) ∧ t.clock = s.clock ∧ t.self = s.self ∧
      (∀ k : CtxId, s.readsUnit u k → p = .read →
        t.ctxs[k].same { s.ctxs[k] with attached := s.ctxs[k].attached ||| BitVec.ofNat 16 (2 ^ n.val) }) ∧
      (∀ k : CtxId, s.assignsFirst n u k → t.ctxs[k].target = u ∧ t.ctxs[k].channel = s.dir[u].channel ∧
        t.ctxs[k].purpose = p ∧ t.ctxs[k].attached = BitVec.ofNat 16 (2 ^ n.val) ∧ t.ctxs[k].firstOpening = true ∧
        t.ctxs[k].parity = !s.ctxs[k].parity ∧ t.ctxs[k].attempt = 1 ∧ t.ctxs[k].useAnswer = s.timing.answer ∧
        t.ctxs[k].useLimit = s.timing.limit ∧
        t.asksFor k (match p with | .read => 16 | .erase => 1) (match p with | .read => .openFrame | .erase => .eraseFrame)
          .paced ∧
        t.dir[u].state = (match p with | .read => .reading | .erase => .erasing) ∧ t.dir[u].holdCount = 0) ∧
      Rest { slots := (· = n), ctxs := fun k => p = .read ∧ s.readsUnit u k }
        { s with orders := { s.orders with scanHalt := none } } t

/-- R177, R161, R115, R132: RESET PART is taken whatever the state of START; its slot is TAKEN, the engine reset begins, the
budget and schedule timers stop, the schedule is switched off, auto-due is cleared, and no context is freed by the taking. Every
frame of a frozen context that waits unsent is withdrawn; frames in transmission and frames without a sender stay. -/
def Obligations.ResetPartBegins : Prop :=
  ∀ (v : Word) (n : SlotId) (s : State), s.visits n → slotKind s.mem n = 2 →
    ∃ t, exec (.signalWrite v) s = .next t ∧ t.orders.resetting = some n ∧ t.orders.scanHalt = none ∧
      slotState t.mem n = 2 ∧ t.sweep.schedPeriod = 0 ∧ t.sweep.schedMask = 0 ∧ t.sweep.schedBudget = 0 ∧
      t.sweep.scheduleTimer = none ∧ t.sweep.budgetTimer = none ∧ t.sweep.autoDue = false ∧
      (s.settled → s.tidy → t.sweep.same
        { s.sweep with
          budgetTimer := none, scheduleTimer := none, schedPeriod := 0, schedMask := 0, schedBudget := 0, autoDue := false }) ∧
      t.orders.start = s.orders.start ∧ t.dir = s.dir ∧
      (∀ (c : ChanId) (e : TxEntry),
        (e ∈ t.chans[c].txQueue ++ t.chans[c].txOutside ++ t.chans[c].txDeferred →
          e ∈ s.chans[c].txQueue ++ s.chans[c].txOutside ++ s.chans[c].txDeferred) ∧
        (e ∈ s.chans[c].txQueue ++ s.chans[c].txOutside ++ s.chans[c].txDeferred → (e.transmitting = true ∨ e.live = false) →
          e ∈ t.chans[c].txQueue ++ t.chans[c].txOutside ++ t.chans[c].txDeferred)) ∧
      (∀ (k : CtxId) (e : TxEntry), let c := s.ctxs[k].channel
        s.ctxs[k].state ≠ .free → s.ctxs[k].state ≠ .committing →
        e ∈ t.chans[c].txQueue ++ t.chans[c].txOutside ++ t.chans[c].txDeferred → e.live = true → e.ctx = some k →
        e.transmitting = true) ∧
      (∀ c : ChanId, t.chans[c].link = s.chans[c].link ∧ t.chans[c].pacer = s.chans[c].pacer ∧
        t.chans[c].settling = s.chans[c].settling) ∧
      (∀ k : CtxId, t.ctxs[k].state = s.ctxs[k].state ∧ t.ctxs[k].target = s.ctxs[k].target ∧
        t.ctxs[k].window = s.ctxs[k].window) ∧
      t.pool.store = s.pool.store ∧ t.clock = s.clock ∧ t.self = s.self


/-! ### The pool manager -/

/-- R13, R15, R14: with no operation running the head request leaves the queue and its operation begins, the summary revision
becoming odd; the earliest waiting offer is admitted at the tail. The policy, the snapshot of the self history and the applied
edition are taken (R21, R24, R42). While an operation runs no second one begins, and no frame passes from a FIFO to a
context. -/
def Obligations.OperationBeginsWithTheHead : Prop :=
  (∀ (r : PoolRequest) (rest : List PoolRequest) (s : State), s.running → s.pool.op = none → s.pool.queue = r :: rest →
    s.parityOk → ∃ t, exec .poolOperationBegin s = .next t ∧ t.pool.revision = s.pool.revision + 1 ∧ t.parityOk ∧
      t.pool.queue = rest ++ s.pool.waiting.take 1 ∧ t.pool.waiting = s.pool.waiting.drop 1 ∧
      (∃ o, t.pool.op = some o ∧ o.request = r ∧ o.policy = s.pool.policy ∧ o.snapshot = s.self ∧
        ∀ e n, r = .release e n → o.applied.toNat = min e.toNat s.sweep.lastClosed.toNat) ∧
      t = { s with port := { s.port with attnLow := t.port.attnLow },
                   pool := { s.pool with queue := t.pool.queue, waiting := t.pool.waiting, revision := t.pool.revision,
                                         op := t.pool.op } }) ∧
  ∀ s : State, s.pool.op ≠ none → exec .grant s = .next s ∧ exec .hold s = .next s ∧ exec .entryA s = .next s ∧
    exec .entryB s = .next s ∧ exec .close s = .next s ∧ exec .erased s = .next s ∧
    ∃ t, exec .poolOperationBegin s = .next t ∧ t.pool = s.pool

/-- R29, R30: an entry of code 0, or of an identity entered from a lower index, is dropped; the rest stand in strictly
ascending identity. -/
def Obligations.ReadListScreenedAndSorted : Prop :=
  ∀ l : List ReadEntry,
    (readList l).Pairwise (fun a b => identLt a.code a.mode b.code b.mode = true) ∧
    (∀ e, e ∈ readList l ↔ e.code ≠ 0 ∧ ∃ l1 l2, l = l1 ++ e :: l2 ∧ ∀ x ∈ l1, ¬ (x.code = e.code ∧ x.mode = e.mode)) ∧
    (screenDrops l = true ↔ (readList l).length < l.length)

/-- R33, R34, R35: an update counts the occurrences modulo 256, saturates, widens the odometers, takes the flags, the state
and the unit's count; one write stamps the changed edition, and an untouched record is not written. -/
def Obligations.UpdateCountsAndWidens : Prop :=
  ∀ (ed : Edition) (e : ReadEntry) (r : RecId) (w : PoolWork), (w.records[r].firstOdo).toNat ≤ (w.records[r].lastOdo).toNat →
    let x := w.records[r]
    let y := (w.update ed e r).records[r]
    y.cumulative.toNat = min 16777215 (x.cumulative.toNat + (256 + e.count.toNat - x.lastCount.toNat) % 256) ∧
    (y.saturated = true ↔ x.saturated = true ∨ y.cumulative.toNat = 16777215) ∧ y.lastCount = e.count ∧
    y.firstOdo.toNat = min x.firstOdo.toNat e.firstOdo.toNat ∧ y.lastOdo.toNat = max x.lastOdo.toNat e.lastOdo.toNat ∧
    y.firstOdo.toNat ≤ y.lastOdo.toNat ∧ y.state = (if e.activeNow then .active else .stored) ∧
    y.activeNow = e.activeNow ∧ y.confirmed = e.confirmed ∧ y.lamp = e.lamp ∧ y.owner = x.owner ∧ y.code = x.code ∧
    y.mode = x.mode ∧ y.link = x.link ∧ y.created = x.created ∧ y.retired = x.retired ∧
    (y = x ∨ y.changed = ed ∧ y.revision = (if x.revision = 254 then 2 else x.revision + 2)) ∧
    (y.changed ≠ x.changed ∨ y.revision ≠ x.revision →
      ¬ (y.state = x.state ∧ y.lastCount = x.lastCount ∧ y.cumulative = x.cumulative ∧ y.saturated = x.saturated ∧
        y.activeNow = x.activeNow ∧ y.confirmed = x.confirmed ∧ y.lamp = x.lamp ∧ y.firstOdo = x.firstOdo ∧
        y.lastOdo = x.lastOdo)) ∧
    (∀ j, j ≠ r → (w.update ed e r).records[j] = w.records[j])

/-- R16, R36, R6: with a free record the top is popped and filled in one write as R36's table gives, and its predecessor in the
chain, or the chain head, takes it. -/
def Obligations.CreateFillsTheTop : Prop :=
  ∀ (policy : PoolPolicy) (u : UnitId) (ed : Edition) (e : ReadEntry) (prev next : Option RecId) (r : RecId)
    (f : List RecId) (w : PoolWork), linked w.records w.freeTop (r :: f) → prev ≠ some r → (r :: f).Nodup →
    (∀ p, prev = some p → p ∉ f) →
    let v := (w.create policy u ed e prev next).2
    (w.create policy u ed e prev next).1 = some r ∧ linked v.records v.freeTop f ∧ v.freeCount = w.freeCount - 1 ∧
    v.records[r] =
      { revision := if w.records[r].revision = 254 then 2 else w.records[r].revision + 2
        state := if e.activeNow then .active else .stored
        owner := u, activeNow := e.activeNow, confirmed := e.confirmed, lamp := e.lamp, saturated := false, code := e.code,
        mode := e.mode, cumulative := BitVec.ofNat 24 (max 1 e.count.toNat), lastCount := e.count, firstOdo := e.firstOdo,
        lastOdo := if e.firstOdo.toNat ≤ e.lastOdo.toNat then e.lastOdo else e.firstOdo
        link := next, created := ed, changed := ed, retired := 0 } ∧
    (∀ p, prev = some p → v.records[p].link = some r ∧ v.chainHead = w.chainHead) ∧
    (prev = none → v.chainHead = some r) ∧ v.chainCount = w.chainCount + 1 ∧ v.liveCount = w.liveCount + 1 ∧
    v.failed = w.failed

/-- R17, R18, R19: on an empty free stack RECLAIM takes the head of the retired queue, and an allocation that finds no record
fails and writes no record. -/
def Obligations.AllocationOnAnEmptyStack : Prop :=
  ∀ (u : UnitId) (ed : Edition) (e : ReadEntry) (prev next : Option RecId) (w : PoolWork), w.freeTop = none →
    (w.create .keep u ed e prev next = (prev, { w with failed := true })) ∧
    (w.retHead = none → w.create .reclaim u ed e prev next = (prev, { w with failed := true })) ∧
    ∀ (r : RecId) (q : List RecId), linked w.records w.retHead (r :: q) → (r :: q).Nodup → prev ≠ some r →
      (∀ p, prev = some p → p ∉ q) → w.retTail = (r :: q).getLast? →
      let v := (w.create .reclaim u ed e prev next).2
      (w.create .reclaim u ed e prev next).1 = some r ∧ linked v.records v.retHead q ∧ v.retTail = q.getLast? ∧
      v.retCount = w.retCount - 1 ∧ v.freeCount = w.freeCount ∧ v.liveCount = w.liveCount + 1 ∧
      v.reclaimed = w.reclaimed + 1 ∧ v.failed = w.failed ∧ v.records[r].owner = u ∧ v.records[r].code = e.code ∧
      v.records[r].mode = e.mode ∧ v.records[r].created = ed ∧ v.records[r].retired = 0 ∧ v.records[r].link = next

/-- R32, R35, R36, R37: with a free record for every entry, the merge leaves in the unit's chain exactly the identities of the
read list, in ascending order, each record with its entry's flags, state and count; a live record whose identity was read keeps
its place, and the others are retired as LAPSED, in chain order, behind the retired queue. -/
def Obligations.MergeLeavesTheReadList : Prop :=
  ∀ (policy : PoolPolicy) (u : UnitId) (ed : Edition) (entries : List ReadEntry) (chain f q : List RecId) (w : PoolWork),
    entries.Pairwise (fun a b => identLt a.code a.mode b.code b.mode = true) →
    chain.Pairwise (fun a b =>
      identLt w.records[a].code w.records[a].mode w.records[b].code w.records[b].mode = true) →
    w.holds chain f q → entries.length ≤ f.length →
    let v := w.merge policy u ed (walkFuel entries.length) entries none w.chainHead
    let gone := chain.filter fun r =>
      decide (∀ e ∈ entries, ¬ (e.code = w.records[r].code ∧ e.mode = w.records[r].mode))
    ∃ chain' f', v.holds chain' f' (q ++ gone) ∧ v.failed = w.failed ∧
      List.Forall₂ (fun (r : RecId) e => v.records[r].code = e.code ∧ v.records[r].mode = e.mode ∧
        v.records[r].lastCount = e.count ∧ v.records[r].activeNow = e.activeNow ∧ v.records[r].confirmed = e.confirmed ∧
        v.records[r].lamp = e.lamp ∧ v.records[r].state = (if e.activeNow then .active else .stored)) chain' entries ∧
      (∀ r ∈ chain, r ∉ gone → r ∈ chain') ∧
      ∀ r ∈ gone, v.records[r].state = .lapsed ∧ v.records[r].retired = ed ∧ v.records[r].changed = ed ∧
        v.records[r].code = w.records[r].code ∧ v.records[r].mode = w.records[r].mode ∧
        v.records[r].cumulative = w.records[r].cumulative

/-- R21, R22, R9, R15: a RELEASE frees retired records from the queue's head while their retire edition is at most the applied
edition, each zeroed and pushed onto the free stack, the tail becoming none with the last of them, and completes its order with
the applied edition and the number freed. The operation is shown whole at its end (log entry 7, the model's choice), and the
order's result code is OK (log entry 30, DEDUCED). -/
def Obligations.ReleaseFreesThePrefix : Prop :=
  ∀ (o : PoolOp) (e : Edition) (n : SlotId) (q f : List RecId) (s : State),
    s.operates (.release e n) o → s.memOk → linked s.pool.records s.pool.retHead q →
    linked s.pool.records s.pool.freeTop f → (q ++ f).Nodup →
    let gone := q.takeWhile fun r => decide ((s.pool.records[r].retired).toNat ≤ o.applied.toNat)
    ∃ t, exec .release s = .next t ∧ linked t.pool.records t.pool.retHead (q.drop gone.length) ∧
      linked t.pool.records t.pool.freeTop (gone.reverse ++ f) ∧
      (∀ r ∈ gone, t.pool.records[r] =
        { revision := 0, state := .free, owner := 0, activeNow := false, confirmed := false, lamp := false,
          saturated := false, code := 0, mode := 0, cumulative := 0, lastCount := 0, firstOdo := 0, lastOdo := 0,
          link := t.pool.records[r].link, created := 0, changed := 0, retired := 0 }) ∧
      (∀ r, r ∉ gone → t.pool.records[r] = s.pool.records[r]) ∧
      t.pool.freeCount = s.pool.freeCount + gone.length ∧ t.pool.retCount = s.pool.retCount - gone.length ∧
      (s.pool.retTail = q.getLast? → t.pool.retTail = (q.drop gone.length).getLast?) ∧
      t.slotShows n 3 0 (o.applied.extractLsb' 0 16) (o.applied.extractLsb' 16 16) (BitVec.ofNat 16 gone.length) 0
        s.sweep.openEdition s.clock ∧
      t.hasAttn .orderDone ∧ t.orders.taken[n] = none ∧ t.clock = s.clock ∧ t.self = s.self ∧
      Rest { slots := (· = n) }
        { s with pool := { s.pool with records := t.pool.records, freeTop := t.pool.freeTop, freeCount := t.pool.freeCount,
                                       retHead := t.pool.retHead, retTail := t.pool.retTail, retCount := t.pool.retCount,
                                       revision := s.pool.revision + 1, op := none } } t

/-- R28, R39, R40, R41, R172: a COMMIT writes its unit's entry and the summary; POOL_EXHAUSTED is logged for records reclaimed
and for allocations failed (R17 to R19), PROTOCOL_ERROR for a unit left MALFORMED; a crossing below 64 free records raises
POOL_LOW; its context is COMMITTING no longer (FREE, or assigned again at once), and every attached READ UNIT order completes
DONE. The operation is shown whole at its end: log entry 7, the model's choice. `w` is the pool after screening, epoch step and
merge; R31: the epoch step leaves the pool as it stands under NEVER_READ or equal epochs, and retires the whole chain as CLEARED
otherwise. R148 to R150, R157, R158: a running sweep that waits for the unit marks it DONE and counts the outcome; with no other
unit PENDING it returns to IDLE, and the edition that nothing else keeps open closes. -/
def Obligations.CommitEndsTheRead : Prop :=
  ∀ (o : PoolOp) (k : CtxId) (u : UnitId) (gen : Word) (epoch : Byte) (total : Nat) (trunc : Bool) (s : State),
    s.operates (.commit k u gen epoch total trunc) o → s.memOk → s.ctxs[k].target = u → s.ctxs[k].purpose = .read →
    let staged := stagedEntries s.ctxs[k].staging total
    let w := s.commitWork o.policy u epoch staged
    let truncated := trunc || w.failed
    ∃ t, exec .commit s = .next t ∧
      t.dir[u].record =
        { s.dir[u].record with
          generation := gen, epoch := epoch, reportedTotal := total, liveCount := w.chainCount, chainHead := w.chainHead,
          neverRead := false, truncated := truncated, lastRead := s.sweep.counter, lastSuccess := s.sweep.counter,
          absentStreak := 0, readsOk := min 65535 (s.dir[u].readsOk + 1) } ∧
      (if s.dir[u].state = .delisting then t.dir[u].state = .delisting
        else t.dir[u].state = .idle ∨ t.dir[u].state = .reading ∨ t.dir[u].state = .erasing) ∧
      t.dir[u].lastOutcome = (if truncated then .readTruncated else .readOk) ∧ t.dir[u].restartCount = 0 ∧
      t.dir[u].holdCount = 0 ∧
      (t.dir[u].state ≠ .reading → t.dir[u].malformed = (s.dir[u].malformed || screenDrops staged)) ∧
      t.ctxs[k].state ≠ .committing ∧
      (∀ n x, hasSlot s.ctxs[k].attached n = true → s.orders.taken[n] = some x → x.order = .readUnit u →
        t.slotShows n 3 (if truncated then 2 else 1) (BitVec.ofNat 16 w.chainCount) (BitVec.ofNat 16 total) 0 0 x.edition
          s.clock ∧ t.orders.taken[n] = none ∧ t.hasAttn .orderDone) ∧
      (64 ≤ s.pool.freeCount → w.freeCount < 64 → t.hasAttn .poolLow) ∧
      (w.failed = false → w.reclaimed = 0 → s.dir[u].malformed = false → screenDrops staged = false → t.self = s.self) ∧
      (w.reclaimed ≠ 0 → s.logs t .poolExhausted 1 false) ∧ (w.failed = true → s.logs t .poolExhausted 0 false) ∧
      (s.dir[u].malformed = true ∨ screenDrops staged = true → s.logs t .protocolError (BitVec.ofNat 8 u.val) false) ∧
      t.clock = s.clock ∧
      (∀ l q, linked s.pool.records s.dir[u].chainHead l → linked s.pool.records s.pool.retHead q → (l ++ q).Nodup →
        s.pool.retTail = q.getLast? →
        let start := PoolWork.start s.pool s.dir[u]
        let x := start.epochStep s.dir[u] epoch s.sweep.counter
        w = x.merge o.policy u s.sweep.counter (walkFuel (readList staged).length) (readList staged) none x.chainHead ∧
        (s.dir[u].neverRead = true ∨ epoch = s.dir[u].epoch → x = start) ∧
        (s.dir[u].neverRead = false → epoch ≠ s.dir[u].epoch → x.chainHead = none ∧
          s.pool.retires { s.pool with records := x.records, freeTop := x.freeTop, freeCount := x.freeCount, retHead := x.retHead,
                                       retTail := x.retTail, retCount := x.retCount, liveCount := x.liveCount }
            .cleared s.sweep.counter l q)) ∧
      (s.dir[u].mark = .pending → s.sweep.state ≠ .idle → s.sweep.autoDue = false →
        t.dir[u].mark = .done ∧
        t.sweep.tallies =
          (if truncated then { s.sweep.tallies with truncated := s.sweep.tallies.truncated + 1 }
            else { s.sweep.tallies with readOk := s.sweep.tallies.readOk + 1 }) ∧
        ((∃ v : UnitId, v ≠ u ∧ s.dir[v].mark = .pending) →
          t.sweep.state = s.sweep.state ∧ t.sweep.outcome = s.sweep.outcome ∧ t.sweep.endClock = s.sweep.endClock) ∧
        ((∀ v : UnitId, v ≠ u → s.dir[v].mark ≠ .pending) → s.ctxs[k].attached = 0 → s.dir[u].state ≠ .delisting →
          State.sweepReturns { s with pool := { s.pool with op := none } } t
            (if s.sweep.state = .draining then s.sweep.outcome else .complete) s.clock fun _ => False)) ∧
      Rest { ctxs := (· = k), chans := (· = s.ctxs[k].channel), units := (· = u),
             slots := fun n => hasSlot s.ctxs[k].attached n = true }
        { s with pool := { s.pool with records := w.records, freeTop := w.freeTop, freeCount := w.freeCount,
                                       retHead := w.retHead, retTail := w.retTail, retCount := w.retCount,
                                       liveCount := w.liveCount, reclaimed := satAdd32 s.pool.reclaimed w.reclaimed,
                                       revision := s.pool.revision + 1, op := none } } t

/-- R42, R43: a SELF COMMIT reconciles the snapshot taken at its beginning against unit 0's chain, writes unit 0's entry, and
completes READ UNIT 0 if an order asked for it. The operation is shown whole at its end: log entry 7, the model's choice. R148
to R150, R153, R157, R158: one that the sweep asked for marks unit 0 DONE and is counted; with no other unit PENDING the sweep
returns to IDLE, and the edition that nothing else keeps open closes. -/
def Obligations.SelfCommitEndsTheSelfRead : Prop :=
  ∀ (o : PoolOp) (origin : SelfOrigin) (s : State), s.operates (.selfCommit origin) o → s.memOk →
    let w := s.commitWork o.policy 0 o.snapshot.epoch (snapshotEntries o.snapshot)
    ∃ t, exec .selfCommit s = .next t ∧
      t.dir[(0 : UnitId)].record =
        { s.dir[(0 : UnitId)].record with
          generation := o.snapshot.generation, epoch := o.snapshot.epoch, reportedTotal := o.snapshot.entries.length,
          liveCount := w.chainCount, chainHead := w.chainHead, neverRead := false, truncated := w.failed,
          lastRead := s.sweep.counter, lastSuccess := s.sweep.counter, absentStreak := 0,
          readsOk := min 65535 (s.dir[(0 : UnitId)].readsOk + 1) } ∧
      t.dir[(0 : UnitId)].lastOutcome = (if w.failed then .readTruncated else .readOk) ∧ t.dir[(0 : UnitId)].restartCount = 0 ∧
      t.dir[(0 : UnitId)].holdCount = 0 ∧ t.dir[(0 : UnitId)].malformed = s.dir[(0 : UnitId)].malformed ∧
      (s.dir[(0 : UnitId)].state = .idle → t.dir[(0 : UnitId)].state = .idle) ∧
      (w.reclaimed ≠ 0 → s.logs t .poolExhausted 1 false) ∧ (w.failed = true → s.logs t .poolExhausted 0 false) ∧
      (∀ n x, origin = .slot n → s.orders.taken[n] = some x → x.order = .readUnit 0 →
        t.slotShows n 3 (if w.failed then 2 else 1) (BitVec.ofNat 16 w.chainCount)
          (BitVec.ofNat 16 o.snapshot.entries.length) 0 0 x.edition s.clock ∧ t.orders.taken[n] = none) ∧
      (64 ≤ s.pool.freeCount → w.freeCount < 64 → t.hasAttn .poolLow) ∧
      (w.failed = false → w.reclaimed = 0 → t.self = s.self) ∧ t.clock = s.clock ∧
      (origin = .sweep → s.dir[(0 : UnitId)].mark = .pending → s.sweep.state ≠ .idle → s.sweep.autoDue = false →
        t.dir[(0 : UnitId)].mark = .done ∧
        t.sweep.tallies =
          (if w.failed then { s.sweep.tallies with truncated := s.sweep.tallies.truncated + 1 }
            else { s.sweep.tallies with readOk := s.sweep.tallies.readOk + 1 }) ∧
        ((∃ v : UnitId, v ≠ 0 ∧ s.dir[v].mark = .pending) →
          t.sweep.state = s.sweep.state ∧ t.sweep.outcome = s.sweep.outcome ∧ t.sweep.endClock = s.sweep.endClock) ∧
        ((∀ v : UnitId, v ≠ 0 → s.dir[v].mark ≠ .pending) →
          State.sweepReturns { s with pool := { s.pool with op := none } } t
            (if s.sweep.state = .draining then s.sweep.outcome else .complete) s.clock fun _ => False)) ∧
      Rest { units := (· = 0), slots := fun n => origin = .slot n }
        { s with pool := { s.pool with records := w.records, freeTop := w.freeTop, freeCount := w.freeCount,
                                       retHead := w.retHead, retTail := w.retTail, retCount := w.retCount,
                                       liveCount := w.liveCount, reclaimed := satAdd32 s.pool.reclaimed w.reclaimed,
                                       revision := s.pool.revision + 1, op := none } } t

/-- R44, R8, R173: an ERASE-CLEAR retires the unit's whole chain as CLEARED in chain order, stores the new generation and
epoch, takes the erase's context out of COMMITTING and completes its order. R45: for unit 0 no context takes part, and the unit
stays IDLE. The operation is shown whole at its end: log entry 7, the model's choice. -/
def Obligations.EraseClearRetiresTheChain : Prop :=
  (∀ (o : PoolOp) (k : CtxId) (u : UnitId) (gen : Word) (epoch : Byte) (n : SlotId) (l q : List RecId) (s : State),
    s.operates (.eraseClear u gen epoch n (some k)) o → s.memOk → s.ctxs[k].target = u → s.ctxs[k].purpose = .erase →
    linked s.pool.records s.dir[u].chainHead l → linked s.pool.records s.pool.retHead q → (l ++ q).Nodup →
    s.pool.retTail = q.getLast? →
    ∃ t, exec .eraseClear s = .next t ∧ s.pool.retires t.pool .cleared s.sweep.counter l q ∧
      t.dir[u].record =
        { s.dir[u].record with generation := gen, epoch := epoch, reportedTotal := 0, liveCount := 0, chainHead := none } ∧
      (if s.dir[u].state = .delisting then t.dir[u].state = .delisting
        else t.dir[u].state = .idle ∨ t.dir[u].state = .reading ∨ t.dir[u].state = .erasing) ∧
      t.dir[u].lastOutcome = .erased ∧ t.dir[u].restartCount = 0 ∧ t.dir[u].holdCount = 0 ∧
      t.ctxs[k].state ≠ .committing ∧
      (∀ j x, hasSlot s.ctxs[k].attached j = true → s.orders.taken[j] = some x → x.order = .eraseUnit u →
        t.slotShows j 3 8 gen (epoch.setWidth 16) 0 0 x.edition s.clock ∧ t.orders.taken[j] = none) ∧
      t.clock = s.clock ∧ t.self = s.self ∧
      Rest { ctxs := (· = k), chans := (· = s.ctxs[k].channel), units := (· = u),
             slots := fun j => hasSlot s.ctxs[k].attached j = true }
        { s with pool := { s.pool with records := t.pool.records, retHead := t.pool.retHead, retTail := t.pool.retTail,
                                       retCount := t.pool.retCount, liveCount := t.pool.liveCount,
                                       revision := s.pool.revision + 1, op := none } } t) ∧
  ∀ (o : PoolOp) (gen : Word) (epoch : Byte) (n : SlotId) (l q : List RecId) (s : State),
    s.operates (.eraseClear 0 gen epoch n none) o → s.memOk → linked s.pool.records s.dir[(0 : UnitId)].chainHead l →
    linked s.pool.records s.pool.retHead q → (l ++ q).Nodup → s.pool.retTail = q.getLast? →
    ∃ t, exec .eraseClear s = .next t ∧ s.pool.retires t.pool .cleared s.sweep.counter l q ∧
      t.dir[(0 : UnitId)].record =
        { s.dir[(0 : UnitId)].record with
          generation := gen, epoch := epoch, reportedTotal := 0, liveCount := 0, chainHead := none } ∧
      (s.dir[(0 : UnitId)].state = .idle → t.dir[(0 : UnitId)].state = .idle) ∧
      t.dir[(0 : UnitId)].lastOutcome = .erased ∧ t.dir[(0 : UnitId)].restartCount = 0 ∧ t.dir[(0 : UnitId)].holdCount = 0 ∧
      (∀ x, s.orders.taken[n] = some x → x.order = .eraseUnit 0 →
        t.slotShows n 3 8 gen (epoch.setWidth 16) 0 0 x.edition s.clock ∧ t.orders.taken[n] = none) ∧
      t.clock = s.clock ∧ t.self = s.self ∧
      Rest { units := (· = 0), slots := (· = n) }
        { s with pool := { s.pool with records := t.pool.records, retHead := t.pool.retHead, retTail := t.pool.retTail,
                                       retCount := t.pool.retCount, liveCount := t.pool.liveCount,
                                       revision := s.pool.revision + 1, op := none } } t

/-- R46, R8, R171: a DELIST-RETIRE retires the unit's whole chain as DELISTED, makes its entry VACANT, in one write that
advances the entry's revision by 2 like any other (R50; unit 0 is never DELISTING, R67), and completes the order with the number retired. The operation is shown
whole at its end (log entry 7, the model's choice), and the order's result code is OK (log entry 30, DEDUCED). -/
def Obligations.DelistRetireVacatesTheEntry : Prop :=
  ∀ (o : PoolOp) (u : UnitId) (n : SlotId) (l q : List RecId) (s : State),
    s.operates (.delistRetire u n) o → s.memOk →
    linked s.pool.records s.dir[u].chainHead l → linked s.pool.records s.pool.retHead q → (l ++ q).Nodup →
    s.pool.retTail = q.getLast? →
    ∃ t, exec .delistRetire s = .next t ∧ s.pool.retires t.pool .delisted s.sweep.counter l q ∧
      t.dir[u].state = .vacant ∧
      t.dir[u].record =
        { revision := 0, state := .vacant, channel := 0, address := 0, label := 0, cls := 0, neverRead := false,
          truncated := false, malformed := false, generation := 0, epoch := 0, reportedTotal := 0, liveCount := 0,
          chainHead := none, mark := .none, lastOutcome := .none, holdUntil := 0, holdRunOut := false, holdCount := 0,
          absentStreak := 0, restartCount := 0, lastRead := 0, lastSuccess := 0, readsOk := 0 } ∧
      t.slotShows n 3 0 (BitVec.ofNat 16 l.length) 0 0 0 s.sweep.counter s.clock ∧ t.hasAttn .orderDone ∧
      t.orders.taken[n] = none ∧ t.clock = s.clock ∧ t.self = s.self ∧
      (u ≠ 0 → s.dir[u].state = .delisting → t.dir[u].revision = s.dir[u].revision + 2) ∧
      Rest { units := (· = u), slots := (· = n) }
        { s with pool := { s.pool with records := t.pool.records, retHead := t.pool.retHead, retTail := t.pool.retTail,
                                       retCount := t.pool.retCount, liveCount := t.pool.liveCount,
                                       revision := s.pool.revision + 1, op := none } } t

/-! ### Channels and pacers -/

/-- R119, R123, R124, R129: a frame received without error lowers the receive error counter, is counted by the load monitor,
and joins the response FIFO if it is a read-out frame for the part's address; a full FIFO loses exactly one frame, by the
channel's policy, and RESPONSE_OVERFLOW is logged. R64, R69: a change of the self history steps its generation by 1 and its view's
revision by 2. -/
def Obligations.FrameReceivedIsCountedAndFiltered : Prop :=
  ∀ (ch : ChanId) (f : Frame) (s : State), s.running → s.chans[ch].state.joined = true →
    let c := s.chans[ch]
    let passes := f.extended = true ∧ f.remote = false ∧ f.ident.getLsbD 25 = false ∧
      0x11 ≤ (f.ident.extractLsb' 20 5).toNat ∧ (f.ident.extractLsb' 20 5).toNat ≤ 0x16 ∧
      f.ident.extractLsb' 8 8 = c.settings.address
    ∃ t, exec (.frameReceived ch f) s = .next t ∧ t.chans[ch].rxErrors = c.rxErrors - 1 ∧
      t.chans[ch].state = (if 128 ≤ c.txErrors ∨ 128 ≤ c.rxErrors - 1 then .passive else .active) ∧
      t.chans[ch].accumulator = c.accumulator +
        ((if f.extended then 67 else 47) + if f.remote then 0 else 8 * min 8 f.dlc.toNat) ∧
      t.chans[ch].windowFrames = min 65535 (c.windowFrames + 1) ∧
      (¬ passes → t.chans[ch].fifo = c.fifo ∧ t.chans[ch].overflowTally = c.overflowTally ∧ t.self = s.self) ∧
      (passes → c.fifo.length < 32 →
        t.chans[ch].fifo = c.fifo ++ [f] ∧ t.chans[ch].overflowTally = c.overflowTally ∧ t.self = s.self) ∧
      (passes → 32 ≤ c.fifo.length → t.chans[ch].overflowTally = min 65535 (c.overflowTally + 1) ∧
        t.chans[ch].fifo = (if c.settings.policy = .keepNewest then c.fifo.tail ++ [f] else c.fifo) ∧
        (64 ≤ s.self.entries.length ∨ t.hasAttn .selfGrew ∧
          ∃ e ∈ t.self.entries, e.code = .responseOverflow ∧ e.mode = BitVec.ofNat 8 ch.val)) ∧
      (t.self = s.self ∨
        t.self.revision = s.self.revision + 2 ∧ t.self.generation = s.self.generation + 1 ∧ t.hasAttn .selfGrew) ∧
      { t.chans[ch] with
        revision := c.revision, rxErrors := c.rxErrors, state := c.state, accumulator := c.accumulator,
        windowFrames := c.windowFrames, fifo := c.fifo, overflowTally := c.overflowTally } = c ∧
      (∀ j, j ≠ ch → t.chans[j] = s.chans[j]) ∧
      t = { s with chans := t.chans, self := t.self,
                   port := { s.port with attention := t.port.attention, attnLow := t.port.attnLow } }

/-- R119, R122: an error while receiving raises the receive error counter by 1, to at most 255, and the two counters decide
between ACTIVE and PASSIVE; the beginning of a transmission marks the queue's head. Nothing else changes. -/
def Obligations.ReceiveErrorsAndBeginningsCount : Prop :=
  ∀ (ch : ChanId) (s : State), s.running → s.chans[ch].state.joined = true →
    let c := s.chans[ch]
    (∃ t, exec (.receiveError ch) s = .next t ∧ t.chans[ch].rxErrors = min 255 (c.rxErrors + 1) ∧
      t.chans[ch].state = (if 128 ≤ c.txErrors ∨ 128 ≤ min 255 (c.rxErrors + 1) then .passive else .active) ∧
      { t.chans[ch] with revision := c.revision, rxErrors := c.rxErrors, state := c.state } = c ∧
      (∀ j, j ≠ ch → t.chans[j] = s.chans[j]) ∧
      t = { s with chans := t.chans, port := { s.port with attnLow := t.port.attnLow } }) ∧
    ∀ h rest, c.txQueue = h :: rest →
      ∃ t, exec (.transmissionBegin ch) s = .next t ∧
        t.chans[ch] = { c with txQueue := { h with transmitting := true } :: rest } ∧
        (∀ j, j ≠ ch → t.chans[j] = s.chans[j]) ∧
        t = { s with chans := t.chans, port := { s.port with attnLow := t.port.attnLow } }

/-- R119, R122: an error while sending raises the transmit error counter by 8, but for an acknowledgement error while PASSIVE,
as long as it stays within 255; the frame stays at the head and is tried again, unless its withdrawal was asked. That an error
acts with no TRANSMISSION_BEGIN before it, and on the counters alone with an empty queue, is log entry 13, the model's choice. -/
def Obligations.TransmitErrorCounts : Prop :=
  ∀ (ch : ChanId) (kind : TxErrorKind) (s : State), s.running → s.chans[ch].state.joined = true →
    let c := s.chans[ch]
    let still := c.state = .passive ∧ kind = .acknowledgement
    (still ∨ c.txErrors + 8 ≤ 255) →
    ∃ t, exec (.transmitError ch kind) s = .next t ∧
      t.chans[ch].link =
        { c.link with
          txErrors := if still then c.txErrors else c.txErrors + 8
          state := if still then c.state
            else if 128 ≤ c.txErrors + 8 ∨ 128 ≤ c.rxErrors then .passive else .active } ∧
      (∀ h rest, c.txQueue = h :: rest →
        (h.withdrawn = false → { h with transmitting := false } :: rest <+: t.chans[ch].txQueue) ∧
        (h.withdrawn = true → rest <+: t.chans[ch].txQueue)) ∧
      t.clock = s.clock ∧ t.self = s.self ∧ t.portLast = s.portLast ∧ s.still t ∧ Rest { chans := (· = ch) } s t

/-- R120, R112, R143: a transmit error that takes the counter past 255 takes the channel off its bus: its queue and FIFO are
emptied, the pacer falls to its floor, the recovery hold runs, CHANNEL_FAULT is raised, and no context stays busy on it: each
ends CHANNEL_LOST, one in STOPPING ends STOPPED, with its unit, its orders and the sweep told (R57, R58, R113, R149; the ending
of one in STOPPING, and what a draining sweep is told of it, is log entry 27, the model's choice); during an engine reset the
frozen contexts do not end (R115; that they are left waiting for nothing is log entry 24, the model's choice). That an error
acts with nothing in transmission is log entry 13, the model's choice. R118, R128, R112, R176: an accepted SET CHANNEL with rate
OFF takes the channel off its segment: both counters 0, everything of the monitor and the pacer stopped, no context busy on it,
and the orders that wait on its units CHANNEL_LOST; the order's edition is the open one (R168), and with none open, one that a
DELIST-RETIRE opens is left free. -/
def Obligations.BusOffStopsTheChannel : Prop :=
  (∀ (ch : ChanId) (kind : TxErrorKind) (s : State), s.running → s.chans[ch].state.joined = true →
    ¬ (s.chans[ch].state = .passive ∧ kind = .acknowledgement) → 247 < s.chans[ch].txErrors →
    let c := s.chans[ch]
    let lost := fun k : CtxId => s.ctxs[k].channel = ch ∧ s.ctxs[k].state.busy = true
    ∃ t, exec (.transmitError ch kind) s = .next t ∧
      t.chans[ch].link =
        { c.link with
          state := .busOff, txErrors := 255, fifo := []
          recoveryTimer := some (s.clock + BitVec.ofNat 32 c.settings.recoveryHold)
          pacer := { c.link.pacer with current := c.pacer.settings.floor, remainder := 0 } } ∧
      t.chans[ch].txQueue = [] ∧ t.chans[ch].pacer.credits = 0 ∧ t.chans[ch].pacer.line = [] ∧
      t.chans[ch].settling = false ∧
      (s.orders.resetting = none → ∀ k : CtxId, ¬ (t.ctxs[k].channel = ch ∧ t.ctxs[k].state.busy = true)) ∧
      (s.orders.resetting ≠ none → ∀ k : CtxId, lost k →
        t.ctxs[k].same { s.ctxs[k] with creditNeed := 0, frameQueued := none }) ∧
      (s.orders.resetting = none → s.memOk → s.apart → s.endsLost t ch fun _ => False) ∧
      t.hasAttn .channelFault ∧
      (64 ≤ t.self.entries.length ∨
        ∃ e ∈ t.self.entries, e.code = .busOff ∧ e.mode = BitVec.ofNat 8 ch.val ∧ e.activeNow = true) ∧
      (s.orders.resetting ≠ none → s.logs t .busOff (BitVec.ofNat 8 ch.val) true) ∧
      t.clock = s.clock ∧
      Rest { ctxs := fun k => s.ctxs[k].channel = ch, chans := (· = ch),
             units := fun v => s.orders.resetting = none ∧ ∃ k, lost k ∧ s.ctxs[k].target = v,
             slots := fun n => s.orders.resetting = none ∧ ∃ k, lost k ∧ hasSlot s.ctxs[k].attached n = true } s t) ∧
  ∀ (v : Word) (n : SlotId) (ch : ChanId) (policy : OverflowPolicy) (s : State),
    s.visits n → slotKind s.mem n = 3 → s.orders.start = false → (paramByte s.mem n 0).toNat = ch.val →
    paramByte s.mem n 1 = 0 → 1 ≤ (paramByte s.mem n 2).toNat → (paramByte s.mem n 2).toNat ≤ 253 →
    (paramByte s.mem n 3).toNat = policy.code → s.sweep.state = .idle →
    (∀ w : UnitId, w ≠ 0 → s.dir[w].state ≠ .vacant → s.dir[w].channel = ch → s.dir[w].address ≠ paramByte s.mem n 2) →
    let c := s.chans[ch]
    let lost := fun k : CtxId => s.ctxs[k].channel = ch ∧ s.ctxs[k].state.busy = true
    let waits := fun j : SlotId => ∃ x u, s.orders.taken[j] = some x ∧ (x.order = .readUnit u ∨ x.order = .eraseUnit u) ∧
      u ≠ 0 ∧ s.dir[u].channel = ch
    let settings : ChanSettings :=
      { bitRate := .off, address := paramByte s.mem n 2, policy := policy, wake := paramByte s.mem n 4 != 0
        limit := max 1 (min 4 (paramByte s.mem n 5).toNat), recoveryHold := max 100 (min 6500 (paramWord s.mem n 6).toNat) }
    ∃ t, exec (.signalWrite v) s = .next t ∧
      t.chans[ch].link =
        { c.link with
          settings := settings, state := .off, txErrors := 0, rxErrors := 0, fifo := [], recoveryTimer := none
          accumulator := 0, windowFrames := 0, windowLength := 0, loadTimer := none, lastLoad := 0, lastFrames := 0
          pacer := { c.link.pacer with target := 0, current := 0, remainder := 0, timer := none } } ∧
      t.chans[ch].txQueue = [] ∧ t.chans[ch].pacer.credits = 0 ∧ t.chans[ch].pacer.line = [] ∧
      t.chans[ch].settling = false ∧ (∀ k : CtxId, ¬ (t.ctxs[k].channel = ch ∧ t.ctxs[k].state.busy = true)) ∧
      (∀ j x, j ≠ n → waits j → (∀ k : CtxId, hasSlot s.ctxs[k].attached j = false) → s.orders.taken[j] = some x →
        t.slotDone j 6 x.edition s.clock) ∧
      (s.apart → s.endsLost t ch (· = n)) ∧
      (∀ (u : UnitId) (j : SlotId) (x : Taken), u ≠ 0 → s.dir[u].state = .held → s.dir[u].channel = ch → j ≠ n →
        s.orders.taken[j] = some x → x.order = .readUnit u → (∀ k : CtxId, hasSlot s.ctxs[k].attached j = false) →
        (∀ k : CtxId, s.ctxs[k].state ≠ .free → s.ctxs[k].target ≠ u) →
        s.unitEnds t u .idle .channelLost ∧
        (s.sweep.openEdition ≠ 0 ∨ (∀ w : UnitId, s.dir[w].state ≠ .delisting) →
          t.dir[u].record = { s.dir[u].record with lastRead := s.sweep.openEdition })) ∧
      ((c.state = .busOff ∨ c.state = .recovering) →
        ∀ e ∈ t.self.entries, e.code = .busOff → e.mode = BitVec.ofNat 8 ch.val → e.activeNow = false) ∧
      (∃ ed, t.slotShows n 3 0 0 (settings.address.setWidth 16) (BitVec.ofNat 16 settings.limit)
          (BitVec.ofNat 16 settings.recoveryHold) ed s.clock ∧
        (s.sweep.openEdition ≠ 0 ∨ (∀ u : UnitId, s.dir[u].state ≠ .delisting) → ed = s.sweep.openEdition)) ∧
      t.hasAttn .orderDone ∧ t.clock = s.clock ∧
      Rest { ctxs := fun k => s.ctxs[k].channel = ch, chans := (· = ch),
             units := fun v => s.dir[v].state = .held ∧ s.dir[v].channel = ch ∨ ∃ k, lost k ∧ s.ctxs[k].target = v,
             slots := fun j => j = n ∨ waits j ∨ ∃ k, lost k ∧ hasSlot s.ctxs[k].attached j = true }
        { s with orders := { s.orders with scanHalt := none } } t

/-- R121, R66: at the recovery hold's end the channel enters RECOVERING; at the 128th run it is ACTIVE with both counters 0, and
its BUS_OFF entry is no longer ACTIVE_NOW. The clock at the expiry is log entry 3, and that the runs counted show 0 and 128 is
log entry 14, the model's choices. R118, R142, R129: an accepted SET CHANNEL with a rate starts the channel afresh: ACTIVE, its
counters 0, its queue and FIFO empty, a new load window, the pace at its floor with no credits, and a BUS_OFF entry of it no
longer ACTIVE_NOW. -/
def Obligations.RecoveryReturnsTheChannel : Prop :=
  (∀ (ch : ChanId) (s : State), s.running →
    (∀ at_, s.chans[ch].state = .busOff → s.chans[ch].recoveryTimer = some at_ →
      ∃ t, exec (.recoveryHoldExpiry ch) s = .next t ∧ t.clock = s.meetsAt at_ ∧ t.self = s.self ∧
        t.chans[ch].link = { s.chans[ch].link with state := .recovering, recoveryTimer := none, idleRuns := 0 } ∧
        s.still t ∧ Rest { chans := (· = ch) } s t) ∧
    (s.chans[ch].state = .recovering →
      ∃ t, exec (.recoveryComplete ch) s = .next t ∧ t.clock = s.clock ∧
        t.chans[ch].link = { s.chans[ch].link with state := .active, txErrors := 0, rxErrors := 0, idleRuns := 128 } ∧
        (∀ e ∈ t.self.entries, e.code = .busOff → e.mode = BitVec.ofNat 8 ch.val → e.activeNow = false) ∧
        s.still t ∧ Rest { chans := (· = ch) } s t)) ∧
  ∀ (v : Word) (n : SlotId) (ch : ChanId) (rate : BitRate) (policy : OverflowPolicy) (s : State),
    s.visits n → slotKind s.mem n = 3 → s.orders.start = false → (paramByte s.mem n 0).toNat = ch.val → rate ≠ .off →
    (paramByte s.mem n 1).toNat = rate.code → 1 ≤ (paramByte s.mem n 2).toNat → (paramByte s.mem n 2).toNat ≤ 253 →
    (paramByte s.mem n 3).toNat = policy.code → s.sweep.state = .idle →
    (∀ k : CtxId, ¬ (s.ctxs[k].channel = ch ∧ s.ctxs[k].state.busy = true)) →
    (∀ w : UnitId, w ≠ 0 → s.dir[w].state ≠ .vacant → s.dir[w].channel = ch → s.dir[w].address ≠ paramByte s.mem n 2) →
    let c := s.chans[ch]
    let p := c.pacer.settings
    let settings : ChanSettings :=
      { bitRate := rate, address := paramByte s.mem n 2, policy := policy, wake := paramByte s.mem n 4 != 0
        limit := max 1 (min 4 (paramByte s.mem n 5).toNat), recoveryHold := max 100 (min 6500 (paramWord s.mem n 6).toNat) }
    ∃ t, exec (.signalWrite v) s = .next t ∧
      t.chans[ch].link =
        { c.link with
          settings := settings, state := .active, txErrors := 0, rxErrors := 0, fifo := [], recoveryTimer := none
          accumulator := 0, windowFrames := 0, windowLength := p.loadWindow
          loadTimer := some (s.clock + BitVec.ofNat 32 p.loadWindow)
          pacer := { c.link.pacer with
            current := p.floor, remainder := 0, timer := some (s.clock + 100)
            target := if c.lastLoad ≤ p.lowMark then p.ceiling
              else if p.highMark ≤ c.lastLoad then p.floor
              else p.floor + (p.ceiling - p.floor) * (p.highMark - c.lastLoad) / (p.highMark - p.lowMark) } } ∧
      t.chans[ch].txQueue = [] ∧ t.chans[ch].pacer.credits = 0 ∧ t.chans[ch].settling = false ∧
      ((c.state = .busOff ∨ c.state = .recovering) →
        ∀ e ∈ t.self.entries, e.code = .busOff → e.mode = BitVec.ofNat 8 ch.val → e.activeNow = false) ∧
      (c.state ≠ .busOff → c.state ≠ .recovering → t.self = s.self) ∧
      t.slotShows n 3 0 (BitVec.ofNat 16 rate.code) (settings.address.setWidth 16) (BitVec.ofNat 16 settings.limit)
        (BitVec.ofNat 16 settings.recoveryHold) s.sweep.openEdition s.clock ∧
      t.hasAttn .orderDone ∧ t.clock = s.clock ∧ s.still t ∧
      Rest { chans := (· = ch), slots := (· = n) } { s with orders := { s.orders with scanHalt := none } } t

/-- R122, R119, R129, R89, R90: a frame sent leaves the queue's head, lowers the transmit error counter and is counted; the
context that waited for it starts its answer window, or after a STOP its stop window; a frame withdrawn or left behind starts
none. R127: a WAKE, which belongs to no context, starts the settle timer, or ends settling at a settle time of 0, unless a later
WAKE still waits (the hypothesis leaves out a sweep that ends in this very event and starts the next). That no
TRANSMISSION_BEGIN need precede is log entry 13, the model's choice. -/
def Obligations.FrameSentTellsItsSender : Prop :=
  ∀ (ch : ChanId) (h : TxEntry) (rest : List TxEntry) (s : State), s.running → s.chans[ch].state.joined = true →
    s.chans[ch].txQueue = h :: rest →
    let c := s.chans[ch]
    ∃ t, exec (.frameSent ch) s = .next t ∧
      t.chans[ch].link =
        { c.link with
          txErrors := c.txErrors - 1
          state := if 128 ≤ c.txErrors - 1 ∨ 128 ≤ c.rxErrors then .passive else .active
          accumulator := c.accumulator + ((if h.frame.extended then 67 else 47) +
            if h.frame.remote then 0 else 8 * min 8 h.frame.dlc.toNat)
          windowFrames := min 65535 (c.windowFrames + 1) } ∧
      rest <+: t.chans[ch].txQueue ∧
      (∀ k, h.ctx = some k → h.live = true → s.ctxs[k].state ≠ .free → s.orders.resetting = none →
        t.ctxs[k].frameQueued = none ∧ t.ctxs[k].state = s.ctxs[k].state ∧
        t.ctxs[k].window =
          (match h.kind with
            | .stopFrame => some (.stop, s.clock + BitVec.ofNat 32 s.ctxs[k].useStop)
            | .wakeFrame => s.ctxs[k].window
            | _ => some (.answer, s.clock + BitVec.ofNat 32 s.ctxs[k].useAnswer))) ∧
      (∀ k : CtxId, h.live = false → s.ctxs[k].state ≠ .free → t.ctxs[k].same s.ctxs[k]) ∧
      (h.ctx = none → (s.sweep.state = .idle ∨ s.anyPending = true) →
        let later := ∃ e ∈ rest ++ c.txOutside ++ c.txDeferred, e.kind = .wakeFrame
        t.chans[ch].settling = (if later ∨ s.timing.settle ≠ 0 then c.settling else false) ∧
        t.chans[ch].settleTimer =
          (if later then c.settleTimer
            else if s.timing.settle = 0 then none else some (s.clock + BitVec.ofNat 32 s.timing.settle))) ∧
      (h.ctx ≠ none → (s.sweep.state = .idle ∨ s.anyPending = true) →
        t.chans[ch].settling = c.settling ∧ t.chans[ch].settleTimer = c.settleTimer) ∧
      t.clock = s.clock ∧ t.self = s.self ∧ t.portLast = s.portLast ∧ s.still t ∧
      Rest { ctxs := fun k => h.ctx = some k ∧ h.live = true, chans := (· = ch) } s t

/-- R130, R134: at the end of a load window the load is formed in per mille, the frames counted are shown, the target pace
follows the load, and the next window begins at the expiry. The clock at the
expiry is log entry 3, the model's choice. -/
def Obligations.LoadWindowMeasures : Prop :=
  ∀ (ch : ChanId) (at_ : Clock) (s : State), s.running → s.chans[ch].loadTimer = some at_ →
    let c := s.chans[ch]
    let rate := match c.settings.bitRate with | .off => 0 | .r125 => 125000 | .r250 => 250000 | .r500 => 500000
    let load := min 1000 (c.accumulator * 1000000 / (rate * c.windowLength))
    let p := c.pacer.settings
    ∃ t, exec (.loadWindowExpiry ch) s = .next t ∧ t.clock = s.meetsAt at_ ∧ t.self = s.self ∧
      t.chans[ch].link =
        { c.link with
          lastLoad := load, lastFrames := c.windowFrames, accumulator := 0, windowFrames := 0, windowLength := p.loadWindow
          loadTimer := some (at_ + BitVec.ofNat 32 p.loadWindow)
          pacer := { c.link.pacer with
            target := if load ≤ p.lowMark then p.ceiling
              else if p.highMark ≤ load then p.floor
              else p.floor + (p.ceiling - p.floor) * (p.highMark - load) / (p.highMark - p.lowMark) } } ∧
      s.still t ∧ Rest { chans := (· = ch) } s t

/-- R135, R136, R138, R143: at each pacing tick of a joined channel the current pace moves one step toward the target, the
credits of 100 ms are issued with their remainder, to at most 64, and the head of the waiting line is served; each grant
lowers the credits by the need granted, and the first head they do not cover holds back the line. In an engine reset credits
are issued and nothing is granted (R115). Off its bus only the timer runs on. The clock at the expiry is log entry 3, the
model's choice. -/
def Obligations.PacingTickIssuesCredits : Prop :=
  ∀ (ch : ChanId) (at_ : Clock) (s : State), s.running → s.chans[ch].pacer.timer = some at_ →
    let c := s.chans[ch]
    let p := c.pacer
    let up := max 1 (p.settings.ceiling * 100 / p.settings.upTime)
    let down := max 1 (p.settings.ceiling * 100 / p.settings.downTime)
    let pace := if p.current < p.target then min p.target (p.current + up)
      else if p.target < p.current then max p.target (p.current - down) else p.current
    let credits := min 64 (p.credits + (p.remainder + pace) / 10)
    ∃ t, exec (.pacingTimerExpiry ch) s = .next t ∧ t.clock = s.meetsAt at_ ∧ t.self = s.self ∧
      t.chans[ch].link =
        { c.link with
          pacer := { c.link.pacer with
            timer := some (at_ + 100)
            current := if c.state.joined then pace else p.current
            remainder := if c.state.joined then (p.remainder + pace) % 10 else p.remainder } } ∧
      (c.state.joined = true → p.line = [] → (∀ k : CtxId, s.ctxs[k].state ≠ .free) →
        t.chans[ch].pacer.credits = credits) ∧
      (c.state.joined = true → s.orders.resetting = none → p.line.Nodup → (∀ k : CtxId, s.ctxs[k].state ≠ .free) →
        (t.chans[ch].pacer.credits, t.chans[ch].pacer.line) = grants (fun k => s.ctxs[k].creditNeed) credits p.line) ∧
      (c.state.joined = true → s.orders.resetting ≠ none →
        t.chans[ch].pacer.credits = credits ∧ t.chans[ch].pacer.line = p.line) ∧
      (c.state.joined = false → (∀ k : CtxId, s.ctxs[k].state ≠ .free) → t.chans[ch].pacer = { p with timer := some (at_ + 100) }) ∧
      (∀ k rest, c.state.joined = true → s.orders.resetting = none → p.line = k :: rest → k ∉ rest →
        s.ctxs[k].creditNeed ≤ credits → s.ctxs[k].state ≠ .free →
        t.ctxs[k].creditNeed = 0 ∧ t.ctxs[k].state = (if s.ctxs[k].state = .paced then .opening else s.ctxs[k].state) ∧
        t.ctxs[k].frameQueued = some s.ctxs[k].grantedKind) ∧
      s.still t ∧ Rest { ctxs := (· ∈ p.line), chans := (· = ch) } s t

/-- R127: at the settle timer's expiry the channel settles no longer. (A sweep that ends in the same event could start the
next, which wakes the segment again: the hypothesis on the sweep leaves that out.) The clock at the expiry is log entry 3, the
model's choice. -/
def Obligations.SettleTimerEndsSettling : Prop :=
  ∀ (ch : ChanId) (at_ : Clock) (s : State), s.running → s.chans[ch].settleTimer = some at_ →
    (s.sweep.state = .idle ∨ s.anyPending = true) →
    ∃ t, exec (.settleTimerExpiry ch) s = .next t ∧ t.chans[ch].settling = false ∧ t.chans[ch].settleTimer = none ∧
      t.clock = s.meetsAt at_ ∧ t.self = s.self ∧ t.portLast = s.portLast ∧ s.still t ∧ Rest {} s t

/-! ### The staging port and the answers of units -/

/-- R85, R126: a frame that matches no context leaves its FIFO, and raises its channel's stray tally; no context sees it. -/
def Obligations.StrayFrameIsCounted : Prop :=
  ∀ (kind : RxKind) (ch : ChanId) (f : Frame) (rest : List Frame) (s : State), s.nextFrame kind ch f rest →
    ¬ s.reaches ch f f.tagCtx →
    ∃ t, exec kind.command s = .next t ∧ t.portLast = ch ∧ t.clock = s.clock ∧ t.self = s.self ∧
      t.chans[ch].link =
        { s.chans[ch].link with fifo := rest, strayTally := min 65535 (s.chans[ch].strayTally + 1) } ∧
      s.still t ∧ Rest { chans := (· = ch) } s t

/-- R86: a matching frame too short for its kind marks the unit MALFORMED, outside STOPPING, and does nothing else; that this
comes before the phase table's discard is log entry 11, DEDUCED. -/
def Obligations.ShortFrameIsMalformed : Prop :=
  ∀ (kind : RxKind) (ch : ChanId) (f : Frame) (rest : List Frame) (k : CtxId) (s : State),
    s.nextFrame kind ch f rest → s.reaches ch f k → s.ctxs[k].state ≠ .stopping →
    f.dlc.toNat < (match kind with | .grant => 5 | .hold => 2 | .entryA => 7 | .entryB => 7 | .close => 5 | .erased => 3) →
    (s.dir[s.ctxs[k].target].state = .reading ∨ s.dir[s.ctxs[k].target].state = .erasing) →
    ∃ t, exec kind.command s = .next t ∧ t.dir[s.ctxs[k].target].malformed = true ∧ t.ctxs[k].same s.ctxs[k] ∧
      t.chans[ch].link = { s.chans[ch].link with fifo := rest } ∧ t.portLast = ch ∧ t.clock = s.clock ∧
      t.self = s.self ∧ s.still t ∧ Rest { chans := (· = ch) } s t

/-- R75, R83, R89, R100: an accepted GRANT in OPENING takes the context to RECEIVING with the count granted and its gap window; an
opening's first GRANT records generation, epoch and clamped total, and a later one must agree with them. A late GRANT, which meets
the context while it waits to ask again, takes it out of its line (R139). -/
def Obligations.GrantOpensTheSegment : Prop :=
  ∀ (ch : ChanId) (f : Frame) (rest : List Frame) (k : CtxId) (s : State),
    s.nextFrame .grant ch f rest → s.reaches ch f k → s.ctxs[k].state = .opening → s.ctxs[k].purpose = .read →
    5 ≤ f.dlc.toNat → s.chans[ch].pacer.line.count k ≤ 1 →
    let c := s.ctxs[k]
    let gen := f.byte 1 ++ f.byte 0
    let epoch := f.byte 2
    let total := min 64 (f.byte 3).toNat
    let count := (f.byte 4).toNat
    let asked := (1 ≤ count ∧ count ≤ c.countAsked ∧ c.segFirst + count ≤ total) ∨ (count = 0 ∧ total ≤ c.segFirst)
    asked → (c.segFirst ≠ 0 → c.generation = gen ∧ c.epoch = epoch ∧ c.total = total) →
    ∃ t, exec .grant s = .next t ∧
      t.ctxs[k].same
        { c with
          state := .receiving, granted := count, mendRound := 0, frameQueued := none
          creditNeed := if k ∈ s.chans[ch].pacer.line then 0 else c.creditNeed
          window := some (.gap, s.clock + BitVec.ofNat 32 c.useGap), generation := gen, epoch := epoch, total := total
          truncMark := if c.segFirst = 0 then decide (64 < (f.byte 3).toNat) else c.truncMark } ∧
      k ∉ t.chans[ch].pacer.line ∧ t.chans[ch].link = { s.chans[ch].link with fifo := rest } ∧ t.portLast = ch ∧
      t.clock = s.clock ∧ t.self = s.self ∧ s.still t ∧ Rest { ctxs := s.leaving k, chans := (· = ch) } s t

/-- R75, R76, R78, R83, R105, R98, R149: a GRANT or CLOSE of another generation or epoch in RECEIVING or MENDING, or a GRANT of
another generation or epoch on a later segment in OPENING, tears the read: below the restart limit the context begins a new
opening with the other parity and an empty staging; at the limit the read ends UNIT_FAULTY, its context released, its unit
FAULTY and the occurrence logged. -/
def Obligations.TornReadRestarts : Prop :=
  ∀ (kind : RxKind) (ch : ChanId) (f : Frame) (rest : List Frame) (k : CtxId) (s : State),
    s.nextFrame kind ch f rest → s.reaches ch f k → s.memOk → s.ctxs[k].purpose = .read →
    ((kind = .grant ∨ kind = .close) ∧ (s.ctxs[k].state = .receiving ∨ s.ctxs[k].state = .mending) ∨
      kind = .grant ∧ s.ctxs[k].state = .opening ∧ s.ctxs[k].segFirst ≠ 0) →
    5 ≤ f.dlc.toNat → s.chans[ch].pacer.line.count k ≤ 1 →
    ¬ (f.byte 1 ++ f.byte 0 = s.ctxs[k].generation ∧
      f.byte 2 = s.ctxs[k].epoch) →
    ∃ t, exec kind.command s = .next t ∧ t.portLast = ch ∧ t.clock = s.clock ∧
      t.chans[ch].link = { s.chans[ch].link with fifo := rest } ∧ s.beginsAgain t k s.clock

/-- R80, R56, R107, R111, R149: a HOLD accepted below the limit of 8 suspends a read request, whose context is released and
whose unit becomes HELD until the time the unit named, and makes an erase's context wait out its hold window; at the limit the
request ends HELD_OUT. A late HOLD, which meets the context while it waits in its line, takes it out of it (R100, R110, R139).
-/
def Obligations.HoldSuspendsTheRequest : Prop :=
  ∀ (ch : ChanId) (f : Frame) (rest : List Frame) (k : CtxId) (s : State),
    s.nextFrame .hold ch f rest → s.reaches ch f k → s.memOk →
    (s.ctxs[k].state = .opening ∨ s.ctxs[k].state = .mending ∧ s.ctxs[k].purpose = .read) → 2 ≤ f.dlc.toNat →
    1 ≤ (f.byte 0).toNat → (f.byte 0).toNat ≤ 3 → s.chans[ch].pacer.line.count k ≤ 1 →
    let c := s.ctxs[k]
    let u := c.target
    let until_ : Clock := s.clock + BitVec.ofNat 32 (10 * max 1 (f.byte 1).toNat)
    ∃ t, exec .hold s = .next t ∧ t.portLast = ch ∧ t.clock = s.clock ∧
      t.chans[ch].link = { s.chans[ch].link with fifo := rest } ∧
      (s.dir[u].holdCount + 1 < 8 → c.purpose = .read →
        t.dir[u].state = .held ∧ t.dir[u].holdCount = s.dir[u].holdCount + 1 ∧ t.dir[u].holdUntil = until_ ∧
        t.dir[u].holdRunOut = false ∧ s.released t k ∧ t.self = s.self ∧ s.still t ∧
        Rest { ctxs := s.leaving k, chans := (· = ch) } s t) ∧
      (s.dir[u].holdCount + 1 < 8 → c.purpose = .erase →
        (s.dir[u].state = .erasing → t.dir[u].holdCount = s.dir[u].holdCount + 1) ∧
        t.ctxs[k].same
          { c with window := some (.hold, until_), frameQueued := none
                   creditNeed := if k ∈ s.chans[ch].pacer.line then 0 else c.creditNeed } ∧
        k ∉ t.chans[ch].pacer.line ∧ t.self = s.self ∧ s.still t ∧
        Rest { ctxs := s.leaving k, chans := (· = ch) } s t) ∧
      (8 ≤ s.dir[u].holdCount + 1 → (∀ n x, s.awaits k n x → t.slotDone n 4 x.edition s.clock) ∧
        t.dir[u].record =
          (if c.purpose = .read then { s.dir[u].record with lastRead := s.sweep.openEdition } else s.dir[u].record) ∧
        s.released t k ∧ s.unitEnds t u .idle .heldOut ∧
        (c.purpose = .read → s.counts t u .done fun x => { x with heldOut := x.heldOut + 1 }) ∧
        Rest { ctxs := s.leaving k, chans := (· = ch), slots := fun n => hasSlot c.attached n = true, units := (· = u) } s t)

/-- R77, R89, R86: an entry half for an index of the granted range is stored in its place, and the gap window restarts if a window
runs; one for an index below the segment is discarded; one for an index at or beyond the end of the range marks the unit MALFORMED
and does nothing else. -/
def Obligations.EntryHalfTakesItsPlace : Prop :=
  ∀ (kind : RxKind) (ch : ChanId) (f : Frame) (rest : List Frame) (k : CtxId) (s : State),
    (kind = .entryA ∨ kind = .entryB) → s.nextFrame kind ch f rest → s.reaches ch f k →
    (s.ctxs[k].state = .receiving ∨ s.ctxs[k].state = .mending) → s.ctxs[k].purpose = .read → 7 ≤ f.dlc.toNat →
    let c := s.ctxs[k]
    let index := (f.byte 0).toNat
    let place := fun i : Fin 64 => show Place from
      if kind = .entryA then
        { c.staging[i] with
          halfA := some { code := f.byte 3 ++ (f.byte 2 ++ f.byte 1), mode := f.byte 4, count := f.byte 5,
                          activeNow := (f.byte 6).getLsbD 0, confirmed := (f.byte 6).getLsbD 1,
                          lamp := (f.byte 6).getLsbD 2 } }
      else
        { c.staging[i] with
          halfB := some { firstOdo := f.byte 3 ++ (f.byte 2 ++ f.byte 1), lastOdo := f.byte 6 ++ (f.byte 5 ++ f.byte 4) } }
    ∃ t, exec kind.command s = .next t ∧
      (∀ i : Fin 64, i.val = index → c.segFirst ≤ index → index < c.segFirst + c.granted →
        t.ctxs[k].same
          { c with
            staging := c.staging.set i (place i)
            window := if c.window = none then none else some (.gap, s.clock + BitVec.ofNat 32 c.useGap) } ∧
        Rest { ctxs := (· = k), chans := (· = ch) } s t) ∧
      (index < c.segFirst → t.ctxs[k].same c ∧ Rest { chans := (· = ch) } s t) ∧
      (c.segFirst + c.granted ≤ index →
        t.dir[c.target].malformed = true ∧ t.ctxs[k].same c ∧ Rest { chans := (· = ch) } s t) ∧
      t.chans[ch].link = { s.chans[ch].link with fifo := rest } ∧ t.portLast = ch ∧ t.clock = s.clock ∧
      t.self = s.self ∧ s.still t

/-- R78, R102, R106, R96: an accepted CLOSE tests the segment: with nothing missing the next segment is asked for, or after the
last the COMMIT is offered; with places missing a mending round begins, while rounds remain, and after the second the read begins
again. R104: one accepted while the round's PICK is unsent applies no test. That the next segment's granted
count, round and PICK list start empty is log entry 15, DEDUCED. -/
def Obligations.CloseTestsTheSegment : Prop :=
  ∀ (ch : ChanId) (f : Frame) (rest : List Frame) (k : CtxId) (s : State),
    s.nextFrame .close ch f rest → s.reaches ch f k →
    (s.ctxs[k].state = .receiving ∨ s.ctxs[k].state = .mending) → s.ctxs[k].purpose = .read →
    5 ≤ f.dlc.toNat → f.byte 1 ++ f.byte 0 = s.ctxs[k].generation → f.byte 2 = s.ctxs[k].epoch →
    min 64 (f.byte 3).toNat = s.ctxs[k].total → (f.byte 4).toNat ≤ s.ctxs[k].granted →
    let c := s.ctxs[k]
    let next := c.segFirst + c.granted
    let unsent := c.state = .mending ∧ c.window = none
    ∃ t, exec .close s = .next t ∧
      (unsent → t.ctxs[k].same c ∧ t.self = s.self ∧ s.still t ∧ Rest { chans := (· = ch) } s t) ∧
      (¬ unsent → c.missing = [] → next < c.total →
        (t.ctxs[k].state = .paced ∨ t.ctxs[k].state = .opening) ∧ t.asksFor k (min 16 (c.total - next)) .openFrame .paced ∧
        t.ctxs[k].plan =
          { c.plan with segFirst := next, countAsked := min 16 (c.total - next), granted := 0, mendRound := 0,
                        pickList := [], attempt := 1, window := none } ∧
        t.self = s.self ∧ s.still t ∧ Rest { ctxs := (· = k), chans := (· = ch) } s t) ∧
      (¬ unsent → c.missing = [] → c.total ≤ next →
        t.ctxs[k].same { c with state := .committing, window := none } ∧
        .commit k c.target c.generation c.epoch c.total c.truncMark ∈ t.pool.queue ++ t.pool.waiting ∧
        t.self = s.self ∧ (s.sweep.openEdition ≠ 0 → s.still t) ∧ Rest { ctxs := (· = k), chans := (· = ch) } s t) ∧
      (¬ unsent → c.missing ≠ [] → c.mendRound < 2 →
        t.ctxs[k].state = .mending ∧ t.asksFor k (min 7 c.missing.length) .pickFrame .mending ∧
        t.ctxs[k].plan = { c.plan with mendRound := c.mendRound + 1, pickList := c.missing.take 7, window := none } ∧
        t.self = s.self ∧ s.still t ∧ Rest { ctxs := (· = k), chans := (· = ch) } s t) ∧
      (¬ unsent → c.missing ≠ [] → 2 ≤ c.mendRound → s.memOk → s.chans[ch].pacer.line.count k ≤ 1 →
        s.beginsAgain t k s.clock) ∧
      t.chans[ch].link = { s.chans[ch].link with fifo := rest } ∧ t.portLast = ch ∧ t.clock = s.clock

/-- R81, R90, R113, R149: a context in STOPPING is ended STOPPED by a CLOSE or by its stop window, and discards every other
frame; its orders complete, and its unit keeps what it recorded. The clock at the expiry is log entry 3, the model's choice. -/
def Obligations.StoppingEndsStopped : Prop :=
  ∀ (k : CtxId) (s : State), s.memOk → s.ctxs[k].state = .stopping →
    let c := s.ctxs[k]
    let u := c.target
    let ended := fun (at_ : Clock) (t : State) =>
      t.clock = at_ ∧ t.ctxs[k].state ≠ .stopping ∧
      (∀ n x, s.awaits k n x → t.slotDone n 7 x.edition at_) ∧
      t.dir[u].record =
        (if c.purpose = .read then { s.dir[u].record with lastRead := s.sweep.openEdition } else s.dir[u].record) ∧
      s.unitEnds t u .idle .stopped ∧
      (c.purpose = .read → s.counts t u .skipped fun x => { x with stopped := x.stopped + 1 })
    (∀ ch f rest, s.nextFrame .close ch f rest → s.reaches ch f k →
      ∃ t, exec .close s = .next t ∧ ended s.clock t ∧
        Rest { ctxs := (· = k), chans := (· = ch), units := (· = u), slots := fun n => hasSlot c.attached n = true } s t) ∧
    (∀ at_, s.expires k .stop at_ →
      ∃ t, exec (.stopWindowExpiry k) s = .next t ∧ ended (s.meetsAt at_) t ∧
        Rest { ctxs := (· = k), chans := (· = c.channel), units := (· = u),
               slots := fun n => hasSlot c.attached n = true } s t) ∧
    (∀ kind ch f rest, kind ≠ .close → s.nextFrame kind ch f rest → s.reaches ch f k →
      ∃ t, exec kind.command s = .next t ∧ t.ctxs[k].same c ∧ s.still t ∧
        t.chans[ch].link = { s.chans[ch].link with fifo := rest } ∧ Rest { chans := (· = ch) } s t)

/-- R82, R110, R44: an ERASED accepted takes the erase's context to COMMITTING and offers the ERASE-CLEAR with the generation
and epoch the unit reported. A late one, which meets the context while it waits in its line, takes it out of it (R139). -/
def Obligations.ErasedOffersTheClear : Prop :=
  ∀ (ch : ChanId) (f : Frame) (rest : List Frame) (k : CtxId) (n : SlotId) (s : State),
    s.nextFrame .erased ch f rest → s.reaches ch f k → s.ctxs[k].state = .opening → s.ctxs[k].purpose = .erase →
    3 ≤ f.dlc.toNat → s.chans[ch].pacer.line.count k ≤ 1 → s.ctxs[k].attached = BitVec.ofNat 16 (2 ^ n.val) →
    let c := s.ctxs[k]
    let gen := f.byte 1 ++ f.byte 0
    let epoch := f.byte 2
    ∃ t, exec .erased s = .next t ∧
      t.ctxs[k].same
        { c with state := .committing, generation := gen, epoch := epoch, window := none, frameQueued := none
                 creditNeed := if k ∈ s.chans[ch].pacer.line then 0 else c.creditNeed } ∧
      k ∉ t.chans[ch].pacer.line ∧
      .eraseClear c.target gen epoch n (some k) ∈ t.pool.queue ++ t.pool.waiting ∧
      t.chans[ch].link = { s.chans[ch].link with fifo := rest } ∧ t.portLast = ch ∧ t.clock = s.clock ∧
      t.self = s.self ∧ (s.sweep.openEdition ≠ 0 → s.still t) ∧ Rest { ctxs := s.leaving k, chans := (· = ch) } s t


/-! ### Windows, the sweep's timers, holds and the engine reset -/

/-- R100, R110, R111, R149: a silent answer window below three attempts asks for the same OPEN or ERASE again, and the end of a
hold window asks for the ERASE afresh: the context joins its line with the need of the frame, or is granted it and sends it at
once. After three silences an opening that is its read's first, or an erase, ends ABSENT, its context released; any other
opening begins again (R105). The clock at the expiry is log entry 3, the model's choice. -/
def Obligations.SilenceAsksAgainOrEndsAbsent : Prop :=
  ∀ (k : CtxId) (at_ : Clock) (s : State), s.memOk →
    let c := s.ctxs[k]
    let u := c.target
    let frame : TxKind := match c.purpose with | .read => .openFrame | .erase => .eraseFrame
    (s.expires k .answer at_ → c.state = .opening → c.attempt < 3 →
      ∃ t, exec (.answerWindowExpiry k) s = .next t ∧ t.clock = s.meetsAt at_ ∧ t.self = s.self ∧ t.portLast = s.portLast ∧
        t.ctxs[k].state = .opening ∧ t.ctxs[k].plan = { c.plan with attempt := c.attempt + 1, window := none } ∧
        t.asksFor k (match c.purpose with | .read => c.countAsked | .erase => 1) frame .opening ∧ s.still t ∧
        Rest { ctxs := (· = k) } s t) ∧
    (s.expires k .answer at_ → c.state = .opening → 3 ≤ c.attempt →
      (c.purpose = .read → c.segFirst = 0 ∧ c.firstOpening = true) →
      ∃ t, exec (.answerWindowExpiry k) s = .next t ∧ t.clock = s.meetsAt at_ ∧
        t.dir[u].record =
          (if c.purpose = .read then
            { s.dir[u].record with absentStreak := min 255 (s.dir[u].absentStreak + 1), lastRead := s.sweep.openEdition }
          else { s.dir[u].record with absentStreak := min 255 (s.dir[u].absentStreak + 1) }) ∧
        (∀ n x, s.awaits k n x → t.slotDone n 3 x.edition (s.meetsAt at_)) ∧
        s.released t k ∧ s.unitEnds t u (match c.purpose with | .read => .absent | .erase => .idle) .absent ∧
        (c.purpose = .read → s.counts t u .done fun x => { x with absent := x.absent + 1 }) ∧
        Rest { ctxs := (· = k), chans := (· = c.channel), units := (· = u),
               slots := fun n => hasSlot c.attached n = true } s t) ∧
    (s.expires k .answer at_ → c.state = .opening → 3 ≤ c.attempt → c.purpose = .read →
      ¬ (c.segFirst = 0 ∧ c.firstOpening = true) → s.chans[c.channel].pacer.line.count k ≤ 1 →
      ∃ t, exec (.answerWindowExpiry k) s = .next t ∧ t.clock = s.meetsAt at_ ∧ s.beginsAgain t k (s.meetsAt at_)) ∧
    (s.expires k .hold at_ →
      ∃ t, exec (.holdWindowExpiry k) s = .next t ∧ t.clock = s.meetsAt at_ ∧ t.self = s.self ∧ t.portLast = s.portLast ∧
        (c.state = .opening → t.ctxs[k].state = .opening ∧ t.ctxs[k].plan = { c.plan with attempt := 1, window := none }) ∧
        (c.state = .opening → c.purpose = .erase → t.asksFor k 1 .eraseFrame .opening) ∧ s.still t ∧
        Rest { ctxs := (· = k) } s t)

/-- R103, R104, R79: a gap window that runs out in RECEIVING, and silence in MENDING below round 2, begin a mending round: the
PICK of the lowest seven missing places is asked for, or with none missing sent at once. Silence in round 2 begins the read
again (R105). The clock at the expiry is log entry 3, the model's choice. -/
def Obligations.GapSilenceMends : Prop :=
  (∀ (k : CtxId) (at_ : Clock) (c : Instr) (s : State),
    (s.expires k .gap at_ ∧ c = .gapWindowExpiry k ∧ s.ctxs[k].state = .receiving ∨
      s.ctxs[k].state = .mending ∧ s.ctxs[k].mendRound < 2 ∧
        (s.expires k .gap at_ ∧ c = .gapWindowExpiry k ∨ s.expires k .answer at_ ∧ c = .answerWindowExpiry k)) →
    let x := s.ctxs[k]
    ∃ t, exec c s = .next t ∧ t.clock = s.meetsAt at_ ∧ t.self = s.self ∧ t.portLast = s.portLast ∧
      t.ctxs[k].state = .mending ∧
      t.ctxs[k].plan = { x.plan with mendRound := x.mendRound + 1, pickList := x.missing.take 7, window := none } ∧
      (x.missing ≠ [] → t.asksFor k (min 7 x.missing.length) .pickFrame .mending) ∧
      (x.missing = [] → t.ctxs[k].frameQueued = some .pickFrame ∧ t.sends k .pickFrame) ∧
      s.still t ∧ Rest { ctxs := (· = k) } s t) ∧
  ∀ (k : CtxId) (at_ : Clock) (c : Instr) (s : State), s.memOk → s.ctxs[k].state = .mending → s.ctxs[k].purpose = .read →
    2 ≤ s.ctxs[k].mendRound → s.chans[s.ctxs[k].channel].pacer.line.count k ≤ 1 →
    (s.expires k .gap at_ ∧ c = .gapWindowExpiry k ∨ s.expires k .answer at_ ∧ c = .answerWindowExpiry k) →
    ∃ t, exec c s = .next t ∧ t.clock = s.meetsAt at_ ∧ s.beginsAgain t k (s.meetsAt at_)

/-- R152, R63, R149, R109: the budget's end drains the sweep, with outcome BUDGET, and logs BUDGET_EXPIRED; an accepted ABORT
SWEEP drains it with outcome ABORTED and completes DONE in the visit (R174). Auto-due is taken clear, so that no next sweep
starts in the same event. The order's edition is the open one (R168); with none open, one that a DELIST-RETIRE opens is left
free. The clock at the expiry is log entry 3, the order in which the drain stops contexts log entry 10, and that a context
stopped while its frame is in transmission shows its STOP as frame queued at once log entry 29, the model's choices; that the
STOP waits there behind the withdrawn frame is log entry 12, DEDUCED. -/
def Obligations.BudgetDrainsTheSweep : Prop :=
  (∀ (at_ : Clock) (s : State), s.running → s.sweep.budgetTimer = some at_ →
    (s.sweep.state = .running ∨ s.sweep.state = .paused) → s.sweep.autoDue = false →
    let ofSweep := fun k : CtxId => s.ctxs[k].state ≠ .free ∧ s.ctxs[k].attached = 0
    ∃ t, exec .budgetTimerExpiry s = .next t ∧ t.clock = s.meetsAt at_ ∧
      (t.sweep.state = .draining ∨ t.sweep.state = .idle) ∧ t.sweep.outcome = .budget ∧ t.sweep.budgetTimer = none ∧
      (64 ≤ t.self.entries.length ∨
        t.hasAttn .selfGrew ∧ ∃ e ∈ t.self.entries, e.code = .budgetExpired ∧ e.mode = 0) ∧
      (s.memOk → s.drains t .budget (s.meetsAt at_) fun _ => False) ∧
      Rest { ctxs := fun k => s.ctxs[k].attached = 0 ∨ ∃ c : ChanId, k ∈ s.chans[c].pacer.line,
             chans := fun c => ∃ k, ofSweep k ∧ s.ctxs[k].channel = c,
             units := fun v => s.dir[v].mark = .pending ∨ ∃ k, ofSweep k ∧ s.ctxs[k].target = v } s t) ∧
  ∀ (v : Word) (n : SlotId) (s : State), s.visits n → slotKind s.mem n = 15 → s.orders.start = false →
    (s.sweep.state = .running ∨ s.sweep.state = .paused) → s.sweep.autoDue = false →
    let ofSweep := fun k : CtxId => s.ctxs[k].state ≠ .free ∧ s.ctxs[k].attached = 0
    ∃ t, exec (.signalWrite v) s = .next t ∧ t.clock = s.clock ∧
      (t.sweep.state = .draining ∨ t.sweep.state = .idle) ∧ s.drains t .aborted s.clock (· = n) ∧
      (∃ ed, t.slotShows n 3 0 0 0 0 0 ed s.clock ∧
        (s.sweep.openEdition ≠ 0 ∨ (∀ u : UnitId, s.dir[u].state ≠ .delisting) → ed = s.sweep.openEdition)) ∧
      t.hasAttn .orderDone ∧ t.orders.taken[n] = none ∧
      Rest { ctxs := fun k => s.ctxs[k].attached = 0 ∨ ∃ c : ChanId, k ∈ s.chans[c].pacer.line,
             chans := fun c => ∃ k, ofSweep k ∧ s.ctxs[k].channel = c,
             units := fun v => s.dir[v].mark = .pending ∨ ∃ k, ofSweep k ∧ s.ctxs[k].target = v, slots := (· = n) }
        { s with orders := { s.orders with scanHalt := none } } t

/-- R160: at its expiry the schedule timer restarts; while START is set nothing else happens, an IDLE controller starts a
sweep of the schedule, and otherwise one is due at the sweep's end; the hypothesis leaves out a sweep that ends in this very
event. The clock at the expiry is log entry 3, the model's choice. R174, R146: a SWEEP order accepted starts the sweep it
names in its visit and stays TAKEN; one with nothing to read, in an edition that nothing else keeps open, completes at once
(R150, R158). Auto-due is taken clear there, so that no second sweep starts. R94, R95: in that start the lowest PENDING unit
that is eligible takes the lowest FREE context, where no order waits for one. -/
def Obligations.ScheduleStartsOrWaits : Prop :=
  (∀ (at_ : Clock) (s : State), s.running → s.sweep.scheduleTimer = some at_ →
    let again : Option Clock := some (at_ + BitVec.ofNat 32 (s.sweep.schedPeriod * 60000))
    (s.sweep.state = .idle ∨ s.anyPending = true) →
    ∃ t, exec .scheduleTimerExpiry s = .next t ∧ t.clock = s.meetsAt at_ ∧ t.self = s.self ∧
      t.sweep.scheduleTimer = again ∧ t.sweep.schedMask = s.sweep.schedMask ∧ t.sweep.schedPeriod = s.sweep.schedPeriod ∧
      t.sweep.schedBudget = s.sweep.schedBudget ∧
      (s.orders.start = true → t.sweep.state = s.sweep.state ∧ t.sweep.autoDue = s.sweep.autoDue ∧
        t.sweep.origin = s.sweep.origin ∧ t.sweep.startClock = s.sweep.startClock) ∧
      (s.orders.start = false → s.sweep.state = .idle → t.sweep.origin = .schedule ∧ t.sweep.mask = s.sweep.schedMask ∧
        t.sweep.budget = s.sweep.schedBudget ∧ t.sweep.startClock = s.meetsAt at_ ∧
        (t.sweep.state = .running ∨ t.sweep.state = .idle)) ∧
      (s.orders.start = false → s.sweep.state = .idle → s.sweep.autoDue = false → s.orders.resetting = none →
        s.sweepStarts t .schedule s.sweep.schedMask s.sweep.schedBudget (s.meetsAt at_)) ∧
      (s.orders.start = false → s.sweep.state ≠ .idle → t.sweep.autoDue = true ∧ t.sweep.state = s.sweep.state) ∧
      Rest { schedule := True } s t) ∧
  ∀ (v : Word) (n : SlotId) (s : State), s.visits n → slotKind s.mem n = 10 → s.orders.start = false →
    s.sweep.state = .idle → s.sweep.autoDue = false →
    let mask := (paramByte s.mem n 0).extractLsb' 0 4
    let budget := (paramWord s.mem n 2).toNat
    ∃ t, exec (.signalWrite v) s = .next t ∧ t.clock = s.clock ∧ t.self = s.self ∧
      s.sweepStarts t (.slot n) mask budget s.clock ∧
      (∀ (u : UnitId) (k : CtxId), s.assignsSweep (s.markFor mask)
        (fun c => s.chans[c].settling = true ∨ s.chans[c].settings.wake = true ∧
          ∃ v : UnitId, v ≠ 0 ∧ s.markFor mask v = .pending ∧ s.dir[v].channel = c) u k → s.openedBySweep t u k) ∧
      ((∃ u, s.markFor mask u = .pending) → slotState t.mem n = 2 ∧
        t.orders.taken[n] = some { order := .sweep mask budget, edition := s.editionFor, sweepResult := none }) ∧
      ((∀ u, s.markFor mask u ≠ .pending) → s.nothingKeeps → t.sweep.openEdition = 0 ∧ t.sweep.lastClosed = s.editionFor ∧
        t.orders.taken[n] = none ∧ t.hasAttn .orderDone ∧ t.hasAttn .editionClosed ∧
        t.slotShows n 3 0x09 (s.editionFor.extractLsb' 0 16) (s.editionFor.extractLsb' 16 16) 0 0 s.editionFor s.clock) ∧
      Rest { slots := (· = n) } { s with orders := { s.orders with scanHalt := none } } t

/-- R56: a hold that has run out stays run out until its unit leaves HELD, and makes the unit eligible for a read:
it stays HELD with the hold run out, or is READING at once. The clock at the expiry is log entry 3, the model's choice. -/
def Obligations.HoldRunOutMakesEligible : Prop :=
  ∀ (u : UnitId) (s : State), s.running → s.dir[u].state = .held →
    ∃ t, exec (.holdRunOut u) s = .next t ∧ t.clock = s.meetsAt s.dir[u].holdUntil ∧ t.self = s.self ∧
      t.portLast = s.portLast ∧ (t.dir[u].state = .held ∧ t.dir[u].holdRunOut = true ∨ t.dir[u].state = .reading) ∧
      s.still t ∧ Rest {} s t

/-- R184, R177, R115, R132, R161, R62, R70, R24, R168: with the pool drained the engine reset's last stage frees every
context, its fields 0 but for its parity and its staging empty, returns the channels and the timing values to their reset
states, clears ACTIVE_NOW of the BUS_OFF entry of each channel that was off its bus, closes the open edition, ends every
unit's work with last outcome RESET, refuses the slots still TAKEN, completes the RESET PART slot and sets START. The schedule
and the edition counter stand. That the RESET PART slot shows edition 0 is log entry 25, DEDUCED. -/
def Obligations.EngineResetEnds : Prop :=
  ∀ (n : SlotId) (s : State), s.running → s.memOk → s.orders.resetting = some n → s.pool.op = none → s.pool.queue = [] →
    s.pool.waiting = [] →
    ∃ t, exec .engineResetEnd s = .next t ∧
      (∀ k : CtxId, t.ctxs[k].same (Context.freed 0 s.ctxs[k].parity)) ∧
      (∀ c : ChanId, { t.chans[c] with revision := 0 } = { State.reset.chans[c] with revision := 0 }) ∧
      t.timing = { answer := 25, gap := 50, stop := 30, settle := 200, limit := 3 } ∧
      t.sweep.state = .idle ∧ t.sweep.openEdition = 0 ∧
      (s.sweep.state ≠ .idle → t.sweep.outcome = .reset ∧ t.sweep.endClock = s.clock) ∧
      (s.sweep.openEdition ≠ 0 → t.sweep.lastClosed = s.sweep.openEdition ∧ t.sweep.closeCause = .reset ∧
        t.sweep.closeClock = s.clock ∧ t.hasAttn .editionClosed) ∧
      (∀ u : UnitId, t.dir[u].mark = .none ∧ t.dir[u].record = s.dir[u].record ∧
        t.dir[u].lastOutcome =
          (match s.dir[u].state with
            | .reading => .reset | .held => .reset | .erasing => .reset | .delisting => .reset | _ => s.dir[u].lastOutcome) ∧
        t.dir[u].state =
          (match s.dir[u].state with
            | .reading => .idle | .held => .idle | .erasing => .idle | .delisting => .idle | x => x)) ∧
      t.self.entries = (s.self.entries.map fun e =>
        if e.code = .busOff ∧ ∃ c : ChanId, (s.chans[c].state = .busOff ∨ s.chans[c].state = .recovering) ∧
          e.mode = BitVec.ofNat 8 c.val then { e with activeNow := false } else e) ∧
      t.self.epoch = s.self.epoch ∧ t.sweep.schedule = s.sweep.schedule ∧ t.sweep.counter = s.sweep.counter ∧
      (s.sweep.openEdition = 0 → t.sweep.lastClose = s.sweep.lastClose) ∧ t.pool.policy = .keep ∧
      t.pool.records = s.pool.records ∧ t.pool.freeCount = s.pool.freeCount ∧
      t.pool.reclaimed = s.pool.reclaimed ∧
      (∀ j x, j ≠ n → s.orders.taken[j] = some x → x.order ≠ .resetPart →
        t.slotShows j 4 0x8B 0 0 0 0 x.edition s.clock) ∧
      t.slotShows n 3 0 0 0 0 0 0 s.clock ∧ t.orders.start = true ∧ t.orders.resetting = none ∧
      t.orders.scanHalt = none ∧ t.hasAttn .start ∧ t.hasAttn .orderDone ∧ t.port.mask = s.port.mask ∧
      t.clock = s.clock

/-! ### What every step keeps -/

/-- The part right after a full reset satisfies every invariant below, and the two that EveryCommandAnswers keeps. -/
def Obligations.ResetMeetsTheInvariants : Prop :=
  State.reset.lineOk ∧ State.reset.memOk ∧ State.reset.parityOk ∧ State.reset.roomOk ∧ State.reset.settled ∧
    State.reset.tidy ∧ State.reset.blocksEven ∧ State.reset.poolOk

/-- R181, R183: every step leaves ATTN_N low exactly while some attention bit is set in both registers, and released during
initialisation. -/
def Obligations.EveryStepKeepsTheLine : Prop :=
  ∀ s t : State, s.lineOk → step s = .next t → t.lineOk

/-- R15, and the canonical form of memory: every step leaves the summary revision odd exactly while an operation runs, and
exchange memory in its canonical form. R3, R50, R69, R92, R131, R145: it leaves the revision of every other block even, so that
each block stands whole; and a command that is one event of the part, which a pass of the order engine and a full reset are not,
steps the revision of a context view, of a channel's block and of the sweep record by 2 if it changed what the block shows, and
else not at all. That a pass is not one event, and that a command with the work that follows it at once is one, is log entry 8,
DEDUCED. -/
def Obligations.EveryStepKeepsParityAndMemory : Prop :=
  ∀ s t : State, step s = .next t → (s.parityOk → t.parityOk) ∧ (s.memOk → t.memOk) ∧ (s.blocksEven → t.blocksEven) ∧
    ∀ c rest, s.pending = c :: rest → c ≠ .orderScanTimerExpiry → c ≠ .fullReset → c ≠ .initialisationEnd →
      (∀ v, c ≠ .signalWrite v) →
      (∀ k : CtxId, t.ctxs[k].revision = s.ctxs[k].revision + (if t.ctxView k = s.ctxView k then 0 else 2)) ∧
      (∀ h : ChanId, t.chans[h].revision = s.chans[h].revision + (if t.chans[h].view = s.chans[h].view then 0 else 2)) ∧
      t.sweep.revision = s.sweep.revision + (if t.sweep.view = s.sweep.view then 0 else 2)

/-- R10, R63, R122, R123, R136: every step keeps the request queue, the self history, every transmit queue and response FIFO,
and every pacer's credits within their places. R4 to R7, R51: it keeps every record in exactly one of the free stack, the
retired queue and the chain of one unit, with the counts theirs; every chain ascending by identity, its records live and their
unit's, and none under a VACANT entry; and the retired queue in order of retire edition. R34, R36: a live record's first
odometer stays at most its last. -/
def Obligations.EveryStepKeepsRoom : Prop :=
  ∀ s t : State, step s = .next t → (s.roomOk → t.roomOk) ∧ (s.poolOk → t.poolOk)
end

