-- ==== Sys2Proof/Laws/State.lean ====
section
/-! SUPPORT. One lemma per field per update of State, true by definition: later proofs unfold no record update. -/

namespace Sys2Proof.Machine

variable (s : State)

/-! ### updPort -/

@[simp] theorem State.updPort_port (f : HostPort → HostPort) : (s.updPort f).port = f s.port := rfl
@[simp] theorem State.updPort_clock (f : HostPort → HostPort) : (s.updPort f).clock = s.clock := rfl
@[simp] theorem State.updPort_mem (f : HostPort → HostPort) : (s.updPort f).mem = s.mem := rfl
@[simp] theorem State.updPort_orders (f : HostPort → HostPort) : (s.updPort f).orders = s.orders := rfl
@[simp] theorem State.updPort_sweep (f : HostPort → HostPort) : (s.updPort f).sweep = s.sweep := rfl
@[simp] theorem State.updPort_dir (f : HostPort → HostPort) : (s.updPort f).dir = s.dir := rfl
@[simp] theorem State.updPort_self (f : HostPort → HostPort) : (s.updPort f).self = s.self := rfl
@[simp] theorem State.updPort_pool (f : HostPort → HostPort) : (s.updPort f).pool = s.pool := rfl
@[simp] theorem State.updPort_ctxs (f : HostPort → HostPort) : (s.updPort f).ctxs = s.ctxs := rfl
@[simp] theorem State.updPort_timing (f : HostPort → HostPort) : (s.updPort f).timing = s.timing := rfl
@[simp] theorem State.updPort_chans (f : HostPort → HostPort) : (s.updPort f).chans = s.chans := rfl
@[simp] theorem State.updPort_portLast (f : HostPort → HostPort) : (s.updPort f).portLast = s.portLast := rfl
@[simp] theorem State.updPort_pending (f : HostPort → HostPort) : (s.updPort f).pending = s.pending := rfl

/-! ### updMem -/

@[simp] theorem State.updMem_port (f : Memory → Memory) : (s.updMem f).port = s.port := rfl
@[simp] theorem State.updMem_clock (f : Memory → Memory) : (s.updMem f).clock = s.clock := rfl
@[simp] theorem State.updMem_mem (f : Memory → Memory) : (s.updMem f).mem = f s.mem := rfl
@[simp] theorem State.updMem_orders (f : Memory → Memory) : (s.updMem f).orders = s.orders := rfl
@[simp] theorem State.updMem_sweep (f : Memory → Memory) : (s.updMem f).sweep = s.sweep := rfl
@[simp] theorem State.updMem_dir (f : Memory → Memory) : (s.updMem f).dir = s.dir := rfl
@[simp] theorem State.updMem_self (f : Memory → Memory) : (s.updMem f).self = s.self := rfl
@[simp] theorem State.updMem_pool (f : Memory → Memory) : (s.updMem f).pool = s.pool := rfl
@[simp] theorem State.updMem_ctxs (f : Memory → Memory) : (s.updMem f).ctxs = s.ctxs := rfl
@[simp] theorem State.updMem_timing (f : Memory → Memory) : (s.updMem f).timing = s.timing := rfl
@[simp] theorem State.updMem_chans (f : Memory → Memory) : (s.updMem f).chans = s.chans := rfl
@[simp] theorem State.updMem_portLast (f : Memory → Memory) : (s.updMem f).portLast = s.portLast := rfl
@[simp] theorem State.updMem_pending (f : Memory → Memory) : (s.updMem f).pending = s.pending := rfl

/-! ### updOrders -/

@[simp] theorem State.updOrders_port (f : OrderEngine → OrderEngine) : (s.updOrders f).port = s.port := rfl
@[simp] theorem State.updOrders_clock (f : OrderEngine → OrderEngine) : (s.updOrders f).clock = s.clock := rfl
@[simp] theorem State.updOrders_mem (f : OrderEngine → OrderEngine) : (s.updOrders f).mem = s.mem := rfl
@[simp] theorem State.updOrders_orders (f : OrderEngine → OrderEngine) : (s.updOrders f).orders = f s.orders := rfl
@[simp] theorem State.updOrders_sweep (f : OrderEngine → OrderEngine) : (s.updOrders f).sweep = s.sweep := rfl
@[simp] theorem State.updOrders_dir (f : OrderEngine → OrderEngine) : (s.updOrders f).dir = s.dir := rfl
@[simp] theorem State.updOrders_self (f : OrderEngine → OrderEngine) : (s.updOrders f).self = s.self := rfl
@[simp] theorem State.updOrders_pool (f : OrderEngine → OrderEngine) : (s.updOrders f).pool = s.pool := rfl
@[simp] theorem State.updOrders_ctxs (f : OrderEngine → OrderEngine) : (s.updOrders f).ctxs = s.ctxs := rfl
@[simp] theorem State.updOrders_timing (f : OrderEngine → OrderEngine) : (s.updOrders f).timing = s.timing := rfl
@[simp] theorem State.updOrders_chans (f : OrderEngine → OrderEngine) : (s.updOrders f).chans = s.chans := rfl
@[simp] theorem State.updOrders_portLast (f : OrderEngine → OrderEngine) : (s.updOrders f).portLast = s.portLast := rfl
@[simp] theorem State.updOrders_pending (f : OrderEngine → OrderEngine) : (s.updOrders f).pending = s.pending := rfl

/-! ### updSweep -/

@[simp] theorem State.updSweep_port (f : SweepCtl → SweepCtl) : (s.updSweep f).port = s.port := rfl
@[simp] theorem State.updSweep_clock (f : SweepCtl → SweepCtl) : (s.updSweep f).clock = s.clock := rfl
@[simp] theorem State.updSweep_mem (f : SweepCtl → SweepCtl) : (s.updSweep f).mem = s.mem := rfl
@[simp] theorem State.updSweep_orders (f : SweepCtl → SweepCtl) : (s.updSweep f).orders = s.orders := rfl
@[simp] theorem State.updSweep_sweep (f : SweepCtl → SweepCtl) : (s.updSweep f).sweep = f s.sweep := rfl
@[simp] theorem State.updSweep_dir (f : SweepCtl → SweepCtl) : (s.updSweep f).dir = s.dir := rfl
@[simp] theorem State.updSweep_self (f : SweepCtl → SweepCtl) : (s.updSweep f).self = s.self := rfl
@[simp] theorem State.updSweep_pool (f : SweepCtl → SweepCtl) : (s.updSweep f).pool = s.pool := rfl
@[simp] theorem State.updSweep_ctxs (f : SweepCtl → SweepCtl) : (s.updSweep f).ctxs = s.ctxs := rfl
@[simp] theorem State.updSweep_timing (f : SweepCtl → SweepCtl) : (s.updSweep f).timing = s.timing := rfl
@[simp] theorem State.updSweep_chans (f : SweepCtl → SweepCtl) : (s.updSweep f).chans = s.chans := rfl
@[simp] theorem State.updSweep_portLast (f : SweepCtl → SweepCtl) : (s.updSweep f).portLast = s.portLast := rfl
@[simp] theorem State.updSweep_pending (f : SweepCtl → SweepCtl) : (s.updSweep f).pending = s.pending := rfl

/-! ### updPool -/

@[simp] theorem State.updPool_port (f : Pool → Pool) : (s.updPool f).port = s.port := rfl
@[simp] theorem State.updPool_clock (f : Pool → Pool) : (s.updPool f).clock = s.clock := rfl
@[simp] theorem State.updPool_mem (f : Pool → Pool) : (s.updPool f).mem = s.mem := rfl
@[simp] theorem State.updPool_orders (f : Pool → Pool) : (s.updPool f).orders = s.orders := rfl
@[simp] theorem State.updPool_sweep (f : Pool → Pool) : (s.updPool f).sweep = s.sweep := rfl
@[simp] theorem State.updPool_dir (f : Pool → Pool) : (s.updPool f).dir = s.dir := rfl
@[simp] theorem State.updPool_self (f : Pool → Pool) : (s.updPool f).self = s.self := rfl
@[simp] theorem State.updPool_pool (f : Pool → Pool) : (s.updPool f).pool = f s.pool := rfl
@[simp] theorem State.updPool_ctxs (f : Pool → Pool) : (s.updPool f).ctxs = s.ctxs := rfl
@[simp] theorem State.updPool_timing (f : Pool → Pool) : (s.updPool f).timing = s.timing := rfl
@[simp] theorem State.updPool_chans (f : Pool → Pool) : (s.updPool f).chans = s.chans := rfl
@[simp] theorem State.updPool_portLast (f : Pool → Pool) : (s.updPool f).portLast = s.portLast := rfl
@[simp] theorem State.updPool_pending (f : Pool → Pool) : (s.updPool f).pending = s.pending := rfl

/-! ### updSelf -/

@[simp] theorem State.updSelf_port (f : SelfHistory → SelfHistory) : (s.updSelf f).port = s.port := rfl
@[simp] theorem State.updSelf_clock (f : SelfHistory → SelfHistory) : (s.updSelf f).clock = s.clock := rfl
@[simp] theorem State.updSelf_mem (f : SelfHistory → SelfHistory) : (s.updSelf f).mem = s.mem := rfl
@[simp] theorem State.updSelf_orders (f : SelfHistory → SelfHistory) : (s.updSelf f).orders = s.orders := rfl
@[simp] theorem State.updSelf_sweep (f : SelfHistory → SelfHistory) : (s.updSelf f).sweep = s.sweep := rfl
@[simp] theorem State.updSelf_dir (f : SelfHistory → SelfHistory) : (s.updSelf f).dir = s.dir := rfl
@[simp] theorem State.updSelf_self (f : SelfHistory → SelfHistory) : (s.updSelf f).self = f s.self := rfl
@[simp] theorem State.updSelf_pool (f : SelfHistory → SelfHistory) : (s.updSelf f).pool = s.pool := rfl
@[simp] theorem State.updSelf_ctxs (f : SelfHistory → SelfHistory) : (s.updSelf f).ctxs = s.ctxs := rfl
@[simp] theorem State.updSelf_timing (f : SelfHistory → SelfHistory) : (s.updSelf f).timing = s.timing := rfl
@[simp] theorem State.updSelf_chans (f : SelfHistory → SelfHistory) : (s.updSelf f).chans = s.chans := rfl
@[simp] theorem State.updSelf_portLast (f : SelfHistory → SelfHistory) : (s.updSelf f).portLast = s.portLast := rfl
@[simp] theorem State.updSelf_pending (f : SelfHistory → SelfHistory) : (s.updSelf f).pending = s.pending := rfl

/-! ### updCtx -/

@[simp] theorem State.updCtx_port (k : CtxId) (f : Context → Context) : (s.updCtx k f).port = s.port := rfl
@[simp] theorem State.updCtx_clock (k : CtxId) (f : Context → Context) : (s.updCtx k f).clock = s.clock := rfl
@[simp] theorem State.updCtx_mem (k : CtxId) (f : Context → Context) : (s.updCtx k f).mem = s.mem := rfl
@[simp] theorem State.updCtx_orders (k : CtxId) (f : Context → Context) : (s.updCtx k f).orders = s.orders := rfl
@[simp] theorem State.updCtx_sweep (k : CtxId) (f : Context → Context) : (s.updCtx k f).sweep = s.sweep := rfl
@[simp] theorem State.updCtx_dir (k : CtxId) (f : Context → Context) : (s.updCtx k f).dir = s.dir := rfl
@[simp] theorem State.updCtx_self (k : CtxId) (f : Context → Context) : (s.updCtx k f).self = s.self := rfl
@[simp] theorem State.updCtx_pool (k : CtxId) (f : Context → Context) : (s.updCtx k f).pool = s.pool := rfl
@[simp] theorem State.updCtx_ctxs (k : CtxId) (f : Context → Context) : (s.updCtx k f).ctxs = s.ctxs.set k (f s.ctxs[k]) := rfl
@[simp] theorem State.updCtx_timing (k : CtxId) (f : Context → Context) : (s.updCtx k f).timing = s.timing := rfl
@[simp] theorem State.updCtx_chans (k : CtxId) (f : Context → Context) : (s.updCtx k f).chans = s.chans := rfl
@[simp] theorem State.updCtx_portLast (k : CtxId) (f : Context → Context) : (s.updCtx k f).portLast = s.portLast := rfl
@[simp] theorem State.updCtx_pending (k : CtxId) (f : Context → Context) : (s.updCtx k f).pending = s.pending := rfl

/-! ### updChan -/

@[simp] theorem State.updChan_port (c : ChanId) (f : Channel → Channel) : (s.updChan c f).port = s.port := rfl
@[simp] theorem State.updChan_clock (c : ChanId) (f : Channel → Channel) : (s.updChan c f).clock = s.clock := rfl
@[simp] theorem State.updChan_mem (c : ChanId) (f : Channel → Channel) : (s.updChan c f).mem = s.mem := rfl
@[simp] theorem State.updChan_orders (c : ChanId) (f : Channel → Channel) : (s.updChan c f).orders = s.orders := rfl
@[simp] theorem State.updChan_sweep (c : ChanId) (f : Channel → Channel) : (s.updChan c f).sweep = s.sweep := rfl
@[simp] theorem State.updChan_dir (c : ChanId) (f : Channel → Channel) : (s.updChan c f).dir = s.dir := rfl
@[simp] theorem State.updChan_self (c : ChanId) (f : Channel → Channel) : (s.updChan c f).self = s.self := rfl
@[simp] theorem State.updChan_pool (c : ChanId) (f : Channel → Channel) : (s.updChan c f).pool = s.pool := rfl
@[simp] theorem State.updChan_ctxs (c : ChanId) (f : Channel → Channel) : (s.updChan c f).ctxs = s.ctxs := rfl
@[simp] theorem State.updChan_timing (c : ChanId) (f : Channel → Channel) : (s.updChan c f).timing = s.timing := rfl
@[simp] theorem State.updChan_chans (c : ChanId) (f : Channel → Channel) : (s.updChan c f).chans = s.chans.set c (f s.chans[c]) := rfl
@[simp] theorem State.updChan_portLast (c : ChanId) (f : Channel → Channel) : (s.updChan c f).portLast = s.portLast := rfl
@[simp] theorem State.updChan_pending (c : ChanId) (f : Channel → Channel) : (s.updChan c f).pending = s.pending := rfl

/-! ### setClock -/

@[simp] theorem State.setClock_port (t : Clock) : (s.setClock t).port = s.port := rfl
@[simp] theorem State.setClock_clock (t : Clock) : (s.setClock t).clock = t := rfl
@[simp] theorem State.setClock_mem (t : Clock) : (s.setClock t).mem = s.mem := rfl
@[simp] theorem State.setClock_orders (t : Clock) : (s.setClock t).orders = s.orders := rfl
@[simp] theorem State.setClock_sweep (t : Clock) : (s.setClock t).sweep = s.sweep := rfl
@[simp] theorem State.setClock_dir (t : Clock) : (s.setClock t).dir = vecMap (DirEntry.latchHold t) s.dir := rfl
@[simp] theorem State.setClock_self (t : Clock) : (s.setClock t).self = s.self := rfl
@[simp] theorem State.setClock_pool (t : Clock) : (s.setClock t).pool = s.pool := rfl
@[simp] theorem State.setClock_ctxs (t : Clock) : (s.setClock t).ctxs = s.ctxs := rfl
@[simp] theorem State.setClock_timing (t : Clock) : (s.setClock t).timing = s.timing := rfl
@[simp] theorem State.setClock_chans (t : Clock) : (s.setClock t).chans = s.chans := rfl
@[simp] theorem State.setClock_portLast (t : Clock) : (s.setClock t).portLast = s.portLast := rfl
@[simp] theorem State.setClock_pending (t : Clock) : (s.setClock t).pending = s.pending := rfl

/-! ### raiseAttn -/

@[simp] theorem State.raiseAttn_port (b : AttnBit) : (s.raiseAttn b).port = { s.port with attention := s.port.attention ||| b.bit } := rfl
@[simp] theorem State.raiseAttn_clock (b : AttnBit) : (s.raiseAttn b).clock = s.clock := rfl
@[simp] theorem State.raiseAttn_mem (b : AttnBit) : (s.raiseAttn b).mem = s.mem := rfl
@[simp] theorem State.raiseAttn_orders (b : AttnBit) : (s.raiseAttn b).orders = s.orders := rfl
@[simp] theorem State.raiseAttn_sweep (b : AttnBit) : (s.raiseAttn b).sweep = s.sweep := rfl
@[simp] theorem State.raiseAttn_dir (b : AttnBit) : (s.raiseAttn b).dir = s.dir := rfl
@[simp] theorem State.raiseAttn_self (b : AttnBit) : (s.raiseAttn b).self = s.self := rfl
@[simp] theorem State.raiseAttn_pool (b : AttnBit) : (s.raiseAttn b).pool = s.pool := rfl
@[simp] theorem State.raiseAttn_ctxs (b : AttnBit) : (s.raiseAttn b).ctxs = s.ctxs := rfl
@[simp] theorem State.raiseAttn_timing (b : AttnBit) : (s.raiseAttn b).timing = s.timing := rfl
@[simp] theorem State.raiseAttn_chans (b : AttnBit) : (s.raiseAttn b).chans = s.chans := rfl
@[simp] theorem State.raiseAttn_portLast (b : AttnBit) : (s.raiseAttn b).portLast = s.portLast := rfl
@[simp] theorem State.raiseAttn_pending (b : AttnBit) : (s.raiseAttn b).pending = s.pending := rfl

/-! ### putSlot -/

@[simp] theorem State.putSlot_port (n : SlotId) (off : Nat) (w : Word) : (s.putSlot n off w).port = s.port := rfl
@[simp] theorem State.putSlot_clock (n : SlotId) (off : Nat) (w : Word) : (s.putSlot n off w).clock = s.clock := rfl
@[simp] theorem State.putSlot_mem (n : SlotId) (off : Nat) (w : Word) : (s.putSlot n off w).mem = Memory.writeWord s.mem (slotAt n + off) w := rfl
@[simp] theorem State.putSlot_orders (n : SlotId) (off : Nat) (w : Word) : (s.putSlot n off w).orders = s.orders := rfl
@[simp] theorem State.putSlot_sweep (n : SlotId) (off : Nat) (w : Word) : (s.putSlot n off w).sweep = s.sweep := rfl
@[simp] theorem State.putSlot_dir (n : SlotId) (off : Nat) (w : Word) : (s.putSlot n off w).dir = s.dir := rfl
@[simp] theorem State.putSlot_self (n : SlotId) (off : Nat) (w : Word) : (s.putSlot n off w).self = s.self := rfl
@[simp] theorem State.putSlot_pool (n : SlotId) (off : Nat) (w : Word) : (s.putSlot n off w).pool = s.pool := rfl
@[simp] theorem State.putSlot_ctxs (n : SlotId) (off : Nat) (w : Word) : (s.putSlot n off w).ctxs = s.ctxs := rfl
@[simp] theorem State.putSlot_timing (n : SlotId) (off : Nat) (w : Word) : (s.putSlot n off w).timing = s.timing := rfl
@[simp] theorem State.putSlot_chans (n : SlotId) (off : Nat) (w : Word) : (s.putSlot n off w).chans = s.chans := rfl
@[simp] theorem State.putSlot_portLast (n : SlotId) (off : Nat) (w : Word) : (s.putSlot n off w).portLast = s.portLast := rfl
@[simp] theorem State.putSlot_pending (n : SlotId) (off : Nat) (w : Word) : (s.putSlot n off w).pending = s.pending := rfl

/-! ### setTaken -/

@[simp] theorem State.setTaken_port (n : SlotId) (x : Option Taken) : (s.setTaken n x).port = s.port := rfl
@[simp] theorem State.setTaken_clock (n : SlotId) (x : Option Taken) : (s.setTaken n x).clock = s.clock := rfl
@[simp] theorem State.setTaken_mem (n : SlotId) (x : Option Taken) : (s.setTaken n x).mem = s.mem := rfl
@[simp] theorem State.setTaken_orders (n : SlotId) (x : Option Taken) : (s.setTaken n x).orders = { s.orders with taken := s.orders.taken.set n x } := rfl
@[simp] theorem State.setTaken_sweep (n : SlotId) (x : Option Taken) : (s.setTaken n x).sweep = s.sweep := rfl
@[simp] theorem State.setTaken_dir (n : SlotId) (x : Option Taken) : (s.setTaken n x).dir = s.dir := rfl
@[simp] theorem State.setTaken_self (n : SlotId) (x : Option Taken) : (s.setTaken n x).self = s.self := rfl
@[simp] theorem State.setTaken_pool (n : SlotId) (x : Option Taken) : (s.setTaken n x).pool = s.pool := rfl
@[simp] theorem State.setTaken_ctxs (n : SlotId) (x : Option Taken) : (s.setTaken n x).ctxs = s.ctxs := rfl
@[simp] theorem State.setTaken_timing (n : SlotId) (x : Option Taken) : (s.setTaken n x).timing = s.timing := rfl
@[simp] theorem State.setTaken_chans (n : SlotId) (x : Option Taken) : (s.setTaken n x).chans = s.chans := rfl
@[simp] theorem State.setTaken_portLast (n : SlotId) (x : Option Taken) : (s.setTaken n x).portLast = s.portLast := rfl
@[simp] theorem State.setTaken_pending (n : SlotId) (x : Option Taken) : (s.setTaken n x).pending = s.pending := rfl

/-! ### setHalt -/

@[simp] theorem State.setHalt_port (h : Option SlotId) : (s.setHalt h).port = s.port := rfl
@[simp] theorem State.setHalt_clock (h : Option SlotId) : (s.setHalt h).clock = s.clock := rfl
@[simp] theorem State.setHalt_mem (h : Option SlotId) : (s.setHalt h).mem = s.mem := rfl
@[simp] theorem State.setHalt_orders (h : Option SlotId) : (s.setHalt h).orders = { s.orders with scanHalt := h } := rfl
@[simp] theorem State.setHalt_sweep (h : Option SlotId) : (s.setHalt h).sweep = s.sweep := rfl
@[simp] theorem State.setHalt_dir (h : Option SlotId) : (s.setHalt h).dir = s.dir := rfl
@[simp] theorem State.setHalt_self (h : Option SlotId) : (s.setHalt h).self = s.self := rfl
@[simp] theorem State.setHalt_pool (h : Option SlotId) : (s.setHalt h).pool = s.pool := rfl
@[simp] theorem State.setHalt_ctxs (h : Option SlotId) : (s.setHalt h).ctxs = s.ctxs := rfl
@[simp] theorem State.setHalt_timing (h : Option SlotId) : (s.setHalt h).timing = s.timing := rfl
@[simp] theorem State.setHalt_chans (h : Option SlotId) : (s.setHalt h).chans = s.chans := rfl
@[simp] theorem State.setHalt_portLast (h : Option SlotId) : (s.setHalt h).portLast = s.portLast := rfl
@[simp] theorem State.setHalt_pending (h : Option SlotId) : (s.setHalt h).pending = s.pending := rfl

/-! ### eraseSelf -/

@[simp] theorem State.eraseSelf_port : (s.eraseSelf).port = s.port := rfl
@[simp] theorem State.eraseSelf_clock : (s.eraseSelf).clock = s.clock := rfl
@[simp] theorem State.eraseSelf_mem : (s.eraseSelf).mem = s.mem := rfl
@[simp] theorem State.eraseSelf_orders : (s.eraseSelf).orders = s.orders := rfl
@[simp] theorem State.eraseSelf_sweep : (s.eraseSelf).sweep = s.sweep := rfl
@[simp] theorem State.eraseSelf_dir : (s.eraseSelf).dir = s.dir := rfl
@[simp] theorem State.eraseSelf_self : (s.eraseSelf).self = { s.self with entries := [], generation := s.self.generation + 1, epoch := s.self.epoch + 1, revision := s.self.revision + 2 } := rfl
@[simp] theorem State.eraseSelf_pool : (s.eraseSelf).pool = s.pool := rfl
@[simp] theorem State.eraseSelf_ctxs : (s.eraseSelf).ctxs = s.ctxs := rfl
@[simp] theorem State.eraseSelf_timing : (s.eraseSelf).timing = s.timing := rfl
@[simp] theorem State.eraseSelf_chans : (s.eraseSelf).chans = s.chans := rfl
@[simp] theorem State.eraseSelf_portLast : (s.eraseSelf).portLast = s.portLast := rfl
@[simp] theorem State.eraseSelf_pending : (s.eraseSelf).pending = s.pending := rfl

end Sys2Proof.Machine
end

