-- ==== Sys2Proof/Laws/Frames.lean ====
section
/-! SUPPORT. The frame of every shared operation: the fields of State it leaves as they are. -/

namespace Sys2Proof.Machine

/-- What every step of a loop leaves alone the loop leaves alone. -/
theorem forEach_keeps {α σ β : Type} (g : σ → β) (f : α → σ → σ) (h : ∀ a s, g (f a s) = g s) (l : List α)
    (s : σ) : g (forEach l f s) = g s := by
  induction l generalizing s with
  | nil => rfl
  | cons a l ih => simpa [forEach] using (ih (f a s)).trans (h a s)

/-- A property that every step of a loop keeps the loop keeps. -/
theorem forEach_invariant {α σ : Type} (P : σ → Prop) (f : α → σ → σ) (h : ∀ a s, P s → P (f a s)) (l : List α) (s : σ)
    (hs : P s) : P (forEach l f s) := by
  induction l generalizing s with
  | nil => exact hs
  | cons a l ih => exact ih (f a s) (h a s hs)

/-! ### Orders, directory, self history, editions, pool requests -/

@[simp] theorem State.advanceTo_frame (t : Clock) (s : State) :
    (s.advanceTo t).port = s.port ∧ (s.advanceTo t).mem = s.mem ∧ (s.advanceTo t).orders = s.orders ∧
    (s.advanceTo t).sweep = s.sweep ∧ (s.advanceTo t).self = s.self ∧ (s.advanceTo t).pool = s.pool ∧
    (s.advanceTo t).ctxs = s.ctxs ∧ (s.advanceTo t).timing = s.timing ∧ (s.advanceTo t).chans = s.chans ∧
    (s.advanceTo t).portLast = s.portLast ∧ (s.advanceTo t).pending = s.pending := by
  unfold State.advanceTo
  split <;> simp

@[simp] theorem State.tick_frame (s : State) :
    (s.tick).port = s.port ∧ (s.tick).mem = s.mem ∧ (s.tick).orders = s.orders ∧ (s.tick).sweep = s.sweep ∧
    (s.tick).self = s.self ∧ (s.tick).pool = s.pool ∧ (s.tick).ctxs = s.ctxs ∧ (s.tick).timing = s.timing ∧
    (s.tick).chans = s.chans ∧ (s.tick).portLast = s.portLast ∧ (s.tick).pending = s.pending := by
  unfold State.tick
  split <;> simp

@[simp] theorem State.writeEntry_frame (u : UnitId) (f : DirEntry → DirEntry) (s : State) :
    (s.writeEntry u f).port = s.port ∧ (s.writeEntry u f).clock = s.clock ∧ (s.writeEntry u f).mem = s.mem ∧
    (s.writeEntry u f).orders = s.orders ∧ (s.writeEntry u f).sweep = s.sweep ∧ (s.writeEntry u f).self = s.self ∧
    (s.writeEntry u f).pool = s.pool ∧ (s.writeEntry u f).ctxs = s.ctxs ∧ (s.writeEntry u f).timing = s.timing ∧
    (s.writeEntry u f).chans = s.chans ∧ (s.writeEntry u f).portLast = s.portLast ∧
    (s.writeEntry u f).pending = s.pending := by
  unfold State.writeEntry
  dsimp only
  split <;> simp

@[simp] theorem State.logSelf_frame (code : SelfCode) (mode : Byte) (active : Bool) (s : State) :
    (s.logSelf code mode active).clock = s.clock ∧ (s.logSelf code mode active).mem = s.mem ∧
    (s.logSelf code mode active).orders = s.orders ∧ (s.logSelf code mode active).sweep = s.sweep ∧
    (s.logSelf code mode active).dir = s.dir ∧ (s.logSelf code mode active).pool = s.pool ∧
    (s.logSelf code mode active).ctxs = s.ctxs ∧ (s.logSelf code mode active).timing = s.timing ∧
    (s.logSelf code mode active).chans = s.chans ∧ (s.logSelf code mode active).portLast = s.portLast ∧
    (s.logSelf code mode active).pending = s.pending := by simp [State.logSelf, apply_ite State.clock, apply_ite State.mem, apply_ite State.orders, apply_ite State.sweep,
      apply_ite State.dir, apply_ite State.pool, apply_ite State.ctxs, apply_ite State.timing,
      apply_ite State.chans, apply_ite State.portLast, apply_ite State.pending]

@[simp] theorem State.logSelfNat_frame (code : SelfCode) (mode : Nat) (s : State) :
    (s.logSelfNat code mode).clock = s.clock ∧ (s.logSelfNat code mode).mem = s.mem ∧
    (s.logSelfNat code mode).orders = s.orders ∧ (s.logSelfNat code mode).sweep = s.sweep ∧
    (s.logSelfNat code mode).dir = s.dir ∧ (s.logSelfNat code mode).pool = s.pool ∧
    (s.logSelfNat code mode).ctxs = s.ctxs ∧ (s.logSelfNat code mode).timing = s.timing ∧
    (s.logSelfNat code mode).chans = s.chans ∧ (s.logSelfNat code mode).portLast = s.portLast ∧
    (s.logSelfNat code mode).pending = s.pending := by simp [State.logSelfNat]

@[simp] theorem State.clearBusOffActive_frame (c : ChanId) (s : State) :
    (s.clearBusOffActive c).port = s.port ∧ (s.clearBusOffActive c).clock = s.clock ∧
    (s.clearBusOffActive c).mem = s.mem ∧ (s.clearBusOffActive c).orders = s.orders ∧
    (s.clearBusOffActive c).sweep = s.sweep ∧ (s.clearBusOffActive c).dir = s.dir ∧
    (s.clearBusOffActive c).pool = s.pool ∧ (s.clearBusOffActive c).ctxs = s.ctxs ∧
    (s.clearBusOffActive c).timing = s.timing ∧ (s.clearBusOffActive c).chans = s.chans ∧
    (s.clearBusOffActive c).portLast = s.portLast ∧ (s.clearBusOffActive c).pending = s.pending := by
  unfold State.clearBusOffActive
  split <;> simp

@[simp] theorem State.takeSlot_frame (n : SlotId) (o : Order) (s : State) :
    (s.takeSlot n o).port = s.port ∧ (s.takeSlot n o).clock = s.clock ∧ (s.takeSlot n o).sweep = s.sweep ∧
    (s.takeSlot n o).dir = s.dir ∧ (s.takeSlot n o).self = s.self ∧ (s.takeSlot n o).pool = s.pool ∧
    (s.takeSlot n o).ctxs = s.ctxs ∧ (s.takeSlot n o).timing = s.timing ∧ (s.takeSlot n o).chans = s.chans ∧
    (s.takeSlot n o).portLast = s.portLast ∧ (s.takeSlot n o).pending = s.pending := by simp [State.takeSlot]

@[simp] theorem State.completeSlot_frame (n : SlotId) (final : Word) (r : OrderResult) (ed : Edition) (s : State) :
    (s.completeSlot n final r ed).clock = s.clock ∧ (s.completeSlot n final r ed).sweep = s.sweep ∧
    (s.completeSlot n final r ed).dir = s.dir ∧ (s.completeSlot n final r ed).self = s.self ∧
    (s.completeSlot n final r ed).pool = s.pool ∧ (s.completeSlot n final r ed).ctxs = s.ctxs ∧
    (s.completeSlot n final r ed).timing = s.timing ∧ (s.completeSlot n final r ed).chans = s.chans ∧
    (s.completeSlot n final r ed).portLast = s.portLast ∧ (s.completeSlot n final r ed).pending = s.pending := by simp [State.completeSlot]

@[simp] theorem State.doneSlot_frame (n : SlotId) (r : OrderResult) (ed : Edition) (s : State) :
    (s.doneSlot n r ed).clock = s.clock ∧ (s.doneSlot n r ed).sweep = s.sweep ∧ (s.doneSlot n r ed).dir = s.dir ∧
    (s.doneSlot n r ed).self = s.self ∧ (s.doneSlot n r ed).pool = s.pool ∧ (s.doneSlot n r ed).ctxs = s.ctxs ∧
    (s.doneSlot n r ed).timing = s.timing ∧ (s.doneSlot n r ed).chans = s.chans ∧
    (s.doneSlot n r ed).portLast = s.portLast ∧ (s.doneSlot n r ed).pending = s.pending := by simp [State.doneSlot]

@[simp] theorem State.refuseSlot_frame (n : SlotId) (r : OrderRefusal) (word0 : Word) (ed : Edition) (s : State) :
    (s.refuseSlot n r word0 ed).clock = s.clock ∧ (s.refuseSlot n r word0 ed).sweep = s.sweep ∧
    (s.refuseSlot n r word0 ed).dir = s.dir ∧ (s.refuseSlot n r word0 ed).self = s.self ∧
    (s.refuseSlot n r word0 ed).pool = s.pool ∧ (s.refuseSlot n r word0 ed).ctxs = s.ctxs ∧
    (s.refuseSlot n r word0 ed).timing = s.timing ∧ (s.refuseSlot n r word0 ed).chans = s.chans ∧
    (s.refuseSlot n r word0 ed).portLast = s.portLast ∧ (s.refuseSlot n r word0 ed).pending = s.pending := by simp [State.refuseSlot]

@[simp] theorem State.completeUnitOrder_frame (out : UnitOutcome) (n : SlotId) (s : State) :
    (s.completeUnitOrder out n).clock = s.clock ∧ (s.completeUnitOrder out n).sweep = s.sweep ∧
    (s.completeUnitOrder out n).dir = s.dir ∧ (s.completeUnitOrder out n).self = s.self ∧
    (s.completeUnitOrder out n).pool = s.pool ∧ (s.completeUnitOrder out n).ctxs = s.ctxs ∧
    (s.completeUnitOrder out n).timing = s.timing ∧ (s.completeUnitOrder out n).chans = s.chans ∧
    (s.completeUnitOrder out n).portLast = s.portLast ∧ (s.completeUnitOrder out n).pending = s.pending := by
  unfold State.completeUnitOrder
  (repeat' split) <;> simp

@[simp] theorem State.completeUnitOrders_frame (out : UnitOutcome) (slots : List SlotId) (s : State) :
    (s.completeUnitOrders out slots).clock = s.clock ∧ (s.completeUnitOrders out slots).sweep = s.sweep ∧
    (s.completeUnitOrders out slots).dir = s.dir ∧ (s.completeUnitOrders out slots).self = s.self ∧
    (s.completeUnitOrders out slots).pool = s.pool ∧ (s.completeUnitOrders out slots).ctxs = s.ctxs ∧
    (s.completeUnitOrders out slots).timing = s.timing ∧ (s.completeUnitOrders out slots).chans = s.chans ∧
    (s.completeUnitOrders out slots).portLast = s.portLast ∧ (s.completeUnitOrders out slots).pending = s.pending := by simp [State.completeUnitOrders, forEach_keeps State.clock, forEach_keeps State.sweep, forEach_keeps State.dir,
      forEach_keeps State.self, forEach_keeps State.pool, forEach_keeps State.ctxs, forEach_keeps State.timing,
      forEach_keeps State.chans, forEach_keeps State.portLast, forEach_keeps State.pending]

@[simp] theorem State.needEdition_frame (s : State) :
    (s.needEdition).port = s.port ∧ (s.needEdition).clock = s.clock ∧ (s.needEdition).mem = s.mem ∧
    (s.needEdition).orders = s.orders ∧ (s.needEdition).dir = s.dir ∧ (s.needEdition).self = s.self ∧
    (s.needEdition).pool = s.pool ∧ (s.needEdition).ctxs = s.ctxs ∧ (s.needEdition).timing = s.timing ∧
    (s.needEdition).chans = s.chans ∧ (s.needEdition).portLast = s.portLast ∧ (s.needEdition).pending = s.pending := by
  unfold State.needEdition
  split <;> simp

@[simp] theorem State.offer_frame (r : PoolRequest) (s : State) :
    (s.offer r).port = s.port ∧ (s.offer r).clock = s.clock ∧ (s.offer r).mem = s.mem ∧
    (s.offer r).orders = s.orders ∧ (s.offer r).dir = s.dir ∧ (s.offer r).self = s.self ∧ (s.offer r).ctxs = s.ctxs ∧
    (s.offer r).timing = s.timing ∧ (s.offer r).chans = s.chans ∧ (s.offer r).portLast = s.portLast ∧
    (s.offer r).pending = s.pending := by simp [State.offer, apply_ite State.port, apply_ite State.clock, apply_ite State.mem, apply_ite State.orders,
      apply_ite State.dir, apply_ite State.self, apply_ite State.ctxs, apply_ite State.timing,
      apply_ite State.chans, apply_ite State.portLast, apply_ite State.pending]

@[simp] theorem State.sweepTake_frame (u : UnitId) (out : UnitOutcome) (s : State) :
    (s.sweepTake u out).port = s.port ∧ (s.sweepTake u out).clock = s.clock ∧ (s.sweepTake u out).mem = s.mem ∧
    (s.sweepTake u out).orders = s.orders ∧ (s.sweepTake u out).self = s.self ∧ (s.sweepTake u out).pool = s.pool ∧
    (s.sweepTake u out).ctxs = s.ctxs ∧ (s.sweepTake u out).timing = s.timing ∧ (s.sweepTake u out).chans = s.chans ∧
    (s.sweepTake u out).portLast = s.portLast ∧ (s.sweepTake u out).pending = s.pending := by
  unfold State.sweepTake
  split <;> simp

@[simp] theorem State.skipPending_frame (u : UnitId) (s : State) :
    (s.skipPending u).port = s.port ∧ (s.skipPending u).clock = s.clock ∧ (s.skipPending u).mem = s.mem ∧
    (s.skipPending u).orders = s.orders ∧ (s.skipPending u).self = s.self ∧ (s.skipPending u).pool = s.pool ∧
    (s.skipPending u).ctxs = s.ctxs ∧ (s.skipPending u).timing = s.timing ∧ (s.skipPending u).chans = s.chans ∧
    (s.skipPending u).portLast = s.portLast ∧ (s.skipPending u).pending = s.pending := by
  unfold State.skipPending
  split <;> simp

@[simp] theorem State.offerDelist_frame (u : UnitId) (s : State) :
    (s.offerDelist u).port = s.port ∧ (s.offerDelist u).clock = s.clock ∧ (s.offerDelist u).mem = s.mem ∧
    (s.offerDelist u).orders = s.orders ∧ (s.offerDelist u).self = s.self ∧ (s.offerDelist u).ctxs = s.ctxs ∧
    (s.offerDelist u).timing = s.timing ∧ (s.offerDelist u).chans = s.chans ∧
    (s.offerDelist u).portLast = s.portLast ∧ (s.offerDelist u).pending = s.pending := by
  unfold State.offerDelist
  (repeat' split) <;> simp

/-! ### Contexts -/

@[simp] theorem State.sendFrame_frame (k : CtxId) (kind : TxKind) (s : State) :
    (s.sendFrame k kind).port = s.port ∧ (s.sendFrame k kind).clock = s.clock ∧ (s.sendFrame k kind).mem = s.mem ∧
    (s.sendFrame k kind).orders = s.orders ∧ (s.sendFrame k kind).sweep = s.sweep ∧ (s.sendFrame k kind).dir = s.dir ∧
    (s.sendFrame k kind).self = s.self ∧ (s.sendFrame k kind).pool = s.pool ∧ (s.sendFrame k kind).timing = s.timing ∧
    (s.sendFrame k kind).portLast = s.portLast ∧ (s.sendFrame k kind).pending = s.pending := by simp [State.sendFrame]

@[simp] theorem State.placeGranted_frame (k : CtxId) (s : State) :
    (s.placeGranted k).port = s.port ∧ (s.placeGranted k).clock = s.clock ∧ (s.placeGranted k).mem = s.mem ∧
    (s.placeGranted k).orders = s.orders ∧ (s.placeGranted k).sweep = s.sweep ∧ (s.placeGranted k).dir = s.dir ∧
    (s.placeGranted k).self = s.self ∧ (s.placeGranted k).pool = s.pool ∧ (s.placeGranted k).timing = s.timing ∧
    (s.placeGranted k).portLast = s.portLast ∧ (s.placeGranted k).pending = s.pending := by simp [State.placeGranted]

@[simp] theorem State.serveLine_frame (ch : ChanId) (n : Nat) (s : State) :
    (s.serveLine ch n).port = s.port ∧ (s.serveLine ch n).clock = s.clock ∧ (s.serveLine ch n).mem = s.mem ∧
    (s.serveLine ch n).orders = s.orders ∧ (s.serveLine ch n).sweep = s.sweep ∧ (s.serveLine ch n).dir = s.dir ∧
    (s.serveLine ch n).self = s.self ∧ (s.serveLine ch n).pool = s.pool ∧ (s.serveLine ch n).timing = s.timing ∧
    (s.serveLine ch n).portLast = s.portLast ∧ (s.serveLine ch n).pending = s.pending := by
  induction n generalizing s with
  | zero => simp [State.serveLine]
  | succ n ih =>
    unfold State.serveLine
    (repeat' split) <;> simp [ih, State.updPacer]

@[simp] theorem State.serve_frame (ch : ChanId) (s : State) :
    (s.serve ch).port = s.port ∧ (s.serve ch).clock = s.clock ∧ (s.serve ch).mem = s.mem ∧
    (s.serve ch).orders = s.orders ∧ (s.serve ch).sweep = s.sweep ∧ (s.serve ch).dir = s.dir ∧
    (s.serve ch).self = s.self ∧ (s.serve ch).pool = s.pool ∧ (s.serve ch).timing = s.timing ∧
    (s.serve ch).portLast = s.portLast ∧ (s.serve ch).pending = s.pending := by simp [State.serve]

@[simp] theorem State.joinLine_frame (k : CtxId) (need : Nat) (s : State) :
    (s.joinLine k need).port = s.port ∧ (s.joinLine k need).clock = s.clock ∧ (s.joinLine k need).mem = s.mem ∧
    (s.joinLine k need).orders = s.orders ∧ (s.joinLine k need).sweep = s.sweep ∧ (s.joinLine k need).dir = s.dir ∧
    (s.joinLine k need).self = s.self ∧ (s.joinLine k need).pool = s.pool ∧ (s.joinLine k need).timing = s.timing ∧
    (s.joinLine k need).portLast = s.portLast ∧ (s.joinLine k need).pending = s.pending := by
  unfold State.joinLine
  dsimp only
  split <;> simp [State.updPacer]

@[simp] theorem State.quitLine_frame (k : CtxId) (s : State) :
    (s.quitLine k).port = s.port ∧ (s.quitLine k).clock = s.clock ∧ (s.quitLine k).mem = s.mem ∧
    (s.quitLine k).orders = s.orders ∧ (s.quitLine k).sweep = s.sweep ∧ (s.quitLine k).dir = s.dir ∧
    (s.quitLine k).self = s.self ∧ (s.quitLine k).pool = s.pool ∧ (s.quitLine k).timing = s.timing ∧
    (s.quitLine k).portLast = s.portLast ∧ (s.quitLine k).pending = s.pending := by
  unfold State.quitLine
  dsimp only
  split <;> simp [State.updPacer]

@[simp] theorem State.leaveLine_frame (k : CtxId) (s : State) :
    (s.leaveLine k).port = s.port ∧ (s.leaveLine k).clock = s.clock ∧ (s.leaveLine k).mem = s.mem ∧
    (s.leaveLine k).orders = s.orders ∧ (s.leaveLine k).sweep = s.sweep ∧ (s.leaveLine k).dir = s.dir ∧
    (s.leaveLine k).self = s.self ∧ (s.leaveLine k).pool = s.pool ∧ (s.leaveLine k).timing = s.timing ∧
    (s.leaveLine k).portLast = s.portLast ∧ (s.leaveLine k).pending = s.pending := by
  unfold State.leaveLine
  dsimp only
  split <;> simp

@[simp] theorem State.withdrawFrame_frame (k : CtxId) (s : State) :
    (s.withdrawFrame k).port = s.port ∧ (s.withdrawFrame k).clock = s.clock ∧ (s.withdrawFrame k).mem = s.mem ∧
    (s.withdrawFrame k).orders = s.orders ∧ (s.withdrawFrame k).sweep = s.sweep ∧ (s.withdrawFrame k).dir = s.dir ∧
    (s.withdrawFrame k).self = s.self ∧ (s.withdrawFrame k).pool = s.pool ∧ (s.withdrawFrame k).timing = s.timing ∧
    (s.withdrawFrame k).portLast = s.portLast ∧ (s.withdrawFrame k).pending = s.pending := by simp [State.withdrawFrame]

@[simp] theorem State.detach_frame (k : CtxId) (s : State) :
    (s.detach k).port = s.port ∧ (s.detach k).clock = s.clock ∧ (s.detach k).mem = s.mem ∧
    (s.detach k).orders = s.orders ∧ (s.detach k).sweep = s.sweep ∧ (s.detach k).dir = s.dir ∧
    (s.detach k).self = s.self ∧ (s.detach k).pool = s.pool ∧ (s.detach k).timing = s.timing ∧
    (s.detach k).portLast = s.portLast ∧ (s.detach k).pending = s.pending := by simp [State.detach]

@[simp] theorem State.freeContext_frame (k : CtxId) (s : State) :
    (s.freeContext k).port = s.port ∧ (s.freeContext k).clock = s.clock ∧ (s.freeContext k).mem = s.mem ∧
    (s.freeContext k).orders = s.orders ∧ (s.freeContext k).sweep = s.sweep ∧ (s.freeContext k).dir = s.dir ∧
    (s.freeContext k).self = s.self ∧ (s.freeContext k).pool = s.pool ∧ (s.freeContext k).timing = s.timing ∧
    (s.freeContext k).portLast = s.portLast ∧ (s.freeContext k).pending = s.pending := by simp [State.freeContext]

@[simp] theorem State.endRequestWith_frame (g : DirEntry → DirEntry) (u : UnitId) (out : UnitOutcome) (s : State) :
    (s.endRequestWith g u out).clock = s.clock ∧ (s.endRequestWith g u out).mem = s.mem ∧
    (s.endRequestWith g u out).orders = s.orders ∧ (s.endRequestWith g u out).sweep = s.sweep ∧
    (s.endRequestWith g u out).pool = s.pool ∧ (s.endRequestWith g u out).ctxs = s.ctxs ∧
    (s.endRequestWith g u out).timing = s.timing ∧ (s.endRequestWith g u out).chans = s.chans ∧
    (s.endRequestWith g u out).portLast = s.portLast ∧ (s.endRequestWith g u out).pending = s.pending := by simp [State.endRequestWith, apply_ite State.clock, apply_ite State.mem, apply_ite State.orders, apply_ite State.sweep,
      apply_ite State.pool, apply_ite State.ctxs, apply_ite State.timing, apply_ite State.chans,
      apply_ite State.portLast, apply_ite State.pending]

@[simp] theorem State.endRequest_frame (u : UnitId) (out : UnitOutcome) (s : State) :
    (s.endRequest u out).clock = s.clock ∧ (s.endRequest u out).mem = s.mem ∧ (s.endRequest u out).orders = s.orders ∧
    (s.endRequest u out).sweep = s.sweep ∧ (s.endRequest u out).pool = s.pool ∧ (s.endRequest u out).ctxs = s.ctxs ∧
    (s.endRequest u out).timing = s.timing ∧ (s.endRequest u out).chans = s.chans ∧
    (s.endRequest u out).portLast = s.portLast ∧ (s.endRequest u out).pending = s.pending := by simp [State.endRequest]

@[simp] theorem State.endReadAs_frame (g : DirEntry → DirEntry) (k : CtxId) (out told : UnitOutcome) (s : State) :
    (s.endReadAs g k out told).clock = s.clock ∧ (s.endReadAs g k out told).timing = s.timing ∧
    (s.endReadAs g k out told).portLast = s.portLast ∧ (s.endReadAs g k out told).pending = s.pending := by
  simp [State.endReadAs]

@[simp] theorem State.endReadWith_frame (g : DirEntry → DirEntry) (k : CtxId) (out : UnitOutcome) (s : State) :
    (s.endReadWith g k out).clock = s.clock ∧ (s.endReadWith g k out).timing = s.timing ∧
    (s.endReadWith g k out).portLast = s.portLast ∧ (s.endReadWith g k out).pending = s.pending := by simp [State.endReadWith]

@[simp] theorem State.endRead_frame (k : CtxId) (out : UnitOutcome) (s : State) :
    (s.endRead k out).clock = s.clock ∧ (s.endRead k out).timing = s.timing ∧
    (s.endRead k out).portLast = s.portLast ∧ (s.endRead k out).pending = s.pending := by simp [State.endRead]

@[simp] theorem State.endErase_frame (k : CtxId) (out : UnitOutcome) (s : State) :
    (s.endErase k out).clock = s.clock ∧ (s.endErase k out).self = s.self ∧ (s.endErase k out).timing = s.timing ∧
    (s.endErase k out).portLast = s.portLast ∧ (s.endErase k out).pending = s.pending := by simp [State.endErase]

@[simp] theorem State.endContext_frame (k : CtxId) (out : UnitOutcome) (s : State) :
    (s.endContext k out).clock = s.clock ∧ (s.endContext k out).timing = s.timing ∧
    (s.endContext k out).portLast = s.portLast ∧ (s.endContext k out).pending = s.pending := by
  unfold State.endContext
  split <;> simp

@[simp] theorem State.endCommitting_frame (k : CtxId) (out : UnitOutcome) (s : State) :
    (s.endCommitting k out).clock = s.clock ∧ (s.endCommitting k out).self = s.self ∧
    (s.endCommitting k out).timing = s.timing ∧ (s.endCommitting k out).portLast = s.portLast ∧
    (s.endCommitting k out).pending = s.pending := by
  unfold State.endCommitting
  dsimp only
  split <;> simp

@[simp] theorem State.stopContext_frame (k : CtxId) (s : State) :
    (s.stopContext k).clock = s.clock ∧ (s.stopContext k).timing = s.timing ∧
    (s.stopContext k).portLast = s.portLast ∧ (s.stopContext k).pending = s.pending := by
  unfold State.stopContext
  split <;> simp

@[simp] theorem State.loseStopped_frame (k : CtxId) (s : State) :
    (s.loseStopped k).clock = s.clock ∧ (s.loseStopped k).timing = s.timing ∧
    (s.loseStopped k).portLast = s.portLast ∧ (s.loseStopped k).pending = s.pending := by
  unfold State.loseStopped
  split <;> simp

@[simp] theorem State.loseContext_frame (ch : ChanId) (k : CtxId) (s : State) :
    (s.loseContext ch k).clock = s.clock ∧ (s.loseContext ch k).timing = s.timing ∧
    (s.loseContext ch k).portLast = s.portLast ∧ (s.loseContext ch k).pending = s.pending := by
  unfold State.loseContext
  (repeat' split) <;> simp

@[simp] theorem State.loseContexts_frame (ch : ChanId) (s : State) :
    (s.loseContexts ch).clock = s.clock ∧ (s.loseContexts ch).timing = s.timing ∧
    (s.loseContexts ch).portLast = s.portLast ∧ (s.loseContexts ch).pending = s.pending := by simp [State.loseContexts, forEach_keeps State.clock, forEach_keeps State.timing, forEach_keeps State.portLast,
      forEach_keeps State.pending]

@[simp] theorem State.clearWaits_frame (ch : ChanId) (s : State) :
    (s.clearWaits ch).port = s.port ∧ (s.clearWaits ch).clock = s.clock ∧ (s.clearWaits ch).mem = s.mem ∧
    (s.clearWaits ch).orders = s.orders ∧ (s.clearWaits ch).sweep = s.sweep ∧ (s.clearWaits ch).dir = s.dir ∧
    (s.clearWaits ch).self = s.self ∧ (s.clearWaits ch).pool = s.pool ∧ (s.clearWaits ch).timing = s.timing ∧
    (s.clearWaits ch).chans = s.chans ∧ (s.clearWaits ch).portLast = s.portLast ∧
    (s.clearWaits ch).pending = s.pending := by
  unfold State.clearWaits
  refine ⟨?_, ?_, ?_, ?_, ?_, ?_, ?_, ?_, ?_, ?_, ?_,
      ?_⟩ <;> (refine forEach_keeps _ _ (fun a t => ?_) _ _) <;> (split <;> simp)

@[simp] theorem State.restart_frame (k : CtxId) (s : State) :
    (s.restart k).clock = s.clock ∧ (s.restart k).timing = s.timing ∧ (s.restart k).portLast = s.portLast ∧
    (s.restart k).pending = s.pending := by
  unfold State.restart
  dsimp only
  split <;> simp

@[simp] theorem State.startMending_frame (k : CtxId) (round : Nat) (s : State) :
    (s.startMending k round).port = s.port ∧ (s.startMending k round).clock = s.clock ∧
    (s.startMending k round).mem = s.mem ∧ (s.startMending k round).orders = s.orders ∧
    (s.startMending k round).sweep = s.sweep ∧ (s.startMending k round).dir = s.dir ∧
    (s.startMending k round).self = s.self ∧ (s.startMending k round).pool = s.pool ∧
    (s.startMending k round).timing = s.timing ∧ (s.startMending k round).portLast = s.portLast ∧
    (s.startMending k round).pending = s.pending := by
  unfold State.startMending
  dsimp only
  split <;> simp

@[simp] theorem State.offerCommit_frame (k : CtxId) (s : State) :
    (s.offerCommit k).port = s.port ∧ (s.offerCommit k).clock = s.clock ∧ (s.offerCommit k).mem = s.mem ∧
    (s.offerCommit k).orders = s.orders ∧ (s.offerCommit k).dir = s.dir ∧ (s.offerCommit k).self = s.self ∧
    (s.offerCommit k).timing = s.timing ∧ (s.offerCommit k).chans = s.chans ∧
    (s.offerCommit k).portLast = s.portLast ∧ (s.offerCommit k).pending = s.pending := by simp [State.offerCommit]

@[simp] theorem State.completionTest_frame (k : CtxId) (s : State) :
    (s.completionTest k).clock = s.clock ∧ (s.completionTest k).timing = s.timing ∧
    (s.completionTest k).portLast = s.portLast ∧ (s.completionTest k).pending = s.pending := by simp [State.completionTest, apply_ite State.clock, apply_ite State.timing, apply_ite State.portLast, apply_ite State.pending]

@[simp] theorem State.markMalformed_frame (k : CtxId) (s : State) :
    (s.markMalformed k).port = s.port ∧ (s.markMalformed k).clock = s.clock ∧ (s.markMalformed k).mem = s.mem ∧
    (s.markMalformed k).orders = s.orders ∧ (s.markMalformed k).sweep = s.sweep ∧ (s.markMalformed k).self = s.self ∧
    (s.markMalformed k).pool = s.pool ∧ (s.markMalformed k).ctxs = s.ctxs ∧ (s.markMalformed k).timing = s.timing ∧
    (s.markMalformed k).chans = s.chans ∧ (s.markMalformed k).portLast = s.portLast ∧
    (s.markMalformed k).pending = s.pending := by simp [State.markMalformed]

/-! ### Sweeps and the settling of an event -/

@[simp] theorem State.markUnit_frame (mask : BitVec 4) (u : UnitId) (s : State) :
    (s.markUnit mask u).port = s.port ∧ (s.markUnit mask u).clock = s.clock ∧ (s.markUnit mask u).mem = s.mem ∧
    (s.markUnit mask u).orders = s.orders ∧ (s.markUnit mask u).self = s.self ∧ (s.markUnit mask u).pool = s.pool ∧
    (s.markUnit mask u).ctxs = s.ctxs ∧ (s.markUnit mask u).timing = s.timing ∧ (s.markUnit mask u).chans = s.chans ∧
    (s.markUnit mask u).portLast = s.portLast ∧ (s.markUnit mask u).pending = s.pending := by
  unfold State.markUnit
  dsimp only
  split <;> simp

@[simp] theorem State.wakeChannel_frame (ch : ChanId) (s : State) :
    (s.wakeChannel ch).port = s.port ∧ (s.wakeChannel ch).clock = s.clock ∧ (s.wakeChannel ch).mem = s.mem ∧
    (s.wakeChannel ch).orders = s.orders ∧ (s.wakeChannel ch).sweep = s.sweep ∧ (s.wakeChannel ch).dir = s.dir ∧
    (s.wakeChannel ch).self = s.self ∧ (s.wakeChannel ch).pool = s.pool ∧ (s.wakeChannel ch).ctxs = s.ctxs ∧
    (s.wakeChannel ch).timing = s.timing ∧ (s.wakeChannel ch).portLast = s.portLast ∧
    (s.wakeChannel ch).pending = s.pending := by
  unfold State.wakeChannel
  split <;> simp

@[simp] theorem State.startSweep_frame (origin : SweepOrigin) (mask : BitVec 4) (budget : Nat) (s : State) :
    (s.startSweep origin mask budget).port = s.port ∧ (s.startSweep origin mask budget).clock = s.clock ∧
    (s.startSweep origin mask budget).mem = s.mem ∧ (s.startSweep origin mask budget).orders = s.orders ∧
    (s.startSweep origin mask budget).self = s.self ∧ (s.startSweep origin mask budget).ctxs = s.ctxs ∧
    (s.startSweep origin mask budget).timing = s.timing ∧ (s.startSweep origin mask budget).portLast = s.portLast ∧
    (s.startSweep origin mask budget).pending = s.pending := by
  unfold State.startSweep
  refine ⟨?_, ?_, ?_, ?_, ?_, ?_, ?_, ?_, ?_⟩ <;> simp [forEach_keeps State.port, forEach_keeps State.clock,
      forEach_keeps State.mem, forEach_keeps State.orders, forEach_keeps State.self, forEach_keeps State.ctxs,
      forEach_keeps State.timing, forEach_keeps State.portLast, forEach_keeps State.pending, apply_ite State.port,
      apply_ite State.clock, apply_ite State.mem, apply_ite State.orders, apply_ite State.self,
      apply_ite State.ctxs, apply_ite State.timing, apply_ite State.portLast, apply_ite State.pending]

@[simp] theorem State.withdrawHeld_frame (u : UnitId) (s : State) :
    (s.withdrawHeld u).clock = s.clock ∧ (s.withdrawHeld u).mem = s.mem ∧ (s.withdrawHeld u).orders = s.orders ∧
    (s.withdrawHeld u).sweep = s.sweep ∧ (s.withdrawHeld u).pool = s.pool ∧ (s.withdrawHeld u).ctxs = s.ctxs ∧
    (s.withdrawHeld u).timing = s.timing ∧ (s.withdrawHeld u).chans = s.chans ∧
    (s.withdrawHeld u).portLast = s.portLast ∧ (s.withdrawHeld u).pending = s.pending := by
  unfold State.withdrawHeld
  split <;> simp

@[simp] theorem State.drainUnit_frame (u : UnitId) (s : State) :
    (s.drainUnit u).clock = s.clock ∧ (s.drainUnit u).mem = s.mem ∧ (s.drainUnit u).orders = s.orders ∧
    (s.drainUnit u).pool = s.pool ∧ (s.drainUnit u).ctxs = s.ctxs ∧ (s.drainUnit u).timing = s.timing ∧
    (s.drainUnit u).chans = s.chans ∧ (s.drainUnit u).portLast = s.portLast ∧ (s.drainUnit u).pending = s.pending := by
  unfold State.drainUnit
  split <;> simp

@[simp] theorem State.stopSweep_frame (s : State) :
    (s.stopSweep).clock = s.clock ∧ (s.stopSweep).timing = s.timing ∧ (s.stopSweep).portLast = s.portLast ∧
    (s.stopSweep).pending = s.pending := by
  unfold State.stopSweep
  refine ⟨?_, ?_, ?_, ?_⟩ <;> simp [forEach_keeps State.clock, forEach_keeps State.timing,
      forEach_keeps State.portLast, forEach_keeps State.pending]

@[simp] theorem State.enterDraining_frame (out : SweepOutcome) (s : State) :
    (s.enterDraining out).clock = s.clock ∧ (s.enterDraining out).timing = s.timing ∧
    (s.enterDraining out).portLast = s.portLast ∧ (s.enterDraining out).pending = s.pending := by
  unfold State.enterDraining
  refine ⟨?_, ?_, ?_, ?_⟩ <;> (split <;> simp [forEach_keeps State.clock, forEach_keeps State.timing,
      forEach_keeps State.portLast, forEach_keeps State.pending])

@[simp] theorem State.handToOrder_frame (s : State) :
    (s.handToOrder).port = s.port ∧ (s.handToOrder).clock = s.clock ∧ (s.handToOrder).mem = s.mem ∧
    (s.handToOrder).sweep = s.sweep ∧ (s.handToOrder).dir = s.dir ∧ (s.handToOrder).self = s.self ∧
    (s.handToOrder).pool = s.pool ∧ (s.handToOrder).ctxs = s.ctxs ∧ (s.handToOrder).timing = s.timing ∧
    (s.handToOrder).chans = s.chans ∧ (s.handToOrder).portLast = s.portLast ∧ (s.handToOrder).pending = s.pending := by
  unfold State.handToOrder
  (repeat' split) <;> simp

@[simp] theorem State.finishSweep_frame (s : State) :
    (s.finishSweep).port = s.port ∧ (s.finishSweep).clock = s.clock ∧ (s.finishSweep).mem = s.mem ∧
    (s.finishSweep).self = s.self ∧ (s.finishSweep).ctxs = s.ctxs ∧ (s.finishSweep).timing = s.timing ∧
    (s.finishSweep).portLast = s.portLast ∧ (s.finishSweep).pending = s.pending := by
  unfold State.finishSweep
  dsimp only
  split <;> simp

@[simp] theorem State.sweepTest_frame (s : State) :
    (s.sweepTest).port = s.port ∧ (s.sweepTest).clock = s.clock ∧ (s.sweepTest).mem = s.mem ∧
    (s.sweepTest).self = s.self ∧ (s.sweepTest).ctxs = s.ctxs ∧ (s.sweepTest).timing = s.timing ∧
    (s.sweepTest).portLast = s.portLast ∧ (s.sweepTest).pending = s.pending := by
  unfold State.sweepTest
  split <;> simp

@[simp] theorem State.completeSweepOrder_frame (ed : Edition) (n : SlotId) (s : State) :
    (s.completeSweepOrder ed n).clock = s.clock ∧ (s.completeSweepOrder ed n).sweep = s.sweep ∧
    (s.completeSweepOrder ed n).dir = s.dir ∧ (s.completeSweepOrder ed n).self = s.self ∧
    (s.completeSweepOrder ed n).pool = s.pool ∧ (s.completeSweepOrder ed n).ctxs = s.ctxs ∧
    (s.completeSweepOrder ed n).timing = s.timing ∧ (s.completeSweepOrder ed n).chans = s.chans ∧
    (s.completeSweepOrder ed n).portLast = s.portLast ∧ (s.completeSweepOrder ed n).pending = s.pending := by
  unfold State.completeSweepOrder
  (repeat' split) <;> simp

@[simp] theorem State.closeEdition_frame (s : State) :
    (s.closeEdition).clock = s.clock ∧ (s.closeEdition).dir = s.dir ∧ (s.closeEdition).self = s.self ∧
    (s.closeEdition).pool = s.pool ∧ (s.closeEdition).ctxs = s.ctxs ∧ (s.closeEdition).timing = s.timing ∧
    (s.closeEdition).chans = s.chans ∧ (s.closeEdition).portLast = s.portLast ∧ (s.closeEdition).pending = s.pending := by simp [State.closeEdition, forEach_keeps State.clock, forEach_keeps State.dir, forEach_keeps State.self,
      forEach_keeps State.pool, forEach_keeps State.ctxs, forEach_keeps State.timing, forEach_keeps State.chans,
      forEach_keeps State.portLast, forEach_keeps State.pending]

@[simp] theorem State.closeTest_frame (s : State) :
    (s.closeTest).clock = s.clock ∧ (s.closeTest).dir = s.dir ∧ (s.closeTest).self = s.self ∧
    (s.closeTest).pool = s.pool ∧ (s.closeTest).ctxs = s.ctxs ∧ (s.closeTest).timing = s.timing ∧
    (s.closeTest).chans = s.chans ∧ (s.closeTest).portLast = s.portLast ∧ (s.closeTest).pending = s.pending := by
  unfold State.closeTest
  split <;> simp

@[simp] theorem State.assign_frame (k : CtxId) (u : UnitId) (p : Purpose) (s : State) :
    (s.assign k u p).port = s.port ∧ (s.assign k u p).clock = s.clock ∧ (s.assign k u p).mem = s.mem ∧
    (s.assign k u p).orders = s.orders ∧ (s.assign k u p).sweep = s.sweep ∧ (s.assign k u p).self = s.self ∧
    (s.assign k u p).pool = s.pool ∧ (s.assign k u p).timing = s.timing ∧ (s.assign k u p).portLast = s.portLast ∧
    (s.assign k u p).pending = s.pending := by simp [State.assign]

@[simp] theorem State.allocate_frame (n : Nat) (s : State) :
    (s.allocate n).port = s.port ∧ (s.allocate n).clock = s.clock ∧ (s.allocate n).mem = s.mem ∧
    (s.allocate n).orders = s.orders ∧ (s.allocate n).sweep = s.sweep ∧ (s.allocate n).self = s.self ∧
    (s.allocate n).pool = s.pool ∧ (s.allocate n).timing = s.timing ∧ (s.allocate n).portLast = s.portLast ∧
    (s.allocate n).pending = s.pending := by
  induction n generalizing s with
  | zero => simp [State.allocate]
  | succ n ih =>
    unfold State.allocate
    (repeat' split) <;> simp [ih]

@[simp] theorem State.settle_frame (s : State) :
    (s.settle).clock = s.clock ∧ (s.settle).self = s.self ∧ (s.settle).timing = s.timing ∧
    (s.settle).portLast = s.portLast ∧ (s.settle).pending = s.pending := by simp [State.settle]

/-! ### Order table -/

@[simp] theorem State.doneNow_frame (n : SlotId) (w0 w1 w2 w3 : Word) (s : State) :
    (s.doneNow n w0 w1 w2 w3).clock = s.clock ∧ (s.doneNow n w0 w1 w2 w3).sweep = s.sweep ∧
    (s.doneNow n w0 w1 w2 w3).dir = s.dir ∧ (s.doneNow n w0 w1 w2 w3).self = s.self ∧
    (s.doneNow n w0 w1 w2 w3).pool = s.pool ∧ (s.doneNow n w0 w1 w2 w3).ctxs = s.ctxs ∧
    (s.doneNow n w0 w1 w2 w3).timing = s.timing ∧ (s.doneNow n w0 w1 w2 w3).chans = s.chans ∧
    (s.doneNow n w0 w1 w2 w3).portLast = s.portLast ∧ (s.doneNow n w0 w1 w2 w3).pending = s.pending := by simp [State.doneNow]

@[simp] theorem State.clearStart_frame (s : State) :
    (s.clearStart).clock = s.clock ∧ (s.clearStart).mem = s.mem ∧ (s.clearStart).sweep = s.sweep ∧
    (s.clearStart).dir = s.dir ∧ (s.clearStart).self = s.self ∧ (s.clearStart).pool = s.pool ∧
    (s.clearStart).ctxs = s.ctxs ∧ (s.clearStart).timing = s.timing ∧ (s.clearStart).chans = s.chans ∧
    (s.clearStart).portLast = s.portLast ∧ (s.clearStart).pending = s.pending := by simp [State.clearStart]

@[simp] theorem State.loseHeld_frame (ch : ChanId) (u : UnitId) (s : State) :
    (s.loseHeld ch u).clock = s.clock ∧ (s.loseHeld ch u).mem = s.mem ∧ (s.loseHeld ch u).orders = s.orders ∧
    (s.loseHeld ch u).sweep = s.sweep ∧ (s.loseHeld ch u).pool = s.pool ∧ (s.loseHeld ch u).ctxs = s.ctxs ∧
    (s.loseHeld ch u).timing = s.timing ∧ (s.loseHeld ch u).chans = s.chans ∧
    (s.loseHeld ch u).portLast = s.portLast ∧ (s.loseHeld ch u).pending = s.pending := by
  unfold State.loseHeld
  split <;> simp

@[simp] theorem State.setChannelOff_frame (ch : ChanId) (v : ChanSettings) (s : State) :
    (s.setChannelOff ch v).clock = s.clock ∧ (s.setChannelOff ch v).timing = s.timing ∧
    (s.setChannelOff ch v).portLast = s.portLast ∧ (s.setChannelOff ch v).pending = s.pending := by simp [State.setChannelOff, forEach_keeps State.clock, forEach_keeps State.timing, forEach_keeps State.portLast,
      forEach_keeps State.pending]

@[simp] theorem State.setChannelRate_frame (ch : ChanId) (v : ChanSettings) (s : State) :
    (s.setChannelRate ch v).port = s.port ∧ (s.setChannelRate ch v).clock = s.clock ∧
    (s.setChannelRate ch v).mem = s.mem ∧ (s.setChannelRate ch v).orders = s.orders ∧
    (s.setChannelRate ch v).sweep = s.sweep ∧ (s.setChannelRate ch v).dir = s.dir ∧
    (s.setChannelRate ch v).self = s.self ∧ (s.setChannelRate ch v).pool = s.pool ∧
    (s.setChannelRate ch v).ctxs = s.ctxs ∧ (s.setChannelRate ch v).timing = s.timing ∧
    (s.setChannelRate ch v).portLast = s.portLast ∧ (s.setChannelRate ch v).pending = s.pending := by simp [State.setChannelRate]

@[simp] theorem State.applySetChannel_frame (ch : ChanId) (v : ChanSettings) (s : State) :
    (s.applySetChannel ch v).clock = s.clock ∧ (s.applySetChannel ch v).timing = s.timing ∧
    (s.applySetChannel ch v).portLast = s.portLast ∧ (s.applySetChannel ch v).pending = s.pending := by simp [State.applySetChannel, apply_ite State.clock, apply_ite State.timing, apply_ite State.portLast, apply_ite State.pending]

@[simp] theorem State.joinRead_frame (n : SlotId) (u : UnitId) (s : State) :
    (s.joinRead n u).port = s.port ∧ (s.joinRead n u).clock = s.clock ∧ (s.joinRead n u).mem = s.mem ∧
    (s.joinRead n u).orders = s.orders ∧ (s.joinRead n u).sweep = s.sweep ∧ (s.joinRead n u).dir = s.dir ∧
    (s.joinRead n u).self = s.self ∧ (s.joinRead n u).pool = s.pool ∧ (s.joinRead n u).timing = s.timing ∧
    (s.joinRead n u).chans = s.chans ∧ (s.joinRead n u).portLast = s.portLast ∧ (s.joinRead n u).pending = s.pending := by
  unfold State.joinRead
  (repeat' split) <;> simp

@[simp] theorem State.takeRead_frame (n : SlotId) (u : UnitId) (s : State) :
    (s.takeRead n u).port = s.port ∧ (s.takeRead n u).clock = s.clock ∧ (s.takeRead n u).dir = s.dir ∧
    (s.takeRead n u).self = s.self ∧ (s.takeRead n u).timing = s.timing ∧ (s.takeRead n u).chans = s.chans ∧
    (s.takeRead n u).portLast = s.portLast ∧ (s.takeRead n u).pending = s.pending := by
  unfold State.takeRead
  split <;> simp

@[simp] theorem State.takeErase_frame (n : SlotId) (u : UnitId) (s : State) :
    (s.takeErase n u).port = s.port ∧ (s.takeErase n u).clock = s.clock ∧ (s.takeErase n u).dir = s.dir ∧
    (s.takeErase n u).ctxs = s.ctxs ∧ (s.takeErase n u).timing = s.timing ∧ (s.takeErase n u).chans = s.chans ∧
    (s.takeErase n u).portLast = s.portLast ∧ (s.takeErase n u).pending = s.pending := by
  unfold State.takeErase
  split <;> simp

@[simp] theorem State.endWaiting_frame (u : UnitId) (wasHeld : Bool) (s : State) :
    (s.endWaiting u wasHeld).clock = s.clock ∧ (s.endWaiting u wasHeld).pool = s.pool ∧
    (s.endWaiting u wasHeld).ctxs = s.ctxs ∧ (s.endWaiting u wasHeld).timing = s.timing ∧
    (s.endWaiting u wasHeld).chans = s.chans ∧ (s.endWaiting u wasHeld).portLast = s.portLast ∧
    (s.endWaiting u wasHeld).pending = s.pending := by
  unfold State.endWaiting
  dsimp only
  (repeat' split) <;> simp

@[simp] theorem State.takeDelist_frame (n : SlotId) (u : UnitId) (s : State) :
    (s.takeDelist n u).clock = s.clock ∧ (s.takeDelist n u).timing = s.timing ∧
    (s.takeDelist n u).portLast = s.portLast ∧ (s.takeDelist n u).pending = s.pending := by
  unfold State.takeDelist
  dsimp only
  (repeat' split) <;> simp

@[simp] theorem State.takeSweep_frame (n : SlotId) (mask : BitVec 4) (budget : Nat) (s : State) :
    (s.takeSweep n mask budget).port = s.port ∧ (s.takeSweep n mask budget).clock = s.clock ∧
    (s.takeSweep n mask budget).self = s.self ∧ (s.takeSweep n mask budget).ctxs = s.ctxs ∧
    (s.takeSweep n mask budget).timing = s.timing ∧ (s.takeSweep n mask budget).portLast = s.portLast ∧
    (s.takeSweep n mask budget).pending = s.pending := by simp [State.takeSweep]

@[simp] theorem State.freezeCtx_frame (k : CtxId) (s : State) :
    (s.freezeCtx k).port = s.port ∧ (s.freezeCtx k).clock = s.clock ∧ (s.freezeCtx k).mem = s.mem ∧
    (s.freezeCtx k).orders = s.orders ∧ (s.freezeCtx k).sweep = s.sweep ∧ (s.freezeCtx k).dir = s.dir ∧
    (s.freezeCtx k).self = s.self ∧ (s.freezeCtx k).pool = s.pool ∧ (s.freezeCtx k).timing = s.timing ∧
    (s.freezeCtx k).portLast = s.portLast ∧ (s.freezeCtx k).pending = s.pending := by simp [State.freezeCtx, apply_ite State.port, apply_ite State.clock, apply_ite State.mem, apply_ite State.orders,
      apply_ite State.sweep, apply_ite State.dir, apply_ite State.self, apply_ite State.pool,
      apply_ite State.timing, apply_ite State.portLast, apply_ite State.pending]

@[simp] theorem State.takeReset_frame (n : SlotId) (s : State) :
    (s.takeReset n).port = s.port ∧ (s.takeReset n).clock = s.clock ∧ (s.takeReset n).dir = s.dir ∧
    (s.takeReset n).self = s.self ∧ (s.takeReset n).pool = s.pool ∧ (s.takeReset n).timing = s.timing ∧
    (s.takeReset n).portLast = s.portLast ∧ (s.takeReset n).pending = s.pending := by simp [State.takeReset, forEach_keeps State.port, forEach_keeps State.clock, forEach_keeps State.dir,
      forEach_keeps State.self, forEach_keeps State.pool, forEach_keeps State.timing, forEach_keeps State.portLast,
      forEach_keeps State.pending]

@[simp] theorem State.take_frame (n : SlotId) (o : Order) (s : State) :
    (s.take n o).clock = s.clock ∧ (s.take n o).portLast = s.portLast ∧ (s.take n o).pending = s.pending := by
  cases o <;> simp [State.take, State.applySchedule]

end Sys2Proof.Machine
end

