-- ==== Sys2Proof/Laws/Event.lean ====
section
/-! SUPPORT. What the end of an event does to each block, and the algebra of `Rest`. -/

namespace Sys2Proof.Machine

/-! ### Sameness up to the revision -/

theorem Context.same_refl (c : Context) : c.same c := rfl

theorem Context.same_trans {c d e : Context} (h1 : c.same d) (h2 : d.same e) : c.same e := by
  unfold Context.same at *
  rw [← h2, ← h1]

theorem Context.same_symm {c d : Context} (h : c.same d) : d.same c := by
  unfold Context.same at *
  rw [← h]

/-- Whatever is read from a context beside its revision is read alike from one that is the same. -/
theorem Context.same_congr {α : Sort _} {c d : Context} (h : c.same d) (g : Context → α)
    (hg : ∀ (x : Context) r, g { x with revision := r } = g x) : g c = g d := by
  rw [← hg c d.revision]
  exact congrArg g h

theorem Context.same_state {c d : Context} (h : c.same d) : c.state = d.state :=
  Context.same_congr h (·.state) fun _ _ => rfl

theorem Channel.same_congr {α : Sort _} {c d : Channel} (h : c.same d) (g : Channel → α)
    (hg : ∀ (x : Channel) r, g { x with revision := r } = g x) : g c = g d := by
  rw [← hg c d.revision]
  exact congrArg g h

theorem SweepCtl.same_congr {α : Sort _} {c d : SweepCtl} (h : c.same d) (g : SweepCtl → α)
    (hg : ∀ (x : SweepCtl) r, g { x with revision := r } = g x) : g c = g d := by
  rw [← hg c d.revision]
  exact congrArg g h

/-! ### The stamp of an event -/

variable (s0 s1 : State)

@[simp] theorem State.stamp_clock : (State.stamp s0 s1).clock = s1.clock := rfl
@[simp] theorem State.stamp_mem : (State.stamp s0 s1).mem = s1.mem := rfl
@[simp] theorem State.stamp_orders : (State.stamp s0 s1).orders = s1.orders := rfl
@[simp] theorem State.stamp_dir : (State.stamp s0 s1).dir = s1.dir := rfl
@[simp] theorem State.stamp_self : (State.stamp s0 s1).self = s1.self := rfl
@[simp] theorem State.stamp_pool : (State.stamp s0 s1).pool = s1.pool := rfl
@[simp] theorem State.stamp_timing : (State.stamp s0 s1).timing = s1.timing := rfl
@[simp] theorem State.stamp_portLast : (State.stamp s0 s1).portLast = s1.portLast := rfl
@[simp] theorem State.stamp_pending : (State.stamp s0 s1).pending = s1.pending := rfl
@[simp] theorem State.stamp_port :
    (State.stamp s0 s1).port = { s1.port with attnLow := attnDriven s1.port } := rfl
@[simp] theorem State.stamp_sweep : (State.stamp s0 s1).sweep = stampSweep s0.sweep s1.sweep := rfl

@[simp] theorem State.stamp_ctx (k : CtxId) : (State.stamp s0 s1).ctxs[k] = State.stampCtx s0 s1 k := by
  simp [State.stamp]

@[simp] theorem State.stamp_chan (c : ChanId) :
    (State.stamp s0 s1).chans[c] = stampChan s0.chans[c] s1.chans[c] := by
  simp [State.stamp]

theorem State.stampCtx_same (k : CtxId) : (State.stampCtx s0 s1 k).same s1.ctxs[k] := by
  unfold State.stampCtx
  split <;> rfl

theorem stampChan_same (c d : Channel) : (stampChan c d).same d := by
  unfold stampChan
  split <;> rfl

theorem stampSweep_same (c d : SweepCtl) : (stampSweep c d).same d := by
  unfold stampSweep
  split <;> rfl

theorem State.stamp_ctx_same (k : CtxId) : (State.stamp s0 s1).ctxs[k].same s1.ctxs[k] := by
  rw [State.stamp_ctx]
  exact State.stampCtx_same s0 s1 k

theorem State.stamp_chan_same (c : ChanId) : (State.stamp s0 s1).chans[c].same s1.chans[c] := by
  rw [State.stamp_chan]
  exact stampChan_same _ _

theorem State.stamp_sweep_same : (State.stamp s0 s1).sweep.same s1.sweep := stampSweep_same _ _

/-- What is read from a context beside its revision is not touched by the stamp. -/
theorem State.stamp_ctx_congr {α : Sort _} (k : CtxId) (g : Context → α)
    (hg : ∀ (x : Context) r, g { x with revision := r } = g x) : g (State.stamp s0 s1).ctxs[k] = g s1.ctxs[k] :=
  Context.same_congr (State.stamp_ctx_same s0 s1 k) g hg

theorem State.stamp_chan_congr {α : Sort _} (c : ChanId) (g : Channel → α)
    (hg : ∀ (x : Channel) r, g { x with revision := r } = g x) : g (State.stamp s0 s1).chans[c] = g s1.chans[c] :=
  Channel.same_congr (State.stamp_chan_same s0 s1 c) g hg

theorem State.stamp_sweep_congr {α : Sort _} (g : SweepCtl → α)
    (hg : ∀ (x : SweepCtl) r, g { x with revision := r } = g x) : g (State.stamp s0 s1).sweep = g s1.sweep :=
  SweepCtl.same_congr (State.stamp_sweep_same s0 s1) g hg

/-! ### Unchanged blocks keep their revision -/

/-- A context whose view shows what it showed is not written. -/
theorem State.stampCtx_of_eq {s0 s1 : State} (k : CtxId) (h : s1.ctxView k = s0.ctxView k) :
    State.stampCtx s0 s1 k = s1.ctxs[k] := by
  unfold State.stampCtx
  rw [if_pos h]

/-- An event that leaves the contexts and the directory alone writes no context view. -/
theorem State.stamp_ctxs_of_eq {s0 s1 : State} (hc : s1.ctxs = s0.ctxs) (hd : s1.dir = s0.dir) :
    (State.stamp s0 s1).ctxs = s1.ctxs := by
  apply Vector.ext
  intro i hi
  have h := State.stamp_ctx s0 s1 ⟨i, hi⟩
  have hv : s1.ctxView ⟨i, hi⟩ = s0.ctxView ⟨i, hi⟩ := by
    cases s0
    cases s1
    cases hc
    cases hd
    rfl
  rw [State.stampCtx_of_eq _ hv] at h
  exact h

/-- An event that leaves the channels alone writes no channel status block. -/
theorem State.stamp_chans_of_eq {s0 s1 : State} (hc : s1.chans = s0.chans) : (State.stamp s0 s1).chans = s1.chans := by
  apply Vector.ext
  intro i hi
  have h := State.stamp_chan s0 s1 ⟨i, hi⟩
  rw [hc, stampChan, if_pos rfl] at h
  rw [hc]
  exact h

theorem State.stamp_sweep_of_eq {s0 s1 : State} (h : s1.sweep = s0.sweep) : (State.stamp s0 s1).sweep = s1.sweep := by
  rw [State.stamp_sweep, stampSweep, h, if_pos rfl]

/-! ### `Rest` -/

theorem Touch.sub_refl (d : Touch) : Rest d s0 s0 where
  timing := rfl
  pending := rfl
  port := rfl
  attention := BitVec.and_self
  store := rfl
  queue := List.prefix_rfl
  waiting := List.prefix_rfl
  ctxs _ _ _ := rfl
  links _ _ := rfl
  sending _ _ := List.prefix_rfl
  dir _ _ := rfl
  scan := rfl
  taken _ _ _ := rfl
  schedule _ := rfl
  counter := Nat.le_refl _
  closed := .inl rfl
  mem h := ⟨h, fun _ _ => rfl⟩

theorem Rest.refl (d : Touch) (s : State) : Rest d s s := Touch.sub_refl s d

/-- A slot that holds a SWEEP order afterwards is one that held it, or one touched. -/
theorem Rest.sweepSlot {d : Touch} {s t : State} (h : Rest d s t) (n : SlotId) (hn : t.sweepSlot n) :
    d.slots n ∨ s.sweepSlot n := by
  by_contra hc
  push Not at hc
  obtain ⟨x, m, b, hx, ho⟩ := hn
  rw [h.taken n hc.1 hc.2] at hx
  exact hc.2 ⟨x, m, b, hx, ho⟩

theorem and_trans6 {a b c : BitVec 6} (h1 : a &&& b = a) (h2 : b &&& c = b) : a &&& c = a := by
  rw [← h1, BitVec.and_assoc, h2]

theorem Rest.trans {d : Touch} {s t u : State} (h1 : Rest d s t) (h2 : Rest d t u) : Rest d s u where
  timing := h2.timing.trans h1.timing
  pending := h2.pending.trans h1.pending
  port := h2.port.trans h1.port
  attention := and_trans6 h1.attention h2.attention
  store := h2.store.trans h1.store
  queue := h1.queue.trans h2.queue
  waiting := h1.waiting.trans h2.waiting
  ctxs j hj hs := by
    have a := h1.ctxs j hj hs
    exact Context.same_trans (h2.ctxs j hj (by rw [Context.same_state a]; exact hs)) a
  links c hc := (h2.links c hc).trans (h1.links c hc)
  sending c hc := (h1.sending c hc).trans (h2.sending c hc)
  dir v hv := (h2.dir v hv).trans (h1.dir v hv)
  scan := h2.scan.trans h1.scan
  taken n hn hs := by
    rw [h2.taken n hn fun h => (h1.sweepSlot n h).elim hn hs, h1.taken n hn hs]
  schedule hs := (h2.schedule hs).trans (h1.schedule hs)
  counter := h1.counter.trans h2.counter
  closed := by
    rcases h2.closed with h | h
    · rcases h1.closed with g | g
      · exact .inl (h.trans g)
      · refine .inr ⟨(congrArg (·.2.2) h).trans g.1, ?_⟩
        refine BitVec.eq_of_getLsbD_eq fun i hi => ?_
        have e1 := congrArg (·.getLsbD i) g.2
        have e2 := congrArg (·.getLsbD i) h2.attention
        simp only [BitVec.getLsbD_and] at e1 e2 ⊢
        revert e1 e2
        cases t.port.attention.getLsbD i <;> cases u.port.attention.getLsbD i <;>
          cases AttnBit.editionClosed.bit.getLsbD i <;> simp
    · exact .inr h
  mem hm := by
    have a := h1.mem hm
    have b := h2.mem a.1
    refine ⟨b.1, fun x hx => ?_⟩
    rw [b.2 x fun n hn => ?_, a.2 x hx]
    rcases hn with hn | hn
    · exact hx n (.inl hn)
    · exact hx n (h1.sweepSlot n hn)

/-- What may be touched may be widened. -/
theorem Rest.mono {d e : Touch} {s t : State} (h : Rest d s t) (hc : ∀ j, d.ctxs j → e.ctxs j)
    (hq : ∀ c, d.chans c → e.chans c) (hu : ∀ v, d.units v → e.units v) (hn : ∀ n, d.slots n → e.slots n)
    (hs : d.schedule → e.schedule := by first | exact fun x => x | exact fun x => x.elim) : Rest e s t where
  timing := h.timing
  pending := h.pending
  port := h.port
  attention := h.attention
  store := h.store
  queue := h.queue
  waiting := h.waiting
  ctxs j hj := h.ctxs j fun x => hj (hc j x)
  links c hx := h.links c fun x => hx (hq c x)
  sending c hx := h.sending c fun x => hx (hq c x)
  dir v hv := h.dir v fun x => hv (hu v x)
  scan := h.scan
  taken n hx := h.taken n fun x => hx (hn n x)
  schedule hx := h.schedule fun x => hx (hs x)
  counter := h.counter
  closed := h.closed
  mem hm := by
    refine ⟨(h.mem hm).1, fun a ha => (h.mem hm).2 a fun n hx => ha n ?_⟩
    exact hx.elim (fun x => .inl (hn n x)) .inr

/-- What touches nothing may be followed by anything. -/
theorem Rest.widen {e : Touch} {s t : State} (h : Rest {} s t) : Rest e s t :=
  h.mono (fun _ x => x.elim) (fun _ x => x.elim) (fun _ x => x.elim) fun _ x => x.elim

/-- The stamp at the end of an event is follow-up work. -/
theorem Rest.stamp {d : Touch} {s t : State} (h : Rest d s t) (s0 : State) : Rest d s (State.stamp s0 t) where
  timing := h.timing
  pending := h.pending
  port := h.port
  attention := h.attention
  store := h.store
  queue := h.queue
  waiting := h.waiting
  ctxs j hj hs := Context.same_trans (State.stamp_ctx_same s0 t j) (h.ctxs j hj hs)
  links c hc := (State.stamp_chan_congr s0 t c (·.link) fun _ _ => rfl).trans (h.links c hc)
  sending c hc := by
    rw [State.stamp_chan_congr s0 t c (·.txQueue) fun _ _ => rfl]
    exact h.sending c hc
  dir := h.dir
  scan := h.scan
  taken := h.taken
  schedule hs := (State.stamp_sweep_congr s0 t (·.schedule) fun _ _ => rfl).trans (h.schedule hs)
  counter := by
    rw [State.stamp_sweep_congr s0 t (·.counter) fun _ _ => rfl]
    exact h.counter
  closed := by
    rw [State.stamp_sweep_congr s0 t (·.lastClose) fun _ _ => rfl, State.stamp_sweep_congr s0 t (·.closeCause) fun _ _ => rfl]
    exact h.closed
  mem := h.mem

end Sys2Proof.Machine
end

