-- ==== Sys2Proof/Laws/Memory.lean ====
section
/-! SUPPORT. Host-written exchange memory: the canonical form is kept, a read after a write gives the value written, and every
other byte reads as before. -/

namespace Sys2Proof.Machine

/-! ### The canonical form -/

theorem Memory.wfFrom_mono {lo lo' : Nat} (h : lo ≤ lo') : ∀ m : Memory, Memory.wfFrom lo' m → Memory.wfFrom lo m
  | [], _ => rfl
  | (k, b) :: rest, hm => by
    simp only [Memory.wfFrom, Bool.and_eq_true, decide_eq_true_eq] at hm ⊢
    exact ⟨⟨le_trans h hm.1.1, hm.1.2⟩, hm.2⟩

theorem Memory.wfFrom_write (a : Nat) (b : Byte) :
    ∀ (m : Memory) (lo : Nat), lo ≤ a → Memory.wfFrom lo m → Memory.wfFrom lo (Memory.write m a b)
  | [], lo, hlo, _ => by
    unfold Memory.write
    split
    · rfl
    · rename_i hb
      simp [Memory.wfFrom, hlo, hb]
  | (k, v) :: rest, lo, hlo, hm => by
    simp only [Memory.wfFrom, Bool.and_eq_true, decide_eq_true_eq, bne_iff_ne, ne_eq] at hm
    obtain ⟨⟨hk, hv⟩, hr⟩ := hm
    unfold Memory.write
    split
    · rename_i hak
      split
      · simp [Memory.wfFrom, hk, hv, hr]
      · rename_i hb
        simp [Memory.wfFrom, hlo, hb, hv, hr, Nat.succ_le_of_lt hak]
    · split
      · rename_i hak
        subst hak
        split
        · exact Memory.wfFrom_mono (Nat.le_succ_of_le hk) rest hr
        · rename_i hb
          simp [Memory.wfFrom, hk, hb, hr]
      · rename_i h1 h2
        have h3 : k + 1 ≤ a := by omega
        simp [Memory.wfFrom, hk, hv, Memory.wfFrom_write a b rest (k + 1) h3 hr]

/-- A byte write keeps the canonical form. -/
theorem Memory.wf_write {m : Memory} (h : m.wf) (a : Nat) (b : Byte) : (Memory.write m a b).wf :=
  Memory.wfFrom_write a b m 0 (Nat.zero_le a) h

/-- A word write keeps the canonical form. -/
theorem Memory.wf_writeWord {m : Memory} (h : m.wf) (a : Nat) (w : Word) : (Memory.writeWord m a w).wf :=
  Memory.wf_write (Memory.wf_write h _ _) _ _

/-! ### Reads -/

/-- Below its least address a canonical memory reads as unlisted. -/
theorem Memory.read_below : ∀ (m : Memory) (lo a : Nat), Memory.wfFrom lo m → a < lo → Memory.read m a = Memory.unlisted
  | [], _, _, _, _ => rfl
  | (k, b) :: rest, lo, a, hm, ha => by
    simp only [Memory.wfFrom, Bool.and_eq_true, decide_eq_true_eq] at hm
    have hk : ¬ k = a := by omega
    rw [Memory.read, if_neg hk]
    exact Memory.read_below rest (k + 1) a hm.2 (by omega)

theorem Memory.read_write_from (a : Nat) (b : Byte) (x : Nat) :
    ∀ (m : Memory) (lo : Nat), Memory.wfFrom lo m →
      Memory.read (Memory.write m a b) x = if x = a then b else Memory.read m x
  | [], _, _ => by
    unfold Memory.write
    by_cases hx : x = a
    · subst hx
      split
      · rename_i hb
        simp [Memory.read, hb]
      · simp [Memory.read]
    · split
      · simp [Memory.read]
      · simp [Memory.read, Ne.symm hx]
  | (k, v) :: rest, lo, hm => by
    have hm' := hm
    simp only [Memory.wfFrom, Bool.and_eq_true, decide_eq_true_eq] at hm
    have hr := hm.2
    unfold Memory.write
    split
    · rename_i hak
      have hka : ¬ k = a := by omega
      have hra : Memory.read rest a = Memory.unlisted := Memory.read_below rest (k + 1) a hr (by omega)
      by_cases hx : x = a
      · subst hx
        split
        · rename_i hb
          simp [Memory.read, hka, hra, hb]
        · simp [Memory.read]
      · split
        · simp
        · simp [Memory.read, Ne.symm hx]
    · split
      · rename_i _ hak
        subst hak
        by_cases hx : x = a
        · subst hx
          split
          · rename_i hb
            simp [Memory.read_below rest (x + 1) x hr (by omega), hb]
          · simp [Memory.read]
        · split
          · simp [Memory.read, Ne.symm hx]
          · simp [Memory.read, Ne.symm hx]
      · rename_i h1 h2
        have ih := Memory.read_write_from a b x rest (k + 1) hr
        by_cases hx : x = a
        · subst hx
          have : ¬ k = x := fun h => h2 h.symm
          simpa [Memory.read, this] using ih
        · by_cases hkx : k = x
          · simp [Memory.read, hkx, hx]
          · simpa [Memory.read, hkx, hx] using ih

/-- What a byte write leaves at every address. -/
theorem Memory.read_write {m : Memory} (h : m.wf) (a : Nat) (b : Byte) (x : Nat) :
    Memory.read (Memory.write m a b) x = if x = a then b else Memory.read m x :=
  Memory.read_write_from a b x m 0 h

/-- What a word write leaves at every byte: low byte first. -/
theorem Memory.read_writeWord {m : Memory} (h : m.wf) (a : Nat) (w : Word) (x : Nat) :
    Memory.read (Memory.writeWord m a w) x =
      if x = a + 1 then w.extractLsb' 8 8 else if x = a then w.extractLsb' 0 8 else Memory.read m x := by
  unfold Memory.writeWord
  rw [Memory.read_write (Memory.wf_write h _ _), Memory.read_write h]

/-- The word written is the word read. -/
theorem Memory.readWord_writeWord {m : Memory} (h : m.wf) (a : Nat) (w : Word) :
    Memory.readWord (Memory.writeWord m a w) a = w := by
  unfold Memory.readWord
  rw [Memory.read_writeWord h, Memory.read_writeWord h]
  rw [if_pos rfl, if_neg (by omega), if_pos rfl]
  ext i hi
  simp only [BitVec.getElem_append, BitVec.getElem_extractLsb']
  split
  · simp [BitVec.getLsbD_eq_getElem hi]
  · rename_i h8
    simp only [← BitVec.getLsbD_eq_getElem]
    congr 1
    omega

/-- A word that shares no byte with the word written reads as before. -/
theorem Memory.readWord_writeWord_of_ne {m : Memory} (h : m.wf) (a x : Nat) (w : Word) (h1 : x + 1 < a ∨ a + 1 < x) :
    Memory.readWord (Memory.writeWord m a w) x = Memory.readWord m x := by
  unfold Memory.readWord
  rw [Memory.read_writeWord h, Memory.read_writeWord h]
  rw [if_neg (by omega), if_neg (by omega), if_neg (by omega), if_neg (by omega)]

end Sys2Proof.Machine
end

