-- ==== Sys2Proof/Laws/Rest.lean ====
section
/-! SUPPORT. What each shared operation may touch, as instances of `Rest`; the last of them is the follow-up work itself. -/

namespace Sys2Proof.Machine

/-- Instances for operations that leave memory, orders, pool, port, timing and the queue of commands alone. -/
theorem Rest.of_kept {d : Touch} {s t : State} (timing : t.timing = s.timing) (pending : t.pending = s.pending)
    (port : t.port = s.port) (pool : t.pool = s.pool) (orders : t.orders = s.orders) (mem : t.mem = s.mem)
    (ctxs : ∀ j, ¬ d.ctxs j → s.ctxs[j].state ≠ .free → t.ctxs[j].same s.ctxs[j])
    (chans : ∀ c, ¬ d.chans c → t.chans[c].link = s.chans[c].link ∧ s.chans[c].txQueue <+: t.chans[c].txQueue)
    (dir : ∀ v, ¬ d.units v → t.dir[v].record = s.dir[v].record)
    (sweep : t.sweep = s.sweep := by first | rfl | simp) : Rest d s t where
  timing := timing
  pending := pending
  port := by rw [port]
  attention := by rw [port, BitVec.and_self]
  store := by rw [pool]
  queue := by rw [pool]
  waiting := by rw [pool]
  ctxs := ctxs
  links c hc := (chans c hc).1
  sending c hc := (chans c hc).2
  dir := dir
  scan := by rw [orders]
  taken _ _ _ := by rw [orders]
  schedule _ := by rw [sweep]
  counter := by rw [sweep]
  closed := .inl (by rw [sweep])
  mem h := ⟨by rw [State.memOk, mem]; exact h, fun _ _ => by rw [mem]⟩

/-- A loop touches what its steps touch. -/
theorem Rest.forEach {α : Type} {d : Touch} (f : α → State → State) (h : ∀ a s, Rest d s (f a s)) (l : List α) (s : State) :
    Rest d s (Machine.forEach l f s) := by
  induction l generalizing s with
  | nil => exact Rest.refl d s
  | cons a l ih => exact (h a s).trans (ih (f a s))

theorem Rest.ite {d : Touch} {s t u : State} {p : Prop} [Decidable p] (h1 : p → Rest d s t) (h2 : ¬ p → Rest d s u) :
    Rest d s (if p then t else u) := by
  split <;> rename_i h
  · exact h1 h
  · exact h2 h

/-! ### Block updates -/

theorem Rest.updCtx (k : CtxId) (f : Context → Context) (s : State) : Rest { ctxs := (· = k) } s (s.updCtx k f) := by
  refine Rest.of_kept rfl rfl rfl rfl rfl rfl (fun j hj _ => ?_) (fun _ _ => ⟨rfl, List.prefix_rfl⟩) fun _ _ => rfl
  have : (s.updCtx k f).ctxs[j] = s.ctxs[j] := by
    simp only [State.updCtx, Fin.getElem_fin, Vector.getElem_set]
    rw [if_neg]
    exact fun h => hj (Fin.ext h.symm)
  rw [this]
  exact Context.same_refl _

/-- Updating a FREE context touches no context that serves a unit. -/
theorem Rest.updCtx_free (k : CtxId) (f : Context → Context) (s : State) (hk : s.ctxs[k].state = .free) :
    Rest {} s (s.updCtx k f) := by
  refine Rest.of_kept rfl rfl rfl rfl rfl rfl (fun j _ hs => ?_) (fun _ _ => ⟨rfl, List.prefix_rfl⟩) fun _ _ => rfl
  have : (s.updCtx k f).ctxs[j] = s.ctxs[j] := by
    simp only [State.updCtx, Fin.getElem_fin, Vector.getElem_set]
    rw [if_neg]
    intro h
    have : k = j := Fin.ext h
    subst this
    exact hs hk
  rw [this]
  exact Context.same_refl _

theorem Rest.updChan (c : ChanId) (f : Channel → Channel) (s : State) : Rest { chans := (· = c) } s (s.updChan c f) := by
  refine Rest.of_kept rfl rfl rfl rfl rfl rfl (fun _ _ _ => rfl) (fun j hj => ?_) fun _ _ => rfl
  have : (s.updChan c f).chans[j] = s.chans[j] := by
    simp only [State.updChan, Fin.getElem_fin, Vector.getElem_set]
    rw [if_neg]
    exact fun h => hj (Fin.ext h.symm)
  rw [this]
  exact ⟨rfl, List.prefix_rfl⟩

theorem State.updChan_get (c : ChanId) (f : Channel → Channel) (s : State) (j : ChanId) :
    (s.updChan c f).chans[j] = if j = c then f s.chans[c] else s.chans[j] := by
  simp only [State.updChan, Fin.getElem_fin, Vector.getElem_set, Fin.ext_iff, eq_comm]

theorem State.updCtx_get (k : CtxId) (f : Context → Context) (s : State) (j : CtxId) :
    (s.updCtx k f).ctxs[j] = if j = k then f s.ctxs[k] else s.ctxs[j] := by
  simp only [State.updCtx, Fin.getElem_fin, Vector.getElem_set, Fin.ext_iff, eq_comm]

/-- A channel update that keeps the link and only adds to the queue. -/
theorem Rest.updChan_link (c : ChanId) (f : Channel → Channel) (s : State) (hl : (f s.chans[c]).link = s.chans[c].link)
    (hq : s.chans[c].txQueue <+: (f s.chans[c]).txQueue) : Rest {} s (s.updChan c f) := by
  refine Rest.of_kept rfl rfl rfl rfl rfl rfl (fun _ _ _ => rfl) (fun j _ => ?_) fun _ _ => rfl
  rw [State.updChan_get]
  split
  · next h => subst h; exact ⟨hl, hq⟩
  · exact ⟨rfl, List.prefix_rfl⟩

/-- An update of the sweep controller that keeps the schedule and the last close. -/
theorem Rest.updSweep (f : SweepCtl → SweepCtl) (s : State)
    (hs : (f s.sweep).schedule = s.sweep.schedule := by rfl)
    (hn : s.sweep.counter.toNat ≤ (f s.sweep).counter.toNat := by exact Nat.le_refl _)
    (hc : (f s.sweep).lastClose = s.sweep.lastClose := by rfl) : Rest {} s (s.updSweep f) :=
  { Rest.refl {} s with schedule := fun _ => hs, counter := hn, closed := .inl hc }

theorem State.writeEntry_get (u : UnitId) (f : DirEntry → DirEntry) (s : State) (v : UnitId) :
    (s.writeEntry u f).dir[v] =
      if v = u ∧ f s.dir[u] ≠ s.dir[u] then { f s.dir[u] with revision := s.dir[u].revision + 2 } else s.dir[v] := by
  by_cases h : f s.dir[u] = s.dir[u]
  · have hs : s.writeEntry u f = s := if_pos h
    rw [hs, if_neg fun x => x.2 h]
  · have hs : s.writeEntry u f = { s with dir := s.dir.set u { f s.dir[u] with revision := s.dir[u].revision + 2 } } := if_neg h
    rw [hs]
    by_cases hv : v = u
    · subst hv
      rw [if_pos ⟨rfl, h⟩]
      simp
    · rw [if_neg fun x => hv x.1]
      simp only [Fin.getElem_fin, Vector.getElem_set]
      rw [if_neg fun x => hv (Fin.ext x.symm)]

/-- What a write leaves in its own entry, but for the revision. -/
theorem State.writeEntry_self (u : UnitId) (f : DirEntry → DirEntry) (s : State) :
    { (s.writeEntry u f).dir[u] with revision := 0 } = { f s.dir[u] with revision := 0 } := by
  rw [State.writeEntry_get]
  split
  · rfl
  · next h =>
    have : f s.dir[u] = s.dir[u] := by
      by_contra hc
      exact h ⟨rfl, hc⟩
    rw [this]

/-- What is read beside the revision from an entry just written. -/
theorem State.writeEntry_congr {α : Sort _} (u : UnitId) (f : DirEntry → DirEntry) (s : State) (g : DirEntry → α)
    (hg : ∀ (x : DirEntry) r, g { x with revision := r } = g x) : g (s.writeEntry u f).dir[u] = g (f s.dir[u]) := by
  rw [← hg (s.writeEntry u f).dir[u] 0, State.writeEntry_self, hg]

theorem Rest.writeEntry (u : UnitId) (f : DirEntry → DirEntry) (s : State) : Rest { units := (· = u) } s (s.writeEntry u f) := by
  have h := State.writeEntry_frame u f s
  refine Rest.of_kept (by simp) (by simp) (by simp) (by simp) (by simp) (by simp) (fun j _ _ => ?_) (fun c _ => ?_) fun v hv => ?_
  · simp [Context.same_refl]
  · simp
  · rw [State.writeEntry_get, if_neg (fun x => hv x.1)]

/-- A write that keeps the entry's record touches no unit. -/
theorem Rest.writeEntry_record (u : UnitId) (f : DirEntry → DirEntry) (s : State) (h : (f s.dir[u]).record = s.dir[u].record) :
    Rest {} s (s.writeEntry u f) := by
  refine Rest.of_kept (by simp) (by simp) (by simp) (by simp) (by simp) (by simp) (fun j _ _ => ?_) (fun c _ => ?_) fun v _ => ?_
  · simp [Context.same_refl]
  · simp
  · rw [State.writeEntry_get]
    split
    · next hv => rw [hv.1, ← h]; rfl
    · rfl

theorem bit_rise (a b : BitVec 6) : a &&& (a ||| b) = a := by
  ext i hi
  simp
  intro h
  simp [h]

theorem Rest.raiseAttn (b : AttnBit) (s : State) : Rest {} s (s.raiseAttn b) where
  timing := rfl
  pending := rfl
  port := rfl
  attention := bit_rise _ _
  store := rfl
  queue := List.prefix_rfl
  waiting := List.prefix_rfl
  ctxs _ _ _ := rfl
  links _ _ := rfl
  sending _ _ := List.prefix_rfl
  dir _ _ := rfl
  scan := rfl
  taken _ _ _ := rfl
  schedule _ := rfl
  counter := Nat.le_refl _
  closed := .inl rfl
  mem h := ⟨h, fun _ _ => rfl⟩

theorem Rest.logSelf (code : SelfCode) (mode : Byte) (active : Bool) (s : State) : Rest {} s (s.logSelf code mode active) := by
  unfold State.logSelf
  have key : ∀ f, Rest {} s ((s.updSelf f).raiseAttn .selfGrew) := fun f =>
    { Rest.raiseAttn .selfGrew s with }
  split
  · exact key _
  · split
    · exact key _
    · exact Rest.refl _ _

theorem Rest.logSelfNat (code : SelfCode) (mode : Nat) (s : State) : Rest {} s (s.logSelfNat code mode) := Rest.logSelf _ _ _ _

theorem Rest.updSelf (f : SelfHistory → SelfHistory) (s : State) : Rest {} s (s.updSelf f) :=
  { Rest.refl {} s with }

theorem Rest.clearBusOffActive (c : ChanId) (s : State) : Rest {} s (s.clearBusOffActive c) := by
  unfold State.clearBusOffActive
  split
  · exact Rest.updSelf _ _
  · exact Rest.refl _ _

/-! ### Order slots -/

theorem Rest.putSlot (n : SlotId) (off : Nat) (w : Word) (s : State) (h : off + 1 < 64) :
    Rest { slots := (· = n) } s (s.putSlot n off w) :=
  { Rest.refl { slots := (· = n) } s with
    mem := fun hm => by
      refine ⟨Memory.wf_writeWord hm _ _, fun a ha => ?_⟩
      have ha := ha n (.inl rfl)
      rw [State.putSlot_mem, Memory.read_writeWord hm, if_neg, if_neg]
      · exact fun e => ha ⟨by omega, by omega⟩
      · exact fun e => ha ⟨by omega, by omega⟩ }

theorem Rest.setTaken (n : SlotId) (t : Option Taken) (s : State) : Rest { slots := (· = n) } s (s.setTaken n t) :=
  { Rest.refl { slots := (· = n) } s with
    scan := rfl
    taken := fun j hj _ => by
      simp only [State.setTaken, State.updOrders_orders, Fin.getElem_fin, Vector.getElem_set]
      rw [if_neg]
      exact fun h => hj (Fin.ext h.symm) }

/-- Completing a slot touches that slot alone. -/
theorem Rest.completeSlot (n : SlotId) (final : Word) (r : OrderResult) (ed : Edition) (s : State) :
    Rest { slots := (· = n) } s (s.completeSlot n final r ed) := by
  unfold State.completeSlot
  refine Rest.trans ?_ (Rest.raiseAttn _ _).widen
  refine Rest.trans ?_ (Rest.setTaken n none _)
  refine Rest.trans ?_ (Rest.putSlot n _ _ _ (by decide))
  refine Rest.trans ?_ (Rest.putSlot n _ _ _ (by decide))
  refine Rest.trans ?_ (Rest.putSlot n _ _ _ (by decide))
  refine Rest.trans ?_ (Rest.putSlot n _ _ _ (by decide))
  refine Rest.trans ?_ (Rest.putSlot n _ _ _ (by decide))
  refine Rest.trans ?_ (Rest.putSlot n _ _ _ (by decide))
  refine Rest.trans ?_ (Rest.putSlot n _ _ _ (by decide))
  refine Rest.trans ?_ (Rest.putSlot n _ _ _ (by decide))
  refine Rest.trans ?_ (Rest.putSlot n _ _ _ (by decide))
  exact Rest.putSlot n _ _ _ (by decide)

/-- Completing a SWEEP order is follow-up work. -/
theorem Rest.completeSweepSlot (n : SlotId) (final : Word) (r : OrderResult) (ed : Edition) (s : State) (hn : s.sweepSlot n) :
    Rest {} s (s.completeSlot n final r ed) :=
  let h := Rest.completeSlot n final r ed s
  { h with
    taken := fun j _ hj => h.taken j (fun e => hj (e ▸ hn)) hj
    ctxs := fun j _ => h.ctxs j (fun x => x)
    links := fun j _ => h.links j (fun x => x)
    sending := fun j _ => h.sending j (fun x => x)
    dir := fun j _ => h.dir j (fun x => x)
    mem := fun hm => ⟨(h.mem hm).1, fun a ha => (h.mem hm).2 a fun j hj => ha j (.inr (hj.elim (fun e => e ▸ hn) id))⟩ }

theorem Rest.completeSweepOrder (ed : Edition) (n : SlotId) (s : State) : Rest {} s (s.completeSweepOrder ed n) := by
  unfold State.completeSweepOrder
  split
  · next t ht =>
    split
    · next m b r ho _ => exact Rest.completeSweepSlot _ _ _ _ _ ⟨t, m, b, ht, ho⟩
    · exact Rest.refl _ _
  · exact Rest.refl _ _

theorem Rest.handToOrder (s : State) : Rest {} s s.handToOrder := by
  unfold State.handToOrder
  split
  · exact Rest.refl _ _
  · next n _ =>
    split
    · exact Rest.refl _ _
    · next t ht =>
      split
      · next m b ho hr =>
        refine { Rest.refl {} s with scan := rfl, taken := fun j _ hj => ?_ }
        simp only [State.setTaken, State.updOrders_orders, Fin.getElem_fin, Vector.getElem_set]
        rw [if_neg]
        intro h
        have : n = j := Fin.ext h
        subst this
        exact hj ⟨t, m, b, ht, ho⟩
      · exact Rest.refl _ _

/-! ### Editions and pool offers -/

theorem nextEdition_le (e : Edition) : e.toNat ≤ (nextEdition e).toNat := by
  unfold nextEdition
  split <;> bv_omega

theorem Rest.needEdition (s : State) : Rest {} s s.needEdition := by
  unfold State.needEdition
  split
  · exact Rest.updSweep _ _ rfl (nextEdition_le _)
  · exact Rest.refl _ _

theorem Rest.offer (r : PoolRequest) (s : State) : Rest {} s (s.offer r) := by
  unfold State.offer
  split
  · exact Rest.refl _ _
  · have step : ∀ t : State, Rest {} t (t.updPool (Pool.admitOrHold r)) := fun t =>
      { Rest.refl {} t with
        store := by simp only [State.updPool_pool, Pool.admitOrHold]; split <;> rfl
        queue := by simp only [State.updPool_pool, Pool.admitOrHold]; split <;> simp
        waiting := by simp only [State.updPool_pool, Pool.admitOrHold]; split <;> simp }
    split
    · exact (Rest.needEdition s).trans (step _)
    · exact step _

/-! ### Sweep starts and ends -/

theorem Rest.markUnit (mask : BitVec 4) (u : UnitId) (s : State) : Rest {} s (s.markUnit mask u) := by
  unfold State.markUnit
  dsimp only
  have h := Rest.writeEntry_record u
    (fun e => { e with mark := (s.startMark mask u).1,
                       lastOutcome := if (s.startMark mask u).2 = .faulty then .faultySkipped else e.lastOutcome }) s rfl
  split
  · exact h
  · exact h.trans (Rest.updSweep _ _)
  · exact h.trans (Rest.updSweep _ _)

theorem Channel.enqueue_prefix (e : TxEntry) (c : Channel) : c.txQueue <+: (c.enqueue e).txQueue := by
  unfold Channel.enqueue
  split
  · exact List.prefix_append _ _
  · exact List.prefix_rfl

theorem Channel.enqueue_link (e : TxEntry) (c : Channel) : (c.enqueue e).link = c.link := by
  unfold Channel.enqueue
  split <;> rfl

theorem Channel.offerFrame_prefix (e : TxEntry) (c : Channel) : c.txQueue <+: (c.offerFrame e).txQueue := by
  unfold Channel.offerFrame
  split
  · exact List.prefix_rfl
  · exact Channel.enqueue_prefix e c

theorem Channel.offerFrame_link (e : TxEntry) (c : Channel) : (c.offerFrame e).link = c.link := by
  unfold Channel.offerFrame
  split
  · rfl
  · exact Channel.enqueue_link e c

theorem Rest.wakeChannel (ch : ChanId) (s : State) : Rest {} s (s.wakeChannel ch) := by
  unfold State.wakeChannel
  split
  · exact Rest.updChan_link _ _ _ (Channel.enqueue_link _ _) (Channel.enqueue_prefix _ _)
  · exact Rest.refl _ _

theorem Rest.startSweep (origin : SweepOrigin) (mask : BitVec 4) (budget : Nat) (s : State) :
    Rest {} s (s.startSweep origin mask budget) := by
  unfold State.startSweep
  dsimp only
  have h : ∀ t : State, Rest {} t (Machine.forEach allChans State.wakeChannel (Machine.forEach allUnits (State.markUnit mask) t)) := fun t =>
    (Rest.forEach _ (Rest.markUnit mask) _ t).trans (Rest.forEach _ Rest.wakeChannel _ _)
  split
  · exact (((Rest.needEdition s).trans (Rest.updSweep _ _)).trans (h _)).trans (Rest.offer _ _)
  · exact ((Rest.needEdition s).trans (Rest.updSweep _ _)).trans (h _)

theorem Rest.finishSweep (s : State) : Rest {} s s.finishSweep := by
  unfold State.finishSweep
  dsimp only
  have h := (Rest.updSweep
    (fun w => { w with state := .idle, outcome := if w.state = .draining then w.outcome else .complete,
                       endClock := s.clock, budgetTimer := none }) s).trans (Rest.handToOrder _)
  split
  · exact h.trans ((Rest.updSweep _ _).trans (Rest.startSweep _ _ _ _))
  · exact h

theorem Rest.sweepTest (s : State) : Rest {} s s.sweepTest := Rest.ite (fun _ => Rest.finishSweep s) fun _ => Rest.refl _ _

/-- The close of the edition: its cause is NORMAL and EDITION_CLOSED is raised (R157). -/
theorem Rest.closeSweep (s : State) :
    Rest {} s ((s.updSweep (SweepCtl.closed s.clock .normal)).raiseAttn .editionClosed) :=
  { Rest.raiseAttn .editionClosed s with
    schedule := fun _ => rfl
    counter := Nat.le_refl _
    closed := .inr ⟨rfl, by
      show (s.port.attention ||| AttnBit.editionClosed.bit) &&& AttnBit.editionClosed.bit = AttnBit.editionClosed.bit
      generalize AttnBit.editionClosed.bit = b
      generalize s.port.attention = a
      ext i hi
      simp
      tauto⟩ }

theorem Rest.closeTest (s : State) : Rest {} s s.closeTest := by
  unfold State.closeTest
  split
  · unfold State.closeEdition
    exact (Rest.closeSweep s).trans (Rest.forEach _ (Rest.completeSweepOrder _) _ _)
  · exact Rest.refl _ _

/-! ### Frames, credits and assignments -/

theorem State.sendFrame_get (k : CtxId) (kind : TxKind) (s : State) (j : CtxId) :
    (s.sendFrame k kind).ctxs[j] = if j = k then { s.ctxs[k] with frameQueued := some kind } else s.ctxs[j] := by
  unfold State.sendFrame
  rw [State.updCtx_get]
  rfl

theorem Rest.sendFrame (k : CtxId) (kind : TxKind) (s : State) : Rest { ctxs := (· = k) } s (s.sendFrame k kind) := by
  unfold State.sendFrame
  exact (Rest.updChan_link _ _ _ (Channel.offerFrame_link _ _) (Channel.offerFrame_prefix _ _)).widen.trans (Rest.updCtx _ _ _)

theorem Rest.updPacer (c : ChanId) (f : Pacer → Pacer) (s : State)
    (h : { f s.chans[c].pacer with credits := 0, line := [] } = { s.chans[c].pacer with credits := 0, line := [] }) :
    Rest {} s (s.updPacer c f) := by
  unfold State.updPacer
  refine Rest.updChan_link _ _ _ ?_ List.prefix_rfl
  simp only [Channel.link, h]

theorem Rest.placeGranted (k : CtxId) (s : State) : Rest { ctxs := (· = k) } s (s.placeGranted k) := by
  unfold State.placeGranted
  dsimp only
  exact (Rest.updCtx _ _ _).trans (Rest.sendFrame _ _ _)

/-- Service of a line touches the contexts that stand in it. -/
theorem Rest.serveLine (ch : ChanId) (n : Nat) (s : State) :
    Rest { ctxs := (· ∈ s.chans[ch].pacer.line) } s (s.serveLine ch n) := by
  induction n generalizing s with
  | zero => exact Rest.refl _ _
  | succ n ih =>
    unfold State.serveLine
    split
    · exact Rest.refl _ _
    · split
      · exact Rest.refl _ _
      · next k rest hl =>
        split
        · have h1 := Rest.updPacer ch
            (fun p => { p with credits := p.credits - s.ctxs[k].creditNeed, line := rest }) s rfl
          have h2 := Rest.placeGranted k
            (s.updPacer ch fun p => { p with credits := p.credits - s.ctxs[k].creditNeed, line := rest })
          have h3 := ih ((s.updPacer ch fun p =>
            { p with credits := p.credits - s.ctxs[k].creditNeed, line := rest }).placeGranted k)
          have hline : ∀ (t : State), (t.placeGranted k).chans[ch].pacer = t.chans[ch].pacer := by
            intro t
            unfold State.placeGranted State.sendFrame
            dsimp only
            rw [State.updCtx_chans, State.updChan_get]
            split
            · next h =>
              have hx : ∀ (e : TxEntry) (c : Channel), (c.offerFrame e).pacer = c.pacer := by
                intro e c
                unfold Channel.offerFrame Channel.enqueue
                (repeat' split) <;> rfl
              rw [hx, ← h]
              rfl
            · rfl
          rw [hline] at h3
          have hl2 : (s.updPacer ch fun p =>
              { p with credits := p.credits - s.ctxs[k].creditNeed, line := rest }).chans[ch].pacer.line = rest := by
            rw [State.updPacer, State.updChan_get, if_pos rfl]
          rw [hl2] at h3
          refine Rest.trans (d := { ctxs := (· ∈ s.chans[ch].pacer.line) })
            (Rest.trans h1.widen (h2.mono (fun j hj => ?_) (fun _ x => x) (fun _ x => x) fun _ x => x))
            (h3.mono (fun j hj => ?_) (fun _ x => x) (fun _ x => x) fun _ x => x)
          · show j ∈ s.chans[ch].pacer.line
            rw [hl, show j = k from hj]
            exact List.mem_cons_self
          · show j ∈ s.chans[ch].pacer.line
            rw [hl]
            exact List.mem_cons_of_mem _ hj
        · exact Rest.refl _ _

theorem Rest.serve (ch : ChanId) (s : State) : Rest { ctxs := (· ∈ s.chans[ch].pacer.line) } s (s.serve ch) :=
  Rest.serveLine _ _ _

/-- Joining a line touches the context that joins: a line that was empty holds it alone. -/
theorem Rest.joinLine (k : CtxId) (need : Nat) (s : State) : Rest { ctxs := (· = k) } s (s.joinLine k need) := by
  unfold State.joinLine
  dsimp only
  have h1 := Rest.updCtx k (fun c => { c with creditNeed := need }) s
  have h2 := Rest.updPacer s.ctxs[k].channel (fun p => { p with line := p.line ++ [k] })
    (s.updCtx k fun c => { c with creditNeed := need }) rfl
  split
  · next hw =>
    have h3 := Rest.serve s.ctxs[k].channel ((s.updCtx k fun c => { c with creditNeed := need }).updPacer s.ctxs[k].channel
      fun p => { p with line := p.line ++ [k] })
    refine (h1.trans h2.widen).trans (h3.mono (fun j hj => ?_) (fun _ x => x) (fun _ x => x) fun _ x => x)
    rw [State.updPacer, State.updChan_get, if_pos rfl] at hj
    have : s.chans[s.ctxs[k].channel].pacer.line = [] := List.isEmpty_iff.mp hw
    simp only [State.updCtx_chans, this, List.nil_append, List.mem_singleton] at hj
    exact hj
  · exact h1.trans h2.widen

/-- An update of a context that is FREE in the state at hand, made through `{ ctxs := (· = k) }`, touches nothing else. -/
theorem Rest.of_free {s t : State} (k : CtxId) (h : Rest { ctxs := (· = k) } s t) (hk : s.ctxs[k].state = .free) :
    Rest {} s t :=
  { h with
    ctxs := fun j _ hj => h.ctxs j (fun e => hj (by rw [show j = k from e]; exact hk)) hj
    links := fun j _ => h.links j (fun x => x)
    sending := fun j _ => h.sending j (fun x => x)
    dir := fun j _ => h.dir j (fun x => x)
    taken := fun j _ => h.taken j (fun x => x)
    mem := fun hm => ⟨(h.mem hm).1, fun a ha => (h.mem hm).2 a fun j hj => ha j (hj.elim (fun e => e.elim) .inr)⟩ }

theorem DirEntry.assigned_record (p : Purpose) (e : DirEntry) : (e.assigned p).record = e.record := by
  unfold DirEntry.assigned
  cases p
  · simp only
    split <;> rfl
  · rfl

theorem Rest.assign (k : CtxId) (u : UnitId) (p : Purpose) (s : State) (hk : s.ctxs[k].state = .free) :
    Rest {} s (s.assign k u p) := by
  apply Rest.of_free k _ hk
  unfold State.assign
  dsimp only
  exact ((Rest.writeEntry_record u _ s (DirEntry.assigned_record p _)).widen.trans (Rest.updCtx k _ _)).trans
    (Rest.joinLine k _ _)

theorem Rest.allocate (n : Nat) (s : State) : Rest {} s (s.allocate n) := by
  induction n generalizing s with
  | zero => exact Rest.refl _ _
  | succ n ih =>
    unfold State.allocate
    split
    · exact Rest.refl _ _
    · split
      · next k u p hk _ =>
        have hf : s.ctxs[k].state = .free := by
          have := List.find?_some hk
          simpa using this
        exact (Rest.assign k u p s hf).trans (ih _)
      · exact Rest.refl _ _

/-- The follow-up work of an event touches nothing but what `Rest` leaves to it. -/
theorem Rest.settle (s : State) : Rest {} s s.settle := by
  unfold State.settle
  exact (((Rest.sweepTest s).trans (Rest.sweepTest _)).trans (Rest.closeTest _)).trans (Rest.allocate 8 _)

/-- An event that settles touches what its own work touches. -/
theorem Rest.settledEvent {d : Touch} (f : State → State) (s : State) (h : Rest d s (f s)) : Rest d s (settledEvent f s) := by
  unfold Machine.settledEvent partEvent event
  split
  · exact Rest.refl _ _
  · exact (h.trans (Rest.settle _).widen).stamp s

end Sys2Proof.Machine
end

