-- ==== Sys2Proof/Laws/Line.lean ====
section
/-! SUPPORT. ATTN_N after an event, and the blocks an event of the port alone leaves as they are. -/

namespace Sys2Proof.Machine

theorem and6_eq_zero : ∀ a m : Fin 64, (BitVec.ofFin a : BitVec 6) &&& BitVec.ofFin m = 0 ↔
    ∀ b ∈ [AttnBit.start, .orderDone, .editionClosed, .poolLow, .channelFault, .selfGrew],
      (BitVec.ofFin a : BitVec 6) &&& b.bit = 0 ∨ (BitVec.ofFin m : BitVec 6) &&& b.bit = 0 := by
  decide +kernel

/-- Two registers have no bit in common exactly when no attention bit is set in both. -/
theorem attn_and_eq_zero (a m : BitVec 6) : a &&& m = 0 ↔ ∀ b : AttnBit, a &&& b.bit = 0 ∨ m &&& b.bit = 0 := by
  have h := and6_eq_zero a.toFin m.toFin
  constructor
  · intro ha b
    exact h.mp ha b (by cases b <;> simp)
  · intro hb
    exact h.mpr fun b _ => hb b

/-- The line is as R181 says exactly when it shows what the two registers drive. -/
theorem State.lineOk_iff (s : State) : s.lineOk ↔ s.port.attnLow = attnDriven s.port := by
  have key : attnDriven s.port = true ↔
      s.port.initialising = false ∧ ∃ b : AttnBit, s.port.attention &&& b.bit ≠ 0 ∧ s.port.mask &&& b.bit ≠ 0 := by
    unfold attnDriven
    rw [Bool.and_eq_true, bne_iff_ne, Bool.not_eq_true', ne_eq, attn_and_eq_zero]
    push Not
    rfl
  unfold State.lineOk
  rw [← key]
  cases s.port.attnLow <;> cases attnDriven s.port <;> simp

/-- Every event leaves the line as R181 says. -/
theorem State.stamp_lineOk (s0 s1 : State) : (State.stamp s0 s1).lineOk := (State.lineOk_iff _).mpr rfl

/-- An event of the port alone changes nothing else. -/
theorem partEvent_port (f : HostPort → HostPort) (s : State) (h : s.running) :
    partEvent (fun s => s.updPort f) s = { s with port := { f s.port with attnLow := attnDriven (f s.port) } } := by
  have h : s.port.initialising = false := h
  unfold partEvent event
  rw [if_neg (by rw [h]; simp)]
  have h1 := State.stamp_ctxs_of_eq (s0 := s) (s1 := s.updPort f) rfl rfl
  have h2 := State.stamp_chans_of_eq (s0 := s) (s1 := s.updPort f) rfl
  have h3 := State.stamp_sweep_of_eq (s0 := s) (s1 := s.updPort f) rfl
  unfold State.stamp at h1 h2 h3 ⊢
  simp only [] at h1 h2 h3
  rw [h1, h2, h3]
  rfl

end Sys2Proof.Machine
end

