-- ==== Sys2Proof/Laws/Slots.lean ====
section
/-! SUPPORT. What a completion leaves in its slot, and what a pass makes of a table with one POSTED slot. -/

namespace Sys2Proof.Machine

/-- A word of a slot read after a word of the same slot was written. -/
theorem slotWord_put (m : Memory) (n : SlotId) (off x : Nat) (w : Word) (hm : m.wf = true)
    (h : x = off ∨ x + 1 < off ∨ off + 1 < x) :
    slotWord (Memory.writeWord m (slotAt n + off) w) n x = if x = off then w else slotWord m n x := by
  unfold slotWord
  split
  · next e => rw [e, Memory.readWord_writeWord hm]
  · next e => exact Memory.readWord_writeWord_of_ne hm _ _ _ (by omega)

/-- The ten words a completion writes, in their order (R168). -/
theorem State.completeSlot_mem (n : SlotId) (final : Word) (r : OrderResult) (ed : Edition) (s : State) :
    (s.completeSlot n final r ed).mem =
      ((((((((((s.mem.writeWord (slotAt n + 16) r.code).writeWord (slotAt n + 18) r.w0).writeWord (slotAt n + 20)
        r.w1).writeWord (slotAt n + 22) r.w2).writeWord (slotAt n + 24) r.w3).writeWord (slotAt n + 28)
        (ed.extractLsb' 0 16)).writeWord (slotAt n + 30) (ed.extractLsb' 16 16)).writeWord (slotAt n + 32)
        (s.clock.extractLsb' 0 16)).writeWord (slotAt n + 34) (s.clock.extractLsb' 16 16)).writeWord (slotAt n + 0)
        final) := by
  simp only [State.completeSlot, State.raiseAttn_mem, State.setTaken_mem, State.putSlot_mem, Config.slotStateOff,
    Config.slotResultOff, Config.slotWordsOff, Config.slotEditionOff, Config.slotClockOff, Nat.reduceAdd]

/-- A double word is its two halves, the high one in front. -/
theorem halves_append (x : BitVec 32) : (x.extractLsb' 16 16 : BitVec 16) ++ x.extractLsb' 0 16 = x := by
  ext i hi
  simp only [BitVec.getElem_append, BitVec.getElem_extractLsb']
  split
  · simp [← BitVec.getLsbD_eq_getElem]
  · rw [← BitVec.getLsbD_eq_getElem]
    congr 1
    omega

/-- Several words written to one slot, in order. -/
def putAll (n : SlotId) : List (Nat × Word) → Memory → Memory
  | [], m => m
  | (off, w) :: l, m => putAll n l (m.writeWord (slotAt n + off) w)

/-- An even word of the slot after the writes: the last one written there, or what stood there. -/
def lastPut (x : Nat) : List (Nat × Word) → Word → Word
  | [], old => old
  | (off, w) :: l, old => lastPut x l (if x = off then w else old)

theorem slotWord_putAll (n : SlotId) (x : Nat) (hx : x % 2 = 0) (l : List (Nat × Word)) (hl : ∀ p ∈ l, p.1 % 2 = 0)
    (m : Memory) (hm : m.wf = true) : slotWord (putAll n l m) n x = lastPut x l (slotWord m n x) := by
  induction l generalizing m with
  | nil => rfl
  | cons p l ih =>
    obtain ⟨off, w⟩ := p
    have ho : off % 2 = 0 := hl _ List.mem_cons_self
    rw [putAll, lastPut, ih (fun q hq => hl q (List.mem_cons_of_mem _ hq)) _ (Memory.wf_writeWord hm _ _),
      slotWord_put m n off x w hm (by omega)]

/-- The ten words of a completion. -/
def completePuts (final : Word) (r : OrderResult) (ed : Edition) (c : Clock) : List (Nat × Word) :=
  [(16, r.code), (18, r.w0), (20, r.w1), (22, r.w2), (24, r.w3), (28, ed.extractLsb' 0 16), (30, ed.extractLsb' 16 16),
    (32, c.extractLsb' 0 16), (34, c.extractLsb' 16 16), (0, final)]

/-- An even word of a slot after its completion. -/
theorem State.completeSlot_word (n : SlotId) (final : Word) (r : OrderResult) (ed : Edition) (s : State) (hm : s.memOk)
    (x : Nat) (hx : x % 2 = 0) : slotWord (s.completeSlot n final r ed).mem n x =
      lastPut x (completePuts final r ed s.clock) (slotWord s.mem n x) := by
  have hp : (s.completeSlot n final r ed).mem = putAll n (completePuts final r ed s.clock) s.mem :=
    State.completeSlot_mem n final r ed s
  rw [hp]
  refine slotWord_putAll n x hx _ (fun p h => ?_) s.mem hm
  simp only [completePuts, List.mem_cons, List.not_mem_nil, or_false] at h
  rcases h with rfl | rfl | rfl | rfl | rfl | rfl | rfl | rfl | rfl | rfl <;> simp only [Nat.reduceMod, Nat.zero_mod]

/-- A completed slot shows its result (R168). -/
theorem State.completeSlot_shows (n : SlotId) (final : Word) (r : OrderResult) (ed : Edition) (s : State) (hm : s.memOk) :
    (s.completeSlot n final r ed).slotShows n final r.code r.w0 r.w1 r.w2 r.w3 ed s.clock := by
  have w := State.completeSlot_word n final r ed s hm
  refine ⟨w 0 rfl, w 16 rfl, w 18 rfl, w 20 rfl, w 22 rfl, w 24 rfl, ?_, ?_⟩
  · exact (congrArg₂ (fun a b : Word => a ++ b) (w 30 rfl) (w 28 rfl)).trans (halves_append ed)
  · exact (congrArg₂ (fun a b : Word => a ++ b) (w 34 rfl) (w 32 rfl)).trans (halves_append s.clock)

theorem State.completeSlot_memOk (n : SlotId) (final : Word) (r : OrderResult) (ed : Edition) (s : State) (hm : s.memOk) :
    (s.completeSlot n final r ed).memOk := ((Rest.completeSlot n final r ed s).mem hm).1

/-- A slot's words are read from its own bytes. -/
theorem slotWord_congr {m m' : Memory} (n : SlotId) (off : Nat) (h : off + 1 < 64)
    (hb : ∀ a, inSlot n a → m'.read a = m.read a) : slotWord m' n off = slotWord m n off := by
  unfold slotWord Memory.readWord
  rw [hb _ ⟨by omega, by omega⟩, hb _ ⟨by omega, by omega⟩]

theorem inSlot_unique {n j : SlotId} {a : Nat} (h1 : inSlot n a) (h2 : inSlot j a) : n = j := by
  unfold inSlot slotAt Config.slotBase Config.slotSize at *
  apply Fin.ext
  omega

/-- A slot untouched by an operation shows what it showed. -/
theorem Rest.slotWord {d : Touch} {s t : State} (h : Rest d s t) (hm : s.memOk) (n : SlotId) (hn : ¬ d.slots n)
    (hs : ¬ s.sweepSlot n) (off : Nat) (ho : off + 1 < 64) : slotWord t.mem n off = slotWord s.mem n off := by
  refine slotWord_congr n off ho fun a ha => (h.mem hm).2 a fun j hj hc => ?_
  cases inSlot_unique ha hc
  exact hj.elim hn hs

theorem Rest.slotShows {d : Touch} {s t : State} (h : Rest d s t) (hm : s.memOk) (n : SlotId) (hn : ¬ d.slots n)
    (hs : ¬ s.sweepSlot n) {final code w0 w1 w2 w3 : Word} {ed : Edition} {c : Clock}
    (hx : s.slotShows n final code w0 w1 w2 w3 ed c) : t.slotShows n final code w0 w1 w2 w3 ed c := by
  have k := h.slotWord hm n hn hs
  unfold State.slotShows slotState at *
  rw [k _ (by decide), k _ (by decide), k _ (by decide), k _ (by decide), k _ (by decide), k _ (by decide),
    k _ (by decide), k _ (by decide), k _ (by decide), k _ (by decide)]
  exact hx

/-! ### The close of an edition and the slots -/

/-- A completed slot's copy is gone. -/
theorem State.completeSlot_taken (n : SlotId) (final : Word) (r : OrderResult) (ed : Edition) (s : State) (j : SlotId) :
    (s.completeSlot n final r ed).orders.taken[j] = if j = n then none else s.orders.taken[j] := by
  have : (s.completeSlot n final r ed).orders.taken = s.orders.taken.set n none := by
    simp only [State.completeSlot, State.raiseAttn_orders, State.setTaken_orders, State.putSlot_orders]
  rw [this]
  simp only [Fin.getElem_fin, Vector.getElem_set, Fin.ext_iff, eq_comm]

/-- No slot of the list is POSTED. -/
def State.nonePosted (s : State) (l : List SlotId) : Prop := ∀ n ∈ l, slotState s.mem n ≠ Config.stPosted

/-- Completing a slot leaves no slot POSTED that was not. -/
theorem State.nonePosted_complete {s : State} {l : List SlotId} (h : s.nonePosted l) (hm : s.memOk) (n : SlotId)
    (final : Word) (hf : final ≠ Config.stPosted) (r : OrderResult) (ed : Edition) : (s.completeSlot n final r ed).nonePosted l := by
  intro j hj
  by_cases e : j = n
  · rw [e, (State.completeSlot_shows n final r ed s hm).1]
    exact hf
  · have hmem := (Rest.completeSlot n final r ed s).mem hm
    have : slotState (s.completeSlot n final r ed).mem j = slotState s.mem j := by
      refine slotWord_congr j _ (by decide) fun a ha => ?_
      have w := Rest.completeSlot n final r ed s
      by_cases hs : s.sweepSlot j
      · -- the bytes of a slot other than `n` are never written, SWEEP order or not
        have wf : ∀ (m : Memory) a w, m.wf = true → (Memory.writeWord m a w).wf = true :=
          fun m a w h => Memory.wf_writeWord h a w
        have one : ∀ (m : Memory) (off : Nat) (w : Word), m.wf = true → off + 1 < 64 →
            Memory.read (Memory.writeWord m (slotAt n + off) w) a = Memory.read m a := by
          intro m off w h ho
          rw [Memory.read_writeWord h, if_neg, if_neg]
          · exact fun q => e (inSlot_unique ha ⟨by omega, by omega⟩)
          · exact fun q => e (inSlot_unique ha ⟨by omega, by omega⟩)
        rw [State.completeSlot_mem]
        have w : ∀ (m : Memory) (off : Nat) (x : Word), m.wf = true ∧ Memory.read m a = Memory.read s.mem a → off + 1 < 64 →
            (Memory.writeWord m (slotAt n + off) x).wf = true ∧
              Memory.read (Memory.writeWord m (slotAt n + off) x) a = Memory.read s.mem a :=
          fun m off x h ho => ⟨wf _ _ _ h.1, (one m off x h.1 ho).trans h.2⟩
        exact (w _ 0 _ (w _ 34 _ (w _ 32 _ (w _ 30 _ (w _ 28 _ (w _ 24 _ (w _ 22 _ (w _ 20 _ (w _ 18 _ (w _ 16 _ ⟨hm, rfl⟩
          (by decide)) (by decide)) (by decide)) (by decide)) (by decide)) (by decide)) (by decide)) (by decide))
          (by decide)) (by decide)).2
      · refine hmem.2 a fun i hi hc => ?_
        cases inSlot_unique ha hc
        exact hi.elim e hs
    rw [this]
    exact h j hj

theorem State.nonePosted_sweepOrder {s : State} {l : List SlotId} (h : s.nonePosted l) (hm : s.memOk) (ed : Edition)
    (n : SlotId) : (s.completeSweepOrder ed n).memOk ∧ (s.completeSweepOrder ed n).nonePosted l := by
  unfold State.completeSweepOrder
  split
  · split
    · unfold State.doneSlot
      constructor
      · apply State.completeSlot_memOk
        exact hm
      · apply State.nonePosted_complete h hm
        decide
    · exact ⟨hm, h⟩
  · exact ⟨hm, h⟩

theorem State.nonePosted_closeTest {s : State} {l : List SlotId} (h : s.nonePosted l) (hm : s.memOk) :
    s.closeTest.nonePosted l := by
  unfold State.closeTest
  split
  · unfold State.closeEdition
    refine (forEach_invariant (fun t : State => t.memOk ∧ t.nonePosted l) _ (fun n t ht => ?_) _ _ ?_).2
    · exact State.nonePosted_sweepOrder ht.2 ht.1 _ n
    · exact ⟨hm, h⟩
  · exact h

/-- Follow-up work leaves no slot POSTED that was not. -/
theorem State.nonePosted_settle {s : State} {l : List SlotId} (h : s.nonePosted l) (hm : s.memOk) :
    s.settle.nonePosted l := by
  have e : s.settle.mem = (s.sweepTest.sweepTest).closeTest.mem := by unfold State.settle; simp
  have e2 : (s.sweepTest.sweepTest).mem = s.mem := by simp
  have h2 : (s.sweepTest.sweepTest).nonePosted l := by intro n hn; rw [e2]; exact h n hn
  have h3 := State.nonePosted_closeTest h2 (by unfold State.memOk; rw [e2]; exact hm)
  intro n hn
  rw [e]
  exact h3 n hn

/-! ### Passes -/

/-- Slots that are not POSTED are passed over (R166). -/
theorem State.passFrom_none (l : List SlotId) (s : State) (h : s.nonePosted l) : s.passFrom l = s.setHalt none := by
  induction l with
  | nil => rfl
  | cons n l ih =>
    unfold State.passFrom State.visit
    rw [if_neg (h n List.mem_cons_self)]
    exact ih fun j hj => h j (List.mem_cons_of_mem _ hj)

theorem State.passFrom_append (l1 l2 : List SlotId) (s : State) (h : s.nonePosted l1) :
    s.passFrom (l1 ++ l2) = s.passFrom l2 := by
  induction l1 with
  | nil => rfl
  | cons n l ih =>
    have hv : s.visit n = .goOn s := if_neg (h n List.mem_cons_self)
    rw [List.cons_append, State.passFrom, hv]
    exact ih fun j hj => h j (List.mem_cons_of_mem _ hj)

/-- With one slot POSTED a pass is the visit of that slot, unless its event leaves other slots POSTED. -/
theorem State.pass_only {s : State} (n : SlotId) (h : s.onlyPosted n) (hr : s.orders.resetting = none) :
    (∀ t, s.visit n = .goOn t → t.nonePosted (allSlots.drop (n.val + 1)) → s.pass = t.setHalt none) ∧
      (∀ t, s.visit n = .ended t → s.pass = t) := by
  have hs : ∀ n : SlotId, allSlots = (allSlots.take n.val) ++ n :: (allSlots.drop (n.val + 1)) ∧
      n ∉ allSlots.take n.val ∧ n ∉ allSlots.drop (n.val + 1) := by decide
  obtain ⟨h1, h2, _⟩ := hs n
  have e : s.pass = s.passFrom (n :: (allSlots.drop (n.val + 1))) := by
    unfold State.pass
    rw [if_neg (by simp [State.resetting, hr])]
    conv_lhs => rw [h1]
    exact State.passFrom_append _ _ _ fun j hj => h.2 j fun q => h2 (q ▸ hj)
  rw [e]
  constructor
  · intro t ht hn
    rw [State.passFrom, ht]
    exact State.passFrom_none _ _ hn
  · intro t ht
    rw [State.passFrom, ht]

end Sys2Proof.Machine
end

