-- ==== Sys2Proof/Laws/Settle.lean ====
section
/-! SUPPORT. What follow-up work makes of attention bits, directory entries and the schedule. -/

namespace Sys2Proof.Machine

/-! ### Attention bits -/

theorem attn_other (a : BitVec 6) (b c : AttnBit) (h : c ≠ b) : (a ||| b.bit) &&& c.bit = a &&& c.bit := by
  have k : b.bit &&& c.bit = 0 := by cases b <;> cases c <;> first | rfl | exact absurd rfl h
  ext i hi
  have ki := congrArg (fun x : BitVec 6 => x[i]) k
  simp only [BitVec.getElem_and, BitVec.getElem_or] at ki ⊢
  simp only [show ((0 : BitVec 6)[i]) = false by simp] at ki
  cases h1 : a[i] <;> cases h2 : b.bit[i] <;> cases h3 : c.bit[i] <;> simp_all

theorem State.completeSlot_attention (n : SlotId) (final : Word) (r : OrderResult) (ed : Edition) (s : State) :
    (s.completeSlot n final r ed).port.attention = s.port.attention ||| AttnBit.orderDone.bit := by
  simp only [State.completeSlot, State.raiseAttn_port, State.setTaken_port, State.putSlot_port]

/-- Follow-up work raises only EDITION_CLOSED and ORDER_DONE. -/
theorem State.settle_attention (b : AttnBit) (h1 : b ≠ .editionClosed) (h2 : b ≠ .orderDone) (s : State) :
    s.settle.port.attention &&& b.bit = s.port.attention &&& b.bit := by
  have e : s.settle.port = (s.sweepTest.sweepTest).closeTest.port := by unfold State.settle; simp
  have e2 : (s.sweepTest.sweepTest).port = s.port := by simp
  rw [e]
  generalize s.sweepTest.sweepTest = t at *
  rw [← e2]
  unfold State.closeTest
  split
  · unfold State.closeEdition
    rw [show (t.port.attention &&& b.bit) = (((t.updSweep (SweepCtl.closed t.clock .normal)).raiseAttn
      .editionClosed).port.attention &&& b.bit) from (attn_other _ _ _ h1).symm]
    refine forEach_keeps (fun u : State => u.port.attention &&& b.bit) _ (fun n u => ?_) _ _
    unfold State.completeSweepOrder State.doneSlot
    split
    · split
      · rw [State.completeSlot_attention, attn_other _ _ _ h2]
      · rfl
    · rfl
  · rfl

/-! ### Directory entries -/

/-- What follow-up work may make of an entry: its sweep mark, FAULTY_SKIPPED on a FAULTY unit, or an assignment. -/
def DirEntry.followed (e e' : DirEntry) : Prop :=
  (e.state ≠ .faulty → e'.lastOutcome = e.lastOutcome) ∧
    ((e'.state = e.state ∧ e'.malformed = e.malformed ∧ e'.holdUntil = e.holdUntil ∧ e'.holdRunOut = e.holdRunOut ∧
        e'.holdCount = e.holdCount ∧ e'.restartCount = e.restartCount) ∨
      ((e'.state = .reading ∨ e'.state = .erasing) ∧ (e.assignable .read = true ∨ e.assignable .erase = true)))

theorem DirEntry.followed_refl (e : DirEntry) : e.followed e := ⟨fun _ => rfl, .inl ⟨rfl, rfl, rfl, rfl, rfl, rfl⟩⟩

theorem DirEntry.followed_trans {e f g : DirEntry} (h1 : e.followed f) (h2 : f.followed g) : e.followed g := by
  obtain ⟨a1, b1⟩ := h1
  obtain ⟨a2, b2⟩ := h2
  rcases b1 with b1 | b1
  · refine ⟨fun h => ?_, ?_⟩
    · rw [a2 (by rw [b1.1]; exact h), a1 h]
    · rcases b2 with b2 | b2
      · exact .inl ⟨b2.1.trans b1.1, b2.2.1.trans b1.2.1, b2.2.2.1.trans b1.2.2.1, b2.2.2.2.1.trans b1.2.2.2.1,
          b2.2.2.2.2.1.trans b1.2.2.2.2.1, b2.2.2.2.2.2.trans b1.2.2.2.2.2⟩
      · refine .inr ⟨b2.1, ?_⟩
        have k : ∀ p, f.assignable p = e.assignable p := by
          intro p
          unfold DirEntry.assignable
          rw [b1.1, b1.2.2.2.1]
        rw [← k, ← k]
        exact b2.2
  · have hf : f.state ≠ .faulty := by rcases b1.1 with h | h <;> rw [h] <;> decide
    refine ⟨fun h => by rw [a2 hf, a1 h], .inr ?_⟩
    rcases b2 with b2 | b2
    · exact ⟨by rw [b2.1]; exact b1.1, b1.2⟩
    · exact ⟨b2.1, b1.2⟩

/-- An operation that follows up, seen at every entry. -/
def State.followed (s t : State) : Prop := ∀ v : UnitId, s.dir[v].followed t.dir[v]

theorem State.followed_trans {s t u : State} (h1 : s.followed t) (h2 : t.followed u) : s.followed u :=
  fun v => DirEntry.followed_trans (h1 v) (h2 v)

theorem State.followed_of_dir {s t : State} (h : t.dir = s.dir) : s.followed t := by
  intro v
  rw [show t.dir[v] = s.dir[v] by rw [h]]
  exact DirEntry.followed_refl _

theorem State.followed_forEach {α : Type} (f : α → State → State) (h : ∀ a (s : State), s.followed (f a s)) (l : List α) (s : State) :
    s.followed (forEach l f s) := by
  induction l generalizing s with
  | nil => exact State.followed_of_dir rfl
  | cons a l ih => exact State.followed_trans (h a s) (ih (f a s))

theorem State.followed_writeEntry (u : UnitId) (f : DirEntry → DirEntry) (s : State) (h : s.dir[u].followed (f s.dir[u])) :
    s.followed (s.writeEntry u f) := by
  intro v
  rw [State.writeEntry_get]
  split
  · next hv =>
    rw [hv.1]
    exact h
  · exact DirEntry.followed_refl _

theorem State.followed_markUnit (mask : BitVec 4) (u : UnitId) (s : State) : s.followed (s.markUnit mask u) := by
  have h : s.followed (s.writeEntry u fun e =>
      { e with mark := (s.startMark mask u).1,
               lastOutcome := if (s.startMark mask u).2 = .faulty then .faultySkipped else e.lastOutcome }) := by
    refine State.followed_writeEntry u _ s ⟨fun hs => ?_, .inl ⟨rfl, rfl, rfl, rfl, rfl, rfl⟩⟩
    have : (s.startMark mask u).2 ≠ .faulty := by
      unfold State.startMark
      dsimp only
      (repeat' split) <;> decide
    simp only [if_neg this]
  unfold State.markUnit
  dsimp only
  split
  · exact h
  · exact State.followed_trans h (State.followed_of_dir rfl)
  · exact State.followed_trans h (State.followed_of_dir rfl)

theorem State.followed_startSweep (origin : SweepOrigin) (mask : BitVec 4) (budget : Nat) (s : State) :
    s.followed (s.startSweep origin mask budget) := by
  unfold State.startSweep
  dsimp only
  have h : ∀ t : State, t.dir = s.dir →
      s.followed (forEach allChans State.wakeChannel (forEach allUnits (State.markUnit mask) t)) := fun t ht =>
    State.followed_trans (State.followed_of_dir ht)
      (State.followed_trans (State.followed_forEach _ (State.followed_markUnit mask) _ t)
        (State.followed_of_dir (forEach_keeps State.dir _ (by simp) _ _)))
  generalize hX : forEach allChans State.wakeChannel _ = X
  have hx : s.followed X := by
    rw [← hX]
    exact h _ (by simp)
  split
  · exact State.followed_trans hx (State.followed_of_dir (by simp))
  · exact hx

theorem State.followed_sweepTest (s : State) : s.followed s.sweepTest := by
  unfold State.sweepTest State.finishSweep
  dsimp only
  split
  · split
    · exact State.followed_trans (State.followed_of_dir (by simp)) (State.followed_startSweep _ _ _ _)
    · exact State.followed_of_dir (by simp)
  · exact State.followed_of_dir rfl

theorem State.eligible_assignable {s : State} {u : UnitId} {p : Purpose} (h : s.eligible u p = true) :
    s.dir[u].assignable p = true := by
  unfold State.eligible at h
  simp only [Bool.and_eq_true] at h
  exact h.1.1.1.1.2

theorem State.nextUnit_assignable {s : State} {u : UnitId} {p : Purpose} (h : s.nextUnit = some (u, p)) :
    s.dir[u].assignable p = true := by
  unfold State.nextUnit at h
  split at h
  · next v hv =>
    have := List.find?_some hv
    cases h
    exact State.eligible_assignable this
  · rw [Option.map_eq_some_iff] at h
    obtain ⟨v, hv, e⟩ := h
    have := List.find?_some hv
    cases e
    exact State.eligible_assignable this

theorem DirEntry.followed_assigned {e : DirEntry} {p : Purpose} (h : e.assignable p = true) : e.followed (e.assigned p) := by
  refine ⟨fun _ => ?_, .inr ⟨?_, ?_⟩⟩
  · unfold DirEntry.assigned
    cases p <;> simp only
    split <;> rfl
  · unfold DirEntry.assigned
    cases p
    · simp only
      split <;> exact .inl rfl
    · exact .inr rfl
  · cases p
    · exact .inl h
    · exact .inr h

theorem State.followed_allocate (n : Nat) (s : State) : s.followed (s.allocate n) := by
  induction n generalizing s with
  | zero => exact State.followed_of_dir rfl
  | succ n ih =>
    unfold State.allocate
    split
    · exact State.followed_of_dir rfl
    · split
      · next k u p _ hn =>
        refine State.followed_trans ?_ (ih _)
        unfold State.assign
        dsimp only
        exact State.followed_trans
          (State.followed_writeEntry u _ s (DirEntry.followed_assigned (State.nextUnit_assignable hn)))
          (State.followed_of_dir (by simp))
      · exact State.followed_of_dir rfl

theorem State.followed_settle (s : State) : s.followed s.settle := by
  unfold State.settle
  exact State.followed_trans (State.followed_trans (State.followed_trans (State.followed_sweepTest s)
    (State.followed_sweepTest _)) (State.followed_of_dir (by simp))) (State.followed_allocate 8 _)

/-! ### The schedule -/

theorem State.startSweep_schedule (origin : SweepOrigin) (mask : BitVec 4) (budget : Nat) (s : State) :
    (s.startSweep origin mask budget).sweep.schedule = s.sweep.schedule :=
  (Rest.startSweep origin mask budget s).schedule id

theorem State.settle_schedule (s : State) : s.settle.sweep.schedule = s.sweep.schedule := (Rest.settle s).schedule id

end Sys2Proof.Machine
end

