-- ==== Sys2Proof/Laws/Pass.lean ====
section
/-! SUPPORT. What a pass with one POSTED slot makes of the part, and the passing of time. -/

namespace Sys2Proof.Machine

/-! ### Events and time -/

/-- Time passes until a timer's expiry. -/
theorem State.advanceTo_clock (s : State) (t : Clock) : (s.advanceTo t).clock = s.meetsAt t := by
  unfold State.advanceTo State.meetsAt
  split <;> rfl

theorem vecMap_get {α : Type} {n : Nat} (f : α → α) (v : Vector α n) (i : Fin n) : (vecMap f v)[i] = f v[i] := by
  simp [vecMap]

/-- The passing of time latches run-out holds alone. -/
theorem Rest.advanceTo (t : Clock) (s : State) : Rest {} s (s.advanceTo t) := by
  unfold State.advanceTo
  split
  · exact Rest.refl _ _
  · refine Rest.of_kept rfl rfl rfl rfl rfl rfl (fun _ _ _ => rfl) (fun _ _ => ⟨rfl, List.prefix_rfl⟩) fun v _ => ?_
    rw [State.setClock, vecMap_get]
    unfold DirEntry.latchHold
    split <;> rfl

/-- An event of a running part. -/
theorem settledEvent_eq (f : State → State) (s : State) (h : s.running) :
    settledEvent f s = State.stamp s (f s).settle := by
  have h : s.port.initialising = false := h
  unfold Machine.settledEvent partEvent
  rw [if_neg (by rw [h]; simp)]
  rfl

theorem State.settle_clock (s : State) : s.settle.clock = s.clock := by simp

/-! ### The visit of the one POSTED slot -/

theorem execSignalWrite_eq (v : Word) (s : State) (h : s.running) : execSignalWrite v s = .next s.pass := by
  have h : s.port.initialising = false := h
  show Host.Outcome.next _ = _
  rw [h]; rfl

/-- The pass is the visit's event when that event leaves no other slot POSTED. -/
theorem execSignalWrite_goOn (v : Word) (n : SlotId) (s : State) (h : s.visits n) (f : State → State)
    (hv : s.visit n = .goOn (event (fun s => (f s).settle) s)) (hm : (f s).memOk)
    (hj : ∀ j, j ≠ n → slotState (f s).mem j ≠ Config.stPosted) :
    execSignalWrite v s = .next ((event (fun s => (f s).settle) s).setHalt none) := by
  rw [execSignalWrite_eq v s h.1]
  congr 1
  refine (State.pass_only n h.2.2.2 h.2.2.1).1 _ hv ?_
  have key : (f s).settle.nonePosted (allSlots.drop (n.val + 1)) := by
    refine State.nonePosted_settle (fun j hj' => hj j ?_) hm
    have : ∀ n : SlotId, n ∉ allSlots.drop (n.val + 1) := by decide
    exact fun e => this n (e ▸ hj')
  exact key

theorem attn_hasOr (a : BitVec 6) (b : AttnBit) : (a ||| b.bit) &&& b.bit = b.bit := by
  ext i hi
  simp only [BitVec.getElem_and, BitVec.getElem_or]
  cases a[i] <;> simp

/-- A visit that hands an order to its owner. -/
theorem execSignalWrite_taken (v : Word) (n : SlotId) (s : State) (h : s.visits n) (f : State → State)
    (hv : s.visit n = .goOn (event (fun s => (f s).settle) s)) (hm : (f s).memOk)
    (hj : ∀ j, j ≠ n → slotState (f s).mem j ≠ Config.stPosted) :
    ∃ u, execSignalWrite v s = .next (u.setHalt none) ∧ Rest {} (f s) u ∧ u.clock = (f s).clock ∧ u.self = (f s).self ∧
      u.portLast = (f s).portLast :=
  ⟨_, execSignalWrite_goOn v n s h f hv hm hj, (Rest.settle (f s)).stamp s, by simp [event], by simp [event],
    by simp [event]⟩

/-- A visit that ends the pass. -/
theorem execSignalWrite_ended (v : Word) (n : SlotId) (s : State) (h : s.visits n) (f : State → State)
    (hv : s.visit n = .ended (event (fun s => (f s).settle) s)) :
    execSignalWrite v s = .next (State.stamp s (f s).settle) := by
  rw [execSignalWrite_eq v s h.1]
  congr 1
  exact (State.pass_only n h.2.2.2 h.2.2.1).2 _ hv

/-- Writing a word of one slot leaves every other slot as it is. -/
theorem slotState_putSlot {m : Memory} (hm : m.wf = true) {n j : SlotId} (hj : j ≠ n) (off : Nat) (ho : off + 1 < 64) (w : Word) :
    slotState (Memory.writeWord m (slotAt n + off) w) j = slotState m j := by
  refine slotWord_congr j _ (by decide) fun a ha => ?_
  rw [Memory.read_writeWord hm, if_neg, if_neg]
  · exact fun q => hj (inSlot_unique ha ⟨by omega, by omega⟩)
  · exact fun q => hj (inSlot_unique ha ⟨by omega, by omega⟩)

/-- No assignment is made during an engine reset (R115). -/
theorem State.allocate_resetting (m : Nat) {n : SlotId} {t : State} (h : t.orders.resetting = some n) : t.allocate m = t := by
  cases m with
  | zero => rfl
  | succ m =>
    unfold State.allocate
    rw [if_pos (by simp [State.resetting, h])]

theorem State.settle_resetting {n : SlotId} {t : State} (h : t.orders.resetting = some n) : t.settle.ctxs = t.ctxs := by
  have r := ((Rest.sweepTest t).trans (Rest.sweepTest _)).trans (Rest.closeTest _)
  have hr : (t.sweepTest.sweepTest.closeTest).orders.resetting = some n := (congrArg OrderEngine.resetting r.scan).trans h
  unfold State.settle
  rw [State.allocate_resetting 8 hr]
  simp

theorem hasAttn_rise {a c : BitVec 6} {b : AttnBit} (h : a &&& b.bit = b.bit) (hr : a &&& c = a) : c &&& b.bit = b.bit := by
  rw [← h, ← BitVec.and_assoc, BitVec.and_comm c, hr]

/-- A completion in the visit of the one POSTED slot. -/
theorem execSignalWrite_done (v : Word) (n : SlotId) (s m s' : State) (h : s.visits n) (final : Word) (hf : final ≠ Config.stPosted)
    (r : OrderResult) (f : State → State) (hfm : f s = m.completeSlot n final r s.sweep.openEdition)
    (hv : s.visit n = .goOn (event (fun s => (f s).settle) s)) (hmm : m.mem = s.mem) (hmc : m.clock = s.clock)
    (hs : m.self = s.self) {d : Touch} (hd : d.slots = (· = n)) (hR : Rest d s' (m.setHalt none)) :
    ∃ t, execSignalWrite v s = .next t ∧
      t.slotShows n final r.code r.w0 r.w1 r.w2 r.w3 s.sweep.openEdition s.clock ∧ t.hasAttn .orderDone ∧
      t.clock = s.clock ∧ t.self = s.self ∧ t.orders.taken[n] = none ∧ Rest d s' t ∧
      t.dir = (f s).settle.dir ∧ t.port.attention = (f s).settle.port.attention := by
  have hm : m.memOk := by unfold State.memOk; rw [hmm]; exact h.2.1
  have hr := execSignalWrite_goOn v n s h f hv (by rw [hfm]; exact State.completeSlot_memOk _ _ _ _ _ hm) (by
    intro j hj
    rw [hfm]
    have := State.nonePosted_complete (s := m) (l := [j]) (by
      intro i hi
      rw [List.mem_singleton.mp hi]
      have := h.2.2.2.2 j hj
      unfold slotState at *
      rw [hmm]; exact this) hm n final hf r s.sweep.openEdition
    exact this j (by simp))
  refine ⟨_, hr, ?_⟩
  have hshow := State.completeSlot_shows n final r s.sweep.openEdition m hm
  rw [hmc] at hshow
  have hnot : ¬ (m.completeSlot n final r s.sweep.openEdition).sweepSlot n := by
    rintro ⟨x, a, b, hx, _⟩
    rw [State.completeSlot_taken, if_pos rfl] at hx
    cases hx
  have rs : Rest {} (m.completeSlot n final r s.sweep.openEdition) (State.stamp s (f s).settle) := by
    rw [← hfm]
    exact (Rest.settle _).stamp s
  have hm2 := State.completeSlot_memOk n final r s.sweep.openEdition m hm
  refine ⟨?_, ?_, ?_, ?_, ?_, ?_, rfl, rfl⟩
  · have := rs.slotShows hm2 n (fun x => x) hnot hshow
    exact this
  · refine hasAttn_rise (a := (m.completeSlot n final r s.sweep.openEdition).port.attention) ?_ rs.attention
    rw [State.completeSlot_attention]
    exact attn_hasOr _ _
  · show (State.stamp s (f s).settle).clock = _
    rw [State.stamp_clock, State.settle_clock, hfm]
    simp [hmc]
  · show (State.stamp s (f s).settle).self = _
    rw [State.stamp_self, hfm]
    simp [hs]
  · show (State.stamp s (f s).settle).orders.taken[n] = _
    rw [rs.taken n (fun x => x) hnot, State.completeSlot_taken, if_pos rfl]
  · -- Rest
    have r1 := Rest.completeSlot n final r s.sweep.openEdition m
    have r2 := r1.trans (rs.widen)
    -- move setHalt through
    have halt : ∀ {d : Touch} {a b : State}, Rest d a b → Rest d (a.setHalt none) (b.setHalt none) := by
      intro d a b hab
      refine { hab with scan := ?_, taken := fun n => hab.taken n, mem := fun hm => hab.mem hm }
      have := hab.scan
      unfold OrderEngine.scan at this ⊢
      simp only [State.setHalt, State.updOrders_orders]
      simp only [OrderEngine.mk.injEq] at this ⊢
      simp [this]
    have r3 := halt r2
    have r3' : Rest d (m.setHalt none) ((State.stamp s (f s).settle).setHalt none) :=
      r3.mono (fun _ x => x.elim) (fun _ x => x.elim) (fun _ x => x.elim) (by intro j hj; rw [hd]; exact hj)
    exact hR.trans r3'

/-- Once START is clear the kind's own checks decide (R166). -/
theorem State.judge_started {n : SlotId} {s : State} {k : Nat} (hk : (slotKind s.mem n).toNat = k) (h1 : 1 ≤ k) (h2 : k ≤ 16)
    (hs : s.orders.start = false) : s.judge n = match parseOrder s.mem n with
      | .refused r w => .refused r w
      | .order o => match s.checkOrder o with
        | some r => .refused r 0
        | none => if s.takingOffers o && decide (Config.poolQueueDepth ≤ s.pool.queue.length) then .halted else .taken o := by
  unfold State.judge
  have : kindKnown (slotKind s.mem n) = true := by
    unfold kindKnown
    rw [hk]; simp [h1, h2]
  rw [this, hs]
  rfl

theorem asFin_some {m x : Nat} (i : Fin m) (h : x = i.val) : asFin m x = some i := by
  subst h
  unfold asFin
  simp

/-- What a visit's refusals, takings and halts keep, a pass keeps. -/
theorem State.passFrom_induct (P : State → Prop) (hhalt : ∀ h s, P s → P (s.setHalt h))
    (hrefuse : ∀ n r w (s : State), P s → P (event (fun s => (s.refuseSlot n r w s.sweep.openEdition).settle) s))
    (htake : ∀ n o (s : State), s.judge n = .taken o → P s → P (event (fun s => (s.take n o).settle) s))
    (l : List SlotId) (s : State) (hs : P s) : P (s.passFrom l) := by
  induction l generalizing s with
  | nil => exact hhalt none s hs
  | cons n l ih =>
    have key : (∀ t, s.visit n = .goOn t → P t) ∧ (∀ t, s.visit n = .ended t → P t) := by
      unfold State.visit
      split
      · split
        · exact ⟨fun t h => Visit.goOn.inj h ▸ hrefuse _ _ _ _ hs, fun t h => nomatch h⟩
        · exact ⟨fun t h => (nomatch h), fun t h => Visit.ended.inj h ▸ hhalt _ _ hs⟩
        · next h0 => exact ⟨fun t h => (nomatch h), fun t h => Visit.ended.inj h ▸ htake _ _ _ h0 hs⟩
        · next h0 => exact ⟨fun t h => Visit.goOn.inj h ▸ htake _ _ _ h0 hs, fun t h => nomatch h⟩
      · exact ⟨fun t h => Visit.goOn.inj h ▸ hs, fun t h => nomatch h⟩
    show P (match s.visit n with
      | .goOn t => State.passFrom l t
      | .ended t => t)
    cases hv : s.visit n with
    | goOn t => exact ih t (key.1 t hv)
    | ended t => exact key.2 t hv

theorem State.pass_induct (P : State → Prop) (hhalt : ∀ h s, P s → P (s.setHalt h))
    (hrefuse : ∀ n r w (s : State), P s → P (event (fun s => (s.refuseSlot n r w s.sweep.openEdition).settle) s))
    (htake : ∀ n o (s : State), s.judge n = .taken o → P s → P (event (fun s => (s.take n o).settle) s)) (s : State)
    (hs : P s) : P s.pass := by
  unfold State.pass
  split
  · exact hs
  · exact State.passFrom_induct P hhalt hrefuse htake _ s hs

end Sys2Proof.Machine
end

