-- ==== Sys2Proof/Laws/Endings.lean ====
section
/-! SUPPORT. What the endings of reads and erases may touch, and what the orders they complete show. -/

namespace Sys2Proof.Machine

/-! ### Rest -/

theorem Rest.sweepTake (u : UnitId) (out : UnitOutcome) (s : State) : Rest {} s (s.sweepTake u out) := by
  unfold State.sweepTake
  split
  · exact (Rest.writeEntry_record u _ s rfl).trans (Rest.updSweep _ _)
  · exact Rest.refl _ _

theorem Rest.skipPending (u : UnitId) (s : State) : Rest {} s (s.skipPending u) := by
  unfold State.skipPending
  split
  · exact (Rest.writeEntry_record u _ s rfl).trans (Rest.updSweep _ _)
  · exact Rest.refl _ _

theorem Rest.offerDelist (u : UnitId) (s : State) : Rest {} s (s.offerDelist u) := by
  unfold State.offerDelist
  split
  · split
    · exact (Rest.skipPending u s).trans (Rest.offer _ _)
    · exact Rest.skipPending u s
  · exact Rest.refl _ _

theorem Rest.completeUnitOrder (out : UnitOutcome) (n : SlotId) (s : State) :
    Rest { slots := (· = n) } s (s.completeUnitOrder out n) := by
  unfold State.completeUnitOrder
  split
  · split
    · exact Rest.completeSlot _ _ _ _ _
    · exact Rest.completeSlot _ _ _ _ _
    · exact Rest.refl _ _
  · exact Rest.refl _ _

theorem Rest.completeUnitOrders (out : UnitOutcome) (slots : List SlotId) (s : State) :
    Rest { slots := (· ∈ slots) } s (s.completeUnitOrders out slots) := by
  unfold State.completeUnitOrders
  induction slots generalizing s with
  | nil => exact Rest.refl _ _
  | cons n l ih =>
    refine Rest.trans (d := { slots := (· ∈ n :: l) }) (t := s.completeUnitOrder out n) ?_ ?_
    · exact (Rest.completeUnitOrder out n s).mono (fun _ x => x) (fun _ x => x) (fun _ x => x) fun j hj => by
        rw [show j = n from hj]; exact List.mem_cons_self
    · exact (ih (s.completeUnitOrder out n)).mono (fun _ x => x) (fun _ x => x) (fun _ x => x) fun j hj =>
        List.mem_cons_of_mem _ hj

theorem Channel.orphan_link (k : CtxId) (c : Channel) : (c.orphan k).link = c.link := rfl

theorem Rest.freeContext (k : CtxId) (s : State) :
    Rest { ctxs := (· = k), chans := (· = s.ctxs[k].channel) } s (s.freeContext k) := by
  unfold State.freeContext
  exact Rest.trans (d := { ctxs := (· = k), chans := (· = s.ctxs[k].channel) })
    ((Rest.updChan _ _ s).mono (fun _ x => x.elim) (fun _ x => x) (fun _ x => x) fun _ x => x)
    ((Rest.updCtx k _ _).mono (fun _ x => x) (fun _ x => x.elim) (fun _ x => x) fun _ x => x)

theorem State.freeContext_link (k : CtxId) (s : State) (c : ChanId) : (s.freeContext k).chans[c].link = s.chans[c].link := by
  unfold State.freeContext
  rw [State.updCtx_chans, State.updChan_get]
  split
  · next h => rw [h]; rfl
  · rfl

/-- A COMMITTING context's end. -/
theorem Rest.endCommitting (k : CtxId) (out : UnitOutcome) (s : State) :
    Rest { ctxs := (· = k), chans := (· = s.ctxs[k].channel), slots := (· ∈ slotsOf s.ctxs[k].attached) } s
      (s.endCommitting k out) := by
  unfold State.endCommitting
  dsimp only
  refine Rest.trans ?_ (Rest.offerDelist _ _).widen
  refine Rest.trans ?_ ((Rest.completeUnitOrders _ _ _).mono (fun _ x => x.elim) (fun _ x => x.elim) (fun _ x => x) fun _ x => x)
  have h := (Rest.freeContext k s).mono
    (e := { ctxs := (· = k), chans := (· = s.ctxs[k].channel), slots := (· ∈ slotsOf s.ctxs[k].attached) })
    (fun _ x => x) (fun _ x => x) (fun _ x => x) fun _ x => x.elim
  split
  · exact h.trans (Rest.sweepTake _ _ _).widen
  · exact h

/-! ### Completed orders -/

/-- Completing other slots leaves a slot's result. -/
theorem State.completeUnitOrders_other (out : UnitOutcome) (slots : List SlotId) (s : State) (n : SlotId) (hn : n ∉ slots)
    (hs : ¬ s.sweepSlot n) : (s.completeUnitOrders out slots).orders.taken[n] = s.orders.taken[n] :=
  (Rest.completeUnitOrders out slots s).taken n hn hs

/-- What the slot of a waiting order shows once the orders of its unit have completed (R113, R168). -/
theorem State.completeUnitOrders_shows (out : UnitOutcome) (slots : List SlotId) (hd : slots.Nodup) (s : State) (hm : s.memOk)
    (n : SlotId) (hn : n ∈ slots) (x : Taken) (hx : s.orders.taken[n] = some x) (r : OrderResult)
    (hr : ∀ t : State, t.dir = s.dir → t.orders.taken[n] = some x →
      t.completeUnitOrder out n = t.doneSlot n r x.edition) :
    (s.completeUnitOrders out slots).slotShows n 3 r.code r.w0 r.w1 r.w2 r.w3 x.edition s.clock ∧
      (s.completeUnitOrders out slots).orders.taken[n] = none ∧ (s.completeUnitOrders out slots).hasAttn .orderDone := by
  have hns : ¬ s.sweepSlot n := by
    rintro ⟨y, m, b, hy, ho⟩
    rw [hx] at hy
    cases hy
    have h := hr s rfl hx
    unfold State.completeUnitOrder at h
    rw [hx] at h
    simp only [ho] at h
    have h2 := congrArg (fun t => t.orders.taken[n]) h
    simp only [hx] at h2
    rw [State.doneSlot, State.completeSlot_taken, if_pos rfl] at h2
    cases h2
  induction slots generalizing s with
  | nil => cases hn
  | cons a l ih =>
    obtain ⟨hal, hl⟩ := List.nodup_cons.mp hd
    show ((s.completeUnitOrder out a).completeUnitOrders out l).slotShows n 3 r.code r.w0 r.w1 r.w2 r.w3 x.edition s.clock ∧
      ((s.completeUnitOrder out a).completeUnitOrders out l).orders.taken[n] = none ∧
      ((s.completeUnitOrder out a).completeUnitOrders out l).hasAttn .orderDone
    by_cases ha : n = a
    · subst ha
      rw [hr s rfl hx]
      have r1 := Rest.completeUnitOrders out l (s.doneSlot n r x.edition)
      have hs2 : ¬ (s.doneSlot n r x.edition).sweepSlot n := by
        rintro ⟨y, m, b, hy, _⟩
        rw [State.doneSlot, State.completeSlot_taken, if_pos rfl] at hy
        cases hy
      refine ⟨?_, ?_, ?_⟩
      · exact r1.slotShows (State.completeSlot_memOk _ _ _ _ _ hm) n hal hs2 (State.completeSlot_shows _ _ _ _ _ hm)
      · rw [r1.taken n hal hs2, State.doneSlot, State.completeSlot_taken, if_pos rfl]
      · refine hasAttn_rise (a := (s.doneSlot n r x.edition).port.attention) ?_ r1.attention
        rw [State.doneSlot, State.completeSlot_attention]
        exact attn_hasOr _ _
    · have r1 := Rest.completeUnitOrder out a s
      have hn' : n ∈ l := by
        rcases List.mem_cons.mp hn with h | h
        · exact absurd h ha
        · exact h
      have hx' : (s.completeUnitOrder out a).orders.taken[n] = some x := by
        rw [r1.taken n ha hns]; exact hx
      have hdir : (s.completeUnitOrder out a).dir = s.dir := by simp
      have hclk : (s.completeUnitOrder out a).clock = s.clock := by simp
      have := ih hl (s.completeUnitOrder out a) (r1.mem hm).1 hn' hx' (fun t h1 h2 => hr t (h1.trans hdir) h2) (by
        intro h
        rcases r1.sweepSlot n h with h | h
        · exact ha h
        · exact hns h)
      rw [hclk] at this
      exact this

theorem State.completeUnitOrder_read {s t : State} {n : SlotId} {x : Taken} {u : UnitId} (out : UnitOutcome)
    (ho : x.order = .readUnit u) (hd : t.dir = s.dir) (hx : t.orders.taken[n] = some x) :
    t.completeUnitOrder out n = t.doneSlot n (readWords s.dir[u] (BitVec.ofNat 16 out.code)) x.edition := by
  unfold State.completeUnitOrder
  rw [hx]
  simp only [ho, hd]

theorem State.completeUnitOrder_erase {s t : State} {n : SlotId} {x : Taken} {u : UnitId} (out : UnitOutcome)
    (ho : x.order = .eraseUnit u) (hd : t.dir = s.dir) (hx : t.orders.taken[n] = some x) :
    t.completeUnitOrder out n = t.doneSlot n (eraseWords s.dir[u] (BitVec.ofNat 16 out.code)) x.edition := by
  unfold State.completeUnitOrder
  rw [hx]
  simp only [ho, hd]

theorem slotsOf_nodup (b : BitVec 16) : (slotsOf b).Nodup := List.Nodup.filter _ (by decide)

theorem mem_slotsOf {b : BitVec 16} {n : SlotId} : n ∈ slotsOf b ↔ hasSlot b n = true := by
  unfold slotsOf
  rw [List.mem_filter]
  have : ∀ n : SlotId, n ∈ allSlots := by decide
  exact ⟨fun h => h.2, fun h => ⟨this n, h⟩⟩

/-! ### The end of a pool operation -/

/-- The summary's write and the end of the operation touch the pool alone. -/
theorem Rest.finishPool (w : PoolWork) (s : State) : Rest {} (s.updPool (Pool.finish w)) (s.finishPool w) := by
  unfold State.finishPool
  dsimp only
  split
  · exact Rest.raiseAttn _ _
  · exact Rest.refl _ _

theorem Rest.logExhausted (w : PoolWork) (s : State) : Rest {} s (s.logExhausted w) := by
  unfold State.logExhausted
  dsimp only
  split <;> split
  · exact (Rest.logSelfNat _ _ _).trans (Rest.logSelfNat _ _ _)
  · exact Rest.logSelfNat _ _ _
  · exact Rest.logSelfNat _ _ _
  · exact Rest.refl _ _

theorem Rest.reportSelf (n : SlotId) (out : UnitOutcome) (s : State) :
    Rest { slots := (· = n) } s (s.reportSelf (.slot n) out) := Rest.completeUnitOrder _ _ _

/-- A directory write and a write of the pool change places. -/
theorem State.writeEntry_updPool (u : UnitId) (f : DirEntry → DirEntry) (g : Pool → Pool) (s : State) :
    (s.writeEntry u f).updPool g = (s.updPool g).writeEntry u f := by
  unfold State.writeEntry
  dsimp only [State.updPool_dir]
  split <;> rfl

/-- A pool operation's command runs the operation in progress. -/
theorem runOperation_eq {r : PoolRequest} {o : PoolOp} {s : State} (h : s.operates r o) (f : PoolOp → Option (State → State)) (g : State → State)
    (hf : f o = some g) : runOperation f s = State.stamp s (g s).settle := by
  unfold runOperation
  rw [h.2.1]
  dsimp only
  rw [hf]
  exact settledEvent_eq g s h.1

/-- Follow-up work and the stamp touch nothing more. -/
theorem Rest.settled {d : Touch} {b s m : State} (h : Rest d b m) : Rest d b (State.stamp s m.settle) :=
  (h.trans (Rest.settle m).widen).stamp s

/-- A crossing below 64 free records raises POOL_LOW (R23). -/
theorem State.finishPool_low (w : PoolWork) (s : State) (h1 : 64 ≤ s.pool.freeCount) (h2 : w.freeCount < 64) :
    (s.finishPool w).port.attention &&& AttnBit.poolLow.bit = AttnBit.poolLow.bit := by
  unfold State.finishPool
  have : crossesLow s.pool.freeCount w.freeCount = true := by
    simp [crossesLow, Config.poolLowMark, h1, h2]
  dsimp only
  rw [this, if_pos rfl]
  exact attn_hasOr _ _

theorem State.finishPool_frame (w : PoolWork) (s : State) : (s.finishPool w).dir = s.dir ∧ (s.finishPool w).mem = s.mem ∧
   (s.finishPool w).orders = s.orders ∧ (s.finishPool w).ctxs = s.ctxs ∧ (s.finishPool w).clock = s.clock ∧ (s.finishPool w).self = s.self ∧ (s.finishPool w).chans = s.chans ∧ (s.finishPool w).sweep = s.sweep := by
  unfold State.finishPool
  dsimp only
  split <;> simp

theorem State.logExhausted_frame (w : PoolWork) (s : State) : (s.logExhausted w).dir = s.dir ∧ (s.logExhausted w).mem = s.mem ∧
   (s.logExhausted w).orders = s.orders ∧ (s.logExhausted w).ctxs = s.ctxs ∧ (s.logExhausted w).clock = s.clock ∧ (s.logExhausted w).chans = s.chans ∧ (s.logExhausted w).sweep = s.sweep := by
  unfold State.logExhausted
  dsimp only
  split <;> split <;> simp

theorem DirEntry.followed_idle {e f : DirEntry} (h : e.followed f) (he : e.state = .idle) : f.state = .idle ∨ f.state = .reading ∨ f.state = .erasing := by
  unfold DirEntry.followed at h
  rcases h.2 with h2 | h2
  · left; rw [h2.1, he]
  · right
    rcases h2 with h2 
    tauto

/-- A completed slot keeps showing its result through follow-up work. -/
theorem Rest.shows_after {G U : State} (r : Rest {} G U) (hm : G.memOk) (n : SlotId) (hn : G.orders.taken[n] = none) {f c w0 w1 w2 w3 : Word}
    {ed : Edition} {at_ : Clock} (hs : G.slotShows n f c w0 w1 w2 w3 ed at_) (ha : G.hasAttn .orderDone) :
    U.slotShows n f c w0 w1 w2 w3 ed at_ ∧ U.orders.taken[n] = none ∧ U.hasAttn .orderDone := by
  have hns : ¬ G.sweepSlot n := by rintro ⟨y, _, _, hy, _⟩; rw [hn] at hy; cases hy
  exact ⟨r.slotShows hm n (fun x => x) hns hs, (r.taken n (fun x => x) hns).trans hn, hasAttn_rise ha r.attention⟩

/-- What taking credits and placing frames keep, service of a line keeps. -/
theorem State.serveLine_induct (P : State → Prop) (ch : ChanId) (h1 : ∀ (f : Pacer → Pacer) s, P s → P (s.updPacer ch f))
    (h2 : ∀ k s, P s → P (s.placeGranted k)) (n : Nat) (s : State) (h : P s) : P (s.serveLine ch n) := by
  induction n generalizing s with
  | zero => exact h
  | succ n ih =>
    unfold State.serveLine
    split
    · exact h
    · split
      · exact h
      · split
        · exact ih _ (h2 _ _ (h1 _ _ h))
        · exact h

/-- What every assignment keeps, the allocator keeps. -/
theorem State.allocate_induct (P : State → Prop) (h : ∀ k u p (s : State), s.ctxs[k].state = .free → s.nextUnit = some (u, p) → P s → P (s.assign k u p))
    (n : Nat) (s : State) (hs : P s) : P (s.allocate n) := by
  induction n generalizing s with
  | zero => exact hs
  | succ n ih =>
    unfold State.allocate
    split
    · exact hs
    · split
      · next k u p hk hu =>
        exact ih _ (h _ _ _ _ (by have := List.find?_some hk; simpa using this) hu hs)
      · exact hs

end Sys2Proof.Machine
end

