-- ==== Sys2Proof/Laws/Pool.lean ====
section
/-! SUPPORT. What the pool's walks leave of the three collections: retirement of a chain, and release of a prefix. -/

namespace Sys2Proof.Machine

theorem PoolWork.writeRecord_get (r : RecId) (f : FaultRecord → FaultRecord) (w : PoolWork) (j : RecId) :
    (w.writeRecord r f).records[j] =
      if j = r then { f w.records[r] with revision := nextRecordRevision w.records[r].revision } else w.records[j] := by
  simp only [PoolWork.writeRecord, Fin.getElem_fin, Vector.getElem_set, Fin.ext_iff, eq_comm]

/-- A collection is read through its own links alone. -/
theorem linked_congr {rs rs' : Vector FaultRecord 1536} {h : Option RecId} {l : List RecId} (hl : linked rs h l)
    (hk : ∀ r ∈ l, rs'[r].link = rs[r].link) : linked rs' h l := by
  induction l generalizing h with
  | nil => exact hl
  | cons a l ih =>
    refine ⟨hl.1, ?_⟩
    rw [hk a List.mem_cons_self]
    exact ih hl.2 fun r hr => hk r (List.mem_cons_of_mem _ hr)

theorem linked_head {rs : Vector FaultRecord 1536} {h : Option RecId} {l : List RecId} (hl : linked rs h l) : h = l.head? := by
  cases l with
  | nil => exact hl
  | cons a l => exact hl.1

/-- A record joins a collection at its end. -/
theorem linked_append {rs rs' : Vector FaultRecord 1536} {h : Option RecId} {q : List RecId} (r : RecId) (hl : linked rs h q)
    (hr : r ∉ q) (hn : q.Nodup) (hk : ∀ j ∈ q, q.getLast? ≠ some j → rs'[j].link = rs[j].link)
    (ht : ∀ t, q.getLast? = some t → rs'[t].link = some r) (he : rs'[r].link = none) :
    linked rs' (if q = [] then some r else h) (q ++ [r]) := by
  induction q generalizing h with
  | nil => exact ⟨rfl, he⟩
  | cons a q ih =>
    obtain ⟨ha, hq⟩ := hl
    obtain ⟨hna, hnq⟩ := List.nodup_cons.mp hn
    rw [if_neg (by simp)]
    refine ⟨ha, ?_⟩
    show linked rs' rs'[a].link (q ++ [r])
    cases q with
    | nil =>
      rw [ht a rfl]
      exact ⟨rfl, he⟩
    | cons b q =>
      have hab : rs'[a].link = rs[a].link := by
        refine hk a List.mem_cons_self ?_
        rw [List.getLast?_cons_cons]
        intro h
        exact hna (List.mem_of_getLast? h)
      rw [hab]
      have := ih hq (fun h => hr (List.mem_cons_of_mem _ h)) hnq
        (fun j hj hne => hk j (List.mem_cons_of_mem _ hj) (by rw [List.getLast?_cons_cons]; exact hne))
        (fun t h => ht t (by rw [List.getLast?_cons_cons]; exact h))
      rw [if_neg (by simp)] at this
      exact this

/-- No list of records without repeats is longer than the pool. -/
theorem nodup_length {l : List RecId} (h : l.Nodup) : l.length ≤ 1536 := by
  have := List.Nodup.length_le_card h
  simpa using this

/-! ### Release (R9, R21) -/

theorem PoolWork.releaseUpTo_spec (applied : Edition) (fuel : Nat) (q f : List RecId) (w : PoolWork)
    (hq : linked w.records w.retHead q) (hf : linked w.records w.freeTop f) (hn : (q ++ f).Nodup) (hl : q.length ≤ fuel)
    (gone : List RecId) (hg : gone = q.takeWhile fun r => decide ((w.records[r].retired).toNat ≤ applied.toNat)) :
    let v := w.releaseUpTo applied fuel
    linked v.records v.retHead (q.drop gone.length) ∧ linked v.records v.freeTop (gone.reverse ++ f) ∧
      (∀ r ∈ gone, v.records[r] = FaultRecord.freed v.records[r].link) ∧ (∀ r, r ∉ gone → v.records[r] = w.records[r]) ∧
      v.freeCount = w.freeCount + gone.length ∧ v.retCount = w.retCount - gone.length ∧ v.liveCount = w.liveCount ∧
      v.reclaimed = w.reclaimed ∧ v.failed = w.failed := by
  induction fuel generalizing q f w gone with
  | zero =>
    have : q = [] := List.length_eq_zero_iff.mp (Nat.le_zero.mp hl)
    subst this
    subst hg
    exact ⟨hq, hf, by simp, fun _ _ => rfl, rfl, rfl, rfl, rfl, rfl⟩
  | succ fuel ih =>
    cases q with
    | nil =>
      subst hg
      have h0 : w.retHead = none := hq
      have : w.releaseUpTo applied (fuel + 1) = w := by unfold PoolWork.releaseUpTo; rw [h0]
      intro v
      have hv : v = w := this
      rw [hv]
      exact ⟨hq, hf, by simp, fun _ _ => rfl, rfl, rfl, rfl, rfl, rfl⟩
    | cons r q =>
      obtain ⟨hr, hq'⟩ := hq
      rw [List.cons_append, List.nodup_cons] at hn
      obtain ⟨hrn, hn⟩ := hn
      by_cases hc : (w.records[r].retired).toNat ≤ applied.toNat
      · have hstep : w.releaseUpTo applied (fuel + 1) = (w.freeHead r).releaseUpTo applied fuel := by
          rw [PoolWork.releaseUpTo, hr]
          dsimp only
          rw [if_pos hc]
        have hget : ∀ j, j ≠ r → (w.freeHead r).records[j] = w.records[j] := by
          intro j hj
          simp only [PoolWork.freeHead, Fin.getElem_fin, Vector.getElem_set]
          rw [if_neg fun h => hj (Fin.ext h.symm)]
        have hself : (w.freeHead r).records[r] = FaultRecord.freed w.freeTop := by
          simp [PoolWork.freeHead]
        have hgone : gone = r :: q.takeWhile fun r => decide ((w.records[r].retired).toNat ≤ applied.toNat) := by
          rw [hg, List.takeWhile_cons_of_pos (by simpa using hc)]
        obtain ⟨g, hg'⟩ : ∃ g, g = q.takeWhile fun r => decide ((w.records[r].retired).toNat ≤ applied.toNat) := ⟨_, rfl⟩
        rw [← hg'] at hgone
        have hsub : ∀ x ∈ g, x ∈ q := by rw [hg']; exact fun x hx => (List.takeWhile_sublist _).subset hx
        have hg2 : g = q.takeWhile fun x => decide (((w.freeHead r).records[x].retired).toNat ≤ applied.toNat) := by
          rw [hg']
          have : ∀ l : List RecId, r ∉ l → (l.takeWhile fun x => decide ((w.records[x].retired).toNat ≤ applied.toNat)) =
              l.takeWhile fun x => decide (((w.freeHead r).records[x].retired).toNat ≤ applied.toNat) := by
            intro l hl
            induction l with
            | nil => rfl
            | cons b l ihl =>
              have hb : b ≠ r := fun e => hl (e ▸ List.mem_cons_self)
              rw [List.takeWhile_cons, List.takeWhile_cons, hget b hb, ihl fun h => hl (List.mem_cons_of_mem _ h)]
          exact this q fun h => hrn (List.mem_append_left _ h)
        have key := ih q (r :: f) (w.freeHead r)
          (linked_congr hq' fun j hj => by rw [hget j fun e => hrn (List.mem_append_left _ (e ▸ hj))])
          ⟨rfl, by
            rw [hself]
            exact linked_congr hf fun j hj => by rw [hget j fun e => hrn (List.mem_append_right _ (e ▸ hj))]⟩
          (by
            refine List.nodup_middle.mpr ?_
            exact List.nodup_cons.mpr ⟨hrn, hn⟩)
          (by simpa using hl) g hg2
        rw [hstep, hgone]
        obtain ⟨k1, k2, k3, k4, k5, k6, k7, k8, k9⟩ := key
        have hrg : r ∉ g := fun h => hrn (List.mem_append_left _ (hsub r h))
        refine ⟨by simpa using k1, by simpa using k2, fun x hx => ?_, fun x hx => ?_, ?_, ?_, k7, k8, k9⟩
        · rcases List.mem_cons.mp hx with rfl | hx
          · rw [k4 x hrg, hself]
            rfl
          · exact k3 x hx
        · rw [k4 x fun h => hx (List.mem_cons_of_mem _ h), hget x fun e => hx (e ▸ List.mem_cons_self)]
        · rw [k5]
          show w.freeCount + 1 + g.length = _
          simp
          omega
        · rw [k6]
          show w.retCount - 1 - g.length = _
          simp
          omega
      · have hstep : w.releaseUpTo applied (fuel + 1) = w := by
          rw [PoolWork.releaseUpTo, hr]
          dsimp only
          rw [if_neg hc]
        have hgone : gone = [] := by rw [hg, List.takeWhile_cons_of_neg (by simpa using hc)]
        rw [hstep, hgone]
        exact ⟨⟨hr, hq'⟩, hf, by simp, fun _ _ => rfl, rfl, rfl, rfl, rfl, rfl⟩

/-! ### Retirement of a chain (R8) -/

/-- A record but for its revision and link. -/
def FaultRecord.content (x : FaultRecord) : FaultRecord := { x with revision := 0, link := none }

/-- A record's content as a retirement leaves it. -/
def FaultRecord.retiredAs (st : RecState) (ed : Edition) (x : FaultRecord) : FaultRecord :=
  { x.content with state := st, changed := ed, retired := ed }

theorem PoolWork.retire_spec (st : RecState) (ed : Edition) (r : RecId) (q : List RecId) (w : PoolWork)
    (hq : linked w.records w.retHead q) (ht : w.retTail = q.getLast?) (hn : (r :: q).Nodup) :
    let v := w.retire st ed r
    linked v.records v.retHead (q ++ [r]) ∧ v.retTail = (q ++ [r]).getLast? ∧ v.retCount = w.retCount + 1 ∧
      v.liveCount = w.liveCount - 1 ∧ v.records[r].content = w.records[r].retiredAs st ed ∧
      (∀ j, j ≠ r → q.getLast? ≠ some j → v.records[j] = w.records[j]) ∧
      (∀ j, j ≠ r → v.records[j].content = w.records[j].content) ∧ v.freeTop = w.freeTop ∧ v.freeCount = w.freeCount ∧
      v.chainHead = w.chainHead ∧ v.reclaimed = w.reclaimed ∧ v.failed = w.failed ∧ v.chainCount = w.chainCount - 1 := by
  obtain ⟨hrq, hnq⟩ := List.nodup_cons.mp hn
  intro v
  obtain ⟨w1, h1⟩ : ∃ w1, w1 = w.writeRecord r fun x => { x with state := st, changed := ed, retired := ed, link := none } := ⟨_, rfl⟩
  have hv : v = { (match w1.retTail with
      | none => { w1 with retHead := some r }
      | some t => w1.writeLink t (some r)) with
      retTail := some r, chainCount := (match w1.retTail with
      | none => { w1 with retHead := some r }
      | some t => w1.writeLink t (some r)).chainCount - 1, liveCount := (match w1.retTail with
      | none => { w1 with retHead := some r }
      | some t => w1.writeLink t (some r)).liveCount - 1, retCount := (match w1.retTail with
      | none => { w1 with retHead := some r }
      | some t => w1.writeLink t (some r)).retCount + 1 } := by
    rw [h1]; rfl
  have htail : w1.retTail = q.getLast? := by rw [h1]; exact ht
  have g1 : ∀ j, w1.records[j] = if j = r then
      { w.records[r] with state := st, changed := ed, retired := ed, link := none, revision := nextRecordRevision w.records[r].revision }
      else w.records[j] := by
    intro j; rw [h1]; exact PoolWork.writeRecord_get _ _ _ _
  -- the two cases of the tail
  cases hql : q.getLast? with
  | none =>
    have hq0 : q = [] := List.getLast?_eq_none_iff.mp hql
    subst hq0
    rw [htail, hql] at hv
    simp only at hv
    have hrec : v.records = w1.records := by rw [hv]
    have hhead : v.retHead = some r := by rw [hv]
    refine ⟨⟨hhead, ?_⟩, by rw [hv]; rfl, by rw [hv, h1]; rfl, by rw [hv, h1]; rfl, ?_, fun j hj _ => ?_, fun j hj => ?_, by rw [hv, h1]; rfl, by rw [hv, h1]; rfl, by rw [hv, h1]; rfl, by rw [hv, h1]; rfl, by rw [hv, h1]; rfl, by rw [hv, h1]; rfl⟩
    · show v.records[r].link = none
      simp only [hrec, g1 r, if_pos]
    · simp only [hrec, g1 r, if_pos]; rfl
    · simp only [hrec, g1 j, if_neg hj]
    · simp only [hrec, g1 j, if_neg hj]
  | some t =>
    rw [htail, hql] at hv
    simp only at hv
    have hrec : ∀ j, v.records[j] = if j = t then { w1.records[t] with link := some r, revision := nextRecordRevision w1.records[t].revision } else w1.records[j] := by
      intro j
      rw [hv]
      exact PoolWork.writeRecord_get t (fun x => { x with link := some r }) w1 j
    have htr : t ≠ r := fun e => hrq (e ▸ List.mem_of_getLast? hql)
    have hne : q ≠ [] := by rintro rfl; cases hql
    have hhead : v.retHead = w.retHead := by rw [hv, h1]; rfl
    refine ⟨?_, by rw [hv]; simp, by rw [hv, h1]; rfl, by rw [hv, h1]; rfl, ?_, fun j hj hjt => ?_, fun j hj => ?_, by rw [hv, h1]; rfl, by rw [hv, h1]; rfl, by rw [hv, h1]; rfl, by rw [hv, h1]; rfl, by rw [hv, h1]; rfl, by rw [hv, h1]; rfl⟩
    · have := linked_append (rs' := v.records) r hq hrq hnq (fun j hj hl => by
          rw [hrec j, if_neg (fun e => hl (by rw [e]; exact hql)), g1 j, if_neg fun e : j = r => hrq (e ▸ hj)])
        (fun x hx => by
          rw [hql] at hx
          cases hx
          rw [hrec t, if_pos rfl])
        (by rw [hrec r, if_neg htr.symm, g1 r, if_pos rfl])
      rw [if_neg hne, ← hhead] at this
      exact this
    · rw [hrec r, if_neg htr.symm, g1 r, if_pos rfl]; rfl
    · rw [hrec j, if_neg (fun e => hjt (by rw [e])), g1 j, if_neg hj]
    · rw [hrec j]
      split
      · next e => subst e; rw [g1 j, if_neg hj]; rfl
      · rw [g1 j, if_neg hj]

theorem PoolWork.retireAll_spec (st : RecState) (ed : Edition) (fuel : Nat) (l q : List RecId) (w : PoolWork)
    (hl : linked w.records w.chainHead l) (hq : linked w.records w.retHead q) (ht : w.retTail = q.getLast?)
    (hn : (l ++ q).Nodup) (hf : l.length < fuel) :
    let v := w.retireAll st ed fuel
    linked v.records v.retHead (q ++ l) ∧ v.retTail = (q ++ l).getLast? ∧ v.retCount = w.retCount + l.length ∧
      v.liveCount = w.liveCount - l.length ∧ (∀ r ∈ l, v.records[r].content = w.records[r].retiredAs st ed) ∧
      (∀ r, r ∉ l → q.getLast? ≠ some r → v.records[r] = w.records[r]) ∧
      (∀ r, r ∉ l → v.records[r].content = w.records[r].content) ∧ v.freeTop = w.freeTop ∧ v.freeCount = w.freeCount ∧
      v.chainHead = none ∧ v.reclaimed = w.reclaimed ∧ v.failed = w.failed ∧ v.chainCount = w.chainCount - l.length := by
  induction fuel generalizing l q w with
  | zero => omega
  | succ fuel ih =>
    cases l with
    | nil =>
      have h0 : w.chainHead = none := hl
      have : w.retireAll st ed (fuel + 1) = w := by unfold PoolWork.retireAll; rw [h0]
      rw [this]
      rw [List.append_nil]
      exact ⟨hq, ht, rfl, rfl, fun _ h => absurd h List.not_mem_nil, fun _ _ _ => rfl, fun _ _ => rfl, rfl, rfl, h0, rfl, rfl, rfl⟩
    | cons r l =>
      obtain ⟨hr, hl'⟩ := hl
      rw [List.cons_append, List.nodup_cons] at hn
      obtain ⟨hrn, hn⟩ := hn
      have hrl : r ∉ l := fun h => hrn (List.mem_append_left _ h)
      have hrq : r ∉ q := fun h => hrn (List.mem_append_right _ h)
      obtain ⟨w1, h1⟩ : ∃ w1, w1 = PoolWork.retire st ed r { w with chainHead := w.records[r].link } := ⟨_, rfl⟩
      have hstep : w.retireAll st ed (fuel + 1) = w1.retireAll st ed fuel := by
        rw [h1, PoolWork.retireAll, hr]
      have sp := PoolWork.retire_spec st ed r q { w with chainHead := w.records[r].link } hq ht
        (List.nodup_cons.mpr ⟨hrq, (List.nodup_append.mp hn).2.1⟩)
      rw [← h1] at sp
      obtain ⟨s1, s2, s3, s4, s5, s6, s7, s8, s9, s10, s11, s12, s13⟩ := sp
      have hdis : ∀ x ∈ l, x ∉ q := fun x hx hxq => (List.nodup_append.mp hn).2.2 x hx x hxq rfl
      have hlast : ∀ x ∈ l, q.getLast? ≠ some x := fun x hx h => hdis x hx (List.mem_of_getLast? h)
      have key := ih l (q ++ [r]) w1
        (by
          rw [s10]
          refine linked_congr hl' fun j hj => ?_
          rw [s6 j (fun e => hrl (e ▸ hj)) (hlast j hj)])
        s1 s2
        (by
          have : (l ++ (q ++ [r])).Nodup ↔ (r :: (l ++ q)).Nodup := by
            rw [← List.append_assoc]
            exact (List.perm_append_singleton r (l ++ q)).nodup_iff
          exact this.mpr (List.nodup_cons.mpr ⟨hrn, hn⟩))
        (by simpa using hf)
      rw [hstep]
      obtain ⟨k1, k2, k3, k4, k5, k6, k7, k8, k9, k10, k11, k12, k13⟩ := key
      rw [List.append_assoc, List.singleton_append] at k1 k2
      have hcon : ∀ x ∈ l, w1.records[x] = w.records[x] := fun x hx => s6 x (fun e => hrl (e ▸ hx)) (hlast x hx)
      refine ⟨k1, k2, ?_, ?_, fun x hx => ?_, fun x hx hq => ?_, fun x hx => ?_, k8.trans s8, k9.trans s9, k10, k11.trans s11, k12.trans s12, ?_⟩
      · rw [k3, s3]; simp; omega
      · rw [k4, s4]; simp; omega
      · rcases List.mem_cons.mp hx with rfl | hx
        · rw [k7 x hrl, s5]
        · rw [k5 x hx, hcon x hx]
      · have hxr : x ≠ r := fun e => hx (e ▸ List.mem_cons_self)
        rw [k6 x (fun h => hx (List.mem_cons_of_mem _ h)) (by simp; exact fun e => hxr e.symm), s6 x hxr hq]
      · have hxr : x ≠ r := fun e => hx (e ▸ List.mem_cons_self)
        rw [k7 x fun h => hx (List.mem_cons_of_mem _ h), s7 x hxr]
      · rw [k13, s13]; simp; omega

/-! ### The end of an operation -/

/-- The directory write and the summary's write touch one entry beside the pool. -/
theorem Rest.writeFinish (w : PoolWork) (s : State) (u : UnitId) (D : DirEntry → DirEntry) :
    Rest { units := (· = u) } (s.updPool (Pool.finish w)) ((s.writeEntry u D).finishPool w) := by
  have a := Rest.writeEntry u D (s.updPool (Pool.finish w))
  rw [← State.writeEntry_updPool] at a
  exact a.trans (Rest.finishPool w _).widen

/-- What is read of the pool beside its queues is what the operation's end wrote. -/
theorem Rest.pool_of_finish {G T : State} {w : PoolWork} {p : Pool} (r : Rest {} G T) (hG : G.pool.store = (Pool.finish w p).store) :
    ∀ {α : Type} (g : Pool → α), (∀ (p : Pool) a b, g { p with queue := a, waiting := b } = g p) → g T.pool = g (Pool.finish w p) := by
  intro α g hg
  have e1 : g T.pool = g T.pool.store := (hg _ _ _).symm
  rw [e1, r.store, hG]; exact hg _ _ _

end Sys2Proof.Machine
end

