-- ==== Sys2Proof/Laws/Merge.lean ====
section
/-! SUPPORT. What one step of the merge leaves of the chain, the free stack and the retired queue (R32 to R37). -/

namespace Sys2Proof.Machine

theorem linked_split {rs : Vector FaultRecord 1536} {h : Option RecId} {a b : List RecId} (hl : linked rs h (a ++ b)) :
    linked rs (if a = [] then h else match a.getLast? with | some t => rs[t].link | none => none) b := by
  induction a generalizing h with
  | nil => exact hl
  | cons x a ih =>
    have := ih hl.2
    cases a with
    | nil => exact this
    | cons y a =>
      rw [if_neg (by simp)] at this ⊢
      rw [List.getLast?_cons_cons]
      exact this

/-- A collection whose middle is relinked. -/
theorem linked_join {rs : Vector FaultRecord 1536} {h : Option RecId} {a b : List RecId} {m : Option RecId}
    (ha : ∀ t, a.getLast? = some t → rs[t].link = m) (hb : linked rs m b) (h0 : a = [] → h = m)
    (hh : a ≠ [] → h = a.head?) (hi : ∀ x y l1 l2, a = l1 ++ x :: y :: l2 → rs[x].link = some y) : linked rs h (a ++ b) := by
  induction a generalizing h with
  | nil => rw [h0 rfl]; exact hb
  | cons x a ih =>
    refine ⟨hh (by simp), ?_⟩
    refine ih (fun t ht => ha t ?_) (fun e => ?_) (fun e => ?_) (fun u v l1 l2 e => hi u v (x :: l1) l2 (by rw [e]; rfl))
    · cases a with
      | nil => cases ht
      | cons y a => rw [List.getLast?_cons_cons]; exact ht
    · subst e; exact ha x rfl
    · cases a with
      | nil => exact absurd rfl e
      | cons y a => exact hi x y [] a rfl

theorem linked_inner {rs : Vector FaultRecord 1536} {h : Option RecId} {l : List RecId} (hl : linked rs h l) :
    ∀ x y l1 l2, l = l1 ++ x :: y :: l2 → rs[x].link = some y := by
  induction l generalizing h with
  | nil => intro x y l1 l2 e; cases l1 <;> cases e
  | cons a l ih =>
    intro x y l1 l2 e
    cases l1 with
    | nil =>
      obtain ⟨rfl, rfl⟩ := List.cons.inj e
      exact hl.2.1
    | cons b l1 =>
      obtain ⟨_, e⟩ := List.cons.inj e
      exact ih hl.2 x y l1 l2 e

/-- The record before a position and the records up to it keep their order when what follows is relinked. -/
theorem linked_relink {rs rs' : Vector FaultRecord 1536} {h h' : Option RecId} {a b b' : List RecId} {m : Option RecId}
    (hl : linked rs h (a ++ b)) (hn : a.Nodup) (hk : ∀ r ∈ a, a.getLast? ≠ some r → rs'[r].link = rs[r].link)
    (ht : ∀ t, a.getLast? = some t → rs'[t].link = m) (h0 : a = [] → h' = m) (hh : a ≠ [] → h' = h)
    (hb : linked rs' m b') : linked rs' h' (a ++ b') := by
  refine linked_join ht hb h0 (fun hne => ?_) (fun x y l1 l2 e => ?_)
  · rw [hh hne, linked_head hl]
    cases a with
    | nil => exact absurd rfl hne
    | cons x a => rfl
  · have hx : rs[x].link = some y := linked_inner hl x y l1 (l2 ++ b) (by rw [e]; simp)
    rw [hk x (by rw [e]; simp) ?_, hx]
    intro hlast
    have : a.getLast? = (y :: l2).getLast? := by
      rw [e, List.getLast?_append, List.getLast?_cons_cons]
      cases hq : (y :: l2).getLast? with
      | none => simp at hq
      | some z => rfl
    rw [this] at hlast
    have hm := List.mem_of_getLast? hlast
    rw [e] at hn
    have := (List.nodup_append.mp hn).2.1
    exact (List.nodup_cons.mp this).1 hm

/-- A record taken from its collection, filled and linked in after the records passed (R36). -/
def PoolWork.place (u : UnitId) (ed : Edition) (e : ReadEntry) (prev next : Option RecId) (r : RecId) (w : PoolWork) : PoolWork :=
  let w := (w.writeRecord r (FaultRecord.filled u ed e next)).setNext prev (some r)
  { w with chainCount := w.chainCount + 1, liveCount := w.liveCount + 1 }

theorem PoolWork.create_eq (policy : PoolPolicy) (u : UnitId) (ed : Edition) (e : ReadEntry) (prev next : Option RecId)
    (w : PoolWork) :
    w.create policy u ed e prev next =
      match w.alloc policy with
      | none => (prev, { w with failed := true })
      | some (r, w) => (some r, w.place u ed e prev next r) := rfl

theorem PoolWork.place_spec (u : UnitId) (ed : Edition) (e : ReadEntry) (done rem f q : List RecId) (r : RecId) (w : PoolWork)
    (h : w.holds (done ++ rem) f q) (hr : r ∉ done ++ rem ++ f ++ q) :
    let v := w.place u ed e done.getLast? rem.head? r
    v.holds (done ++ r :: rem) f q ∧ v.records[r].content = (FaultRecord.filled u ed e none w.records[r]).content ∧
      (∀ j, j ≠ r → v.records[j].content = w.records[j].content) ∧
      (∀ j, j ≠ r → done.getLast? ≠ some j → v.records[j] = w.records[j]) ∧ v.failed = w.failed ∧
      v.freeCount = w.freeCount ∧ v.retCount = w.retCount ∧ v.chainCount = w.chainCount + 1 ∧
      v.liveCount = w.liveCount + 1 := by
  obtain ⟨hc, hf, hq, ht, hn⟩ := h
  let w2 := w.writeRecord r (FaultRecord.filled u ed e rem.head?)
  intro v
  have hv : v = { w2.setNext done.getLast? (some r) with
        chainCount := (w2.setNext done.getLast? (some r)).chainCount + 1
        liveCount := (w2.setNext done.getLast? (some r)).liveCount + 1 } := rfl
  have hmem : r ∉ done ∧ r ∉ rem ∧ r ∉ f ∧ r ∉ q := by
    simp only [List.mem_append, not_or] at hr
    exact ⟨hr.1.1.1, hr.1.1.2, hr.1.2, hr.2⟩
  have hdone : ∀ t, done.getLast? = some t → t ∈ done := fun t => List.mem_of_getLast?
  have hdf : ∀ t, t ∈ done → t ∉ rem ∧ t ∉ f ∧ t ∉ q := by
    simp only [List.append_assoc, List.nodup_append, List.mem_append] at hn
    exact fun t x => ⟨fun y => hn.2.2 t x t (.inl y) rfl, fun y => hn.2.2 t x t (.inr (.inl y)) rfl,
      fun y => hn.2.2 t x t (.inr (.inr y)) rfl⟩
  have g2 : ∀ j, w2.records[j] = if j = r then
      { FaultRecord.filled u ed e rem.head? w.records[r] with revision := nextRecordRevision w.records[r].revision }
      else w.records[j] := fun j => PoolWork.writeRecord_get r (FaultRecord.filled u ed e rem.head?) w j
  have g : ∀ j, v.records[j] = if done.getLast? = some j then
      { w2.records[j] with link := some r, revision := nextRecordRevision w2.records[j].revision } else w2.records[j] := by
    intro j
    rw [hv]
    cases hd : done.getLast? with
    | none => exact (if_neg nofun).symm
    | some t =>
      refine (PoolWork.writeRecord_get t (fun x => { x with link := some r }) w2 j).trans ?_
      by_cases hj : j = t
      · rw [if_pos hj, if_pos (by rw [hj]), hj]
      · rw [if_neg hj, if_neg fun x => hj (Option.some.inj x).symm]
  have keep : ∀ j, j ≠ r → done.getLast? ≠ some j → v.records[j] = w.records[j] := fun j h1 h2 => by
    rw [g, if_neg h2, g2, if_neg h1]
  have hrr : v.records[r] = { FaultRecord.filled u ed e rem.head? w.records[r] with revision := nextRecordRevision w.records[r].revision } := by
    rw [g, if_neg fun x => hmem.1 (hdone r x), g2, if_pos rfl]
  have hhead : v.chainHead = if done = [] then some r else w.chainHead := by
    rw [hv]
    cases hd : done.getLast? with
    | none => rw [if_pos (List.getLast?_eq_none_iff.mp hd)]; rfl
    | some t => rw [if_neg (by rintro rfl; cases hd)]; rfl
  have hfld : v.freeTop = w.freeTop ∧ v.retHead = w.retHead ∧ v.retTail = w.retTail ∧ v.failed = w.failed ∧
      v.freeCount = w.freeCount ∧ v.retCount = w.retCount ∧ v.chainCount = w.chainCount + 1 ∧
      v.liveCount = w.liveCount + 1 := by
    rw [hv]
    cases done.getLast? <;> exact ⟨rfl, rfl, rfl, rfl, rfl, rfl, rfl, rfl⟩
  refine ⟨⟨?_, ?_, ?_, ?_, ?_⟩, ?_, fun j hj => ?_, keep, hfld.2.2.2⟩
  · refine linked_relink (m := some r) hc (List.nodup_append.mp (List.nodup_append.mp (List.nodup_append.mp hn).1).1).1
      (fun j hj hne => ?_) (fun t htl => ?_) (fun h0 => ?_) (fun hne => ?_) ⟨rfl, ?_⟩
    · rw [keep j (fun x => hmem.1 (x ▸ hj)) hne]
    · rw [g, if_pos htl]
    · rw [hhead, if_pos h0]
    · rw [hhead, if_neg hne]
    · rw [hrr]
      show linked v.records rem.head? rem
      have hrem := linked_split hc
      have : linked w.records rem.head? rem := by
        have := linked_head hrem
        rw [this] at hrem; exact hrem
      exact linked_congr this fun j hj => by
        rw [keep j (fun x => hmem.2.1 (x ▸ hj)) fun x => (hdf j (hdone j x)).1 hj]
  · rw [hfld.1]
    exact linked_congr hf fun j hj => by
      rw [keep j (fun x => hmem.2.2.1 (x ▸ hj)) fun x => (hdf j (hdone j x)).2.1 hj]
  · rw [hfld.2.1]
    exact linked_congr hq fun j hj => by
      rw [keep j (fun x => hmem.2.2.2 (x ▸ hj)) fun x => (hdf j (hdone j x)).2.2 hj]
  · rw [hfld.2.2.1]; exact ht
  · have hp : (r :: (done ++ rem ++ f ++ q)).Perm (done ++ r :: rem ++ f ++ q) := by
      rw [List.append_assoc, List.append_assoc, List.append_assoc, List.append_assoc]
      exact List.perm_middle.symm
    exact hp.nodup_iff.mp (List.nodup_cons.mpr ⟨hr, hn⟩)
  · rw [hrr]; rfl
  · rw [g]
    split
    · rw [g2, if_neg hj]; rfl
    · rw [g2, if_neg hj]

/-- Allocation from the free stack (R16). -/
theorem PoolWork.alloc_free (policy : PoolPolicy) (chain f q : List RecId) (r : RecId) (w : PoolWork)
    (h : w.holds chain (r :: f) q) :
    ∃ v, w.alloc policy = some (r, v) ∧ v.holds chain f q ∧ r ∉ chain ++ f ++ q ∧ v.records = w.records ∧
      v.freeCount = w.freeCount - 1 ∧ v.retCount = w.retCount ∧ v.chainCount = w.chainCount ∧ v.liveCount = w.liveCount ∧
      v.failed = w.failed := by
  obtain ⟨hc, ⟨htop, hf⟩, hq, ht, hn⟩ := h
  have hp : (chain ++ r :: f ++ q).Perm (r :: (chain ++ f ++ q)) := by
    rw [List.append_assoc, List.append_assoc]
    exact List.perm_middle
  obtain ⟨hr, hn⟩ := List.nodup_cons.mp (hp.nodup_iff.mp hn)
  refine ⟨{ w with freeTop := w.records[r].link, freeCount := w.freeCount - 1 }, ?_, ⟨hc, hf, hq, ht, hn⟩, hr, rfl, rfl, rfl, rfl,
    rfl, rfl⟩
  unfold PoolWork.alloc
  rw [htop]

/-- Allocation under RECLAIM from the retired queue, the free stack being empty (R18). -/
theorem PoolWork.alloc_reclaim (chain q : List RecId) (r : RecId) (w : PoolWork) (h : w.holds chain [] (r :: q)) :
    ∃ v, w.alloc .reclaim = some (r, v) ∧ v.holds chain [] q ∧ r ∉ chain ++ [] ++ q ∧ v.records = w.records ∧
      v.freeCount = w.freeCount ∧ v.retCount = w.retCount - 1 ∧ v.chainCount = w.chainCount ∧ v.liveCount = w.liveCount ∧
      v.failed = w.failed := by
  obtain ⟨hc, hf, ⟨hhead, hq⟩, ht, hn⟩ := h
  have hp : (chain ++ [] ++ r :: q).Perm (r :: (chain ++ [] ++ q)) := List.perm_middle
  obtain ⟨hr, hn⟩ := List.nodup_cons.mp (hp.nodup_iff.mp hn)
  have hlast : (if w.records[r].link = none then none else w.retTail) = q.getLast? := by
    have := linked_head hq
    cases q with
    | nil => exact if_pos this
    | cons a q => rw [this, if_neg (by simp), ht, List.getLast?_cons_cons]
  refine ⟨{ w with retHead := w.records[r].link, retTail := if w.records[r].link = none then none else w.retTail
                   retCount := w.retCount - 1, reclaimed := w.reclaimed + 1 }, ?_, ⟨hc, hf, hq, hlast, hn⟩, hr, rfl, rfl, rfl, rfl,
    rfl, rfl⟩
  have hf : w.freeTop = none := hf
  unfold PoolWork.alloc
  rw [hf, hhead]

/-- The create case with a free record: it joins the chain after the records passed (R36, R6). -/
theorem PoolWork.create_spec (policy : PoolPolicy) (u : UnitId) (ed : Edition) (e : ReadEntry) (done rem f q : List RecId)
    (r : RecId) (w : PoolWork) (h : w.holds (done ++ rem) (r :: f) q) :
    let v := (w.create policy u ed e done.getLast? rem.head?).2
    (w.create policy u ed e done.getLast? rem.head?).1 = some r ∧ v.holds (done ++ r :: rem) f q ∧
      v.records[r].content = (FaultRecord.filled u ed e none w.records[r]).content ∧
      (∀ j, j ≠ r → v.records[j].content = w.records[j].content) ∧ v.failed = w.failed := by
  obtain ⟨w1, ha, h1, hr, hrec, _, _, _, _, hfail⟩ := PoolWork.alloc_free policy _ _ _ _ _ h
  have sp := PoolWork.place_spec u ed e done rem f q r w1 h1 hr
  rw [hrec] at sp
  rw [PoolWork.create_eq, ha]
  exact ⟨rfl, sp.1, sp.2.1, sp.2.2.1, sp.2.2.2.2.1.trans hfail⟩

/-- The update case: the record keeps its place (R35). -/
theorem PoolWork.update_spec (ed : Edition) (e : ReadEntry) (chain f q : List RecId) (r : RecId) (w : PoolWork)
    (h : w.holds chain f q) :
    let v := w.update ed e r
    v.holds chain f q ∧ (∀ j, j ≠ r → v.records[j] = w.records[j]) ∧ v.records[r].link = w.records[r].link ∧
      { v.records[r].content with changed := 0 } = { (w.records[r].updated e).content with changed := 0 } ∧
      v.failed = w.failed ∧ v.chainHead = w.chainHead := by
  intro v
  have g : ∀ j, v.records[j] = if j = r then
      (if w.records[r].updated e = w.records[r] then w.records[r]
        else { w.records[r].updated e with changed := ed, revision := nextRecordRevision w.records[r].revision })
      else w.records[j] := by
    intro j
    show (w.update ed e r).records[j] = _
    unfold PoolWork.update
    split
    · split
      · next hj => rw [hj]
      · rfl
    · exact PoolWork.writeRecord_get r (fun x => { x.updated e with changed := ed }) w j
  have hl : ∀ j : RecId, v.records[j].link = w.records[j].link := by
    intro j
    rw [g]
    split
    · next hj => rw [hj]; split <;> rfl
    · rfl
  have hfld : v.freeTop = w.freeTop ∧ v.retHead = w.retHead ∧ v.retTail = w.retTail ∧ v.failed = w.failed ∧ v.chainHead = w.chainHead := by
    show (w.update ed e r).freeTop = _ ∧ (w.update ed e r).retHead = _ ∧ (w.update ed e r).retTail = _ ∧
      (w.update ed e r).failed = _ ∧ (w.update ed e r).chainHead = _
    unfold PoolWork.update
    split <;> exact ⟨rfl, rfl, rfl, rfl, rfl⟩
  refine ⟨⟨?_, ?_, ?_, ?_, h.nodup⟩, fun j hj => ?_, hl r, ?_, hfld.2.2.2.1, hfld.2.2.2.2⟩
  · rw [hfld.2.2.2.2]; exact linked_congr h.onChain fun j _ => hl j
  · rw [hfld.1]; exact linked_congr h.onFree fun j _ => hl j
  · rw [hfld.2.1]; exact linked_congr h.onQueue fun j _ => hl j
  · rw [hfld.2.2.1]; exact h.last
  · rw [g, if_neg hj]
  · rw [g, if_pos rfl]
    split
    · next he => rw [he]
    · rfl

/-- The lapse case: the record leaves the chain for the retired queue's tail (R37). -/
theorem PoolWork.lapse_spec (ed : Edition) (done rem f q : List RecId) (r : RecId) (w : PoolWork)
    (h : w.holds (done ++ r :: rem) f q) :
    let v := w.lapse ed done.getLast? r
    v.holds (done ++ rem) f (q ++ [r]) ∧ v.records[r].content = w.records[r].retiredAs .lapsed ed ∧
      (∀ j, j ≠ r → v.records[j].content = w.records[j].content) ∧ v.failed = w.failed ∧
      (∀ j, j ≠ r → done.getLast? ≠ some j → q.getLast? ≠ some j → v.records[j] = w.records[j]) ∧
      v.freeCount = w.freeCount ∧ v.retCount = w.retCount + 1 ∧ v.chainCount = w.chainCount - 1 ∧
      v.liveCount = w.liveCount - 1 := by
  obtain ⟨hc, hf, hq, ht, hn⟩ := h
  intro v
  obtain ⟨w1, h1⟩ : ∃ w1, w1 = w.setNext done.getLast? w.records[r].link := ⟨_, rfl⟩
  have hv : v = w1.retire .lapsed ed r := by rw [h1]; rfl
  have hmem : r ∉ done ∧ r ∉ rem ∧ r ∉ f ∧ r ∉ q := by
    simp only [List.append_assoc, List.cons_append, List.nodup_append, List.nodup_cons, List.mem_append, List.mem_cons] at hn
    exact ⟨fun x => hn.2.2 r x r (.inl rfl) rfl, fun x => hn.2.1.1 (.inl x), fun x => hn.2.1.1 (.inr (.inl x)),
      fun x => hn.2.1.1 (.inr (.inr x))⟩
  have hdone : ∀ t, done.getLast? = some t → t ∈ done := fun t => List.mem_of_getLast?
  have hdis : ∀ t, t ∈ done → t ∉ rem ∧ t ∉ f ∧ t ∉ q := by
    simp only [List.append_assoc, List.cons_append, List.nodup_append, List.nodup_cons, List.mem_append, List.mem_cons] at hn
    exact fun t x => ⟨fun y => hn.2.2 t x t (.inr (.inl y)) rfl, fun y => hn.2.2 t x t (.inr (.inr (.inl y))) rfl,
      fun y => hn.2.2 t x t (.inr (.inr (.inr y))) rfl⟩
  have hqd : ∀ t, t ∈ q → t ∉ rem ∧ t ∉ f := by
    simp only [List.append_assoc, List.cons_append, List.nodup_append, List.nodup_cons, List.mem_append, List.mem_cons] at hn
    exact fun t x => ⟨fun y => hn.2.1.2.2.2 t y t (.inr x) rfl, fun y => hn.2.1.2.2.1.2.2 t y t x rfl⟩
  have g1 : ∀ j, w1.records[j] = if done.getLast? = some j then
      { w.records[j] with link := w.records[r].link, revision := nextRecordRevision w.records[j].revision } else w.records[j] := by
    intro j
    rw [h1]
    cases hd : done.getLast? with
    | none => exact (if_neg nofun).symm
    | some t =>
      refine (PoolWork.writeRecord_get t (fun x => { x with link := w.records[r].link }) w j).trans ?_
      by_cases hj : j = t
      · rw [if_pos hj, if_pos (by rw [hj]), hj]
      · rw [if_neg hj, if_neg fun x => hj (Option.some.inj x).symm]
  have f1 : w1.freeTop = w.freeTop ∧ w1.retHead = w.retHead ∧ w1.retTail = w.retTail ∧ w1.failed = w.failed ∧
      w1.chainHead = (if done = [] then w.records[r].link else w.chainHead) ∧ w1.freeCount = w.freeCount ∧
      w1.retCount = w.retCount ∧ w1.chainCount = w.chainCount ∧ w1.liveCount = w.liveCount := by
    rw [h1]
    cases hd : done.getLast? with
    | none => rw [if_pos (List.getLast?_eq_none_iff.mp hd)]; exact ⟨rfl, rfl, rfl, rfl, rfl, rfl, rfl, rfl, rfl⟩
    | some t => rw [if_neg (by rintro rfl; cases hd)]; exact ⟨rfl, rfl, rfl, rfl, rfl, rfl, rfl, rfl, rfl⟩
  have hw1r : w1.records[r] = w.records[r] := by rw [g1, if_neg fun x => hmem.1 (hdone r x)]
  have hnq : (r :: q).Nodup := List.nodup_cons.mpr ⟨hmem.2.2.2, (List.nodup_append.mp hn).2.1⟩
  have hq1 : linked w1.records w1.retHead q := by
    rw [f1.2.1]
    exact linked_congr hq fun j hj => by rw [g1, if_neg fun x => (hdis j (hdone j x)).2.2 hj]
  have sp := PoolWork.retire_spec .lapsed ed r q w1 hq1 (by rw [f1.2.2.1]; exact ht) hnq
  rw [← hv] at sp
  obtain ⟨s1, s2, s3, s4, s5, s6, s7, s8, s9, s10, s11, s12, s13⟩ := sp
  have hlast : ∀ j, j ∉ q → q.getLast? ≠ some j := fun j hj x => hj (List.mem_of_getLast? x)
  refine ⟨⟨?_, ?_, s1, s2, ?_⟩, by rw [s5, hw1r], fun j hj => ?_, s12.trans f1.2.2.2.1,
    fun j hj hd hq => by rw [s6 j hj hq, g1, if_neg hd], s9.trans f1.2.2.2.2.2.1, by rw [s3, f1.2.2.2.2.2.2.1],
    by rw [s13, f1.2.2.2.2.2.2.2.1], by rw [s4, f1.2.2.2.2.2.2.2.2]⟩
  · rw [s10, f1.2.2.2.2.1]
    refine linked_relink (m := w.records[r].link) hc (List.nodup_append.mp (List.nodup_append.mp (List.nodup_append.mp hn).1).1).1
      (fun j hj hne => ?_) (fun t htl => ?_) (fun h0 => if_pos h0) (fun hne => if_neg hne) ?_
    · rw [s6 j (fun x => hmem.1 (x ▸ hj)) (hlast j (hdis j hj).2.2), g1, if_neg hne]
    · have htd := hdone t htl
      rw [s6 t (fun x => hmem.1 (x ▸ htd)) (hlast t (hdis t htd).2.2), g1, if_pos htl]
    · have hrem := linked_split (a := done ++ [r]) (b := rem) (by rw [List.append_assoc]; exact hc)
      rw [if_neg (by simp), List.getLast?_append] at hrem
      refine linked_congr hrem fun j hj => ?_
      rw [s6 j (fun x => hmem.2.1 (x ▸ hj)) (hlast j fun x => (hqd j x).1 hj), g1, if_neg fun x => (hdis j (hdone j x)).1 hj]
  · rw [s8, f1.1]
    exact linked_congr hf fun j hj => by
      rw [s6 j (fun x => hmem.2.2.1 (x ▸ hj)) (hlast j fun x => (hqd j x).2 hj), g1, if_neg fun x => (hdis j (hdone j x)).2.1 hj]
  · have hp : (done ++ r :: rem ++ f ++ q).Perm (done ++ rem ++ f ++ (q ++ [r])) := by
      rw [← List.append_assoc (done ++ rem ++ f)]
      refine List.Perm.trans ?_ (List.perm_append_singleton r (done ++ rem ++ f ++ q)).symm
      rw [List.append_assoc, List.append_assoc, List.append_assoc, List.append_assoc]
      exact List.perm_middle
    exact hp.nodup_iff.mp hn
  · rw [s7 j hj, g1]
    split <;> rfl

end Sys2Proof.Machine
end

