-- ==== Sys2Proof/Laws/PerInstr.lean ====
section
/-! SUPPORT. The family TableRow: for each command, that no word of the table spells it, and exactly which operands its row
admits. -/

namespace Sys2Proof.Laws.TableRow

/-- What the row of a command asks of its operands beyond their types. -/
def operands : Instr → Prop
  | .registerWriteIgnored addr _ =>
    0x8000 ≤ addr.toNat ∧ addr ≠ 0x8002 ∧ addr ≠ 0x8003 ∧ addr ≠ 0x8004
  | .hostMemoryWrite addr _ => ¬ (2 * addr.toNat < 1024 ∧ 2 * addr.toNat % 64 = 0)
  | .holdRunOut u => u ≠ 0
  | .frameReceived _ f =>
    (f.extended = true ∨ f.ident.toNat < 2048) ∧ (f.remote = true → f.data.toList = List.replicate 8 0)
  | .fullReset | .initialisationEnd | .signalWrite _ | .attentionWrite _ | .attnMaskWrite _
  | .clockLoRead | .slotStateWrite _ _ | .orderScanTimerExpiry | .poolOperationBegin | .commit
  | .selfCommit | .eraseClear | .delistRetire | .release | .receiveError _ | .transmitError _ _
  | .recoveryHoldExpiry _ | .recoveryComplete _ | .frameSent _ | .loadWindowExpiry _
  | .pacingTimerExpiry _ | .settleTimerExpiry _ | .grant | .hold | .entryA | .entryB | .close
  | .erased | .answerWindowExpiry _ | .gapWindowExpiry _ | .stopWindowExpiry _
  | .holdWindowExpiry _ | .budgetTimerExpiry | .scheduleTimerExpiry | .engineResetEnd
  | .transmissionBegin _ => True

/-- No word of the table spells the command (its row gives no bits), and it is well-formed exactly when its operands are those
its row admits. -/
def Statement (i : Instr) : Prop :=
  (∀ nbits w, decodeTableWord nbits w ≠ some i) ∧ (i.wellFormed = true ↔ operands i)

theorem no_word (i : Instr) (nbits w : Nat) : decodeTableWord nbits w ≠ some i := nofun

/-- A command whose operand ranges are all held by their types. -/
theorem of_types {i : Instr} (hw : i.wellFormed = true) (ho : operands i) : Statement i :=
  ⟨no_word i, fun _ => ho, fun _ => hw⟩

theorem fullReset : Statement .fullReset := of_types rfl trivial
theorem initialisationEnd : Statement .initialisationEnd := of_types rfl trivial
theorem signalWrite (v : Word) : Statement (.signalWrite v) := of_types rfl trivial
theorem attentionWrite (v : Word) : Statement (.attentionWrite v) := of_types rfl trivial
theorem attnMaskWrite (v : Word) : Statement (.attnMaskWrite v) := of_types rfl trivial
theorem clockLoRead : Statement .clockLoRead := of_types rfl trivial
theorem registerWriteIgnored (addr : Word) (v : Word) : Statement (.registerWriteIgnored addr v) := by
  refine ⟨no_word _, ?_⟩
  simp [Instr.wellFormed, ignoredRegister, operands, Config.signalAt, Config.attentionAt, Config.attnMaskAt, and_assoc]
theorem slotStateWrite (n : SlotId) (v : Word) : Statement (.slotStateWrite n v) := of_types rfl trivial
theorem hostMemoryWrite (addr : BitVec 15) (v : Word) : Statement (.hostMemoryWrite addr v) := by
  refine ⟨no_word _, ?_⟩
  simp only [Instr.wellFormed, isSlotStateWord, byteOffset, operands, Bool.not_eq_true', ← Bool.not_eq_true,
    Bool.and_eq_true]
  exact not_congr (and_congr decide_eq_true_iff decide_eq_true_iff)
theorem orderScanTimerExpiry : Statement .orderScanTimerExpiry := of_types rfl trivial
theorem poolOperationBegin : Statement .poolOperationBegin := of_types rfl trivial
theorem commit : Statement .commit := of_types rfl trivial
theorem selfCommit : Statement .selfCommit := of_types rfl trivial
theorem eraseClear : Statement .eraseClear := of_types rfl trivial
theorem delistRetire : Statement .delistRetire := of_types rfl trivial
theorem release : Statement .release := of_types rfl trivial
theorem holdRunOut (u : UnitId) : Statement (.holdRunOut u) := by
  refine ⟨no_word _, ?_⟩
  simp [Instr.wellFormed, operands]
theorem frameReceived (c : ChanId) (f : Frame) : Statement (.frameReceived c f) := by
  refine ⟨no_word _, ?_⟩
  simp [Instr.wellFormed, Frame.wellFormed, operands]
  intro _
  cases f.remote <;> simp
theorem receiveError (c : ChanId) : Statement (.receiveError c) := of_types rfl trivial
theorem transmitError (c : ChanId) (k : TxErrorKind) : Statement (.transmitError c k) := of_types rfl trivial
theorem recoveryHoldExpiry (c : ChanId) : Statement (.recoveryHoldExpiry c) := of_types rfl trivial
theorem recoveryComplete (c : ChanId) : Statement (.recoveryComplete c) := of_types rfl trivial
theorem frameSent (c : ChanId) : Statement (.frameSent c) := of_types rfl trivial
theorem loadWindowExpiry (c : ChanId) : Statement (.loadWindowExpiry c) := of_types rfl trivial
theorem pacingTimerExpiry (c : ChanId) : Statement (.pacingTimerExpiry c) := of_types rfl trivial
theorem settleTimerExpiry (c : ChanId) : Statement (.settleTimerExpiry c) := of_types rfl trivial
theorem grant : Statement .grant := of_types rfl trivial
theorem hold : Statement .hold := of_types rfl trivial
theorem entryA : Statement .entryA := of_types rfl trivial
theorem entryB : Statement .entryB := of_types rfl trivial
theorem close : Statement .close := of_types rfl trivial
theorem erased : Statement .erased := of_types rfl trivial
theorem answerWindowExpiry (k : CtxId) : Statement (.answerWindowExpiry k) := of_types rfl trivial
theorem gapWindowExpiry (k : CtxId) : Statement (.gapWindowExpiry k) := of_types rfl trivial
theorem stopWindowExpiry (k : CtxId) : Statement (.stopWindowExpiry k) := of_types rfl trivial
theorem holdWindowExpiry (k : CtxId) : Statement (.holdWindowExpiry k) := of_types rfl trivial
theorem budgetTimerExpiry : Statement .budgetTimerExpiry := of_types rfl trivial
theorem scheduleTimerExpiry : Statement .scheduleTimerExpiry := of_types rfl trivial
theorem engineResetEnd : Statement .engineResetEnd := of_types rfl trivial
theorem transmissionBegin (c : ChanId) : Statement (.transmissionBegin c) := of_types rfl trivial

end Sys2Proof.Laws.TableRow
end

