-- ==== Sys2Proof/Laws/Store.lean ====
section
/-! SUPPORT. What an operation on one unit's chain keeps of the pool's collections, whatever it meets (R4 to R8, R16 to R19, R31
to R37), and what a release keeps (R21). -/

namespace Sys2Proof.Machine

/-! ### Records by their content -/

/-- A live record of the unit (R6, R35, R36). -/
def FaultRecord.liveOf (u : UnitId) (x : FaultRecord) : Prop :=
  x.owner = u ∧ (x.state = .active ∨ x.state = .stored) ∧ x.firstOdo.toNat ≤ x.lastOdo.toNat

/-- A retired record, of an edition not above the one given (R7, R8). -/
def FaultRecord.retiredBy (ed : Edition) (x : FaultRecord) : Prop :=
  (x.state = .cleared ∨ x.state = .lapsed ∨ x.state = .delisted) ∧ x.retired.toNat ≤ ed.toNat

/-- One identity comes before another (R30). -/
def FaultRecord.before (x y : FaultRecord) : Prop := identLt x.code x.mode y.code y.mode = true

theorem FaultRecord.content_fields {x y : FaultRecord} (h : x.content = y.content) :
    x.owner = y.owner ∧ x.state = y.state ∧ x.code = y.code ∧ x.mode = y.mode ∧ x.firstOdo = y.firstOdo ∧
      x.lastOdo = y.lastOdo ∧ x.retired = y.retired :=
  ⟨show x.content.owner = y.content.owner by rw [h], show x.content.state = y.content.state by rw [h],
    show x.content.code = y.content.code by rw [h], show x.content.mode = y.content.mode by rw [h],
    show x.content.firstOdo = y.content.firstOdo by rw [h], show x.content.lastOdo = y.content.lastOdo by rw [h],
    show x.content.retired = y.content.retired by rw [h]⟩

theorem FaultRecord.liveOf_content {x y : FaultRecord} {u : UnitId} (h : x.content = y.content) : x.liveOf u ↔ y.liveOf u := by
  obtain ⟨h1, h2, _, _, h5, h6, _⟩ := FaultRecord.content_fields h
  unfold FaultRecord.liveOf; rw [h1, h2, h5, h6]

theorem FaultRecord.retiredBy_content {x y : FaultRecord} {ed : Edition} (h : x.content = y.content) :
    x.retiredBy ed ↔ y.retiredBy ed := by
  obtain ⟨_, h2, _, _, _, _, h7⟩ := FaultRecord.content_fields h
  unfold FaultRecord.retiredBy; rw [h2, h7]

theorem FaultRecord.before_content {x y x' y' : FaultRecord} (h : x.content = x'.content) (h' : y.content = y'.content) :
    x.before y ↔ x'.before y' := by
  obtain ⟨_, _, h3, h4, _⟩ := FaultRecord.content_fields h
  obtain ⟨_, _, k3, k4, _⟩ := FaultRecord.content_fields h'
  unfold FaultRecord.before; rw [h3, h4, k3, k4]

theorem bvMax_le {n : Nat} (a b : BitVec n) : b.toNat ≤ (bvMax a b).toNat ∧ a.toNat ≤ (bvMax a b).toNat := by
  unfold bvMax; split <;> omega

theorem FaultRecord.filled_live (u : UnitId) (ed : Edition) (e : ReadEntry) (x : FaultRecord) :
    (FaultRecord.filled u ed e none x).liveOf u := by
  refine ⟨rfl, ?_, (bvMax_le _ _).2⟩
  show liveState e.activeNow = _ ∨ liveState e.activeNow = _
  unfold liveState; cases e.activeNow <;> simp

theorem FaultRecord.updated_live {u : UnitId} (e : ReadEntry) {x : FaultRecord} (h : x.liveOf u) : (x.updated e).liveOf u := by
  refine ⟨h.1, ?_, (bvMax_le _ _).1⟩
  show liveState e.activeNow = _ ∨ liveState e.activeNow = _
  unfold liveState; cases e.activeNow <;> simp

theorem identLt_trans {a b c : Triple} {x y z : Byte} (h : identLt a x b y = true) (k : identLt b y c z = true) :
    identLt a x c z = true := by
  simp only [identLt, Bool.or_eq_true, Bool.and_eq_true, decide_eq_true_eq, beq_iff_eq] at *
  rcases h with h | ⟨rfl, h⟩ <;> rcases k with k | ⟨rfl, k⟩ <;> first | (left; omega) | (right; exact ⟨rfl, by omega⟩)

/-! ### What an operation on one chain keeps -/

/-- An operation on the chain of unit `u`, stamped `ed`, stands whole: the records `all` of the chain, the free stack and the
retired queue are shared out among these three, the counts are theirs, and every record outside them is as it was in `rs`; `base`
counts the live records of the other units. -/
structure PoolWork.sound (rs : Vector FaultRecord 1536) (base : Nat) (all : List RecId) (u : UnitId) (ed : Edition) (w : PoolWork)
    (chain f q : List RecId) : Prop where
  holds : w.holds chain f q
  parts : (chain ++ f ++ q).Perm all
  freeCount : w.freeCount = f.length
  retCount : w.retCount = q.length
  chainCount : w.chainCount = chain.length
  liveCount : w.liveCount = base + chain.length
  others : ∀ r, r ∉ all → w.records[r] = rs[r]
  free : ∀ r ∈ f, w.records[r].state = .free
  retired : ∀ r ∈ q, w.records[r].retiredBy ed
  inOrder : q.Pairwise fun a b => w.records[a].retired.toNat ≤ w.records[b].retired.toNat
  live : ∀ r ∈ chain, w.records[r].liveOf u
  ascending : chain.Pairwise fun a b => w.records[a].before w.records[b]

theorem List.getLast?_ne_of_not_mem {α : Type} {l : List α} {a : α} (h : a ∉ l) : l.getLast? ≠ some a :=
  fun x => h (List.mem_of_getLast? x)

/-- A record of another collection than the one given. -/
theorem PoolWork.holds_apart {w : PoolWork} {chain f q : List RecId} (h : w.holds chain f q) :
    (∀ r ∈ chain, r ∉ f ∧ r ∉ q) ∧ (∀ r ∈ f, r ∉ chain ∧ r ∉ q) ∧ ∀ r ∈ q, r ∉ chain ∧ r ∉ f := by
  have hn := h.nodup
  simp only [List.append_assoc, List.nodup_append, List.mem_append] at hn
  exact ⟨fun r x => ⟨fun y => hn.2.2 r x r (.inl y) rfl, fun y => hn.2.2 r x r (.inr y) rfl⟩,
    fun r x => ⟨fun y => hn.2.2 r y r (.inl x) rfl, fun y => hn.2.1.2.2 r x r y rfl⟩,
    fun r x => ⟨fun y => hn.2.2 r y r (.inr x) rfl, fun y => hn.2.1.2.2 r y r x rfl⟩⟩

section Steps
variable {rs : Vector FaultRecord 1536} {base : Nat} {all : List RecId} {u : UnitId} {ed : Edition} {w : PoolWork}
variable {done rem chain f q : List RecId} {r : RecId}

/-- The place of an allocated record: the create case, from the free stack or from the retired queue (R36). -/
theorem PoolWork.place_sound (e : ReadEntry) (h : w.sound rs base all u ed (done ++ rem) f q) {w1 : PoolWork} {f' q' : List RecId}
    (h1 : w1.holds (done ++ rem) f' q') (hr : r ∉ done ++ rem ++ f' ++ q') (hrec : w1.records = w.records)
    (hf : w1.freeCount = f'.length) (hq : w1.retCount = q'.length) (hc : w1.chainCount = w.chainCount)
    (hl : w1.liveCount = w.liveCount) (sf : ∀ j ∈ f', j ∈ f) (sq : q'.Sublist q)
    (hp : (r :: (done ++ rem ++ f' ++ q')).Perm all)
    (hlow : ∀ a ∈ done, identLt w.records[a].code w.records[a].mode e.code e.mode = true)
    (hhigh : ∀ b ∈ rem, identLt e.code e.mode w.records[b].code w.records[b].mode = true) :
    (w1.place u ed e done.getLast? rem.head? r).sound rs base all u ed (done ++ r :: rem) f' q' ∧
      (w1.place u ed e done.getLast? rem.head? r).records[r].code = e.code ∧
      (w1.place u ed e done.getLast? rem.head? r).records[r].mode = e.mode ∧
      ∀ j, j ≠ r → (w1.place u ed e done.getLast? rem.head? r).records[j].content = w.records[j].content := by
  obtain ⟨s1, s2, s3, s4, _, s6, s7, s8, s9⟩ := PoolWork.place_spec u ed e done rem f' q' r w1 h1 hr
  obtain ⟨v, hv⟩ : ∃ v, v = w1.place u ed e done.getLast? rem.head? r := ⟨_, rfl⟩
  rw [← hv] at s1 s2 s3 s4 s6 s7 s8 s9 ⊢
  rw [hrec] at s3 s4
  have hmem : r ∉ done ∧ r ∉ rem ∧ r ∉ f' ∧ r ∉ q' := by
    simp only [List.mem_append, not_or] at hr
    exact ⟨hr.1.1.1, hr.1.1.2, hr.1.2, hr.2⟩
  have ne : ∀ {l : List RecId} {j : RecId}, r ∉ l → j ∈ l → j ≠ r := fun hl hj x => hl (x ▸ hj)
  obtain ⟨_, _, c3, c4, _⟩ := FaultRecord.content_fields s2
  have hlow' : ∀ a ∈ done, v.records[a].before v.records[r] := fun a ha => by
    obtain ⟨_, _, k3, k4, _⟩ := FaultRecord.content_fields (s3 a (ne hmem.1 ha))
    show identLt v.records[a].code v.records[a].mode v.records[r].code v.records[r].mode = true
    rw [k3, k4, c3, c4]; exact hlow a ha
  have hhigh' : ∀ b ∈ rem, v.records[r].before v.records[b] := fun b hb => by
    obtain ⟨_, _, k3, k4, _⟩ := FaultRecord.content_fields (s3 b (ne hmem.2.1 hb))
    show identLt v.records[r].code v.records[r].mode v.records[b].code v.records[b].mode = true
    rw [k3, k4, c3, c4]; exact hhigh b hb
  have hasc := h.ascending
  refine ⟨⟨s1, ?_, s6.trans hf, s7.trans hq, ?_, ?_, fun j hj => ?_, fun j hj => ?_, fun j hj => ?_, ?_, fun j hj => ?_, ?_⟩,
    c3, c4, s3⟩
  · refine List.Perm.trans ?_ hp
    rw [List.append_assoc, List.append_assoc, List.append_assoc, List.append_assoc]
    exact List.perm_middle
  · rw [s8, hc, h.chainCount]; simp only [List.length_append, List.length_cons]; omega
  · rw [s9, hl, h.liveCount]; simp only [List.length_append, List.length_cons]; omega
  · rw [s4 j (fun x => hj (hp.subset (x ▸ List.mem_cons_self)))
      fun x => hj (hp.subset (List.mem_cons_of_mem _ (by simp [List.mem_of_getLast? x]))), h.others j hj]
  · obtain ⟨_, k2, _⟩ := FaultRecord.content_fields (s3 j (ne hmem.2.2.1 hj))
    rw [k2]; exact h.free j (sf j hj)
  · exact (FaultRecord.retiredBy_content (s3 j (ne hmem.2.2.2 hj))).mpr (h.retired j (sq.subset hj))
  · refine (h.inOrder.sublist sq).imp_of_mem fun {a b} ha hb hab => ?_
    obtain ⟨_, _, _, _, _, _, k7⟩ := FaultRecord.content_fields (s3 a (ne hmem.2.2.2 ha))
    obtain ⟨_, _, _, _, _, _, l7⟩ := FaultRecord.content_fields (s3 b (ne hmem.2.2.2 hb))
    rw [k7, l7]; exact hab
  · rcases List.mem_append.mp hj with hj | hj
    · exact (FaultRecord.liveOf_content (s3 j (ne hmem.1 hj))).mpr (h.live j (List.mem_append_left _ hj))
    · rcases List.mem_cons.mp hj with rfl | hj
      · exact (FaultRecord.liveOf_content s2).mpr (FaultRecord.filled_live u ed e _)
      · exact (FaultRecord.liveOf_content (s3 j (ne hmem.2.1 hj))).mpr (h.live j (List.mem_append_right _ hj))
  · have keep : ∀ {a b : RecId}, a ≠ r → b ≠ r → w.records[a].before w.records[b] → v.records[a].before v.records[b] :=
      fun ha hb x => (FaultRecord.before_content (s3 _ ha) (s3 _ hb)).mpr x
    rw [List.pairwise_append] at hasc ⊢
    refine ⟨hasc.1.imp_of_mem fun ha hb x => keep (ne hmem.1 ha) (ne hmem.1 hb) x, ?_, fun a ha b hb => ?_⟩
    · exact List.pairwise_cons.mpr ⟨hhigh', hasc.2.1.imp_of_mem fun ha hb x => keep (ne hmem.2.1 ha) (ne hmem.2.1 hb) x⟩
    · rcases List.mem_cons.mp hb with rfl | hb
      · exact hlow' a ha
      · exact keep (ne hmem.1 ha) (ne hmem.2.1 hb) (hasc.2.2 a ha b hb)

/-- The create case, whatever the stack and the policy: the record allocated stands in the chain, or nothing moves (R16 to R19). -/
theorem PoolWork.create_sound (policy : PoolPolicy) (e : ReadEntry) (h : w.sound rs base all u ed (done ++ rem) f q)
    (hlow : ∀ a ∈ done, identLt w.records[a].code w.records[a].mode e.code e.mode = true)
    (hhigh : ∀ b ∈ rem, identLt e.code e.mode w.records[b].code w.records[b].mode = true) :
    let v := w.create policy u ed e done.getLast? rem.head?
    (v.1 = done.getLast? ∧ v.2.records = w.records ∧ v.2.sound rs base all u ed (done ++ rem) f q) ∨
      ∃ r f' q', v.1 = some r ∧ v.2.sound rs base all u ed (done ++ r :: rem) f' q' ∧ v.2.records[r].code = e.code ∧
        v.2.records[r].mode = e.mode ∧ r ∉ done ++ rem ∧ ∀ j, j ≠ r → v.2.records[j].content = w.records[j].content := by
  intro v
  have hv : v = _ := PoolWork.create_eq policy u ed e done.getLast? rem.head? w
  have fails : w.alloc policy = none →
      v.1 = done.getLast? ∧ v.2.records = w.records ∧ v.2.sound rs base all u ed (done ++ rem) f q := fun ha => by
    rw [ha] at hv
    rw [hv]
    exact ⟨rfl, rfl, ⟨⟨h.holds.onChain, h.holds.onFree, h.holds.onQueue, h.holds.last, h.holds.nodup⟩, h.parts, h.freeCount,
      h.retCount, h.chainCount, h.liveCount, h.others, h.free, h.retired, h.inOrder, h.live, h.ascending⟩⟩
  cases f with
  | cons r f =>
    right
    obtain ⟨w1, ha, h1, hr, a1, a2, a3, a4, a5, _⟩ := PoolWork.alloc_free policy _ _ _ _ _ h.holds
    rw [ha] at hv
    have hp : (r :: (done ++ rem ++ f ++ q)).Perm all := by
      refine List.Perm.trans ?_ h.parts
      rw [List.append_assoc (done ++ rem), List.append_assoc (done ++ rem)]
      exact List.perm_middle.symm
    have sp := PoolWork.place_sound e h h1 hr a1 (by rw [a2, h.freeCount]; rfl) (a3.trans h.retCount) a4 a5
      (fun j hj => List.mem_cons_of_mem _ hj) (List.Sublist.refl q) hp hlow hhigh
    rw [hv]
    exact ⟨r, f, q, rfl, sp.1, sp.2.1, sp.2.2.1, fun x => hr (by simp only [List.mem_append] at x ⊢; exact .inl (.inl x)), sp.2.2.2⟩
  | nil =>
    have htop : w.freeTop = none := h.holds.onFree
    cases policy with
    | keep => exact .inl (fails (by unfold PoolWork.alloc; rw [htop]))
    | reclaim =>
      cases q with
      | nil =>
        have hq : w.retHead = none := h.holds.onQueue
        exact .inl (fails (by unfold PoolWork.alloc; rw [htop, hq]))
      | cons r q =>
        right
        obtain ⟨w1, ha, h1, hr, a1, a2, a3, a4, a5, _⟩ := PoolWork.alloc_reclaim _ _ _ _ h.holds
        rw [ha] at hv
        have hp : (r :: (done ++ rem ++ [] ++ q)).Perm all := by
          refine List.Perm.trans ?_ h.parts
          exact List.perm_middle.symm
        have sp := PoolWork.place_sound e h h1 hr a1 (a2.trans h.freeCount) (by rw [a3, h.retCount]; rfl) a4 a5
          (fun j hj => hj) (List.sublist_cons_self r q) hp hlow hhigh
        rw [hv]
        exact ⟨r, [], q, rfl, sp.1, sp.2.1, sp.2.2.1, fun x => hr (by simp only [List.mem_append] at x ⊢; exact .inl (.inl x)), sp.2.2.2⟩

/-- The update case (R35). -/
theorem PoolWork.update_sound (e : ReadEntry) (h : w.sound rs base all u ed chain f q) (hr : r ∈ chain) :
    (w.update ed e r).sound rs base all u ed chain f q ∧ (w.update ed e r).records[r].link = w.records[r].link ∧
      ∀ j : RecId, (w.update ed e r).records[j].code = w.records[j].code ∧ (w.update ed e r).records[j].mode = w.records[j].mode := by
  obtain ⟨s1, s2, s3, s4, _, _⟩ := PoolWork.update_spec ed e chain f q r w h.holds
  have counts : (w.update ed e r).freeCount = w.freeCount ∧ (w.update ed e r).retCount = w.retCount ∧
      (w.update ed e r).chainCount = w.chainCount ∧ (w.update ed e r).liveCount = w.liveCount := by
    unfold PoolWork.update; split <;> exact ⟨rfl, rfl, rfl, rfl⟩
  obtain ⟨v, hv⟩ : ∃ v, v = w.update ed e r := ⟨_, rfl⟩
  rw [← hv] at s1 s2 s3 s4 counts ⊢
  have c := congrArg FaultRecord.code s4
  have m := congrArg FaultRecord.mode s4
  have ident : ∀ j : RecId, v.records[j].code = w.records[j].code ∧ v.records[j].mode = w.records[j].mode := fun j => by
    by_cases hj : j = r
    · subst hj; exact ⟨c, m⟩
    · rw [s2 j hj]; exact ⟨rfl, rfl⟩
  have ap := PoolWork.holds_apart h.holds
  have ne : ∀ {l : List RecId} {j : RecId}, r ∉ l → j ∈ l → j ≠ r := fun hl hj x => hl (x ▸ hj)
  refine ⟨⟨s1, h.parts, counts.1.trans h.freeCount, counts.2.1.trans h.retCount, counts.2.2.1.trans h.chainCount,
    counts.2.2.2.trans h.liveCount, fun j hj => ?_, fun j hj => ?_, fun j hj => ?_, ?_, fun j hj => ?_, ?_⟩, s3, ident⟩
  · rw [s2 j fun x => hj (h.parts.subset (by simp [x, hr])), h.others j hj]
  · rw [s2 j (ne (ap.1 r hr).1 hj)]; exact h.free j hj
  · rw [s2 j (ne (ap.1 r hr).2 hj)]; exact h.retired j hj
  · refine h.inOrder.imp_of_mem fun {a b} ha hb hab => ?_
    rw [s2 a (ne (ap.1 r hr).2 ha), s2 b (ne (ap.1 r hr).2 hb)]; exact hab
  · by_cases hj' : j = r
    · subst hj'
      have k := FaultRecord.updated_live e (h.live j hj)
      have k1 := congrArg FaultRecord.owner s4
      have k2 := congrArg FaultRecord.state s4
      have k3 := congrArg FaultRecord.firstOdo s4
      have k4 := congrArg FaultRecord.lastOdo s4
      have k1 : v.records[j].owner = (w.records[j].updated e).owner := k1
      have k2 : v.records[j].state = (w.records[j].updated e).state := k2
      have k3 : v.records[j].firstOdo = (w.records[j].updated e).firstOdo := k3
      have k4 : v.records[j].lastOdo = (w.records[j].updated e).lastOdo := k4
      unfold FaultRecord.liveOf
      rw [k1, k2, k3, k4]
      exact k
    · rw [s2 j hj']; exact h.live j hj
  · refine h.ascending.imp fun {a b} hab => ?_
    show identLt v.records[a].code v.records[a].mode v.records[b].code v.records[b].mode = true
    rw [(ident a).1, (ident a).2, (ident b).1, (ident b).2]; exact hab

/-- A record that leaves the chain joins the retired queue under the edition of the operation (R8). -/
theorem FaultRecord.retiredAs_by {st : RecState} {x y : FaultRecord} (h : y.content = x.retiredAs st ed)
    (hst : st = .cleared ∨ st = .lapsed ∨ st = .delisted) : y.retiredBy ed ∧ y.retired = ed := by
  have h1 := congrArg FaultRecord.state h
  have h2 := congrArg FaultRecord.retired h
  have h1 : y.state = st := h1
  have h2 : y.retired = ed := h2
  exact ⟨⟨by rw [h1]; exact hst, by rw [h2]⟩, h2⟩

/-- The lapse case (R37). -/
theorem PoolWork.lapse_sound (h : w.sound rs base all u ed (done ++ r :: rem) f q) :
    (w.lapse ed done.getLast? r).sound rs base all u ed (done ++ rem) f (q ++ [r]) ∧
      ∀ j, j ≠ r → (w.lapse ed done.getLast? r).records[j].content = w.records[j].content := by
  obtain ⟨s1, s2, s3, _, s5, s6, s7, s8, s9⟩ := PoolWork.lapse_spec ed done rem f q r w h.holds
  obtain ⟨v, hv⟩ : ∃ v, v = w.lapse ed done.getLast? r := ⟨_, rfl⟩
  rw [← hv] at s1 s2 s3 s5 s6 s7 s8 s9 ⊢
  have ret := FaultRecord.retiredAs_by s2 (.inr (.inl rfl))
  have ap := PoolWork.holds_apart s1
  have rq : r ∈ q ++ [r] := by simp
  have ne : ∀ {l : List RecId} {j : RecId}, r ∉ l → j ∈ l → j ≠ r := fun hl hj x => hl (x ▸ hj)
  have hrq : r ∉ q := ((PoolWork.holds_apart h.holds).1 r (by simp)).2
  have hp : (done ++ rem ++ f ++ (q ++ [r])).Perm (done ++ r :: rem ++ f ++ q) := by
    rw [← List.append_assoc (done ++ rem ++ f)]
    refine (List.perm_append_singleton r (done ++ rem ++ f ++ q)).trans ?_
    rw [List.append_assoc, List.append_assoc, List.append_assoc, List.append_assoc]
    exact List.perm_middle.symm
  have hasc := h.ascending
  refine ⟨⟨s1, hp.trans h.parts, s6.trans h.freeCount, by rw [s7, h.retCount]; simp, ?_, ?_, fun j hj => ?_, fun j hj => ?_,
    fun j hj => ?_, ?_, fun j hj => ?_, ?_⟩, s3⟩
  · rw [s8, h.chainCount]; simp only [List.length_append, List.length_cons]; omega
  · rw [s9, h.liveCount]; simp only [List.length_append, List.length_cons]; omega
  · have hj' : j ∉ done ++ r :: rem ++ f ++ q := fun x => hj (h.parts.subset x)
    simp only [List.mem_append, List.mem_cons, not_or] at hj'
    rw [s5 j hj'.1.1.2.1 (List.getLast?_ne_of_not_mem hj'.1.1.1) (List.getLast?_ne_of_not_mem hj'.2), h.others j hj]
  · obtain ⟨_, k2, _⟩ := FaultRecord.content_fields (s3 j (ne (ap.2.2 r rq).2 hj))
    rw [k2]; exact h.free j hj
  · rcases List.mem_append.mp hj with hj | hj
    · exact (FaultRecord.retiredBy_content (s3 j (ne hrq hj))).mpr (h.retired j hj)
    · rw [List.mem_singleton.mp hj]; exact ret.1
  · refine List.pairwise_append.mpr ⟨h.inOrder.imp_of_mem fun {a b} ha hb hab => ?_, List.pairwise_singleton _ _, fun a ha b hb => ?_⟩
    · rw [(FaultRecord.content_fields (s3 a (ne hrq ha))).2.2.2.2.2.2, (FaultRecord.content_fields (s3 b (ne hrq hb))).2.2.2.2.2.2]
      exact hab
    · rw [List.mem_singleton.mp hb, ret.2, (FaultRecord.content_fields (s3 a (ne hrq ha))).2.2.2.2.2.2]
      exact (h.retired a ha).2
  · refine (FaultRecord.liveOf_content (s3 j (ne (ap.2.2 r rq).1 hj))).mpr (h.live j ?_)
    simp only [List.mem_append, List.mem_cons] at hj ⊢
    exact hj.imp id .inr
  · refine (hasc.sublist ?_).imp_of_mem fun {a b} ha hb hab =>
      (FaultRecord.before_content (s3 a (ne (ap.2.2 r rq).1 ha)) (s3 b (ne (ap.2.2 r rq).1 hb))).mpr hab
    exact (List.Sublist.refl done).append (List.sublist_cons_self r rem)

/-- The link of a chain's record is the record after it. -/
theorem PoolWork.sound_link (h : w.sound rs base all u ed (done ++ r :: rem) f q) : w.records[r].link = rem.head? := by
  have := linked_split (a := done ++ [r]) (b := rem) (by rw [List.append_assoc]; exact h.holds.onChain)
  rw [if_neg (by simp), List.getLast?_append] at this
  exact linked_head this

/-- The merge keeps the collections, whatever the pool has free and whatever its policy (R32 to R37). -/
theorem PoolWork.merge_sound (policy : PoolPolicy) (fuel : Nat) (entries : List ReadEntry) :
    ∀ (done rem f q : List RecId) (w : PoolWork), w.sound rs base all u ed (done ++ rem) f q →
      entries.Pairwise (fun a b => identLt a.code a.mode b.code b.mode = true) →
      (∀ a ∈ done, ∀ e ∈ entries, identLt w.records[a].code w.records[a].mode e.code e.mode = true) →
      ∃ chain' f' q', (w.merge policy u ed fuel entries done.getLast? rem.head?).sound rs base all u ed chain' f' q' := by
  induction fuel generalizing entries with
  | zero => intro done rem f q w h _ _; unfold PoolWork.merge; exact ⟨_, _, _, h⟩
  | succ fuel ih =>
    intro done rem f q w h hs hd
    have same : ∀ {v : PoolWork} {l : List RecId} {es : List ReadEntry},
        (∀ a ∈ l, v.records[a].code = w.records[a].code ∧ v.records[a].mode = w.records[a].mode) →
        (∀ a ∈ l, ∀ e ∈ es, identLt w.records[a].code w.records[a].mode e.code e.mode = true) →
        ∀ a ∈ l, ∀ e ∈ es, identLt v.records[a].code v.records[a].mode e.code e.mode = true := fun hk hl a ha e he => by
      rw [(hk a ha).1, (hk a ha).2]; exact hl a ha e he
    -- the create case, for both places of the walk
    have create : ∀ (e : ReadEntry) (rest : List ReadEntry), entries = e :: rest →
        (∀ b ∈ rem, identLt e.code e.mode w.records[b].code w.records[b].mode = true) →
        ∃ chain' f' q', ((w.create policy u ed e done.getLast? rem.head?).2.merge policy u ed fuel rest
          (w.create policy u ed e done.getLast? rem.head?).1 rem.head?).sound rs base all u ed chain' f' q' := by
      intro e rest he hhigh
      subst he
      obtain ⟨hse, hsr⟩ := List.pairwise_cons.mp hs
      rcases PoolWork.create_sound policy e h (fun a ha => hd a ha e List.mem_cons_self) hhigh with
        ⟨c1, c2, c3⟩ | ⟨r, f', q', c1, c2, c3, c4, c5, c6⟩
      · rw [c1]
        exact ih rest done rem f q _ c3 hsr (by rw [c2]; exact fun a ha x hx => hd a ha x (List.mem_cons_of_mem _ hx))
      · rw [c1]
        have := ih rest (done ++ [r]) rem f' q' _ (by rw [List.append_assoc]; exact c2) hsr (fun a ha x hx => by
          rcases List.mem_append.mp ha with ha | ha
          · have hne : a ≠ r := fun x => c5 (List.mem_append_left _ (x ▸ ha))
            obtain ⟨_, _, k3, k4, _⟩ := FaultRecord.content_fields (c6 a hne)
            rw [k3, k4]; exact hd a ha x (List.mem_cons_of_mem _ hx)
          · rw [List.mem_singleton.mp ha, c3, c4]; exact hse x hx)
        rw [List.getLast?_append] at this
        exact this
    have lapse : ∀ (r : RecId) (rem' : List RecId), rem = r :: rem' →
        ∃ chain' f' q', ((w.lapse ed done.getLast? r).merge policy u ed fuel entries done.getLast? w.records[r].link).sound
          rs base all u ed chain' f' q' := by
      intro r rem' hr
      subst hr
      rw [PoolWork.sound_link h]
      have ls := PoolWork.lapse_sound h
      refine ih entries done rem' f (q ++ [r]) _ ls.1 hs (same (fun a ha => ?_) hd)
      have hne : a ≠ r := by
        rintro rfl
        have hn := (List.nodup_append.mp (List.nodup_append.mp h.holds.nodup).1).1
        exact (List.nodup_append.mp hn).2.2 a ha a List.mem_cons_self rfl
      obtain ⟨_, _, k3, k4, _⟩ := FaultRecord.content_fields (ls.2 a hne)
      exact ⟨k3, k4⟩
    cases entries with
    | nil =>
      cases rem with
      | nil => unfold PoolWork.merge; exact ⟨_, _, _, h⟩
      | cons r rem => exact lapse r rem rfl
    | cons e rest =>
      cases rem with
      | nil => exact create e rest rfl (by simp)
      | cons r rem =>
        have hasc := (List.pairwise_append.mp h.ascending).2.1
        show ∃ chain' f' q', (PoolWork.merge policy u ed (fuel + 1) (e :: rest) done.getLast? (some r) w).sound rs base all u ed
          chain' f' q'
        rw [PoolWork.merge]
        dsimp only
        split
        · next heq =>
          obtain ⟨us, ul, ui⟩ := PoolWork.update_sound e h (List.mem_append_right done List.mem_cons_self)
          obtain ⟨hse, hsr⟩ := List.pairwise_cons.mp hs
          rw [PoolWork.sound_link h]
          have := ih rest (done ++ [r]) rem f q _ (by rw [List.append_assoc]; exact us) hsr
            (same (fun a _ => ui a) fun a ha x hx => by
              rcases List.mem_append.mp ha with ha | ha
              · exact hd a ha x (List.mem_cons_of_mem _ hx)
              · rw [List.mem_singleton.mp ha, ← heq.1, ← heq.2]; exact hse x hx)
          rw [List.getLast?_append] at this
          exact this
        · split
          · next hlt =>
            refine create e rest rfl fun b hb => ?_
            rcases List.mem_cons.mp hb with rfl | hb
            · exact hlt
            · exact identLt_trans hlt ((List.pairwise_cons.mp hasc).1 b hb)
          · exact lapse r rem rfl

/-- A whole chain retired (R31, R44, R46). -/
theorem PoolWork.retireAll_sound (st : RecState) (hst : st = .cleared ∨ st = .lapsed ∨ st = .delisted) (fuel : Nat)
    (h : w.sound rs base all u ed chain f q) (hf : chain.length < fuel) :
    (w.retireAll st ed fuel).sound rs base all u ed [] f (q ++ chain) := by
  have ap := PoolWork.holds_apart h.holds
  obtain ⟨s1, s2, s3, s4, s5, s6, s7, s8, s9, s10, s11, s12, s13⟩ := PoolWork.retireAll_spec st ed fuel chain q w h.holds.onChain
    h.holds.onQueue h.holds.last
    (List.nodup_append.mpr ⟨(List.nodup_append.mp (List.nodup_append.mp h.holds.nodup).1).1, (List.nodup_append.mp h.holds.nodup).2.1,
      fun a ha b hb x => (ap.1 a ha).2 (x ▸ hb)⟩) hf
  obtain ⟨v, hv⟩ : ∃ v, v = w.retireAll st ed fuel := ⟨_, rfl⟩
  rw [← hv] at s1 s2 s3 s4 s5 s6 s7 s8 s9 s10 s11 s12 s13 ⊢
  have hp : ([] ++ f ++ (q ++ chain)).Perm (chain ++ f ++ q) := by
    rw [List.nil_append, ← List.append_assoc, List.append_assoc chain]
    exact List.perm_append_comm
  have gone := fun r hr => FaultRecord.retiredAs_by (ed := ed) (s5 r hr) hst
  have notChain : ∀ {j}, j ∈ q → j ∉ chain := fun hj => (ap.2.2 _ hj).1
  refine ⟨⟨s10, ?_, s1, s2, hp.nodup_iff.mpr h.holds.nodup⟩, hp.trans h.parts, s9.trans h.freeCount,
    by rw [s3, h.retCount, List.length_append], by rw [s13, h.chainCount, Nat.sub_self]; rfl, by rw [s4, h.liveCount]; simp,
    fun j hj => ?_, fun j hj => ?_, fun j hj => ?_, ?_, fun j hj => absurd hj List.not_mem_nil, List.Pairwise.nil⟩
  · rw [s8]
    exact linked_congr h.holds.onFree fun j hj => by
      rw [s6 j (ap.2.1 j hj).1 (List.getLast?_ne_of_not_mem (ap.2.1 j hj).2)]
  · have hj' : j ∉ chain ++ f ++ q := fun x => hj (h.parts.subset x)
    simp only [List.mem_append, not_or] at hj'
    rw [s6 j hj'.1.1 (List.getLast?_ne_of_not_mem hj'.2), h.others j hj]
  · obtain ⟨_, k2, _⟩ := FaultRecord.content_fields (s7 j (ap.2.1 j hj).1)
    rw [k2]; exact h.free j hj
  · rcases List.mem_append.mp hj with hj | hj
    · exact (FaultRecord.retiredBy_content (s7 j (notChain hj))).mpr (h.retired j hj)
    · exact (gone j hj).1
  · refine List.pairwise_append.mpr ⟨h.inOrder.imp_of_mem fun {a b} ha hb hab => ?_, ?_, fun a ha b hb => ?_⟩
    · rw [(FaultRecord.content_fields (s7 a (notChain ha))).2.2.2.2.2.2, (FaultRecord.content_fields (s7 b (notChain hb))).2.2.2.2.2.2]
      exact hab
    · exact List.Pairwise.imp_of_mem (fun {a b} ha hb _ => by rw [(gone a ha).2, (gone b hb).2])
        (List.pairwise_of_forall (R := fun _ _ => True) fun _ _ => trivial)
    · rw [(gone b hb).2, (FaultRecord.content_fields (s7 a (notChain ha))).2.2.2.2.2.2]
      exact (h.retired a ha).2

/-- Epoch step and merge of one read list keep the collections (R28 steps 3 and 4). -/
theorem PoolWork.reconcile_sound (policy : PoolPolicy) (entry : DirEntry) (epoch : Byte) (entries : List ReadEntry)
    (h : w.sound rs base all u ed chain f q) (hs : entries.Pairwise fun a b => identLt a.code a.mode b.code b.mode = true) :
    ∃ chain' f' q', (w.reconcile policy u entry epoch ed entries).sound rs base all u ed chain' f' q' := by
  have key : ∀ {v : PoolWork} {c f q : List RecId}, v.sound rs base all u ed c f q →
      ∃ chain' f' q', (v.merge policy u ed (walkFuel entries.length) entries none v.chainHead).sound rs base all u ed chain' f' q' :=
    fun {v c f q} hv => by
      rw [linked_head hv.holds.onChain]
      exact PoolWork.merge_sound policy _ entries [] c f q v hv hs (by simp)
  unfold PoolWork.reconcile PoolWork.epochStep
  split
  · exact key h
  · refine key (PoolWork.retireAll_sound .cleared (.inl rfl) (walkFuel 0) h ?_)
    have := nodup_length (List.nodup_append.mp (List.nodup_append.mp h.holds.nodup).1).1
    simp only [walkFuel, Config.poolSize]
    omega

end Steps

/-! ### From the operation to the part -/

section Part
variable {s t : State} {chain : UnitId → List RecId} {f q : List RecId}

/-- The chains of all units but one. -/
def otherChains (chain : UnitId → List RecId) (u : UnitId) : List RecId := ((List.finRange 64).erase u).flatMap chain

theorem chains_perm (chain : UnitId → List RecId) (u : UnitId) :
    ((List.finRange 64).flatMap chain).Perm (chain u ++ otherChains chain u) := by
  have := List.Perm.flatMap_right chain (List.perm_cons_erase (List.mem_finRange u))
  rwa [List.flatMap_cons] at this

theorem otherChains_congr {chain chain' : UnitId → List RecId} {u : UnitId} (h : ∀ v, v ≠ u → chain' v = chain v) :
    otherChains chain' u = otherChains chain u := by
  refine List.flatMap_congr fun v hv => h v fun e => ?_
  subst e
  exact (List.nodup_finRange 64).not_mem_erase hv

/-- The three collections that an operation works on, and the others' records, share out the pool. -/
theorem State.poolHolds_perm (h : s.poolHolds chain f q) (u : UnitId) :
    (chain u ++ f ++ q ++ otherChains chain u).Perm (List.finRange 1536) := by
  refine List.Perm.trans ?_ h.parts
  refine List.Perm.trans ?_ (List.Perm.append_left (f ++ q) (chains_perm chain u)).symm
  rw [List.append_assoc (chain u), List.append_assoc, ← List.append_assoc (f ++ q)]
  rw [← List.append_assoc (chain u)]
  exact List.Perm.append_right _ List.perm_append_comm

theorem State.poolHolds_live (h : s.poolHolds chain f q) (u : UnitId) :
    s.pool.liveCount = (otherChains chain u).length + (chain u).length := by
  rw [h.liveCount, (chains_perm chain u).length_eq, List.length_append, Nat.add_comm]

/-- An operation on a unit's chain begins on collections that stand whole. -/
theorem State.poolHolds_start (h : s.poolHolds chain f q) (u : UnitId) :
    (PoolWork.start s.pool s.dir[u]).sound s.pool.records (otherChains chain u).length (chain u ++ f ++ q) u s.sweep.counter
      (chain u) f q := by
  have hn : (chain u ++ f ++ q).Nodup :=
    (List.nodup_append.mp ((State.poolHolds_perm h u).nodup_iff.mpr (List.nodup_finRange 1536))).1
  exact ⟨⟨h.onChain u, h.onFree, h.onQueue, h.last, hn⟩, List.Perm.refl _, h.freeCount, h.retCount, h.chainCount u,
    State.poolHolds_live h u, fun _ _ => rfl, h.free, h.retired, h.inOrder, h.live u, h.ascending u⟩

/-- The part's collections stand whole after an operation on unit `u` that kept them whole and left the other chains alone. -/
theorem State.poolHolds_of_sound {w : PoolWork} {u : UnitId} {c' f' q' : List RecId} (h : s.poolHolds chain f q)
    (hw : w.sound s.pool.records (otherChains chain u).length (chain u ++ f ++ q) u s.sweep.counter c' f' q')
    (hrec : t.pool.records = w.records) (hft : t.pool.freeTop = w.freeTop) (hfc : t.pool.freeCount = w.freeCount)
    (hqh : t.pool.retHead = w.retHead) (hqt : t.pool.retTail = w.retTail) (hqc : t.pool.retCount = w.retCount)
    (hlc : t.pool.liveCount = w.liveCount) (hch : t.dir[u].chainHead = w.chainHead) (hcc : t.dir[u].liveCount = w.chainCount)
    (hv : t.dir[u].state = .vacant → c' = [])
    (ho : ∀ v : UnitId, v ≠ u → t.dir[v].chainHead = s.dir[v].chainHead ∧ t.dir[v].liveCount = s.dir[v].liveCount ∧
      (t.dir[v].state = .vacant → s.dir[v].state = .vacant))
    (hc : s.sweep.counter.toNat ≤ t.sweep.counter.toNat) : t.poolOk := by
  have hu : (Function.update chain u c') u = c' := Function.update_self ..
  have hne : ∀ v, v ≠ u → (Function.update chain u c') v = chain v := fun v x => Function.update_of_ne x ..
  have hoth := otherChains_congr (u := u) hne
  have apart : ∀ v, v ≠ u → ∀ r ∈ chain v, r ∉ chain u ++ f ++ q := by
    intro v hvu r hr hx
    have hn := (State.poolHolds_perm h u).nodup_iff.mpr (List.nodup_finRange 1536)
    exact (List.nodup_append.mp hn).2.2 r hx r
      (List.mem_flatMap.mpr ⟨v, (List.mem_erase_of_ne hvu).mpr (List.mem_finRange v), hr⟩) rfl
  have kept : ∀ v, v ≠ u → ∀ r ∈ chain v, t.pool.records[r] = s.pool.records[r] := fun v hvu r hr => by
    rw [hrec]; exact hw.others r (apart v hvu r hr)
  have inQ : ∀ r ∈ q', _ := hw.retired
  refine ⟨Function.update chain u c', f', q', ?_⟩
  exact
    { onFree := by rw [hrec, hft]; exact hw.holds.onFree
      onQueue := by rw [hrec, hqh]; exact hw.holds.onQueue
      last := hqt.trans hw.holds.last
      onChain := fun v => by
        by_cases hvu : v = u
        · subst hvu; rw [hu, hrec, hch]; exact hw.holds.onChain
        · rw [hne v hvu, (ho v hvu).1]
          exact linked_congr (h.onChain v) fun r hr => by rw [kept v hvu r hr]
      parts := by
        refine List.Perm.trans (List.Perm.append_left _ (chains_perm _ u)) ?_
        rw [hu, hoth]
        refine List.Perm.trans ?_ (State.poolHolds_perm h u)
        rw [← List.append_assoc]
        refine List.Perm.append_right _ (List.Perm.trans ?_ hw.parts)
        rw [List.append_assoc c']
        exact List.perm_append_comm
      freeCount := hfc.trans hw.freeCount
      retCount := hqc.trans hw.retCount
      liveCount := by
        rw [hlc, hw.liveCount, (chains_perm _ u).length_eq, List.length_append, hu, hoth, Nat.add_comm]
      chainCount := fun v => by
        by_cases hvu : v = u
        · subst hvu; rw [hu, hcc]; exact hw.chainCount
        · rw [hne v hvu, (ho v hvu).2.1]; exact h.chainCount v
      vacant := fun v x => by
        by_cases hvu : v = u
        · subst hvu; rw [hu]; exact hv x
        · rw [hne v hvu]; exact h.vacant v ((ho v hvu).2.2 x)
      free := fun r hr => by rw [hrec]; exact hw.free r hr
      retired := fun r hr => by rw [hrec]; exact ⟨(hw.retired r hr).1, Nat.le_trans (hw.retired r hr).2 hc⟩
      inOrder := by rw [hrec]; exact hw.inOrder
      live := fun v r hr => by
        by_cases hvu : v = u
        · subst hvu; rw [hu] at hr; rw [hrec]; exact hw.live r hr
        · rw [hne v hvu] at hr; rw [kept v hvu r hr]; exact h.live v r hr
      ascending := fun v => by
        by_cases hvu : v = u
        · subst hvu; rw [hu, hrec]; exact hw.ascending
        · rw [hne v hvu]
          exact (h.ascending v).imp_of_mem fun {a b} ha hb x => by rw [kept v hvu a ha, kept v hvu b hb]; exact x }

/-- What leaves the pool, the chains and the vacant entries as they are leaves the collections whole. -/
theorem State.poolOk_congr (h : s.poolOk) (hp : t.pool.records = s.pool.records ∧ t.pool.freeTop = s.pool.freeTop ∧
      t.pool.freeCount = s.pool.freeCount ∧ t.pool.retHead = s.pool.retHead ∧ t.pool.retTail = s.pool.retTail ∧
      t.pool.retCount = s.pool.retCount ∧ t.pool.liveCount = s.pool.liveCount)
    (hd : ∀ v : UnitId, t.dir[v].chainHead = s.dir[v].chainHead ∧ t.dir[v].liveCount = s.dir[v].liveCount ∧
      (t.dir[v].state = .vacant → s.dir[v].state = .vacant))
    (hc : s.sweep.counter.toNat ≤ t.sweep.counter.toNat) : t.poolOk := by
  obtain ⟨chain, f, q, h⟩ := h
  obtain ⟨p1, p2, p3, p4, p5, p6, p7⟩ := hp
  exact State.poolHolds_of_sound h (State.poolHolds_start h 0) p1 p2 p3 p4 p5 p6 p7 (hd 0).1 (hd 0).2.1
    (fun x => h.vacant 0 ((hd 0).2.2 x)) (fun v _ => hd v) hc

/-- The tail of the retired queue after a release: none with the last record (R9). -/
theorem PoolWork.releaseUpTo_tail (applied : Edition) (fuel : Nat) (w : PoolWork) (h : w.retHead = none → w.retTail = none) :
    (w.releaseUpTo applied fuel).retTail = if (w.releaseUpTo applied fuel).retHead = none then none else w.retTail := by
  have stays : w.retTail = if w.retHead = none then none else w.retTail := by
    split
    · next x => exact h x
    · rfl
  induction fuel generalizing w with
  | zero => exact stays
  | succ fuel ih =>
    cases hr : w.retHead with
    | none => unfold PoolWork.releaseUpTo; rw [hr]; exact stays
    | some r =>
      rw [PoolWork.releaseUpTo, hr]
      dsimp only
      split
      · have h' : (w.freeHead r).retHead = none → (w.freeHead r).retTail = none := fun x => if_pos x
        rw [ih (w.freeHead r) h' (by split <;> [exact h' ‹_›; rfl])]
        split
        · rfl
        · show (if w.records[r].link = none then none else w.retTail) = w.retTail
          next hne =>
          refine if_neg fun x => hne ?_
          have hz : (w.freeHead r).retHead = none := x
          cases fuel with
          | zero => exact hz
          | succ fuel => rw [PoolWork.releaseUpTo, hz]; exact hz
      · exact stays

/-- A release keeps the collections (R9, R21). -/
theorem State.poolOk_release (applied : Edition) (h : s.poolOk) {w : PoolWork} (hw : w = s.releaseWork applied)
    (hp : t.pool.records = w.records ∧ t.pool.freeTop = w.freeTop ∧ t.pool.freeCount = w.freeCount ∧
      t.pool.retHead = w.retHead ∧ t.pool.retTail = w.retTail ∧ t.pool.retCount = w.retCount ∧ t.pool.liveCount = w.liveCount)
    (hd : ∀ v : UnitId, t.dir[v].chainHead = s.dir[v].chainHead ∧ t.dir[v].liveCount = s.dir[v].liveCount ∧
      (t.dir[v].state = .vacant → s.dir[v].state = .vacant))
    (hc : s.sweep.counter.toNat ≤ t.sweep.counter.toNat) : t.poolOk := by
  obtain ⟨chain, f, q, h⟩ := h
  obtain ⟨p1, p2, p3, p4, p5, p6, p7⟩ := hp
  have hnall := h.parts.nodup_iff.mpr (List.nodup_finRange 1536)
  have hn : (f ++ q).Nodup := (List.nodup_append.mp hnall).1
  have hnq : (q ++ f).Nodup := List.perm_append_comm.nodup_iff.mp hn
  obtain ⟨gone, hg⟩ : ∃ gone, gone = q.takeWhile fun r => decide ((s.pool.records[r].retired).toNat ≤ applied.toNat) := ⟨_, rfl⟩
  have sp := PoolWork.releaseUpTo_spec applied (walkFuel 0) q f (PoolWork.start s.pool DirEntry.vacant) h.onQueue h.onFree hnq
    (by have := nodup_length (List.nodup_append.mp hnq).1; simp only [walkFuel, Config.poolSize]; omega) gone hg
  have hw' : w = (PoolWork.start s.pool DirEntry.vacant).releaseUpTo applied (walkFuel 0) := hw
  rw [← hw'] at sp
  have htail : w.retTail = if w.retHead = none then none else s.pool.retTail := by
    rw [hw']
    refine PoolWork.releaseUpTo_tail applied _ _ fun x => ?_
    show s.pool.retTail = none
    rw [h.last, List.getLast?_eq_none_iff]
    have := (linked_head h.onQueue).symm.trans x
    exact List.head?_eq_none_iff.mp this
  obtain ⟨s1, s2, s3, s4, s5, s6, s7, _, _⟩ := sp
  have hsplit : gone ++ q.drop gone.length = q := by
    have h1 : q.takeWhile (fun r => decide ((s.pool.records[r].retired).toNat ≤ applied.toNat)) ++ q.dropWhile
        (fun r => decide ((s.pool.records[r].retired).toNat ≤ applied.toNat)) = q := List.takeWhile_append_dropWhile
    rw [← hg] at h1
    generalize q.dropWhile (fun r => decide ((s.pool.records[r].retired).toNat ≤ applied.toNat)) = d at h1
    rw [← h1, List.drop_left]
  have hlen : gone.length + (q.drop gone.length).length = q.length := by
    have := congrArg List.length hsplit
    rwa [List.length_append] at this
  have sub : ∀ r ∈ q.drop gone.length, r ∈ q ∧ r ∉ gone := fun r hr => by
    refine ⟨(List.drop_sublist _ _).subset hr, fun x => ?_⟩
    have := (List.nodup_append.mp hnq).1
    rw [← hsplit] at this
    exact (List.nodup_append.mp this).2.2 r x r hr rfl
  have goneQ : ∀ r ∈ gone, r ∈ q := fun r hr => by rw [← hsplit]; exact List.mem_append_left _ hr
  have chainQ : ∀ u : UnitId, ∀ r ∈ chain u, r ∉ gone := fun u r hr x =>
    (List.nodup_append.mp hnall).2.2 r (List.mem_append_right _ (goneQ r x)) r
      (List.mem_flatMap.mpr ⟨u, List.mem_finRange u, hr⟩) rfl
  have fQ : ∀ r ∈ f, r ∉ gone := fun r hr x => (List.nodup_append.mp hn).2.2 r hr r (goneQ r x) rfl
  have keep : ∀ r, r ∉ gone → t.pool.records[r] = s.pool.records[r] := fun r hr => by rw [p1, s4 r hr]; rfl
  refine ⟨chain, gone.reverse ++ f, q.drop gone.length, ?_⟩
  exact
    { onFree := by rw [p1, p2]; exact s2
      onQueue := by rw [p1, p4]; exact s1
      last := by
        rw [p5, htail, linked_head s1, h.last]
        cases hd : q.drop gone.length with
        | nil => rfl
        | cons a l => rw [if_neg (by simp), ← hsplit, hd, List.getLast?_append_cons]
      onChain := fun u => by
        rw [(hd u).1]
        exact linked_congr (h.onChain u) fun r hr => by rw [keep r (chainQ u r hr)]
      parts := by
        refine List.Perm.trans (List.Perm.append_right _ ?_) h.parts
        have : (gone.reverse ++ f ++ q.drop gone.length).Perm (f ++ (gone ++ q.drop gone.length)) := by
          rw [← List.append_assoc]
          exact List.Perm.append_right _ (List.Perm.trans List.perm_append_comm (List.Perm.append_left f (List.reverse_perm gone)))
        rwa [hsplit] at this
      freeCount := by rw [p3, s5, List.length_append, List.length_reverse]; show s.pool.freeCount + _ = _; rw [h.freeCount]; omega
      retCount := by rw [p6, s6]; show s.pool.retCount - _ = _; rw [h.retCount]; omega
      liveCount := by rw [p7, s7]; exact h.liveCount
      chainCount := fun u => (hd u).2.1.trans (h.chainCount u)
      vacant := fun u x => h.vacant u ((hd u).2.2 x)
      free := fun r hr => by
        rcases List.mem_append.mp hr with hr | hr
        · rw [p1, s3 r (List.mem_reverse.mp hr)]; rfl
        · rw [keep r (fQ r hr)]; exact h.free r hr
      retired := fun r hr => by
        rw [keep r (sub r hr).2]
        exact ⟨(h.retired r (sub r hr).1).1, Nat.le_trans (h.retired r (sub r hr).1).2 hc⟩
      inOrder := (h.inOrder.sublist (List.drop_sublist _ _)).imp_of_mem fun {a b} ha hb x => by
        rw [keep a (sub a ha).2, keep b (sub b hb).2]; exact x
      live := fun u r hr => by rw [keep r (chainQ u r hr)]; exact h.live u r hr
      ascending := fun u => (h.ascending u).imp_of_mem fun {a b} ha hb x => by
        rw [keep a (chainQ u a ha), keep b (chainQ u b hb)]; exact x }

end Part

end Sys2Proof.Machine
end

