-- ==== Sys2Proof/Tests/Slice0.lean ====
section
/-! SUPPORT. Tests: ill-formed terms refused, one-step cases from the worked examples of spec/, and for each obligation with
hypotheses a concrete state that meets them. -/

namespace Sys2Proof.Tests

open Sys2Proof Sys2Proof.Machine

set_option Elab.async false

/-! ### Small states -/

/-- The state after a command. -/
def after (c : Instr) (s : State) : State :=
  match exec c s with
  | .next t => t
  | .fault f => nomatch f
  | .refused _ => s

/-- The part after a full reset with START cleared. -/
def clear : State := { State.reset with orders := { OrderEngine.fresh with start := false } }

/-- An engine reset, taken from slot 2, is in progress. -/
def inReset (s : State) : State := { s with orders := { s.orders with resetting := some 2 } }

/-- Slot 0 POSTED with an order of the kind and parameter bytes given (12.3, 12.4). -/
def posted (kind : Byte) (params : List Byte) (s : State) : State :=
  { s with mem := ([1, 0, kind, 0] ++ params).zipIdx.foldl (fun m x => Memory.write m x.2 x.1) [] }

/-- A channel at 500 kbit/s, ACTIVE, with every timer running. -/
def joined : Channel :=
  { Channel.fresh 0 with
    state := .active, settings := { ChanSettings.fresh with bitRate := .r500 }, windowLength := 500, loadTimer := some 500
    settleTimer := some 200, settling := true
    pacer := { Pacer.fresh with target := 200, current := 20, credits := 20, timer := some 100 } }

/-- A unit enlisted on channel B with node address 49. -/
def unitOnB (st : UnitState) : DirEntry := { DirEntry.vacant with state := st, channel := 1, address := 49 }

/-- Channel B joined; unit 8 enlisted on it in the state given; context 2 working for unit 8. -/
def busy (st : UnitState) (f : Context → Context) (s : State) : State :=
  { s with
    chans := s.chans.set 1 joined
    dir := s.dir.set 8 (unitOnB st)
    ctxs := s.ctxs.set 2 (f { Context.freed 0 true with target := 8, channel := 1, useAnswer := 25, useGap := 50,
                                                         useStop := 30, useLimit := 3, countAsked := 16, attempt := 1 }) }

/-- A unit's frame to the part: priority, kind, tag, destination 249, source 49 (12.12), and its data. -/
def answer (kind : BitVec 5) (tag : BitVec 4) (data : List Byte) : Frame :=
  { extended := true, remote := false, ident := (6 : BitVec 3) ++ ((0 : BitVec 1) ++ (kind ++ (tag ++ ((249 : Byte) ++ (49 : Byte))))),
    dlc := BitVec.ofNat 4 data.length, data := dataBytes data }

/-- Frames at the front of channel B's response FIFO, whose turn it is. -/
def holding (fs : List Frame) (s : State) : State :=
  { s with chans := s.chans.set 1 { s.chans[(1 : ChanId)] with fifo := fs }, portLast := 0 }

/-- Context 2 stands in channel B's waiting line. -/
def inLine (s : State) : State :=
  { s with chans := s.chans.set 1 { s.chans[(1 : ChanId)] with
                                    pacer := { s.chans[(1 : ChanId)].pacer with credits := 0, line := [2] } } }

/-- A sweep in the state given. -/
def sweeping (st : SweepState) (s : State) : State :=
  { s with sweep := { s.sweep with state := st, budgetTimer := some 30000, openEdition := 58 } }

/-- Unit 8's mark. -/
def marked (m : SweepMark) (s : State) : State := { s with dir := s.dir.set 8 { s.dir[(8 : UnitId)] with mark := m } }

/-- A pool operation in progress. -/
def operating (r : PoolRequest) (applied : Edition) (s : State) : State :=
  { s with pool := { s.pool with revision := 1, op := some { request := r, policy := .keep, snapshot := s.self, applied := applied } } }

/-- A live or retired record of the pool. -/
def record (st : RecState) (code : Triple) (mode : Byte) (link : Option RecId) (retired : Edition) : FaultRecord :=
  { FaultRecord.freed link with state := st, code := code, mode := mode, cumulative := 1, lastCount := 1, retired := retired }

/-! ### Ill-formed terms -/

/-- R179 lists SIGNAL, ATTENTION and ATTN_MASK as writable: a write to one is no REGISTER_WRITE_IGNORED. -/
theorem test_ill_register_signal : (Instr.registerWriteIgnored 0x8002 0).wellFormed = false := by decide +kernel
theorem test_ill_register_attention : (Instr.registerWriteIgnored 0x8003 1).wellFormed = false := by decide +kernel
theorem test_ill_register_mask : (Instr.registerWriteIgnored 0x8004 1).wellFormed = false := by decide +kernel
/-- An address of the lower half is exchange memory (R178). -/
theorem test_ill_register_memory : (Instr.registerWriteIgnored 0x7FFF 0).wellFormed = false := by decide +kernel
/-- Slot 15's state word, at byte offset 0x3C0. -/
theorem test_ill_slot_state_word : (Instr.hostMemoryWrite 0x1E0 1).wellFormed = false := by decide +kernel
/-- Unit 0 has no hold (R67). -/
theorem test_ill_hold_unit0 : (Instr.holdRunOut 0).wellFormed = false := by decide +kernel
/-- A base-format identifier has 11 bits. -/
theorem test_ill_base_identifier :
    (Instr.frameReceived 0 { extended := false, remote := false, ident := 2048, dlc := 0, data := dataBytes [] }).wellFormed =
      false := by decide +kernel
/-- A remote frame carries no data. -/
theorem test_ill_remote_data :
    (Instr.frameReceived 0 { extended := true, remote := true, ident := 0, dlc := 1, data := dataBytes [1] }).wellFormed =
      false := by decide +kernel
theorem test_well_formed :
    (Instr.frameReceived 1 (answer 0x11 10 [1, 2, 3, 4, 5])).wellFormed = true ∧ (Instr.holdRunOut 63).wellFormed = true ∧
      (Instr.registerWriteIgnored 0x8000 0).wellFormed = true ∧ (Instr.hostMemoryWrite 0x1E1 0).wellFormed = true := by
  decide +kernel
/-- No row of the table gives bits. -/
theorem test_no_word : decodeTableWord 16 0 = none ∧ State.withFetchWord State.reset 16 0xFFFF = State.reset := ⟨rfl, rfl⟩


/-! ### Host port, orders, reset -/

/-- R183 and 12.11: IDENT at the end of initialisation. -/
theorem test_ident_after_reset :
    (after .initialisationEnd (after .fullReset clear)).hostRead 0x8000 = 0x7240 ∧
      (after .fullReset clear).hostRead 0x8000 = 0 := by decide +kernel

/-- Chapter 9, A pass that halts: SET TIMING 2, 60, 30, 20, 9 gives words 0x3C05, 0x141E, 7, 0. -/
theorem test_set_timing :
    let s := after (.signalWrite 0) (posted 5 [2, 60, 30, 20, 9] clear)
    slotState s.mem 0 = 3 ∧ slotWord s.mem 0 0x12 = 0x3C05 ∧ slotWord s.mem 0 0x14 = 0x141E ∧
      slotWord s.mem 0 0x16 = 7 ∧ slotWord s.mem 0 0x18 = 0 := by decide +kernel

/-- Chapter 7, SET PACING clamped and refused: 595, 600 spans 5 and is refused LIMIT_SPAN with word 0 = 1. -/
theorem test_set_pacing_span :
    let s := after (.signalWrite 0) (posted 4 [0, 20, 83, 2, 88, 2, 44, 1, 188, 2, 5, 10] clear)
    slotState s.mem 0 = 4 ∧ slotWord s.mem 0 0x10 = 0x83 ∧ slotWord s.mem 0 0x12 = 1 := by decide +kernel

/-- R165: the scan timer's next expiry, and CLEAR START taken in its pass. -/
theorem test_scan_timer :
    let s := after .orderScanTimerExpiry (posted 1 [] State.reset)
    s.clock = 50 ∧ s.orders.scanTimer = 100 ∧ s.orders.start = false ∧ slotState s.mem 0 = 3 := by decide +kernel

/-- R180: START cleared by a 1; R181: an empty mask releases ATTN_N. -/
theorem test_attention_and_mask :
    (after (.attentionWrite 0x0001) State.reset).port.attention = 0 ∧
      (after (.attnMaskWrite 0) State.reset).port.attnLow = false := by decide +kernel

/-- R182: the low half returned, the high half latched. -/
theorem test_clock_latch :
    let s := after .clockLoRead { clear with clock := 0x00012345 }
    s.port.dataOut = 0x2345 ∧ s.port.clockLatch = 1 := by decide +kernel

/-- R178: low byte first; R164: a host's TAKEN is ignored. -/
theorem test_host_writes :
    let s := after (.hostMemoryWrite 0x200 0x1234) clear
    s.exchangeByte 0x400 = 0x34 ∧ s.exchangeByte 0x401 = 0x12 ∧ after (.slotStateWrite 3 2) clear = clear ∧
      slotState (after (.slotStateWrite 3 1) clear).mem 3 = 1 := by
  refine ⟨by decide +kernel, by decide +kernel, rfl, by decide +kernel⟩

/-- R183: writes to an unassigned register do nothing. -/
theorem test_register_write_ignored : after (.registerWriteIgnored 0x9000 5) clear = clear := rfl

/-- R177, R62: the READING unit of a frozen context becomes IDLE with last outcome RESET, slot 6 is refused RESET_ABORTED. -/
theorem test_engine_reset :
    let s := busy .reading (fun c => { c with state := .receiving, attached := 64 }) clear
    let s : State :=
      { s with orders := { s.orders with
          resetting := some 2,
          taken := (s.orders.taken.set 6 (some { order := .readUnit 8, edition := 5, sweepResult := none })).set 2
            (some { order := .resetPart, edition := 0, sweepResult := none }) } }
    let t := after .engineResetEnd s
    t.dir[(8 : UnitId)].state = .idle ∧ t.dir[(8 : UnitId)].lastOutcome = .reset ∧ t.ctxs[(2 : CtxId)].state = .free ∧
      slotState t.mem 6 = 4 ∧ slotWord t.mem 6 0x10 = 0x8B ∧ slotState t.mem 2 = 3 ∧ t.orders.start = true := by
  decide +kernel

/-! ### Frames, channels and pacers -/

/-- 12.12: OPEN, tag 10, to node 49 from 249: priority 6, kind 1. -/
theorem test_open_identifier : (txFrame .openFrame 10 49 249 [0, 16]).ident = 0x181A31F9 := by decide +kernel

/-- The channel given as channel B of a part with START cleared. -/
def withB (c : Channel) : State := { clear with chans := clear.chans.set 1 c }

/-- Chapter 6, Load from mixed traffic: 150 and 943 per mille. -/
theorem test_load :
    let one := after (.loadWindowExpiry 1) (withB { joined with accumulator := 37616, windowLength := 500 })
    let two := after (.loadWindowExpiry 1)
      (withB { joined with accumulator := 235800, windowLength := 1000,
                           settings := { joined.settings with bitRate := .r250 } })
    one.chans[(1 : ChanId)].lastLoad = 150 ∧ two.chans[(1 : ChanId)].lastLoad = 943 := by decide +kernel

/-- Chapter 7, Target, ramp and credits: tick 1 from 400 toward 220, credits at the cap. -/
theorem test_ramp :
    let p : Pacer :=
      { joined.pacer with
        settings := { floor := 40, ceiling := 400, lowMark := 300, highMark := 700, upTime := 2000, downTime := 500,
                      loadWindow := 1000 },
        current := 400, target := 220, credits := 64, remainder := 0 }
    let s := after (.pacingTimerExpiry 1) (withB { joined with pacer := p })
    s.chans[(1 : ChanId)].pacer.current = 320 ∧ s.chans[(1 : ChanId)].pacer.credits = 64 ∧
      targetPace p.settings 500 = 220 := by decide +kernel

/-- Chapter 7, A line served from its head: at the third tick contexts 3 and 5 are granted, 1 credit and context 7 stay. -/
theorem test_line :
    let p : Pacer :=
      { joined.pacer with settings := { PacingSettings.fresh with floor := 20, ceiling := 200 },
                          current := 60, target := 60, credits := 12, remainder := 0, line := [3, 5, 7] }
    let c : Context := { Context.freed 0 false with state := .paced, channel := 1, target := 8 }
    let s := withB { joined with pacer := p }
    let c3 := { c with creditNeed := 16 }
    let c5 := { c with creditNeed := 1, purpose := .erase }
    let c7 := { c with state := .mending, creditNeed := 2, pickList := [4, 5] }
    let s : State := { s with ctxs := ((s.ctxs.set 3 c3).set 5 c5).set 7 c7 }
    let t := after (.pacingTimerExpiry 1) s
    t.chans[(1 : ChanId)].pacer.line = [7] ∧ t.chans[(1 : ChanId)].pacer.credits = 1 ∧
      t.ctxs[(3 : CtxId)].frameQueued = some .openFrame ∧ t.ctxs[(5 : CtxId)].frameQueued = some .eraseFrame := by
  decide +kernel

/-- Chapter 6, One segment during a long release: under KEEP_OLDEST the 33rd frame is lost and counted. -/
theorem test_overflow :
    let f := answer 0x14 10 [15, 1, 0, 0, 1, 0, 0]
    let s := after (.frameReceived 1 f) (withB { joined with fifo := List.replicate 32 (answer 0x13 10 [0, 1, 0, 0, 1, 0, 0]) })
    s.chans[(1 : ChanId)].fifo.length = 32 ∧ s.chans[(1 : ChanId)].overflowTally = 1 ∧
      s.self.entries.map (fun e => (e.code, e.mode)) = [(.responseOverflow, 1)] := by decide +kernel

/-- Chapter 6, A channel driven off its segment: 120 to 128 makes it PASSIVE; past 255 it is BUS_OFF. -/
theorem test_bus_off :
    (after (.transmitError 1 .other) (withB { joined with txErrors := 120 })).chans[(1 : ChanId)].state = .passive ∧
      (let t := after (.transmitError 1 .other) (withB { joined with state := .passive, txErrors := 248 })
       t.chans[(1 : ChanId)].state = .busOff ∧ t.chans[(1 : ChanId)].txErrors = 255 ∧
         t.chans[(1 : ChanId)].recoveryTimer = some 1000 ∧ t.self.entries.map (·.activeNow) = [true]) := by decide +kernel

/-- R119: 128 receive errors make the channel PASSIVE; R121: recovery ends ACTIVE with both counters 0. -/
theorem test_receive_error_and_recovery :
    (after (.receiveError 1) (withB { joined with rxErrors := 127 })).chans[(1 : ChanId)].state = .passive ∧
      (after (.recoveryHoldExpiry 1) (withB { joined with state := .busOff, recoveryTimer := some 1000 })).clock = 1000 ∧
      (after (.recoveryComplete 1) (withB { joined with state := .recovering, txErrors := 255 })).chans[(1 : ChanId)].txErrors =
        0 := by decide +kernel

/-- R127: the settle timer's expiry ends settling. -/
theorem test_settle :
    (after (.settleTimerExpiry 1) (withB joined)).chans[(1 : ChanId)].settling = false ∧
      (after (.settleTimerExpiry 1) (withB joined)).clock = 200 := by decide +kernel

/-! ### Contexts -/

/-- Chapter 5, An erase through a hold: HOLD of 20 steps at 50,010 runs to 50,210, hold count 1. -/
theorem test_erase_hold :
    let s := holding [answer 0x12 10 [2, 20]]
      (busy .erasing (fun c => { c with state := .opening, purpose := .erase, attached := 4 }) { clear with clock := 50010 })
    let t := after .hold s
    t.ctxs[(2 : CtxId)].window = some (.hold, 50210) ∧ t.dir[(8 : UnitId)].holdCount = 1 ∧
      t.ctxs[(2 : CtxId)].state = .opening := by decide +kernel

/-- Chapter 3, One unit through holds: HOLD of 30 steps at 10,000 gives hold-until 10,300; its run-out at 10,300. -/
theorem test_read_hold :
    let s := holding [answer 0x12 10 [1, 30]] (busy .reading (fun c => { c with state := .opening }) { clear with clock := 10000 })
    let t := after .hold s
    t.dir[(8 : UnitId)].state = .held ∧ t.dir[(8 : UnitId)].holdUntil = 10300 ∧ t.ctxs[(2 : CtxId)].state = .free ∧
      (after (.holdRunOut 8) { t with chans := t.chans.set 1 (Channel.fresh 0) }).dir[(8 : UnitId)].holdRunOut = true := by
  decide +kernel

/-- Chapter 4, A two-segment read: GRANT 501 / 4 / 20, count 16, starts the 50 ms gap window. -/
theorem test_grant :
    let s := holding [answer 0x11 10 [0xF5, 0x01, 4, 20, 16]] (busy .reading (fun c => { c with state := .opening }) clear)
    let c := (after .grant s).ctxs[(2 : CtxId)]
    c.state = .receiving ∧ c.generation = 501 ∧ c.epoch = 4 ∧ c.total = 20 ∧ c.granted = 16 ∧
      c.window = some (.gap, 50) := by decide +kernel

/-- Chapter 4, A torn second segment: GRANT 531 against 530 restarts with the other parity and restart count 1. -/
theorem test_torn :
    let s := holding [answer 0x11 10 [0x13, 0x02, 4, 21, 4]]
      (busy .reading (fun c => { c with state := .opening, generation := 530, epoch := 4, total := 20, segFirst := 16 }) clear)
    let t := after .grant s
    t.ctxs[(2 : CtxId)].parity = false ∧ t.ctxs[(2 : CtxId)].segFirst = 0 ∧ t.dir[(8 : UnitId)].restartCount = 1 := by
  decide +kernel

/-- 12.12: ENTRY_A's fault code, mode, count and flags, low byte first; the half takes place 9. -/
theorem test_entry_a :
    let f := answer 0x13 10 [9, 0x1F, 0xA2, 0x00, 3, 4, 1]
    let s := busy .reading (fun c => { c with state := .receiving, total := 20, granted := 16, window := some (.gap, 50) }) clear
    (State.takeHalf setHalfA 2 f s).ctxs[(2 : CtxId)].staging[(9 : Fin 64)].halfA =
      some { code := 0xA21F, mode := 3, count := 4, activeNow := true, confirmed := false, lamp := false } := by decide +kernel

/-- 12.12: ENTRY_B's two odometers, low byte first. -/
theorem test_entry_b :
    let f := answer 0x14 10 [9, 0x10, 0x27, 0x00, 0x20, 0x4E, 0x00]
    let s := busy .reading (fun c => { c with state := .receiving, total := 20, granted := 16, window := some (.gap, 50) }) clear
    (State.takeHalf setHalfB 2 f s).ctxs[(2 : CtxId)].staging[(9 : Fin 64)].halfB =
      some { firstOdo := 10000, lastOdo := 20000 } := by decide +kernel

/-- Chapter 4, A two-segment read: the CLOSE with place 9 missing begins round 1 with PICK of 9. -/
theorem test_close_mends :
    let c0 := fun c : Context =>
      { c with state := .receiving, generation := 501, epoch := 4, total := 20, granted := 1, segFirst := 9,
               window := some (.gap, 50) }
    let t := after .close (holding [answer 0x15 10 [0xF5, 0x01, 4, 20, 1]] (busy .reading c0 clear))
    t.ctxs[(2 : CtxId)].state = .mending ∧ t.ctxs[(2 : CtxId)].pickList = [9] := by decide +kernel

/-- Chapter 5, An erase through a hold: ERASED, generation 12, epoch 9. -/
theorem test_erased :
    let s := holding [answer 0x16 10 [12, 0, 9]]
      (busy .erasing (fun c => { c with state := .opening, purpose := .erase, attached := 4 }) clear)
    (after .erased s).pool.queue = [.eraseClear 8 12 9 2 (some 2)] ∧
      (after .erased s).ctxs[(2 : CtxId)].state = .committing := by decide +kernel

/-- Chapter 4, A STOP crossing a CLOSE: the CLOSE ends the context STOPPED. -/
theorem test_stop_close :
    let s := holding [answer 0x15 10 [0xF5, 0x01, 4, 20, 16]] (busy .reading (fun c => { c with state := .stopping }) clear)
    (after .close s).ctxs[(2 : CtxId)].state = .free ∧ (after .close s).dir[(8 : UnitId)].lastOutcome = .stopped := by
  decide +kernel

/-- Chapter 5, A segment that cannot be mended: the gap window's expiry in round 1 begins round 2 with 9 to 12. -/
theorem test_gap :
    let c0 := fun c : Context =>
      { c with state := .mending, mendRound := 1, total := 16, segFirst := 9, granted := 4, window := some (.gap, 70) }
    let t := after (.gapWindowExpiry 2) (busy .reading c0 clear)
    t.ctxs[(2 : CtxId)].mendRound = 2 ∧ t.ctxs[(2 : CtxId)].pickList = [9, 10, 11, 12] ∧ t.clock = 70 := by decide +kernel

/-- Chapter 5: the answer window of round 2 restarts the read; an erase's hold window asks for 1 credit; R90: the stop window. -/
theorem test_windows :
    let mend := busy .reading (fun c => { c with state := .mending, mendRound := 2, window := some (.answer, 25) }) clear
    let erase := busy .erasing (fun c => { c with state := .opening, purpose := .erase, window := some (.hold, 50210) }) clear
    let stop := busy .reading (fun c => { c with state := .stopping, window := some (.stop, 30) }) clear
    (after (.answerWindowExpiry 2) mend).dir[(8 : UnitId)].restartCount = 1 ∧
      (after (.holdWindowExpiry 2) erase).clock = 50210 ∧
      (after (.holdWindowExpiry 2) erase).ctxs[(2 : CtxId)].frameQueued = some .eraseFrame ∧
      (after (.stopWindowExpiry 2) stop).ctxs[(2 : CtxId)].state = .free := by decide +kernel

/-- R72, R89: a sent OPEN starts the answer window of 25 ms; R122: the head is marked in transmission first. -/
theorem test_frame_sent :
    let e : TxEntry :=
      { frame := txFrame .openFrame 10 49 249 [0, 16], kind := .openFrame, ctx := some 2, live := true, transmitting := false,
        withdrawn := false }
    let s := busy .reading (fun c => { c with state := .opening, frameQueued := some .openFrame }) { clear with clock := 1000 }
    let s : State := { s with chans := s.chans.set 1 { joined with txQueue := [e] } }
    (after (.frameSent 1) s).ctxs[(2 : CtxId)].window = some (.answer, 1025) ∧
      (after (.transmissionBegin 1) s).chans[(1 : ChanId)].txQueue = [{ e with transmitting := true }] := by decide +kernel

/-! ### Pool, sweep -/

/-- Chapter 1, Releasing with a clamped edition: E = 45 with edition 40 closed last frees 17, 4 and 22, and stops at 9. -/
theorem test_release :
    let rs := ((((freshRecords.set 17 (record .lapsed 1 0 (some 4) 38)).set 4 (record .cleared 2 0 (some 22) 39)).set 22
      (record .lapsed 3 0 (some 9) 39)).set 9 (record .lapsed 4 0 (some 31) 41)).set 31 (record .delisted 5 0 none 41)
    let p : Pool :=
      { State.reset.pool with records := rs, freeTop := some 600, freeCount := 200, retHead := some 17, retTail := some 31,
                              retCount := 5, queue := [.release 45 2] }
    let s : State := { clear with pool := p, sweep := { clear.sweep with lastClosed := 40 } }
    let t := after .release (after .poolOperationBegin s)
    t.pool.freeCount = 203 ∧ t.pool.retCount = 2 ∧ t.pool.retHead = some 9 ∧ t.pool.retTail = some 31 ∧
      t.pool.freeTop = some 22 ∧ slotWord t.mem 2 0x12 = 40 ∧ slotWord t.mem 2 0x16 = 3 := by decide +kernel

/-- Entries staged at the indices from 0. -/
def stage (l : List (HalfA × HalfB)) : Vector Place 64 :=
  Vector.ofFn fun i : Fin 64 => { halfA := (l[i.val]?).map Prod.fst, halfB := (l[i.val]?).map Prod.snd }

/-- A half A without CONFIRMED and LAMP. -/
def halfA (code : Triple) (mode count : Byte) (active : Bool) : HalfA :=
  { code := code, mode := mode, count := count, activeNow := active, confirmed := false, lamp := false }

/-- Chapter 2, An update, an untouched record, a creation and a lapse. -/
theorem test_commit :
    let r214 : FaultRecord :=
      { record .stored 0xA21F 3 (some 215) 0 with revision := 18, cumulative := 1250, lastCount := 250, firstOdo := 81200,
                                                  lastOdo := 90115, changed := 37 }
    let r215 : FaultRecord :=
      { record .active 0xB004 1 (some 380) 0 with revision := 40, activeNow := true, cumulative := 7, lastCount := 7,
                                                  firstOdo := 88000, lastOdo := 90400, changed := 39 }
    let r380 : FaultRecord :=
      { record .stored 0x1C220 0 none 0 with revision := 6, cumulative := 2, lastCount := 2, firstOdo := 60010,
                                             lastOdo := 60900, changed := 22 }
    let rs := (((freshRecords.set 214 r214).set 215 r215).set 380 r380).set 77 (record .lapsed 9 9 none 30)
    let p : Pool :=
      { State.reset.pool with records := rs, freeTop := some 912, freeCount := 300, retHead := some 77, retTail := some 77,
                              retCount := 5, liveCount := 1231, revision := 1,
                              op := some { request := .commit 2 8 118 3 3 false, policy := .keep, snapshot := SelfHistory.fresh,
                                           applied := 0 } }
    let read := stage [(halfA 0xC001 9 1 false, ⟨90950, 90950⟩), (halfA 0xA21F 3 4 true, ⟨81200, 91020⟩),
      (halfA 0xB004 1 7 true, ⟨88000, 90400⟩)]
    let s := busy .reading (fun c => { c with state := .committing, staging := read }) clear
    let s : State := { s with pool := p, sweep := { s.sweep with counter := 41, openEdition := 41 },
                              dir := s.dir.set 8 { unitOnB .reading with epoch := 3, chainHead := some 214, liveCount := 3 } }
    let t := after .commit s
    t.pool.freeCount = 299 ∧ t.pool.retCount = 6 ∧ t.pool.liveCount = 1231 ∧ t.pool.retTail = some 380 ∧
      t.pool.records[(214 : RecId)].cumulative = 1260 ∧ t.pool.records[(214 : RecId)].revision = 20 ∧
      t.pool.records[(215 : RecId)].revision = 42 ∧ t.pool.records[(215 : RecId)].changed = 39 ∧
      t.pool.records[(215 : RecId)].link = some 912 ∧ t.pool.records[(912 : RecId)].revision = 4 ∧
      t.pool.records[(912 : RecId)].link = none ∧ t.pool.records[(380 : RecId)].revision = 8 ∧
      t.pool.records[(77 : RecId)].link = some 380 ∧ t.dir[(8 : UnitId)].liveCount = 3 ∧
      t.dir[(8 : UnitId)].lastOutcome = .readOk := by decide +kernel

/-- One entry of a read list. -/
def entry (code : Triple) (mode count : Byte) : ReadEntry :=
  { code := code, mode := mode, count := count, activeNow := true, confirmed := false, lamp := false, firstOdo := 90950,
    lastOdo := 90950 }

/-- Chapter 1, Exhaustion under RECLAIM: two records reclaimed, the lapsed one last in the queue. -/
theorem test_reclaim :
    let rs := ((freshRecords.set 9 (record .lapsed 1 0 (some 31) 41)).set 31 (record .lapsed 2 0 none 41)).set 7
      (record .stored 0x2000 1 none 0)
    let w : PoolWork :=
      { PoolWork.start State.reset.pool DirEntry.vacant with
        records := rs, freeTop := none, freeCount := 0, retHead := some 9, retTail := some 31, retCount := 2,
        liveCount := 1534, chainHead := some 7, chainCount := 1 }
    let v := w.merge .reclaim 12 42 (walkFuel 2) [entry 0x310 0 1, entry 0x4400 2 1] none (some 7)
    v.retHead = some 7 ∧ v.retCount = 1 ∧ v.liveCount = 1535 ∧ v.reclaimed = 2 ∧ v.chainHead = some 9 ∧
      v.records[(9 : RecId)].link = some 31 ∧ v.failed = false := by decide +kernel

/-- Chapter 3, The self history filling: a SELF COMMIT enters BUS_OFF/1 ACTIVE with cumulative count 1. -/
theorem test_self_commit :
    let h : SelfHistory :=
      { revision := 2, generation := 411, epoch := 1,
        entries := [{ code := .busOff, mode := 1, count := 1, activeNow := true, firstOdo := 120400, lastOdo := 120400 }] }
    let s : State :=
      { clear with self := h,
                   pool := { clear.pool with revision := 1, op := some { request := .selfCommit .sweep, policy := .keep,
                                                                         snapshot := h, applied := 0 } } }
    let t := after .selfCommit s
    t.pool.records[(0 : RecId)].code = 1 ∧ t.pool.records[(0 : RecId)].state = .active ∧
      t.pool.records[(0 : RecId)].cumulative = 1 ∧ t.dir[(0 : UnitId)].generation = 411 := by decide +kernel

/-- R44: the chain CLEARED; R46: the chain DELISTED and the entry VACANT. -/
theorem test_clear_and_delist :
    let p : Pool := { State.reset.pool with records := freshRecords.set 40 (record .stored 7 1 none 0), liveCount := 1, revision := 1 }
    let op := fun r => some ({ request := r, policy := .keep, snapshot := SelfHistory.fresh, applied := 0 } : PoolOp)
    let s : State := { clear with dir := clear.dir.set 8 { unitOnB .delisting with chainHead := some 40, liveCount := 1 } }
    let t := after .eraseClear { s with pool := { p with op := op (.eraseClear 8 12 9 2 none) } }
    let u := after .delistRetire { s with pool := { p with op := op (.delistRetire 8 2) } }
    t.pool.records[(40 : RecId)].state = .cleared ∧ t.dir[(8 : UnitId)].epoch = 9 ∧
      u.pool.records[(40 : RecId)].state = .delisted ∧ u.dir[(8 : UnitId)].state = .vacant ∧
      slotWord u.mem 2 0x12 = 1 := by decide +kernel

/-- Chapter 8, A sweep cut short by its budget: at 130,000 context 0 queues its STOP and BUDGET_EXPIRED is logged. -/
theorem test_budget :
    let s := busy .reading (fun c => { c with state := .receiving }) { clear with clock := 100000 }
    let s : State := { s with sweep := { s.sweep with state := .running, budgetTimer := some 130000, openEdition := 58 }
                              dir := s.dir.set 8 { unitOnB .reading with mark := .pending } }
    let t := after .budgetTimerExpiry s
    t.clock = 130000 ∧ t.sweep.state = .draining ∧ t.ctxs[(2 : CtxId)].state = .stopping ∧
      t.ctxs[(2 : CtxId)].frameQueued = some .stopFrame ∧ t.self.entries.map (·.code) = [.budgetExpired] := by decide +kernel

/-- R109, R152 step 3: a context PACED behind another the drain stops is FREE at once, its credits unspent and no STOP sent. -/
theorem test_drain_frees_paced :
    let ctx := fun u : UnitId => { Context.freed 0 true with state := .paced, target := u, channel := 1, creditNeed := 16 }
    let s : State :=
      { clear with
        sweep := { clear.sweep with state := .running, budgetTimer := some 30000, openEdition := 58 }
        chans := clear.chans.set 1 { joined with pacer := { joined.pacer with credits := 16, line := [2, 3] } }
        dir := (clear.dir.set 8 { unitOnB .reading with mark := .pending }).set 9 { unitOnB .reading with mark := .pending }
        ctxs := (clear.ctxs.set 2 { ctx 8 with creditNeed := 17 }).set 3 (ctx 9) }
    let t := after .budgetTimerExpiry s
    t.ctxs[(3 : CtxId)].state = .free ∧ t.dir[(9 : UnitId)].lastOutcome = .stopped ∧
      t.chans[(1 : ChanId)].pacer.credits = 16 ∧ t.chans[(1 : ChanId)].txQueue = [] := by decide +kernel

/-- Chapter 8, Two sweeps in one edition: the timer's expiry in RUNNING sets auto-due. -/
theorem test_schedule :
    let s : State := { clear with sweep := { clear.sweep with state := .running, schedPeriod := 60, scheduleTimer := some 3600000 }
                                  dir := clear.dir.set 8 { unitOnB .reading with mark := .pending } }
    let t := after .scheduleTimerExpiry s
    t.sweep.autoDue = true ∧ t.sweep.scheduleTimer = some 7200000 := by decide +kernel

/-- Chapter 5, Allocation across two channels: READ UNIT 8 in slot 0 takes the lowest FREE context, tag parity 1. -/
theorem test_allocation :
    let s := { posted 11 [8] clear with
      chans := clear.chans.set 1 { joined with settling := false, settleTimer := none,
                                               pacer := { joined.pacer with credits := 0 } },
      dir := clear.dir.set 8 (unitOnB .idle) }
    let t := after (.signalWrite 0) s
    t.ctxs[(0 : CtxId)].state = .paced ∧ t.ctxs[(0 : CtxId)].target = 8 ∧ t.ctxs[(0 : CtxId)].attached = 1 ∧
      t.ctxs[(0 : CtxId)].parity = true ∧ t.dir[(8 : UnitId)].state = .reading ∧
      t.chans[(1 : ChanId)].pacer.line = [0] := by decide +kernel

/-! ### Witnesses: queue, reset and host port -/

theorem witness_IdleStepPassesOneMillisecond :
    State.reset.pending = [] ∧ State.reset.running ∧ State.initialisation.pending = [] ∧
      State.initialisation.port.initialising = true := ⟨rfl, rfl, rfl, rfl⟩

theorem witness_FullResetPool :
    ∃ t u, exec .fullReset State.reset = .next t ∧ exec .initialisationEnd t = .next u := ⟨_, _, rfl, rfl⟩
theorem witness_FullResetSweep :
    ∃ t u, exec .fullReset clear = .next t ∧ exec .initialisationEnd t = .next u := ⟨_, _, rfl, rfl⟩
theorem witness_FullResetContextsAndDirectory :
    ∃ t u, exec .fullReset (busy .reading id clear) = .next t ∧ exec .initialisationEnd t = .next u := ⟨_, _, rfl, rfl⟩

theorem witness_AttentionWriteClearsOnes : State.reset.running := rfl
theorem witness_MaskWriteMovesTheLine : clear.running := rfl
theorem witness_ClockReadLatchesHighHalf :
    State.reset.running ∧ State.initialisation.port.initialising = true := ⟨rfl, rfl⟩
theorem witness_OtherRegisterWritesIgnored : 0x8007 ≤ (0x8007 : Word).toNat := by decide

theorem witness_SlotStateWriteRule :
    clear.running ∧ clear.memOk ∧ slotState clear.mem 15 ≠ 2 ∧
      (let s : State := { clear with mem := [(960, 2)] }
       s.running ∧ s.memOk ∧ slotState s.mem 15 = 2) := by
  unfold State.running State.memOk; decide +kernel

theorem witness_HostMemoryWriteRule :
    clear.running ∧ clear.memOk ∧ isSlotStateWord 0x201 = false ∧ 2 * (0x201 : BitVec 15).toNat < 0x404 ∧
      isSlotStateWord 0x202 = false ∧ 0x404 ≤ 2 * (0x202 : BitVec 15).toNat := by
  unfold State.running State.memOk; decide +kernel

theorem taken_none (n : SlotId) : clear.orders.taken[n] = none := by revert n; decide +kernel

theorem witness_EveryCommandAnswers : State.reset.settled ∧ (sweeping .running (marked .pending clear)).settled :=
  ⟨⟨fun h => absurd rfl h, fun h => absurd rfl h⟩, fun _ => ⟨8, by decide +kernel⟩, fun _ h => nomatch h⟩

/-- What `State.still` asks for: right after reset, and with an edition open and a sweep that waits for unit 8, which context 2
reads. -/
theorem witness_still :
    (State.reset.settled ∧ State.reset.tidy) ∧
      let s := sweeping .running (marked .pending (busy .reading id clear))
      s.settled ∧ s.tidy ∧ s.memOk ∧ s.sweep.openEdition ≠ 0 :=
  ⟨⟨witness_EveryCommandAnswers.1, fun n _ h => absurd ((taken_none n).symm.trans h) nofun, by decide +kernel⟩,
    ⟨fun _ => ⟨8, by decide +kernel⟩, fun _ h => nomatch h⟩,
    ⟨fun n _ h => absurd ((taken_none n).symm.trans h) nofun, by decide +kernel⟩, rfl, by decide +kernel⟩

/-! ### Witnesses: the order engine -/

theorem witness_PassesWithNothingPosted :
    (clear.running ∧ clear.orders.resetting = none ∧ ∀ n, slotState clear.mem n ≠ 1) ∧
      (inReset clear).orders.resetting ≠ none := by
  unfold State.running; decide +kernel
theorem witness_ScanTimerMakesOnePass : State.reset.running := rfl

theorem witness_ClearStartBySignal :
    ((posted 1 [] State.reset).visits 0 ∧ slotKind (posted 1 [] State.reset).mem 0 = 1) ∧
      (let s := sweeping .running (marked .pending (posted 13 [] clear))
       s.visits 0 ∧ s.orders.start = false ∧ slotKind s.mem 0 = 13 ∧ s.sweep.state = .running ∧
         s.dir[(8 : UnitId)].mark = .pending) ∧
      let s := sweeping .paused (marked .pending (posted 14 [] clear))
      s.visits 0 ∧ s.orders.start = false ∧ slotKind s.mem 0 = 14 ∧ s.sweep.state = .paused ∧
        s.dir[(8 : UnitId)].mark = .pending := by
  unfold State.visits State.running State.memOk State.onlyPosted; decide +kernel

/-- A sweep reads unit 8 next: RESUME SWEEP with unit 8 IDLE, or HELD with its hold run out, and PENDING; SWEEP of class 0, to
which unit 8 belongs. -/
theorem witness_assignsSweep :
    let at_ := fun (e : DirEntry) => ({ clear with chans := clear.chans.set 1 { joined with settling := false }
                                                   dir := clear.dir.set 8 e } : State)
    let resume := fun e : DirEntry => sweeping .paused (marked .pending (posted 14 [] (at_ e)))
    let sweep := posted 10 [1, 0, 30, 0] (at_ (unitOnB .idle))
    ((resume (unitOnB .idle)).visits 0 ∧ slotKind (resume (unitOnB .idle)).mem 0 = 14 ∧
      (resume (unitOnB .idle)).sweep.state = .paused ∧
      (resume (unitOnB .idle)).assignsSweep (fun v => (resume (unitOnB .idle)).dir[v].mark)
        (fun c => (resume (unitOnB .idle)).chans[c].settling = true) 8 0) ∧
      (let e := { unitOnB .held with holdRunOut := true }
       (resume e).visits 0 ∧ (resume e).assignsSweep (fun v => (resume e).dir[v].mark)
         (fun c => (resume e).chans[c].settling = true) 8 0) ∧
      sweep.visits 0 ∧ slotKind sweep.mem 0 = 10 ∧ sweep.orders.start = false ∧ sweep.sweep.state = .idle ∧
        sweep.sweep.autoDue = false ∧ (paramByte sweep.mem 0 0).extractLsb' 0 4 = 1 ∧
        sweep.assignsSweep (sweep.markFor 1)
          (fun c => sweep.chans[c].settling = true ∨ sweep.chans[c].settings.wake = true ∧
            ∃ v : UnitId, v ≠ 0 ∧ sweep.markFor 1 v = .pending ∧ sweep.dir[v].channel = c) 8 0 := by
  unfold State.visits State.running State.memOk State.onlyPosted State.assignsSweep State.markFor
  refine ⟨⟨by decide +kernel, by decide +kernel, by decide +kernel, ?_⟩, ⟨by decide +kernel, ?_⟩, by decide +kernel,
    by decide +kernel, by decide +kernel, by decide +kernel, by decide +kernel, by decide +kernel, ?_⟩
  all_goals
    refine ⟨by decide +kernel, by decide +kernel, by decide +kernel, by decide +kernel,
      fun n _ x w h => absurd ((taken_none n).symm.trans h) nofun⟩

theorem witness_RefusedAtTheVisit :
    ((posted 0 [] clear).visits 0 ∧ (slotKind (posted 0 [] clear).mem 0).toNat = 0) ∧
      ((posted 17 [] clear).visits 0 ∧ (slotKind (posted 17 [] clear).mem 0).toNat = 17) ∧
      ((posted 3 [] State.reset).visits 0 ∧ State.reset.orders.start = true ∧
        (slotKind (posted 3 [] State.reset).mem 0).toNat = 3) ∧
      (posted 16 [] State.reset).visits 0 ∧ (slotKind (posted 16 [] State.reset).mem 0).toNat = 16 := by
  unfold State.visits State.running State.memOk State.onlyPosted; decide +kernel

/-- SWEEP in RUNNING; PAUSE, RESUME and ABORT SWEEP in IDLE; DELIST UNIT 0; READ UNIT 64; ERASE UNIT of VACANT unit 8. -/
theorem witness_RefusedAtTheVisit_state :
    let s := sweeping .running (posted 10 [1, 0, 0, 0] clear)
    (s.visits 0 ∧ (slotKind s.mem 0).toNat = 10 ∧ s.orders.start = false ∧ s.sweep.state ≠ .idle) ∧
      ((posted 13 [] clear).visits 0 ∧ (slotKind (posted 13 [] clear).mem 0).toNat = 13 ∧ clear.sweep.state ≠ .running) ∧
      ((posted 14 [] clear).visits 0 ∧ (slotKind (posted 14 [] clear).mem 0).toNat = 14 ∧ clear.sweep.state ≠ .paused) ∧
      ((posted 15 [] clear).visits 0 ∧ (slotKind (posted 15 [] clear).mem 0).toNat = 15) ∧
      ((posted 9 [0] clear).visits 0 ∧ (slotKind (posted 9 [0] clear).mem 0).toNat = 9 ∧
        (paramByte (posted 9 [0] clear).mem 0 0).toNat = 0) ∧
      ((posted 11 [64] clear).visits 0 ∧ (slotKind (posted 11 [64] clear).mem 0).toNat = 11 ∧
        63 < (paramByte (posted 11 [64] clear).mem 0 0).toNat) ∧
      (posted 12 [8] clear).visits 0 ∧ (slotKind (posted 12 [8] clear).mem 0).toNat = 12 ∧
        (paramByte (posted 12 [8] clear).mem 0 0).toNat = (8 : UnitId).val ∧ (8 : UnitId) ≠ 0 ∧
        (posted 12 [8] clear).dir[(8 : UnitId)].state = .vacant := by
  unfold State.visits State.running State.memOk State.onlyPosted
  refine ⟨?_, ?_, ?_, ?_, ?_, ?_, ?_⟩ <;> decide +kernel

/-- SET CHANNEL with channel 4, rate 4, address 254 and policy 2; in a sweep; and OFF apart, on a channel with a context busy. -/
theorem witness_RefusedAtTheVisit_channel :
    let order := fun (s : State) => s.visits 0 ∧ (slotKind s.mem 0).toNat = 3 ∧ s.orders.start = false
    let ok := fun s : State => posted 3 [1, 3, 253, 1, 1, 2, 232, 3] s
    let b := fun (s : State) i => (paramByte s.mem 0 i).toNat
    (order (posted 3 [4, 3, 253, 1] clear) ∧ 3 < b (posted 3 [4, 3, 253, 1] clear) 0) ∧
      (order (posted 3 [3, 4, 253, 1] clear) ∧ 3 < b (posted 3 [3, 4, 253, 1] clear) 1) ∧
      (order (posted 3 [3, 3, 254, 1] clear) ∧ 253 < b (posted 3 [3, 3, 254, 1] clear) 2) ∧
      (order (posted 3 [3, 3, 1, 2] clear) ∧ 1 < b (posted 3 [3, 3, 1, 2] clear) 3) ∧
      (order (ok (sweeping .running clear)) ∧ (ok (sweeping .running clear)).sweep.state ≠ .idle) ∧
      (let s := ok (busy .reading (fun c => { c with state := .paced }) clear)
       order s ∧ s.sweep.state = .idle ∧ b s 0 = (1 : ChanId).val ∧ b s 1 ≠ 0 ∧ s.ctxs[(2 : CtxId)].channel = 1 ∧
         s.ctxs[(2 : CtxId)].state.busy = true) ∧
      let s := posted 3 [1, 3, 49, 1, 1, 2, 232, 3] { clear with dir := clear.dir.set 8 (unitOnB .idle) }
      order s ∧ s.sweep.state = .idle ∧ s.dir[(8 : UnitId)].state ≠ .vacant ∧ s.dir[(8 : UnitId)].channel = 1 ∧
        s.dir[(8 : UnitId)].address = paramByte s.mem 0 2 ∧ ∀ k : CtxId, s.ctxs[k].state.busy = false := by
  unfold State.visits State.running State.memOk State.onlyPosted
  refine ⟨?_, ?_, ?_, ?_, ?_, ?_, ?_⟩ <;> decide +kernel

/-- SET PACING of channel 4, with paces 595 and 600, and with marks 301 and 350; SET POOL 2; ENLIST of unit 64, of enlisted unit 8,
and at the address of unit 8 or of the part; READ UNIT 8 on a channel that is OFF. -/
theorem witness_RefusedAtTheVisit_settings :
    let order := fun (k : Nat) (s : State) => s.visits 0 ∧ (slotKind s.mem 0).toNat = k ∧ s.orders.start = false
    let span := fun s : State => posted 4 [0, 20, 83, 2, 88, 2, 44, 1, 188, 2, 5, 10] s
    let marks := fun s : State => posted 4 [3, 20, 1, 0, 11, 0, 45, 1, 94, 1, 5, 10] s
    let unit8 := ({ clear with dir := clear.dir.set 8 (unitOnB .idle) } : State)
    (order 4 (posted 4 [4] clear) ∧ 3 < (paramByte (posted 4 [4] clear).mem 0 0).toNat) ∧
      (order 4 (span clear) ∧ ¬ (max 1 (min 600 (paramWord (span clear).mem 0 2).toNat) + 10 ≤
        min 600 (paramWord (span clear).mem 0 4).toNat)) ∧
      (order 4 (marks clear) ∧
        max 1 (min 600 (paramWord (marks clear).mem 0 2).toNat) + 10 ≤ min 600 (paramWord (marks clear).mem 0 4).toNat ∧
        ¬ (min 1000 (paramWord (marks clear).mem 0 6).toNat + 50 ≤ min 1000 (paramWord (marks clear).mem 0 8).toNat)) ∧
      (order 7 (posted 7 [2] clear) ∧ 1 < (paramByte (posted 7 [2] clear).mem 0 0).toNat) ∧
      (order 8 (posted 8 [64, 1, 50] clear) ∧ 63 < (paramByte (posted 8 [64, 1, 50] clear).mem 0 0).toNat) ∧
      (order 8 (posted 8 [8, 1, 50] unit8) ∧ (posted 8 [8, 1, 50] unit8).dir[(8 : UnitId)].state ≠ .vacant) ∧
      (let s := posted 8 [9, 1, 49] unit8
       order 8 s ∧ s.dir[(9 : UnitId)].state = .vacant ∧ s.dir[(8 : UnitId)].state ≠ .vacant ∧
         s.dir[(8 : UnitId)].channel = 1 ∧ s.dir[(8 : UnitId)].address = paramByte s.mem 0 2) ∧
      (order 8 (posted 8 [9, 1, 249] clear) ∧ paramByte (posted 8 [9, 1, 249] clear).mem 0 2 =
        (posted 8 [9, 1, 249] clear).chans[(1 : ChanId)].settings.address) ∧
      order 11 (posted 11 [8] unit8) ∧ (posted 11 [8] unit8).chans[(1 : ChanId)].state = .off := by
  unfold State.visits State.running State.memOk State.onlyPosted
  refine ⟨?_, ?_, ?_, ?_, ?_, ?_, ?_, ?_, ?_⟩ <;> decide +kernel

theorem witness_SetTimingClamps :
    (posted 5 [2, 60, 30, 20, 9] clear).visits 0 ∧ slotKind (posted 5 [2, 60, 30, 20, 9] clear).mem 0 = 5 ∧
      clear.orders.start = false := by
  unfold State.visits State.running State.memOk State.onlyPosted; decide +kernel

/-- SET PACING with spans of 10 and 50, its least; SET SCHEDULE; SET POOL with each policy. -/
theorem witness_SetTimingClamps_settings :
    (let s := posted 4 [1, 20, 40, 0, 50, 0, 44, 1, 94, 1, 5, 10] clear
     s.visits 0 ∧ slotKind s.mem 0 = 4 ∧ s.orders.start = false ∧ (paramByte s.mem 0 0).toNat = (1 : ChanId).val ∧
       max 1 (min 600 (paramWord s.mem 0 2).toNat) + 10 ≤ min 600 (paramWord s.mem 0 4).toNat ∧
       min 1000 (paramWord s.mem 0 6).toNat + 50 ≤ min 1000 (paramWord s.mem 0 8).toNat) ∧
      ((posted 6 [60, 0, 15, 0, 30, 0] clear).visits 0 ∧ slotKind (posted 6 [60, 0, 15, 0, 30, 0] clear).mem 0 = 6) ∧
      ((posted 7 [0] clear).visits 0 ∧ slotKind (posted 7 [0] clear).mem 0 = 7 ∧
        (paramByte (posted 7 [0] clear).mem 0 0).toNat = 0) ∧
      (posted 7 [1] clear).visits 0 ∧ (paramByte (posted 7 [1] clear).mem 0 0).toNat = 1 := by
  unfold State.visits State.running State.memOk State.onlyPosted; decide +kernel

theorem witness_EnlistWritesTheEntry :
    let s := posted 8 [63, 1, 253, 0, 6, 1, 3] clear
    s.visits 0 ∧ slotKind s.mem 0 = 8 ∧ s.orders.start = false ∧ (paramByte s.mem 0 0).toNat = (63 : UnitId).val ∧
      (63 : UnitId) ≠ 0 ∧ (paramByte s.mem 0 1).toNat = (1 : ChanId).val ∧ 1 ≤ (paramByte s.mem 0 2).toNat ∧
      (paramByte s.mem 0 2).toNat ≤ 253 ∧ (paramByte s.mem 0 6).toNat = (3 : Fin 4).val ∧
      s.dir[(63 : UnitId)].state = .vacant ∧ paramByte s.mem 0 2 ≠ s.chans[(1 : ChanId)].settings.address ∧
      ∀ w : UnitId, w ≠ 0 → s.dir[w].state ≠ .vacant → s.dir[w].channel = 1 → s.dir[w].address ≠ paramByte s.mem 0 2 := by
  unfold State.visits State.running State.memOk State.onlyPosted; decide +kernel

/-- DELIST UNIT 8: served by no context, with room in the request queue and without; served by a context PACED in its line,
RECEIVING, and COMMITTING. -/
theorem witness_EnlistWritesTheEntry_delist :
    let order := fun (s : State) (q : List PoolRequest) =>
      s.visits 0 ∧ slotKind s.mem 0 = 9 ∧ s.orders.start = false ∧ (paramByte s.mem 0 0).toNat = (8 : UnitId).val ∧
        s.dir[(8 : UnitId)].state ≠ .vacant ∧ s.dir[(8 : UnitId)].state ≠ .delisting ∧
        (∀ j : SlotId, s.orders.taken[j] = none) ∧ (∀ k : CtxId, hasSlot s.ctxs[k].attached 0 = false) ∧ s.pool.queue = q
    let rest := posted 9 [8] { clear with dir := clear.dir.set 8 (unitOnB .idle) }
    let full : State := { rest with pool := { rest.pool with queue := List.replicate 16 (.selfCommit .sweep) } }
    let with_ := fun st : CtxState => posted 9 [8] (busy .reading (fun c => { c with state := st }) clear)
    (order rest [] ∧ ∀ k : CtxId, rest.ctxs[k].state = .free ∨ rest.ctxs[k].target ≠ 8) ∧
      order full (List.replicate 16 (.selfCommit .sweep)) ∧
      (order (inLine (with_ .paced)) [] ∧ (inLine (with_ .paced)).ctxs[(2 : CtxId)].target = 8 ∧
        (inLine (with_ .paced)).alone 2) ∧
      (order (with_ .receiving) [] ∧ (with_ .receiving).alone 2) ∧
      order (with_ .committing) [] ∧ (with_ .committing).alone 2 := by
  unfold State.visits State.running State.memOk State.onlyPosted State.alone
  refine ⟨?_, ?_, ?_, ?_, ?_⟩ <;> decide +kernel

/-- READ UNIT 0 and ERASE UNIT 0, with room in the request queue and without. -/
theorem witness_ReleaseEditionOffersOrHalts_self :
    let r := posted 11 [0] clear
    let e := posted 12 [0] clear
    let full : State := { e with pool := { e.pool with queue := List.replicate 16 (.selfCommit .sweep) } }
    (r.visits 0 ∧ r.orders.start = false ∧ slotKind r.mem 0 = 11 ∧ (paramByte r.mem 0 0).toNat = 0 ∧
      r.pool.queue.length < 16) ∧
      (e.visits 0 ∧ e.orders.start = false ∧ slotKind e.mem 0 = 12 ∧ (paramByte e.mem 0 0).toNat = 0 ∧
        e.pool.queue.length < 16) ∧
      full.visits 0 ∧ slotKind full.mem 0 = 12 ∧ 16 ≤ full.pool.queue.length := by
  unfold State.visits State.running State.memOk State.onlyPosted; decide +kernel

/-- READ UNIT 8 with a read in progress, and with the unit at rest on a channel that can serve it; the same for ERASE UNIT 8. -/
theorem witness_ReleaseEditionOffersOrHalts_unit :
    let order := fun (kind : Word) (s : State) =>
      s.visits 0 ∧ s.orders.start = false ∧ slotKind s.mem 0 = kind ∧ (paramByte s.mem 0 0).toNat = (8 : UnitId).val ∧
        s.dir[(8 : UnitId)].state ≠ .vacant ∧ s.dir[(8 : UnitId)].state ≠ .delisting ∧
        s.chans[s.dir[(8 : UnitId)].channel].state ≠ .off
    let reads := posted 11 [8] (busy .reading (fun c => { c with state := .receiving }) clear)
    let rest := fun kind : Byte =>
      posted kind [8] { clear with chans := clear.chans.set 1 { joined with settling := false }
                                   dir := clear.dir.set 8 (unitOnB .idle) }
    (order 11 reads ∧ reads.readsUnit 8 2) ∧ (order 11 (rest 11) ∧ (rest 11).assignsFirst 0 8 0) ∧
      order 12 (rest 12) ∧ (rest 12).assignsFirst 0 8 0 := by
  unfold State.visits State.running State.memOk State.onlyPosted State.readsUnit State.assignsFirst
  refine ⟨by decide +kernel, ⟨by decide +kernel, ?_⟩, by decide +kernel, ?_⟩
  all_goals
    refine ⟨by decide +kernel, by decide +kernel, by decide +kernel, by decide +kernel, by decide +kernel,
      by decide +kernel, by decide +kernel, by decide +kernel, by decide +kernel,
      fun j x w _ h => absurd ((taken_none j).symm.trans h) nofun⟩

theorem witness_ReleaseEditionOffersOrHalts :
    let s := posted 16 [45, 0, 0, 0] clear
    let full : State := { s with pool := { s.pool with queue := List.replicate 16 (.selfCommit .sweep) } }
    (s.visits 0 ∧ slotKind s.mem 0 = 16 ∧ s.orders.start = false ∧ s.pool.queue.length < 16) ∧
      full.visits 0 ∧ slotKind full.mem 0 = 16 ∧ full.orders.start = false ∧ 16 ≤ full.pool.queue.length := by
  unfold State.visits State.running State.memOk State.onlyPosted; decide +kernel

theorem witness_ResetPartBegins :
    (posted 2 [] State.reset).visits 0 ∧ slotKind (posted 2 [] State.reset).mem 0 = 2 := by
  unfold State.visits State.running State.memOk State.onlyPosted; decide +kernel

/-! ### Witnesses: the pool manager -/

theorem witness_OperationBeginsWithTheHead :
    (let s : State := { clear with pool := { clear.pool with queue := [.release 45 2], waiting := [.selfCommit .sweep] } }
     s.running ∧ s.pool.op = none ∧ s.pool.queue = .release 45 2 :: [] ∧ s.parityOk) ∧
      (operating (.release 45 2) 40 clear).pool.op ≠ none := by
  unfold State.running State.parityOk; decide +kernel

theorem witness_UpdateCountsAndWidens :
    ((PoolWork.start State.reset.pool DirEntry.vacant).records[(0 : RecId)].firstOdo).toNat ≤
      ((PoolWork.start State.reset.pool DirEntry.vacant).records[(0 : RecId)].lastOdo).toNat := by decide +kernel

theorem witness_CreateFillsTheTop :
    let w : PoolWork :=
      { PoolWork.start State.reset.pool DirEntry.vacant with
        records := freshRecords.set 3 (FaultRecord.freed none), freeTop := some 2, freeCount := 2, chainHead := some 0 }
    linked w.records w.freeTop [2, 3] ∧ (some (0 : RecId)) ≠ some 2 ∧ [(2 : RecId), 3].Nodup ∧
      ∀ p : RecId, some (0 : RecId) = some p → p ∉ [(3 : RecId)] := by
  refine ⟨?_, by decide +kernel, by decide +kernel, ?_⟩
  · simp only [linked]; decide +kernel
  · rintro p hp; cases hp; decide +kernel

/-- A pool with an empty free stack and records 9 and 31 in the retired queue (chapter 1, Exhaustion under RECLAIM). -/
def exhausted : PoolWork :=
  { PoolWork.start State.reset.pool DirEntry.vacant with
    records := (freshRecords.set 9 (record .lapsed 5 1 (some 31) 41)).set 31 (record .delisted 6 1 none 41)
    freeTop := none, freeCount := 0, retHead := some 9, retTail := some 31, retCount := 2, liveCount := 1534 }

theorem witness_AllocationOnAnEmptyStack :
    exhausted.freeTop = none ∧ ({ exhausted with retHead := none, retTail := none } : PoolWork).retHead = none ∧
      linked exhausted.records exhausted.retHead [9, 31] ∧ [(9 : RecId), 31].Nodup ∧ (none : Option RecId) ≠ some 9 ∧
      exhausted.retTail = [(9 : RecId), 31].getLast? := by
  refine ⟨by decide +kernel, by decide +kernel, ?_, by decide +kernel, by decide +kernel, by decide +kernel⟩
  simp only [linked]; decide +kernel

/-- A live chain of record 214 and a free stack of record 912 (chapter 2). -/
def chained : PoolWork :=
  { PoolWork.start State.reset.pool DirEntry.vacant with
    records := (freshRecords.set 214 (record .stored 0xA21F 3 none 0)).set 912 (FaultRecord.freed none)
    freeTop := some 912, freeCount := 1, chainHead := some 214, chainCount := 1, liveCount := 1 }

theorem witness_MergeLeavesTheReadList :
    [entry 0xC001 9 1].Pairwise (fun a b => identLt a.code a.mode b.code b.mode = true) ∧
      [(214 : RecId)].Pairwise (fun a b =>
        identLt chained.records[a].code chained.records[a].mode chained.records[b].code chained.records[b].mode = true) ∧
      chained.holds [214] [912] [] ∧ [entry 0xC001 9 1].length ≤ [(912 : RecId)].length := by
  refine ⟨List.pairwise_singleton _ _, List.pairwise_singleton _ _, ⟨?_, ?_, rfl, rfl, by decide +kernel⟩, by decide⟩
  · simp only [linked]; decide +kernel
  · simp only [linked]; decide +kernel

/-- Two retired records, of editions 38 and 41, behind a free stack of record 600 (chapter 1, Releasing). -/
def retiredPool : Pool :=
  { State.reset.pool with
    records := ((freshRecords.set 17 (record .lapsed 5 1 (some 9) 38)).set 9 (record .lapsed 6 1 none 41)).set 600
      (FaultRecord.freed none)
    freeTop := some 600, freeCount := 1, retHead := some 17, retTail := some 9, retCount := 2 }

theorem witness_ReleaseFreesThePrefix :
    let s := operating (.release 45 2) 40 { clear with pool := retiredPool }
    ∃ o, s.operates (.release 45 2) o ∧ o.applied = 40 ∧ s.memOk ∧ linked s.pool.records s.pool.retHead [17, 9] ∧
      linked s.pool.records s.pool.freeTop [600] ∧ ([(17 : RecId), 9] ++ [600]).Nodup := by
  refine ⟨_, ⟨rfl, rfl, rfl⟩, rfl, rfl, ?_, ?_, by decide +kernel⟩
  · simp only [linked]; decide +kernel
  · simp only [linked]; decide +kernel

/-- Context 2 COMMITTING for unit 8. -/
def committing (p : Purpose) (attached : BitVec 16) (s : State) : State :=
  busy (match p with | .read => .reading | .erase => .erasing)
    (fun c => { c with state := .committing, purpose := p, attached := attached }) s

theorem witness_CommitEndsTheRead :
    let s := operating (.commit 2 8 501 4 20 false) 0 (committing .read 16 clear)
    ∃ o, s.operates (.commit 2 8 501 4 20 false) o ∧ s.memOk ∧ s.ctxs[(2 : CtxId)].target = 8 ∧
      s.ctxs[(2 : CtxId)].purpose = .read := ⟨_, ⟨rfl, rfl, rfl⟩, rfl, by decide +kernel, by decide +kernel⟩

/-- A commit of two entries of one identity (one dropped, so MALFORMED) into a pool with no record free. -/
theorem witness_CommitEndsTheRead_logs :
    let twice : Place :=
      { halfA := some { code := 7, mode := 1, count := 1, activeNow := false, confirmed := false, lamp := false },
        halfB := some { firstOdo := 1, lastOdo := 1 } }
    let s := committing .read 16 { clear with pool := { State.reset.pool with freeTop := none, freeCount := 0 } }
    let s := operating (.commit 2 8 501 4 2 false) 0
      { s with ctxs := s.ctxs.set 2 { s.ctxs[(2 : CtxId)] with staging := Vector.replicate 64 twice } }
    (∃ o, s.operates (.commit 2 8 501 4 2 false) o) ∧ s.memOk ∧ s.ctxs[(2 : CtxId)].target = 8 ∧
      s.ctxs[(2 : CtxId)].purpose = .read ∧ screenDrops (stagedEntries s.ctxs[(2 : CtxId)].staging 2) = true ∧
      (s.commitWork .keep 8 4 (stagedEntries s.ctxs[(2 : CtxId)].staging 2)).failed = true :=
  ⟨⟨_, rfl, rfl, rfl⟩, rfl, by decide +kernel, by decide +kernel, by decide +kernel, by decide +kernel⟩

theorem witness_SelfCommitEndsTheSelfRead :
    let s := operating (.selfCommit (.slot 3)) 0 clear
    ∃ o, s.operates (.selfCommit (.slot 3)) o ∧ s.memOk := ⟨_, ⟨rfl, rfl, rfl⟩, rfl⟩

theorem witness_EraseClearRetiresTheChain :
    let s := operating (.eraseClear 8 12 9 4 (some 2)) 0 (committing .erase 16 clear)
    ∃ o, s.operates (.eraseClear 8 12 9 4 (some 2)) o ∧ s.memOk ∧ s.ctxs[(2 : CtxId)].target = 8 ∧
      s.ctxs[(2 : CtxId)].purpose = .erase ∧ linked s.pool.records s.dir[(8 : UnitId)].chainHead [] ∧
      linked s.pool.records s.pool.retHead [] ∧ ([] ++ [] : List RecId).Nodup ∧
      s.pool.retTail = ([] : List RecId).getLast? := by
  refine ⟨_, ⟨rfl, rfl, rfl⟩, rfl, by decide +kernel, by decide +kernel, ?_, rfl, by decide, rfl⟩
  simp only [linked]; decide +kernel

/-- R31: unit 8, read before in epoch 3, holds record 214, and records 17 and 9 wait retired; a sweep waits for unit 8 alone. -/
theorem witness_CommitEndsTheRead_epoch :
    let s0 := committing .read 0 { clear with pool := { retiredPool with records := retiredPool.records.set 214 (record .stored 7 1 none 0) } }
    let s1 : State := sweeping .running
      { s0 with dir := s0.dir.set 8 { s0.dir[(8 : UnitId)] with chainHead := some 214, liveCount := 1, epoch := 3, mark := .pending } }
    let s := operating (.commit 2 8 501 4 20 false) 0 s1
    (∃ o, s.operates (.commit 2 8 501 4 20 false) o) ∧ s.dir[(8 : UnitId)].neverRead = false ∧
      (4 : Byte) ≠ s.dir[(8 : UnitId)].epoch ∧ linked s.pool.records s.dir[(8 : UnitId)].chainHead [214] ∧
      linked s.pool.records s.pool.retHead [17, 9] ∧ ([(214 : RecId)] ++ [17, 9]).Nodup ∧
      s.pool.retTail = [(17 : RecId), 9].getLast? ∧ s.dir[(8 : UnitId)].mark = .pending ∧ s.sweep.state ≠ .idle ∧
      s.sweep.autoDue = false ∧ (∀ v : UnitId, v ≠ 8 → s.dir[v].mark ≠ .pending) ∧ s.ctxs[(2 : CtxId)].attached = 0 ∧
      s.dir[(8 : UnitId)].state ≠ .delisting ∧
      State.nothingKeeps { s with pool := { s.pool with op := none } } := by
  refine ⟨⟨_, rfl, rfl, rfl⟩, by decide +kernel, by decide +kernel, ?_, ?_, by decide +kernel, rfl, by decide +kernel,
    by decide +kernel, rfl, by decide +kernel, by decide +kernel, by decide +kernel, ?_, by decide +kernel, nofun⟩
  · simp only [linked]; decide +kernel
  · simp only [linked]; decide +kernel
  · exact fun n x u h => absurd ((taken_none n).symm.trans h) nofun

/-- A sweep that waits for unit 0 alone. -/
theorem witness_SelfCommitEndsTheSelfRead_sweep :
    let s := operating (.selfCommit .sweep) 0
      (sweeping .draining { clear with dir := clear.dir.set 0 { DirEntry.collector with mark := .pending } })
    (∃ o, s.operates (.selfCommit .sweep) o) ∧ s.memOk ∧ s.dir[(0 : UnitId)].mark = .pending ∧ s.sweep.state ≠ .idle ∧
      s.sweep.autoDue = false ∧ ∀ v : UnitId, v ≠ 0 → s.dir[v].mark ≠ .pending :=
  ⟨⟨_, rfl, rfl, rfl⟩, rfl, by decide +kernel, by decide +kernel, rfl, by decide +kernel⟩

/-- ERASE UNIT 0 ordered in slot 4, with a chain of one record. -/
theorem witness_EraseClearRetiresTheChain_self :
    let s0 : State := { clear with pool := { State.reset.pool with records := freshRecords.set 40 (record .stored 7 1 none 0) },
                                   dir := clear.dir.set 0 { DirEntry.collector with chainHead := some 40, liveCount := 1 } }
    let s := operating (.eraseClear 0 12 9 4 none) 0 s0
    ∃ o, s.operates (.eraseClear 0 12 9 4 none) o ∧ s.memOk ∧ linked s.pool.records s.dir[(0 : UnitId)].chainHead [40] ∧
      linked s.pool.records s.pool.retHead [] ∧ ([40] ++ [] : List RecId).Nodup ∧
      s.pool.retTail = ([] : List RecId).getLast? ∧ s.dir[(0 : UnitId)].state = .idle := by
  refine ⟨_, ⟨rfl, rfl, rfl⟩, rfl, ?_, rfl, by decide, rfl, by decide +kernel⟩
  simp only [linked]; decide +kernel

theorem witness_DelistRetireVacatesTheEntry :
    let s0 : State := { clear with pool := { retiredPool with records := retiredPool.records.set 40 (record .stored 7 1 none 0) },
                                   dir := clear.dir.set 8 { unitOnB .delisting with chainHead := some 40, liveCount := 1 } }
    let s := operating (.delistRetire 8 2) 0 s0
    ∃ o, s.operates (.delistRetire 8 2) o ∧ s.memOk ∧ linked s.pool.records s.dir[(8 : UnitId)].chainHead [40] ∧
      linked s.pool.records s.pool.retHead [17, 9] ∧ ([(40 : RecId)] ++ [17, 9]).Nodup ∧
      s.pool.retTail = [(17 : RecId), 9].getLast? := by
  refine ⟨_, ⟨rfl, rfl, rfl⟩, rfl, ?_, ?_, by decide +kernel, rfl⟩
  · simp only [linked]; decide +kernel
  · simp only [linked]; decide +kernel

/-! ### Witnesses: channels and pacers -/

/-- Channel B as given, for a part with START cleared. -/
def onB (f : Channel → Channel) : State := { clear with chans := clear.chans.set 1 (f joined) }

/-- An OPEN of context 2 at the head of a transmit queue. -/
def openEntry : TxEntry :=
  { frame := txFrame .openFrame 10 49 249 [0, 16], kind := .openFrame, ctx := some 2, live := true, transmitting := false,
    withdrawn := false }

theorem witness_FrameReceivedIsCountedAndFiltered :
    let f := answer 0x11 10 [1, 2, 3, 4, 5]
    let s31 := onB fun c => { c with fifo := List.replicate 31 f }
    let s32 := onB fun c => { c with fifo := List.replicate 32 f }
    (s31.running ∧ s31.chans[(1 : ChanId)].state.joined = true ∧ s31.chans[(1 : ChanId)].fifo.length < 32) ∧
      (s32.running ∧ s32.chans[(1 : ChanId)].state.joined = true ∧ 32 ≤ s32.chans[(1 : ChanId)].fifo.length) ∧
      f.extended = true ∧ f.remote = false ∧ f.ident.getLsbD 25 = false ∧ 0x11 ≤ (f.ident.extractLsb' 20 5).toNat ∧
      (f.ident.extractLsb' 20 5).toNat ≤ 0x16 ∧
      f.ident.extractLsb' 8 8 = s32.chans[(1 : ChanId)].settings.address := by
  unfold State.running; decide +kernel

theorem witness_ReceiveErrorsAndBeginningsCount :
    let s := onB fun c => { c with rxErrors := 127, txQueue := [openEntry] }
    s.running ∧ s.chans[(1 : ChanId)].state.joined = true ∧ s.chans[(1 : ChanId)].txQueue = openEntry :: [] := by
  unfold State.running; decide +kernel

theorem witness_TransmitErrorCounts :
    (let s := onB fun c => { c with txErrors := 247, txQueue := [openEntry] }
     s.running ∧ s.chans[(1 : ChanId)].state.joined = true ∧ s.chans[(1 : ChanId)].txErrors + 8 ≤ 255) ∧
      let s := onB fun c => { c with state := .passive, txErrors := 255, txQueue := [{ openEntry with withdrawn := true }] }
      s.running ∧ s.chans[(1 : ChanId)].state.joined = true ∧ s.chans[(1 : ChanId)].state = .passive := by
  unfold State.running; decide +kernel

theorem witness_BusOffStopsTheChannel :
    let s := onB fun c => { c with txErrors := 248, txQueue := [openEntry] }
    s.running ∧ s.chans[(1 : ChanId)].state.joined = true ∧ s.orders.resetting = none ∧
      ¬ (s.chans[(1 : ChanId)].state = .passive ∧ TxErrorKind.other = .acknowledgement) ∧
      247 < s.chans[(1 : ChanId)].txErrors := by
  unfold State.running; decide +kernel

/-- The same during an engine reset, context 2 waiting in the line. -/
theorem witness_BusOffStopsTheChannel_reset :
    let s := inReset (inLine (busy .reading (fun c => { c with state := .paced, creditNeed := 16 }) clear))
    let s : State := { s with chans := s.chans.set 1 { s.chans[(1 : ChanId)] with txErrors := 255 } }
    s.running ∧ s.chans[(1 : ChanId)].state.joined = true ∧ s.orders.resetting ≠ none ∧
      247 < s.chans[(1 : ChanId)].txErrors ∧ s.ctxs[(2 : CtxId)].channel = 1 ∧ s.ctxs[(2 : CtxId)].state.busy = true := by
  unfold State.running; decide +kernel

/-- A sweep waits for unit 8, which context 2 reads on the channel that is lost: RECEIVING, and STOPPING for a sweep that is
DRAINING; a READ UNIT order waits on the read as well. -/
theorem witness_BusOffStopsTheChannel_lost :
    let x : Taken := { order := .readUnit 8, edition := 58, sweepResult := none }
    let at_ := fun (st : CtxState) (w : SweepState) (slots : BitVec 16) =>
      let s := sweeping w (marked .pending (busy .reading (fun c => { c with state := st, attached := slots }) clear))
      ({ s with chans := s.chans.set 1 { joined with txErrors := 248 }
                orders := { s.orders with taken := s.orders.taken.set 4 (some x) } } : State)
    let lost := fun s : State => s.running ∧ s.memOk ∧ s.chans[(1 : ChanId)].state.joined = true ∧ s.orders.resetting = none ∧
      247 < s.chans[(1 : ChanId)].txErrors ∧ s.apart ∧ s.ctxs[(2 : CtxId)].channel = 1 ∧
      s.ctxs[(2 : CtxId)].state.busy = true ∧ s.ctxs[(2 : CtxId)].purpose = .read ∧
      s.dir[s.ctxs[(2 : CtxId)].target].mark = .pending ∧ s.sweep.autoDue = false
    (lost (at_ .receiving .running 16) ∧ (at_ .receiving .running 16).awaits 2 4 x) ∧
      (lost (at_ .stopping .draining 0) ∧ (at_ .stopping .draining 0).ctxs[(2 : CtxId)].attached = 0) ∧
      lost (at_ .stopping .running 16) ∧ (at_ .stopping .running 16).awaits 2 4 x := by
  unfold State.running State.memOk State.apart State.awaits
  refine ⟨⟨?_, ?_⟩, ⟨?_, ?_⟩, ?_, ?_⟩ <;> decide +kernel

/-- R152: the same, run: the draining sweep is told CHANNEL_LOST, while the unit shows STOPPED (log entry 27). -/
theorem test_lost_while_draining :
    let s := sweeping .draining (marked .pending (busy .reading (fun c => { c with state := .stopping }) clear))
    let t := after (.transmitError 1 .other) { s with chans := s.chans.set 1 { joined with txErrors := 248 } }
    t.sweep.tallies.channelLost = 1 ∧ t.sweep.tallies.stopped = 0 ∧ t.dir[(8 : UnitId)].lastOutcome = .stopped ∧
      t.dir[(8 : UnitId)].mark = .skipped ∧ t.sweep.state = .idle := by decide +kernel

/-- What an accepted SET CHANNEL of channel B in slot 0 asks of a state. -/
def setsB (rate : BitRate) (s : State) : Prop :=
  s.visits 0 ∧ slotKind s.mem 0 = 3 ∧ s.orders.start = false ∧ (paramByte s.mem 0 0).toNat = (1 : ChanId).val ∧
    (paramByte s.mem 0 1).toNat = rate.code ∧ 1 ≤ (paramByte s.mem 0 2).toNat ∧ (paramByte s.mem 0 2).toNat ≤ 253 ∧
    (paramByte s.mem 0 3).toNat = OverflowPolicy.keepNewest.code ∧ s.sweep.state = .idle ∧
    ∀ w : UnitId, w ≠ 0 → s.dir[w].state ≠ .vacant → s.dir[w].channel = 1 → s.dir[w].address ≠ paramByte s.mem 0 2

/-- SET CHANNEL OFF with context 2 busy on the channel, and a READ UNIT order waiting in slot 5 for unit 9. -/
theorem witness_BusOffStopsTheChannel_off :
    let s := posted 3 [1, 0, 253, 1, 1, 2, 232, 3] (busy .reading (fun c => { c with state := .receiving }) clear)
    let x : Taken := { order := .readUnit 9, edition := 58, sweepResult := none }
    let s : State := { s with dir := s.dir.set 9 { unitOnB .held with address := 50 }
                              orders := { s.orders with taken := s.orders.taken.set 5 (some x) }
                              sweep := { s.sweep with openEdition := 58, counter := 58 } }
    setsB .off s ∧ s.sweep.openEdition ≠ 0 ∧ s.ctxs[(2 : CtxId)].channel = 1 ∧ s.ctxs[(2 : CtxId)].state.busy = true ∧
      s.orders.taken[(5 : SlotId)] = some x ∧ s.dir[(9 : UnitId)].channel = 1 ∧ s.dir[(9 : UnitId)].state = .held ∧
      (∀ k : CtxId, hasSlot s.ctxs[k].attached 5 = false) ∧
      (∀ k : CtxId, s.ctxs[k].state ≠ .free → s.ctxs[k].target ≠ 9) ∧ s.apart := by
  unfold setsB State.visits State.running State.memOk State.onlyPosted State.apart
  refine ⟨?_, ?_, ?_, ?_, ?_, ?_, ?_, ?_, ?_, ?_⟩ <;> decide +kernel

/-- SET CHANNEL with a rate, on a channel in BUS_OFF and on one at that rate. -/
theorem witness_RecoveryReturnsTheChannel_rate :
    let at_ := fun st : ChanState => posted 3 [1, 3, 1, 1, 1, 2, 232, 3] (onB fun c => { c with state := st })
    (setsB .r500 (at_ .busOff) ∧ (at_ .busOff).chans[(1 : ChanId)].state = .busOff ∧
      ∀ k : CtxId, ¬ ((at_ .busOff).ctxs[k].channel = 1 ∧ (at_ .busOff).ctxs[k].state.busy = true)) ∧
      setsB .r500 (at_ .active) ∧
      ∀ k : CtxId, ¬ ((at_ .active).ctxs[k].channel = 1 ∧ (at_ .active).ctxs[k].state.busy = true) := by
  unfold setsB State.visits State.running State.memOk State.onlyPosted
  refine ⟨⟨?_, ?_, ?_⟩, ?_, ?_⟩ <;> decide +kernel

theorem witness_RecoveryReturnsTheChannel :
    (let s := onB fun c => { c with state := .busOff, txErrors := 255, recoveryTimer := some 1000 }
     s.running ∧ s.chans[(1 : ChanId)].state = .busOff ∧ s.chans[(1 : ChanId)].recoveryTimer = some 1000) ∧
      let s := onB fun c => { c with state := .recovering, txErrors := 255 }
      s.running ∧ s.chans[(1 : ChanId)].state = .recovering := by
  unfold State.running; decide +kernel

/-- Context 2 OPENING for unit 8, its OPEN waiting at the head of channel B's queue. -/
def opening : State :=
  let s := busy .reading (fun c => { c with state := .opening, frameQueued := some .openFrame }) clear
  { s with chans := s.chans.set 1 { joined with txQueue := [openEntry] } }

theorem witness_FrameSentTellsItsSender :
    opening.running ∧ opening.chans[(1 : ChanId)].state.joined = true ∧
      opening.chans[(1 : ChanId)].txQueue = openEntry :: [] ∧ openEntry.ctx = some 2 ∧ openEntry.live = true ∧
      opening.ctxs[(2 : CtxId)].state ≠ .free ∧ opening.orders.resetting = none := by
  unfold State.running; decide +kernel

/-- A WAKE sent, none behind it and one behind it; and the frame of a context withdrawn. -/
theorem witness_FrameSentTellsItsSender_wake :
    let wake : TxEntry := { openEntry with frame := txFrame .wakeFrame 0 255 249 [], kind := .wakeFrame, ctx := none }
    let at_ := fun l : List TxEntry => ({ opening with chans := opening.chans.set 1 { joined with txQueue := l } } : State)
    ((at_ [wake]).running ∧ (at_ [wake]).chans[(1 : ChanId)].state.joined = true ∧
      (at_ [wake]).chans[(1 : ChanId)].txQueue = wake :: [] ∧ wake.ctx = none ∧ (at_ [wake]).sweep.state = .idle ∧
      (at_ [wake]).timing.settle ≠ 0 ∧ ∀ e ∈ [] ++ (at_ [wake]).chans[(1 : ChanId)].txOutside, e.kind ≠ .wakeFrame) ∧
      (at_ [wake, wake]).chans[(1 : ChanId)].txQueue = wake :: [wake] ∧
      (at_ [{ openEntry with live := false }]).chans[(1 : ChanId)].txQueue = { openEntry with live := false } :: [] ∧
      (at_ [{ openEntry with live := false }]).ctxs[(2 : CtxId)].state ≠ .free := by
  unfold State.running
  refine ⟨?_, ?_, ?_, ?_⟩ <;> decide +kernel

theorem witness_LoadWindowMeasures : (onB id).running ∧ (onB id).chans[(1 : ChanId)].loadTimer = some 500 := by
  unfold State.running; decide +kernel

theorem witness_PacingTickIssuesCredits :
    (let s := busy .reading (fun c => { c with state := .paced, creditNeed := 16 }) clear
     let s : State := { s with chans := s.chans.set 1 { joined with pacer := { joined.pacer with line := [2] } } }
     s.running ∧ s.chans[(1 : ChanId)].pacer.timer = some 100 ∧ s.chans[(1 : ChanId)].state.joined = true ∧
       s.orders.resetting = none ∧ s.chans[(1 : ChanId)].pacer.line = 2 :: [] ∧ (2 : CtxId) ∉ ([] : List CtxId) ∧
       s.ctxs[(2 : CtxId)].creditNeed ≤ s.chans[(1 : ChanId)].pacer.credits ∧ s.ctxs[(2 : CtxId)].state ≠ .free) ∧
      let s := onB id
      let s : State := { s with ctxs := Vector.replicate 8 { Context.freed 0 false with state := .receiving } }
      s.running ∧ s.chans[(1 : ChanId)].pacer.timer = some 100 ∧ s.chans[(1 : ChanId)].pacer.line = [] ∧
        ∀ k : CtxId, s.ctxs[k].state ≠ .free := by
  unfold State.running; decide +kernel

/-- A line of two, every context busy: running, frozen by an engine reset, and on a channel off its bus. -/
theorem witness_PacingTickIssuesCredits_line :
    let s := onB fun c => { c with pacer := { c.pacer with line := [2, 5] } }
    let s : State := { s with ctxs := Vector.replicate 8 { Context.freed 0 false with state := .paced, creditNeed := 16 } }
    let off : State := { s with chans := s.chans.set 1 { s.chans[(1 : ChanId)] with state := .busOff } }
    (s.running ∧ s.chans[(1 : ChanId)].pacer.timer = some 100 ∧ s.chans[(1 : ChanId)].state.joined = true ∧
      s.orders.resetting = none ∧ s.chans[(1 : ChanId)].pacer.line.Nodup ∧ ∀ k : CtxId, s.ctxs[k].state ≠ .free) ∧
      ((inReset s).running ∧ (inReset s).chans[(1 : ChanId)].state.joined = true ∧ (inReset s).orders.resetting ≠ none) ∧
      off.running ∧ off.chans[(1 : ChanId)].pacer.timer = some 100 ∧ off.chans[(1 : ChanId)].state.joined = false := by
  unfold State.running; decide +kernel

theorem witness_SettleTimerEndsSettling :
    (onB id).running ∧ (onB id).chans[(1 : ChanId)].settleTimer = some 200 ∧
      ((onB id).sweep.state = .idle ∨ (onB id).anyPending = true) := by
  unfold State.running; decide +kernel

/-! ### Witnesses: the staging port -/

/-- What the port's turn asks of a state, apart from the frame. -/
theorem turn {s : State} {kind : RxKind} {ch : ChanId} {f : Frame} {rest : List Frame}
    (h : s.port.initialising = false ∧ s.pool.op = none ∧ s.portTurn = some ch ∧ s.chans[ch].fifo = f :: rest ∧
      f.rxKind = some kind) : s.nextFrame kind ch f rest := h

/-- Context 2 in a state, reading unit 8 on channel B with tag 10, the frames given next at the port. -/
def facing (f : Context → Context) (fs : List Frame) : State := holding fs (busy .reading f clear)

/-- The same for an erase of unit 8, ordered in slot 4. -/
def erasing (f : Context → Context) (fs : List Frame) : State :=
  holding fs (busy .erasing (fun c => f { c with purpose := .erase, attached := 16 }) clear)

/-- GRANT of generation 501, epoch 4, total 20, count 16 (chapter 4, A two-segment read). -/
def grant501 : Frame := answer 0x11 10 [0xF5, 0x01, 4, 20, 16]
/-- CLOSE of the same generation, 16 sent. -/
def close501 : Frame := answer 0x15 10 [0xF5, 0x01, 4, 20, 16]
/-- ENTRY_A for index 9. -/
def entryA9 : Frame := answer 0x13 10 [9, 0x1F, 0xA2, 0x00, 3, 4, 1]
/-- ENTRY_B for index 9. -/
def entryB9 : Frame := answer 0x14 10 [9, 0x10, 0x27, 0x00, 0x20, 0x4E, 0x00]

/-- A context RECEIVING the first segment of that read. -/
def receiving (c : Context) : Context :=
  { c with state := .receiving, generation := 501, epoch := 4, total := 20, granted := 16, window := some (.gap, 50) }

theorem witness_StrayFrameIsCounted :
    let s := facing receiving [answer 0x11 2 [0xF5, 0x01, 4, 20, 16]]
    s.nextFrame .grant 1 (answer 0x11 2 [0xF5, 0x01, 4, 20, 16]) [] ∧
      ¬ s.reaches 1 (answer 0x11 2 [0xF5, 0x01, 4, 20, 16]) (answer 0x11 2 [0xF5, 0x01, 4, 20, 16]).tagCtx := by
  refine ⟨turn (by decide +kernel), ?_⟩
  unfold State.reaches; decide +kernel

theorem witness_ShortFrameIsMalformed :
    let f := answer 0x11 10 [1, 2, 3, 4]
    let s := facing receiving [f]
    s.nextFrame .grant 1 f [] ∧ s.reaches 1 f 2 ∧ s.ctxs[(2 : CtxId)].state ≠ .stopping ∧ f.dlc.toNat < 5 ∧
      s.dir[s.ctxs[(2 : CtxId)].target].state = .reading := by
  refine ⟨turn (by decide +kernel), ?_, by decide +kernel, by decide +kernel, by decide +kernel⟩
  unfold State.reaches; decide +kernel

theorem witness_GrantOpensTheSegment :
    let s := facing (fun c => { c with state := .opening, window := some (.answer, 25) }) [grant501]
    s.nextFrame .grant 1 grant501 [] ∧ s.reaches 1 grant501 2 ∧ s.ctxs[(2 : CtxId)].state = .opening ∧
      s.ctxs[(2 : CtxId)].purpose = .read ∧ 5 ≤ grant501.dlc.toNat ∧ s.chans[(1 : ChanId)].pacer.line.count (2 : CtxId) ≤ 1 ∧
      1 ≤ (grant501.byte 4).toNat ∧ (grant501.byte 4).toNat ≤ s.ctxs[(2 : CtxId)].countAsked ∧
      s.ctxs[(2 : CtxId)].segFirst + (grant501.byte 4).toNat ≤ min 64 (grant501.byte 3).toNat ∧
      s.ctxs[(2 : CtxId)].segFirst = 0 := by
  refine ⟨turn (by decide +kernel), ?_, ?_⟩
  · unfold State.reaches; decide +kernel
  · decide +kernel

theorem witness_GrantOpensTheSegment_later :
    let f := answer 0x11 10 [0xF5, 0x01, 4, 20, 4]
    let s := facing (fun c => { receiving c with state := .opening, segFirst := 16, countAsked := 4 }) [f]
    s.nextFrame .grant 1 f [] ∧ s.reaches 1 f 2 ∧ s.ctxs[(2 : CtxId)].state = .opening ∧
      s.ctxs[(2 : CtxId)].segFirst + (f.byte 4).toNat = min 64 (f.byte 3).toNat ∧ s.ctxs[(2 : CtxId)].segFirst ≠ 0 ∧
      s.ctxs[(2 : CtxId)].generation = f.byte 1 ++ f.byte 0 ∧ s.ctxs[(2 : CtxId)].epoch = f.byte 2 ∧
      s.ctxs[(2 : CtxId)].total = min 64 (f.byte 3).toNat := by
  refine ⟨turn (by decide +kernel), ?_, ?_⟩
  · unfold State.reaches; decide +kernel
  · decide +kernel

/-- A late GRANT and a late HOLD meet context 2 in its line. -/
theorem witness_GrantOpensTheSegment_late :
    let s := inLine (facing (fun c => { c with state := .opening, attempt := 2, creditNeed := 16 }) [grant501])
    let f := answer 0x12 10 [1, 30]
    let h := inLine (facing (fun c => { c with state := .opening, attempt := 2, creditNeed := 16 }) [f])
    (s.nextFrame .grant 1 grant501 [] ∧ s.reaches 1 grant501 2 ∧ s.chans[(1 : ChanId)].pacer.line.count (2 : CtxId) = 1) ∧
      h.nextFrame .hold 1 f [] ∧ h.reaches 1 f 2 ∧ h.chans[(1 : ChanId)].pacer.line.count (2 : CtxId) = 1 := by
  refine ⟨⟨turn (by decide +kernel), ?_, by decide +kernel⟩, turn (by decide +kernel), ?_, by decide +kernel⟩ <;>
    unfold State.reaches <;> decide +kernel

/-- Restart counts 1 (the restart goes on, to 2 of 3) and 2 (it reaches the limit). -/
theorem witness_TornReadRestarts :
    let f := answer 0x11 10 [0xF6, 0x01, 4, 20, 16]
    let s := facing receiving [f]
    let at_ := fun n : Nat => ({ s with dir := s.dir.set 8 { unitOnB .reading with restartCount := n } } : State)
    (s.nextFrame .grant 1 f [] ∧ s.reaches 1 f 2 ∧ s.memOk ∧ s.ctxs[(2 : CtxId)].state = .receiving ∧
      s.ctxs[(2 : CtxId)].purpose = .read ∧ 5 ≤ f.dlc.toNat ∧ s.chans[(1 : ChanId)].pacer.line.count (2 : CtxId) ≤ 1 ∧
      ¬ (f.byte 1 ++ f.byte 0 = s.ctxs[(2 : CtxId)].generation ∧ f.byte 2 = s.ctxs[(2 : CtxId)].epoch)) ∧
      ((at_ 1).nextFrame .grant 1 f [] ∧ (at_ 1).reaches 1 f 2 ∧
        min 7 ((at_ 1).dir[(8 : UnitId)].restartCount + 1) < (at_ 1).ctxs[(2 : CtxId)].useLimit) ∧
      (at_ 2).nextFrame .grant 1 f [] ∧ (at_ 2).reaches 1 f 2 ∧
        (at_ 2).ctxs[(2 : CtxId)].useLimit ≤ min 7 ((at_ 2).dir[(8 : UnitId)].restartCount + 1) := by
  refine ⟨⟨turn (by decide +kernel), ?_, rfl, ?_⟩, ⟨turn (by decide +kernel), ?_, by decide +kernel⟩,
    turn (by decide +kernel), ?_, by decide +kernel⟩
  · unfold State.reaches; decide +kernel
  · decide +kernel
  · unfold State.reaches; decide +kernel
  · unfold State.reaches; decide +kernel

/-- A GRANT of another generation on a later segment; and one in RECEIVING at the restart limit, of a read a sweep waits for. -/
theorem witness_TornReadRestarts_later :
    let f := answer 0x11 10 [0xF6, 0x01, 4, 20, 4]
    let s := facing (fun c => { receiving c with state := .opening, segFirst := 16, countAsked := 4, attached := 16 }) [f]
    let x : Taken := { order := .readUnit 8, edition := 58, sweepResult := none }
    let s : State := sweeping .running (marked .pending
      { s with dir := s.dir.set 8 { unitOnB .reading with restartCount := 2 }
               orders := { s.orders with taken := s.orders.taken.set 4 (some x) } })
    s.nextFrame .grant 1 f [] ∧ s.reaches 1 f 2 ∧ s.ctxs[(2 : CtxId)].state = .opening ∧
      s.ctxs[(2 : CtxId)].segFirst ≠ 0 ∧ ¬ (f.byte 1 ++ f.byte 0 = s.ctxs[(2 : CtxId)].generation) ∧
      s.ctxs[(2 : CtxId)].useLimit ≤ min 7 (s.dir[(8 : UnitId)].restartCount + 1) ∧ s.awaits 2 4 x ∧
      s.dir[(8 : UnitId)].mark = .pending ∧ s.sweep.autoDue = false := by
  refine ⟨turn (by decide +kernel), ?_, ?_⟩
  · unfold State.reaches; decide +kernel
  · unfold State.awaits; decide +kernel

/-- Hold counts 6 (the seventh hold is below the limit) and 7 (the eighth is not). -/
theorem witness_HoldSuspendsTheRequest :
    let f := answer 0x12 10 [3, 30]
    let s := facing (fun c => { c with state := .opening }) [f]
    let at_ := fun n : Nat => ({ s with dir := s.dir.set 8 { unitOnB .reading with holdCount := n } } : State)
    let e := erasing (fun c => { c with state := .opening }) [f]
    ((at_ 6).nextFrame .hold 1 f [] ∧ (at_ 6).reaches 1 f 2 ∧ (at_ 6).memOk ∧ (at_ 6).ctxs[(2 : CtxId)].state = .opening ∧
      2 ≤ f.dlc.toNat ∧ 1 ≤ (f.byte 0).toNat ∧ (f.byte 0).toNat ≤ 3 ∧ (at_ 6).chans[(1 : ChanId)].pacer.line.count (2 : CtxId) ≤ 1 ∧
      (at_ 6).dir[(8 : UnitId)].holdCount + 1 < 8) ∧
      ((at_ 7).nextFrame .hold 1 f [] ∧ (at_ 7).reaches 1 f 2 ∧ 8 ≤ (at_ 7).dir[(8 : UnitId)].holdCount + 1) ∧
      e.nextFrame .hold 1 f [] ∧ e.reaches 1 f 2 ∧ e.ctxs[(2 : CtxId)].purpose = .erase ∧
        e.dir[(8 : UnitId)].holdCount + 1 < 8 := by
  refine ⟨⟨turn (by decide +kernel), ?_, rfl, by decide +kernel⟩, ⟨turn (by decide +kernel), ?_, by decide +kernel⟩,
    turn (by decide +kernel), ?_, by decide +kernel⟩ <;> unfold State.reaches <;> decide +kernel

/-- Index 9 in the granted range 0 to 15, below the segment 16 to 19, and at the end of the range 0 to 8. -/
theorem witness_EntryHalfTakesItsPlace :
    let s := facing receiving [entryA9]
    let later := facing (fun c => { receiving c with segFirst := 16, granted := 4 }) [entryB9]
    let beyond := facing (fun c => { receiving c with granted := 9 }) [entryB9]
    (s.nextFrame .entryA 1 entryA9 [] ∧ s.reaches 1 entryA9 2 ∧ s.ctxs[(2 : CtxId)].state = .receiving ∧
      s.ctxs[(2 : CtxId)].purpose = .read ∧ 7 ≤ entryA9.dlc.toNat ∧ (9 : Fin 64).val = (entryA9.byte 0).toNat ∧
      s.ctxs[(2 : CtxId)].segFirst ≤ 9 ∧ 9 < s.ctxs[(2 : CtxId)].segFirst + s.ctxs[(2 : CtxId)].granted) ∧
      (later.nextFrame .entryB 1 entryB9 [] ∧ later.reaches 1 entryB9 2 ∧
        (entryB9.byte 0).toNat < later.ctxs[(2 : CtxId)].segFirst) ∧
      beyond.nextFrame .entryB 1 entryB9 [] ∧ beyond.reaches 1 entryB9 2 ∧
        beyond.ctxs[(2 : CtxId)].segFirst + beyond.ctxs[(2 : CtxId)].granted = (entryB9.byte 0).toNat := by
  refine ⟨⟨turn (by decide +kernel), ?_, by decide +kernel⟩, ⟨turn (by decide +kernel), ?_, by decide +kernel⟩,
    turn (by decide +kernel), ?_, by decide +kernel⟩ <;> unfold State.reaches <;> decide +kernel

/-- A staging area whose first `n` places are complete. -/
def staged (n : Nat) : Vector Place 64 :=
  Vector.ofFn fun i : Fin 64 =>
    if i.val < n then
      { halfA := some { code := 1, mode := 0, count := 1, activeNow := false, confirmed := false, lamp := false },
        halfB := some { firstOdo := 1, lastOdo := 1 } }
    else { halfA := none, halfB := none }

/-- Nothing missing with more to read, nothing missing at the end, and places missing in the last mending round but one. -/
theorem witness_CloseTestsTheSegment :
    let more := facing (fun c => { receiving c with staging := staged 16 }) [close501]
    let last := facing (fun c => { receiving c with staging := staged 20, segFirst := 16, granted := 4 })
      [answer 0x15 10 [0xF5, 0x01, 4, 20, 4]]
    let mend := facing (fun c => { receiving c with state := .mending, mendRound := 1 }) [close501]
    (more.nextFrame .close 1 close501 [] ∧ more.reaches 1 close501 2 ∧ 5 ≤ close501.dlc.toNat ∧
      close501.byte 1 ++ close501.byte 0 = more.ctxs[(2 : CtxId)].generation ∧
      close501.byte 2 = more.ctxs[(2 : CtxId)].epoch ∧
      min 64 (close501.byte 3).toNat = more.ctxs[(2 : CtxId)].total ∧
      (close501.byte 4).toNat ≤ more.ctxs[(2 : CtxId)].granted ∧ more.ctxs[(2 : CtxId)].missing = []) ∧
      (last.nextFrame .close 1 (answer 0x15 10 [0xF5, 0x01, 4, 20, 4]) [] ∧ last.ctxs[(2 : CtxId)].missing = [] ∧
        last.ctxs[(2 : CtxId)].segFirst + last.ctxs[(2 : CtxId)].granted = last.ctxs[(2 : CtxId)].total) ∧
      mend.nextFrame .close 1 close501 [] ∧ mend.reaches 1 close501 2 ∧ mend.ctxs[(2 : CtxId)].window ≠ none ∧
      mend.ctxs[(2 : CtxId)].missing ≠ [] ∧ mend.ctxs[(2 : CtxId)].mendRound < 2 := by
  refine ⟨⟨turn (by decide +kernel), ?_, by decide +kernel⟩, ⟨turn (by decide +kernel), by decide +kernel⟩,
    turn (by decide +kernel), ?_, by decide +kernel⟩ <;> unfold State.reaches <;> decide +kernel

/-- MENDING with the PICK unsent; and places missing in the last mending round. -/
theorem witness_CloseTestsTheSegment_mending :
    let unsent := facing (fun c => { receiving c with state := .mending, mendRound := 1, window := none }) [close501]
    let last := facing (fun c => { receiving c with state := .mending, mendRound := 2 }) [close501]
    (unsent.nextFrame .close 1 close501 [] ∧ unsent.reaches 1 close501 2 ∧ unsent.ctxs[(2 : CtxId)].window = none) ∧
      last.nextFrame .close 1 close501 [] ∧ last.reaches 1 close501 2 ∧ last.memOk ∧
      last.ctxs[(2 : CtxId)].window ≠ none ∧ last.ctxs[(2 : CtxId)].missing ≠ [] ∧
      2 ≤ last.ctxs[(2 : CtxId)].mendRound ∧ last.chans[(1 : ChanId)].pacer.line.count (2 : CtxId) ≤ 1 := by
  refine ⟨⟨turn (by decide +kernel), ?_, by decide +kernel⟩, turn (by decide +kernel), ?_, rfl, by decide +kernel⟩ <;>
    unfold State.reaches <;> decide +kernel

/-- Context 2 STOPPING, its stop window running. -/
def stopping (fs : List Frame) : State :=
  facing (fun c => { c with state := .stopping, window := some (.stop, 30) }) fs

theorem witness_StoppingEndsStopped :
    ((stopping [close501]).memOk ∧ (stopping [close501]).ctxs[(2 : CtxId)].state = .stopping ∧
      (stopping [close501]).nextFrame .close 1 close501 [] ∧ (stopping [close501]).reaches 1 close501 2) ∧
      (stopping []).expires 2 .stop 30 ∧
      (stopping [entryB9]).nextFrame .entryB 1 entryB9 [] ∧ (stopping [entryB9]).reaches 1 entryB9 2 := by
  refine ⟨⟨rfl, by decide +kernel, turn (by decide +kernel), ?_⟩, ?_, turn (by decide +kernel), ?_⟩
  · unfold State.reaches; decide +kernel
  · unfold State.expires State.running; decide +kernel
  · unfold State.reaches; decide +kernel

theorem witness_ErasedOffersTheClear :
    let f := answer 0x16 10 [12, 0, 9]
    let s := erasing (fun c => { c with state := .opening, window := some (.answer, 25) }) [f]
    s.nextFrame .erased 1 f [] ∧ s.reaches 1 f 2 ∧ s.ctxs[(2 : CtxId)].state = .opening ∧
      s.ctxs[(2 : CtxId)].purpose = .erase ∧ 3 ≤ f.dlc.toNat ∧ s.chans[(1 : ChanId)].pacer.line.count (2 : CtxId) ≤ 1 ∧
      s.ctxs[(2 : CtxId)].attached = BitVec.ofNat 16 (2 ^ (4 : SlotId).val) := by
  refine ⟨turn (by decide +kernel), ?_, by decide +kernel⟩
  unfold State.reaches; decide +kernel

/-! ### Witnesses: windows, timers and the engine reset -/

/-- Attempts 2 (asked again) and 3 (ended), for a read and for an erase, and an erase's hold window. -/
theorem witness_SilenceAsksAgainOrEndsAbsent :
    let read := fun n : Nat =>
      facing (fun c => { c with state := .opening, attempt := n, firstOpening := true, window := some (.answer, 25) }) []
    let erase := fun n : Nat => erasing (fun c => { c with state := .opening, attempt := n, window := some (.answer, 25) }) []
    let held := erasing (fun c => { c with state := .opening, window := some (.hold, 210) }) []
    ((read 2).memOk ∧ (read 2).expires 2 .answer 25 ∧ (read 2).ctxs[(2 : CtxId)].state = .opening ∧
      (read 2).ctxs[(2 : CtxId)].attempt < 3) ∧
      ((read 3).expires 2 .answer 25 ∧ 3 ≤ (read 3).ctxs[(2 : CtxId)].attempt ∧ (read 3).ctxs[(2 : CtxId)].segFirst = 0 ∧
        (read 3).ctxs[(2 : CtxId)].firstOpening = true) ∧
      ((erase 3).expires 2 .answer 25 ∧ (erase 3).ctxs[(2 : CtxId)].purpose ≠ .read) ∧
      held.expires 2 .hold 210 ∧ held.ctxs[(2 : CtxId)].state = .opening := by
  unfold State.memOk State.expires State.running; decide +kernel

/-- The third silence on a later segment, and in an opening that is not its read's first. -/
theorem witness_SilenceAsksAgainOrEndsAbsent_restart :
    let at_ := fun (n : Nat) =>
      facing (fun c => { c with state := .opening, attempt := 3, segFirst := n, window := some (.answer, 25) }) []
    ((at_ 16).memOk ∧ (at_ 16).expires 2 .answer 25 ∧ (at_ 16).ctxs[(2 : CtxId)].purpose = .read ∧
      (at_ 16).ctxs[(2 : CtxId)].segFirst ≠ 0 ∧ (at_ 16).chans[(1 : ChanId)].pacer.line.count (2 : CtxId) ≤ 1) ∧
      (at_ 0).expires 2 .answer 25 ∧ (at_ 0).ctxs[(2 : CtxId)].firstOpening = false := by
  unfold State.memOk State.expires State.running; decide +kernel

/-- Silence in MENDING in rounds 1 and 2, of either window. -/
theorem witness_GapSilenceMends_mending :
    let at_ := fun (n : Nat) (w : WindowKind) =>
      facing (fun c => { receiving c with state := .mending, mendRound := n, window := some (w, 50) }) []
    ((at_ 1 .answer).expires 2 .answer 50 ∧ (at_ 1 .answer).ctxs[(2 : CtxId)].mendRound < 2 ∧
      (at_ 1 .answer).ctxs[(2 : CtxId)].missing ≠ []) ∧ (at_ 1 .gap).expires 2 .gap 50 ∧
      ((at_ 2 .answer).memOk ∧ (at_ 2 .answer).expires 2 .answer 50 ∧ (at_ 2 .answer).ctxs[(2 : CtxId)].purpose = .read ∧
        2 ≤ (at_ 2 .answer).ctxs[(2 : CtxId)].mendRound ∧
        (at_ 2 .answer).chans[(1 : ChanId)].pacer.line.count (2 : CtxId) ≤ 1) ∧ (at_ 2 .gap).expires 2 .gap 50 := by
  unfold State.memOk State.expires State.running; decide +kernel

theorem witness_GapSilenceMends :
    let s := facing receiving []
    let whole := facing (fun c => { receiving c with staging := staged 16 }) []
    (s.expires 2 .gap 50 ∧ s.ctxs[(2 : CtxId)].state = .receiving) ∧ whole.expires 2 .gap 50 ∧
      whole.ctxs[(2 : CtxId)].missing = [] := by
  unfold State.expires State.running; decide +kernel

theorem witness_BudgetDrainsTheSweep :
    let s := facing receiving []
    let s : State := { s with sweep := { s.sweep with state := .running, budgetTimer := some 30000 } }
    s.running ∧ s.sweep.budgetTimer = some 30000 ∧ s.sweep.state = .running ∧ s.sweep.autoDue = false := by
  unfold State.running; decide +kernel

/-- ABORT SWEEP, and a budget's end, with context 2 reading PENDING unit 8 for the sweep in each state, or unit 8 HELD or
IDLE and served by none. -/
theorem witness_BudgetDrainsTheSweep_units :
    let abort := fun s : State => sweeping .running (marked .pending (posted 15 [] s))
    let with_ := fun st : CtxState => abort (busy .reading (fun c => { c with state := st }) clear)
    let held := abort { clear with dir := clear.dir.set 8 (unitOnB .held) }
    let serves := fun s : State =>
      s.visits 0 ∧ slotKind s.mem 0 = 15 ∧ s.orders.start = false ∧ s.sweep.state = .running ∧
        s.sweep.budgetTimer = some 30000 ∧ s.sweep.autoDue = false ∧ s.dir[(8 : UnitId)].mark = .pending ∧
        s.readBySweep 8 2 ∧ s.alone 2 ∧ s.ctxs[(2 : CtxId)].purpose = .read
    serves (inLine (with_ .paced)) ∧ serves (with_ .mending) ∧
      (serves (with_ .stopping) ∧ ∀ c : ChanId, (2 : CtxId) ∉ (with_ .stopping).chans[c].pacer.line) ∧
      held.visits 0 ∧ slotKind held.mem 0 = 15 ∧ held.dir[(8 : UnitId)].state = .held ∧
        held.dir[(8 : UnitId)].mark = .pending ∧ (∀ k, ¬ held.readBySweep 8 k) ∧ ∀ u k, ¬ held.readBySweep u k := by
  unfold State.visits State.running State.memOk State.onlyPosted State.alone State.readBySweep
  refine ⟨?_, ?_, ⟨?_, ?_⟩, ?_⟩ <;> decide +kernel

/-- SWEEP of class 0, which unit 0 always answers; and of a class no unit has. -/
theorem witness_ScheduleStartsOrWaits_order :
    let s := posted 10 [1, 0, 30, 0] clear
    let e := posted 10 [2, 0, 0, 0] clear
    (s.visits 0 ∧ slotKind s.mem 0 = 10 ∧ s.orders.start = false ∧ s.sweep.state = .idle ∧ s.sweep.autoDue = false ∧
      s.markFor 1 0 = .pending) ∧
      e.visits 0 ∧ slotKind e.mem 0 = 10 ∧ (∀ u, e.markFor 2 u ≠ .pending) ∧ e.nothingKeeps := by
  have none_ : (posted 10 [2, 0, 0, 0] clear).nothingKeeps :=
    ⟨fun n x u h => absurd ((taken_none n).symm.trans h) nofun, by decide +kernel, nofun⟩
  refine ⟨?_, ?_, ?_, ?_, none_⟩
  · unfold State.visits State.running State.memOk State.onlyPosted State.markFor; decide +kernel
  · unfold State.visits State.running State.memOk State.onlyPosted; decide +kernel
  · decide +kernel
  · unfold State.markFor; decide +kernel

/-- START set; START clear in IDLE; START clear in RUNNING with a unit PENDING. -/
theorem witness_ScheduleStartsOrWaits :
    let s : State := { clear with sweep := { clear.sweep with schedPeriod := 60, schedMask := 1, scheduleTimer := some 3600000 } }
    let held : State := { s with orders := { s.orders with start := true } }
    let run : State := { s with sweep := { s.sweep with state := .running }
                                dir := s.dir.set 8 { unitOnB .idle with mark := .pending } }
    (s.running ∧ s.sweep.scheduleTimer = some 3600000 ∧ s.sweep.state = .idle ∧ s.orders.start = false) ∧
      (held.running ∧ held.sweep.scheduleTimer = some 3600000 ∧ held.sweep.state = .idle ∧ held.orders.start = true) ∧
      run.running ∧ run.sweep.scheduleTimer = some 3600000 ∧ run.anyPending = true ∧ run.orders.start = false ∧
        run.sweep.state ≠ .idle := by
  unfold State.running; decide +kernel

theorem witness_HoldRunOutMakesEligible :
    let s : State := { clear with dir := clear.dir.set 8 { unitOnB .held with holdUntil := 10300 } }
    s.running ∧ s.dir[(8 : UnitId)].state = .held := by
  unfold State.running; decide +kernel

theorem witness_EngineResetEnds :
    let s := inReset (facing receiving [])
    let s : State := { s with sweep := { s.sweep with state := .running, openEdition := 80 } }
    s.running ∧ s.memOk ∧ s.orders.resetting = some 2 ∧ s.pool.op = none ∧ s.pool.queue = [] ∧ s.pool.waiting = [] ∧
      s.sweep.state ≠ .idle ∧ s.sweep.openEdition ≠ 0 := by
  unfold State.running State.memOk; decide +kernel

theorem witness_EveryStepKeepsTheLine : State.reset.lineOk ∧ ∃ t, step State.reset = .next t :=
  ⟨by unfold State.lineOk; refine ⟨fun _ => ⟨rfl, .start, by decide +kernel⟩, fun _ => rfl⟩, _, rfl⟩
theorem freshRecords_revision (r : RecId) : freshRecords[r].revision = 0 := by
  simp [freshRecords, FaultRecord.freed]

theorem reset_blocksEven : State.reset.blocksEven :=
  ⟨by decide +kernel, by decide +kernel, by decide +kernel, rfl, rfl, fun r => by
    rw [show State.reset.pool.records[r] = freshRecords[r] from rfl, freshRecords_revision]; rfl⟩

theorem witness_EveryStepKeepsParityAndMemory :
    State.reset.parityOk ∧ State.reset.memOk ∧ State.reset.blocksEven ∧ (∃ t, step State.reset = .next t) ∧
      ∃ t, step { clear with pending := [.grant] } = .next t :=
  ⟨by unfold State.parityOk; decide +kernel, rfl, reset_blocksEven, ⟨_, rfl⟩, _, rfl⟩
theorem freshRecords_get (r : RecId) :
    freshRecords[r] = FaultRecord.freed (if h : r.val + 1 < 1536 then some ⟨r.val + 1, h⟩ else none) := by
  simp [freshRecords]

theorem linked_cons {rs : Vector FaultRecord 1536} {h : Option RecId} {r : RecId} {l : List RecId} (hr : h = some r)
    (hl : linked rs rs[r].link l) : linked rs h (r :: l) := ⟨hr, hl⟩

/-- The fresh free stack, from any record on. -/
theorem fresh_linked (n i : Nat) (h : i + n = 1536) (l : List RecId) (hl : l = (List.finRange 1536).drop i) :
    linked freshRecords (if h : i < 1536 then some ⟨i, h⟩ else none) l := by
  induction n generalizing i l with
  | zero =>
    rw [List.drop_of_length_le (by rw [List.length_finRange]; omega)] at hl
    rw [dif_neg (by omega), hl]
    rfl
  | succ n ih =>
    have hi : i < 1536 := by omega
    rw [List.drop_eq_getElem_cons (by rw [List.length_finRange]; exact hi), List.getElem_finRange] at hl
    rw [dif_pos hi, hl]
    refine linked_cons rfl ?_
    rw [freshRecords_get]
    generalize hd : (List.finRange 1536).drop (i + 1) = d
    exact ih (i + 1) (by omega) d hd.symm

/-- Right after reset every record is on the free stack. -/
theorem reset_poolOk : State.reset.poolOk := by
  have none_ : ∀ u : UnitId, State.reset.dir[u].chainHead = none := by decide +kernel
  have count_ : ∀ u : UnitId, State.reset.dir[u].liveCount = 0 := by decide +kernel
  have empty : ((List.finRange 64).flatMap fun _ => ([] : List RecId)) = [] := List.flatMap_eq_nil_iff.mpr fun _ _ => rfl
  obtain ⟨f, hf⟩ : ∃ f : List RecId, f = List.finRange 1536 := ⟨_, rfl⟩
  have linked_ : linked freshRecords (some 0) f := fresh_linked 1536 0 (by omega) f (by rw [hf, List.drop_zero])
  exact
    ⟨fun _ => [], f, [],
    { onFree := linked_, onQueue := rfl, last := rfl, onChain := none_
      parts := by rw [empty, List.append_nil, List.append_nil, hf]
      freeCount := by rw [hf, List.length_finRange]; rfl
      retCount := rfl, liveCount := by rw [empty]; rfl, chainCount := count_, vacant := fun _ _ => rfl
      free := fun r _ => by
        rw [show State.reset.pool.records[r] = freshRecords[r] from rfl, freshRecords_get]; rfl
      retired := fun _ h => absurd h List.not_mem_nil, inOrder := List.Pairwise.nil
      live := fun _ _ h => absurd h List.not_mem_nil, ascending := fun _ => List.Pairwise.nil }⟩

theorem witness_EveryStepKeepsRoom : State.reset.roomOk ∧ State.reset.poolOk ∧ ∃ t, step State.reset = .next t :=
  ⟨by unfold State.roomOk; decide +kernel, reset_poolOk, _, rfl⟩

end Sys2Proof.Tests
end

section
/-! SUPPORT. What every piece of work of the part keeps: the invariants of a run, carried through every shared operation once. -/

namespace Sys2Proof.Machine

/-! ### What work keeps -/

/-- From `s` to `t` the queue of commands stands, and each invariant of a run that held still holds. -/
structure Keeps (s t : State) : Prop where
  pending : t.pending = s.pending
  parity : s.parityOk → t.parityOk
  mem : s.memOk → t.memOk
  even : s.blocksEven → t.blocksEven
  room : s.roomOk → t.roomOk
  pool : s.poolOk → t.poolOk
  tidy : s.memOk → s.tidy → t.tidy

theorem Keeps.refl (s : State) : Keeps s s := ⟨rfl, id, id, id, id, id, fun _ => id⟩

theorem Keeps.trans {s t u : State} (h : Keeps s t) (k : Keeps t u) : Keeps s u where
  pending := k.pending.trans h.pending
  parity x := k.parity (h.parity x)
  mem x := k.mem (h.mem x)
  even x := k.even (h.even x)
  room x := k.room (h.room x)
  pool x := k.pool (h.pool x)
  tidy m x := k.tidy (h.mem m) (h.tidy m x)

/-- Work within an event: what it changes of a context view, a channel's block or the sweep record is stepped at the event's end
alone (R92, R131, R145), so the work itself leaves these revisions as they are. -/
structure Works (s t : State) : Prop extends Keeps s t where
  ctxs : ∀ k : CtxId, t.ctxs[k].revision = s.ctxs[k].revision
  chans : ∀ c : ChanId, t.chans[c].revision = s.chans[c].revision
  sweep : t.sweep.revision = s.sweep.revision

theorem Works.refl (s : State) : Works s s := ⟨Keeps.refl s, fun _ => rfl, fun _ => rfl, rfl⟩

theorem Works.trans {s t u : State} (h : Works s t) (k : Works t u) : Works s u where
  toKeeps := h.toKeeps.trans k.toKeeps
  ctxs j := (k.ctxs j).trans (h.ctxs j)
  chans c := (k.chans c).trans (h.chans c)
  sweep := k.sweep.trans h.sweep

theorem Works.forEach {α : Type} {s t : State} (h : Works s t) (l : List α) {f : α → State → State}
    (hf : ∀ a u, Works s u → Works s (f a u)) : Works s (Machine.forEach l f t) :=
  forEach_invariant (Works s) f hf l t h

theorem Works.ite {s t u : State} {p : Prop} [Decidable p] (h : p → Works s t) (k : ¬ p → Works s u) :
    Works s (if p then t else u) := by
  split
  · exact h ‹_›
  · exact k ‹_›

/-! ### What an update of one block has to keep -/

/-- A channel's queue, FIFO and credits within their places (R122, R123, R136). -/
def Channel.roomOk (c : Channel) : Prop := c.txQueue.length ≤ 8 ∧ c.fifo.length ≤ 32 ∧ c.pacer.credits ≤ 64

/-- An update of a channel within an event. -/
structure Channel.stays (c d : Channel) : Prop where
  revision : d.revision = c.revision
  room : c.roomOk → d.roomOk

/-- What a directory write leaves of the unit's place: no entry becomes VACANT, and none that is VACANT becomes PENDING, but for
unit 0 (R51, R147). -/
def DirEntry.placed (u : UnitId) (e e' : DirEntry) : Prop :=
  e'.state = .vacant → e.state = .vacant ∧ (u ≠ 0 → e'.mark = .pending → e.mark = .pending)

/-- What every directory write but that of a pool operation leaves: the unit's chain, and its place. -/
structure DirEntry.stays (u : UnitId) (e e' : DirEntry) : Prop where
  chainHead : e'.chainHead = e.chainHead
  liveCount : e'.liveCount = e.liveCount
  placed : e.placed u e'

/-- A directory write that touches neither chain, state nor mark. -/
theorem DirEntry.stays_of_eq {u : UnitId} {e e' : DirEntry} (hc : e'.chainHead = e.chainHead) (hl : e'.liveCount = e.liveCount)
    (hs : e'.state = e.state) (hm : e'.mark = e.mark) : e.stays u e' :=
  ⟨hc, hl, fun x => ⟨hs.symm.trans x, fun _ y => hm.symm.trans y⟩⟩

/-- Every revision that work itself steps, and every record's, is even. -/
theorem even_add_two {r : BitVec 8} (h : r.toNat % 2 = 0) : (r + 2).toNat % 2 = 0 := by bv_omega

/-- What leaves the pool, the directory and the edition counter alone leaves the collections whole. -/
theorem State.poolOk_same {s t : State} (hp : t.pool = s.pool) (hd : t.dir = s.dir)
    (hc : s.sweep.counter.toNat ≤ t.sweep.counter.toNat) (h : s.poolOk) : t.poolOk :=
  State.poolOk_congr h (by rw [hp]; exact ⟨rfl, rfl, rfl, rfl, rfl, rfl, rfl⟩)
    (fun v => by rw [show t.dir[v] = s.dir[v] by rw [hd]]; exact ⟨rfl, rfl, id⟩) hc

/-! ### The updates of one block -/

section
variable {s t : State} (h : Works s t)
include h

theorem Works.updCtx (k : CtxId) (f : Context → Context) (hf : (f t.ctxs[k]).revision = t.ctxs[k].revision) :
    Works s (t.updCtx k f) := by
  have hc : ∀ j : CtxId, (t.updCtx k f).ctxs[j].revision = t.ctxs[j].revision := fun j => by
    rw [State.updCtx_get]
    split
    · next e => rw [e, hf]
    · rfl
  exact h.trans
    { Works.refl t with
      even := fun ⟨d, c, r⟩ => ⟨d, fun j => by rw [hc j]; exact c j, r⟩
      pool := State.poolOk_same rfl rfl (Nat.le_refl _)
      ctxs := hc }

theorem Works.updChan (c : ChanId) (f : Channel → Channel) (hf : t.chans[c].stays (f t.chans[c])) :
    Works s (t.updChan c f) := by
  have hc : ∀ j : ChanId, (t.updChan c f).chans[j].revision = t.chans[j].revision := fun j => by
    rw [State.updChan_get]
    split
    · next e => rw [e, hf.revision]
    · rfl
  exact h.trans
    { Works.refl t with
      even := fun ⟨d, c, x, r⟩ => ⟨d, c, fun j => by rw [hc j]; exact x j, r⟩
      room := fun ⟨q, e, x⟩ => ⟨q, e, fun j => by
        rw [State.updChan_get]
        split
        · exact hf.room (x c)
        · exact x j⟩
      pool := State.poolOk_same rfl rfl (Nat.le_refl _)
      chans := hc }

theorem Works.updSweep (f : SweepCtl → SweepCtl) (hr : (f t.sweep).revision = t.sweep.revision)
    (hc : t.sweep.counter.toNat ≤ (f t.sweep).counter.toNat) : Works s (t.updSweep f) :=
  h.trans
    { Works.refl t with
      even := fun ⟨d, c, x, w, r⟩ => ⟨d, c, x, by rw [State.updSweep_sweep, hr]; exact w, r⟩
      pool := State.poolOk_same rfl rfl hc
      sweep := hr }

theorem Works.updPort (f : HostPort → HostPort) : Works s (t.updPort f) :=
  h.trans { Works.refl t with pool := State.poolOk_same rfl rfl (Nat.le_refl _) }

theorem Works.raiseAttn (b : AttnBit) : Works s (t.raiseAttn b) := h.updPort _

/-- An update of the order engine that leaves the copies of the slots. -/
theorem Works.updOrders (f : OrderEngine → OrderEngine) (hf : (f t.orders).taken = t.orders.taken) :
    Works s (t.updOrders f) :=
  h.trans
    { Works.refl t with
      pool := State.poolOk_same rfl rfl (Nat.le_refl _)
      tidy := fun _ ⟨x, v⟩ => ⟨fun n y hy => x n y (by rw [← hy, State.updOrders_orders, hf]), v⟩ }

theorem Works.setTiming (v : Timing) : Works s { t with timing := v } :=
  h.trans { Works.refl t with pool := State.poolOk_same rfl rfl (Nat.le_refl _) }

theorem Works.setPortLast (c : ChanId) : Works s { t with portLast := c } :=
  h.trans { Works.refl t with pool := State.poolOk_same rfl rfl (Nat.le_refl _) }

theorem Works.updSelf (f : SelfHistory → SelfHistory)
    (hr : t.self.revision.toNat % 2 = 0 → (f t.self).revision.toNat % 2 = 0)
    (hl : t.self.entries.length ≤ 64 → (f t.self).entries.length ≤ 64) : Works s (t.updSelf f) :=
  h.trans
    { Works.refl t with
      even := fun ⟨d, c, x, w, v, r⟩ => ⟨d, c, x, w, hr v, r⟩
      room := fun ⟨q, e, x⟩ => ⟨q, hl e, x⟩
      pool := State.poolOk_same rfl rfl (Nat.le_refl _) }

/-- The entries of the directory are replaced by ones that show the same chain and place. -/
theorem Works.setDir (d : Vector DirEntry 64) (hc : ∀ u : UnitId, t.poolOk → d[u].chainHead = t.dir[u].chainHead ∧
      d[u].liveCount = t.dir[u].liveCount) (hp : ∀ u : UnitId, t.dir[u].placed u d[u])
    (hr : ∀ u : UnitId, t.dir[u].revision.toNat % 2 = 0 → d[u].revision.toNat % 2 = 0) : Works s { t with dir := d } :=
  h.trans
    { Works.refl t with
      even := fun ⟨e, r⟩ => ⟨fun u => hr u (e u), r⟩
      pool := fun x => State.poolOk_congr x ⟨rfl, rfl, rfl, rfl, rfl, rfl, rfl⟩
        (fun u => ⟨(hc u x).1, (hc u x).2, fun y => (hp u y).1⟩) (Nat.le_refl _)
      tidy := fun _ ⟨x, v⟩ => ⟨x, fun u hu y z => v u hu (hp u y).1 ((hp u y).2 hu z)⟩ }

/-- A directory write that leaves the unit's chain as the pool holds it. -/
theorem Works.writeEntry_of (u : UnitId) (f : DirEntry → DirEntry) (hp : t.dir[u].placed u (f t.dir[u]))
    (hc : t.poolOk → (f t.dir[u]).chainHead = t.dir[u].chainHead ∧ (f t.dir[u]).liveCount = t.dir[u].liveCount) :
    Works s (t.writeEntry u f) := by
  unfold State.writeEntry
  dsimp only
  split
  · exact h
  · have get : ∀ v : UnitId, (t.dir.set u { f t.dir[u] with revision := t.dir[u].revision + 2 })[v] =
        if v = u then { f t.dir[u] with revision := t.dir[u].revision + 2 } else t.dir[v] := fun v => by
      simp only [Fin.getElem_fin, Vector.getElem_set, Fin.ext_iff, eq_comm]
    refine h.setDir _ (fun v x => ?_) (fun v => ?_) fun v x => ?_ <;> rw [get v] <;> split
    · next e => rw [e]; exact hc x
    · exact ⟨rfl, rfl⟩
    · next e => rw [e]; exact hp
    · exact fun x => ⟨x, fun _ y => y⟩
    · next e => rw [e] at x; exact even_add_two x
    · exact x

theorem Works.writeEntry (u : UnitId) (f : DirEntry → DirEntry) (hf : t.dir[u].stays u (f t.dir[u])) :
    Works s (t.writeEntry u f) :=
  h.writeEntry_of u f hf.placed fun _ => ⟨hf.chainHead, hf.liveCount⟩

end

end Sys2Proof.Machine
end

section
/-! SUPPORT. The shared operations on the clock, the slots, the self history, the pool's queue and the channels, as work. -/

namespace Sys2Proof.Machine

section
variable {s t : State} (h : Works s t)
include h

/-! ### Time -/

theorem Works.setTime (c : Clock) : Works s { t with clock := c } :=
  h.trans { Works.refl t with pool := State.poolOk_same rfl rfl (Nat.le_refl _) }

/-- A hold that has run out is latched without a write of its entry (R56). -/
theorem Works.latch (d : Vector DirEntry 64) (hd : ∀ u : UnitId, ∃ b, d[u] = { t.dir[u] with holdRunOut := b }) :
    Works s { t with dir := d } := by
  refine h.setDir d (fun u _ => ?_) (fun u => ?_) fun u x => ?_ <;> obtain ⟨b, hb⟩ := hd u <;> rw [hb]
  · exact ⟨rfl, rfl⟩
  · exact fun x => ⟨x, fun _ y => y⟩
  · exact x

theorem Works.setClock (c : Clock) : Works s (t.setClock c) := by
  refine (h.latch (vecMap (DirEntry.latchHold c) t.dir) fun u => ?_).setTime c
  rw [vecMap_get]
  unfold DirEntry.latchHold
  split
  · exact ⟨true, rfl⟩
  · exact ⟨_, rfl⟩

theorem Works.advanceTo (c : Clock) : Works s (t.advanceTo c) := Works.ite (fun _ => h) fun _ => h.setClock c

theorem Works.tick : Works s t.tick := Works.ite (fun _ => h) fun _ => h.setClock _

theorem Works.runOut (u : UnitId) : Works s (t.runOut u) := by
  refine h.latch _ fun v => ?_
  simp only [Fin.getElem_fin, Vector.getElem_set]
  split
  · next e => exact ⟨true, by simp only [e]⟩
  · exact ⟨_, rfl⟩

/-! ### The self history -/

/-- A change of the entries that adds none past the 64th (R63, R64). -/
theorem Works.changeSelf (es : List SelfEntry) (hl : t.self.entries.length ≤ 64 → es.length ≤ 64) :
    Works s (t.updSelf (SelfHistory.changed es)) := h.updSelf _ (fun x => even_add_two x) hl

theorem Works.logSelf (code : SelfCode) (mode : Byte) (active : Bool) : Works s (t.logSelf code mode active) := by
  unfold State.logSelf
  split
  · exact (h.changeSelf _ fun x => by rwa [List.length_map]).raiseAttn _
  · split
    · next x =>
      refine (h.changeSelf _ fun _ => ?_).raiseAttn _
      rw [List.length_append]
      exact x
    · exact h

theorem Works.logSelfNat (code : SelfCode) (mode : Nat) : Works s (t.logSelfNat code mode) := h.logSelf _ _ _

theorem Works.clearBusOffActive (c : ChanId) : Works s (t.clearBusOffActive c) :=
  Works.ite (fun _ => h.changeSelf _ fun x => by rwa [List.length_map]) fun _ => h

theorem Works.eraseSelf : Works s t.eraseSelf := h.updSelf _ (fun x => even_add_two x) fun _ => Nat.zero_le _

/-! ### Order slots -/

omit h in
/-- Words written to one slot leave the state word of another. -/
theorem slotState_putAll {n j : SlotId} (hj : j ≠ n) (l : List (Nat × Word)) (hl : ∀ p ∈ l, p.1 + 1 < 64) (m : Memory)
    (hm : m.wf = true) : slotState (putAll n l m) j = slotState m j := by
  induction l generalizing m with
  | nil => rfl
  | cons p l ih =>
    rw [putAll, ih (fun q hq => hl q (List.mem_cons_of_mem _ hq)) _ (Memory.wf_writeWord hm _ _),
      slotState_putSlot hm hj _ (hl p List.mem_cons_self)]

omit h in
/-- Completing a slot leaves the state of every other. -/
theorem State.completeSlot_other {n j : SlotId} (hj : j ≠ n) (final : Word) (r : OrderResult) (ed : Edition) {u : State}
    (hm : u.memOk) : slotState (u.completeSlot n final r ed).mem j = slotState u.mem j := by
  rw [show (u.completeSlot n final r ed).mem = putAll n (completePuts final r ed u.clock) u.mem from
    State.completeSlot_mem n final r ed u]
  refine slotState_putAll hj _ (fun p hp => ?_) _ hm
  simp only [completePuts, List.mem_cons, List.not_mem_nil, or_false] at hp
  rcases hp with rfl | rfl | rfl | rfl | rfl | rfl | rfl | rfl | rfl | rfl <;> norm_num

/-- Work on the order table and the attention bits alone, which leaves the slots as R164 asks. -/
theorem Works.slots {u : State} (hp : u.pending = t.pending) (hq : u.pool = t.pool) (hs : u.self = t.self)
    (hd : u.dir = t.dir) (hx : u.ctxs = t.ctxs) (hc : u.chans = t.chans) (hw : u.sweep = t.sweep) (hm : t.memOk → u.memOk)
    (ht : t.memOk → (∀ (n : SlotId) (x : Taken), t.orders.taken[n] = some x → slotState t.mem n = Config.stTaken) →
      ∀ (n : SlotId) (x : Taken), u.orders.taken[n] = some x → slotState u.mem n = Config.stTaken) : Works s u :=
  h.trans
    { pending := hp
      parity := fun x => by rw [State.parityOk, hq]; exact x
      mem := hm
      even := fun x => by rw [State.blocksEven, hd, hx, hc, hw, hs, hq]; exact x
      room := fun x => by rw [State.roomOk, hq, hs, hc]; exact x
      pool := State.poolOk_same hq hd (by rw [hw])
      tidy := fun m ⟨x, v⟩ => ⟨ht m x, by rw [hd]; exact v⟩
      ctxs := fun _ => by rw [hx]
      chans := fun _ => by rw [hc]
      sweep := by rw [hw] }

theorem Works.completeSlot (n : SlotId) (final : Word) (r : OrderResult) (ed : Edition) :
    Works s (t.completeSlot n final r ed) := by
  refine h.slots (by simp) (by simp) (by simp) (by simp) (by simp) (by simp) (by simp)
    (State.completeSlot_memOk n final r ed t) fun m x j y hy => ?_
  rw [State.completeSlot_taken] at hy
  split at hy
  · cases hy
  · next e => rw [State.completeSlot_other e final r ed m]; exact x j y hy

theorem Works.doneSlot (n : SlotId) (r : OrderResult) (ed : Edition) : Works s (t.doneSlot n r ed) := h.completeSlot _ _ _ _

theorem Works.refuseSlot (n : SlotId) (r : OrderRefusal) (word0 : Word) (ed : Edition) :
    Works s (t.refuseSlot n r word0 ed) := h.completeSlot _ _ _ _

theorem Works.doneNow (n : SlotId) (w0 w1 w2 w3 : Word) : Works s (t.doneNow n w0 w1 w2 w3) := h.doneSlot _ _ _

omit h in
theorem State.setTaken_get (n : SlotId) (x : Option Taken) (u : State) (j : SlotId) :
    (u.setTaken n x).orders.taken[j] = if j = n then x else u.orders.taken[j] := by
  simp only [State.setTaken_orders, Fin.getElem_fin, Vector.getElem_set, Fin.ext_iff, eq_comm]

theorem Works.takeSlot (n : SlotId) (o : Order) : Works s (t.takeSlot n o) := by
  refine h.slots (by simp) (by simp) (by simp) (by simp) (by simp) (by simp) (by simp)
    (fun m => Memory.wf_writeWord m _ _) fun m x j y hy => ?_
  have hmem : (t.takeSlot n o).mem = Memory.writeWord t.mem (slotAt n + Config.slotStateOff) Config.stTaken := rfl
  rw [hmem]
  by_cases e : j = n
  · rw [e]
    exact Memory.readWord_writeWord m _ _
  · rw [slotState_putSlot m e _ (by decide)]
    refine x j y ?_
    rw [State.takeSlot, State.setTaken_get, if_neg e] at hy
    exact hy

/-- The finished sweep's result goes to an order that is TAKEN. -/
theorem Works.handToOrder : Works s t.handToOrder := by
  refine h.slots (by simp) (by simp) (by simp) (by simp) (by simp) (by simp) (by simp) (fun m => by
    rw [State.memOk, (State.handToOrder_frame t).2.2.1]; exact m) fun m x j y hy => ?_
  rw [(State.handToOrder_frame t).2.2.1]
  have stays : ∀ y, t.orders.taken[j] = some y → slotState t.mem j = Config.stTaken := x j
  unfold State.handToOrder at hy
  split at hy
  · exact stays y hy
  · split at hy
    · exact stays y hy
    · next n _ z hz =>
      split at hy
      · rw [State.setTaken_get] at hy
        split at hy
        · next e => rw [e] at stays ⊢; exact stays z hz
        · exact stays y hy
      · exact stays y hy

theorem Works.completeUnitOrder (out : UnitOutcome) (n : SlotId) : Works s (t.completeUnitOrder out n) := by
  unfold State.completeUnitOrder
  split
  · split
    · exact h.doneSlot _ _ _
    · exact h.doneSlot _ _ _
    · exact h
  · exact h

theorem Works.completeUnitOrders (out : UnitOutcome) (slots : List SlotId) : Works s (t.completeUnitOrders out slots) :=
  h.forEach slots fun n _ k => k.completeUnitOrder out n

theorem Works.completeSweepOrder (ed : Edition) (n : SlotId) : Works s (t.completeSweepOrder ed n) := by
  unfold State.completeSweepOrder
  split
  · split
    · exact h.doneSlot _ _ _
    · exact h
  · exact h

/-! ### The pool's queue and policy -/

omit h in
/-- The collections of the pool with their counts (R5 to R7). -/
def Pool.collections (p : Pool) : Pool := { p with revision := 0, policy := .keep, reclaimed := 0, queue := [], waiting := [], op := none }

/-- An update of the pool that leaves its collections. -/
theorem Works.updPool (f : Pool → Pool) (hc : (f t.pool).collections = t.pool.collections)
    (hp : t.parityOk → (t.updPool f).parityOk)
    (hq : t.pool.queue.length ≤ 16 → (f t.pool).queue.length ≤ 16) : Works s (t.updPool f) := by
  have hr : (f t.pool).records = t.pool.records := show (f t.pool).collections.records = _ by rw [hc]; rfl
  exact h.trans
    { Works.refl t with
      parity := hp
      even := fun ⟨d, c, x, w, v, r⟩ => ⟨d, c, x, w, v, fun n => by rw [State.updPool_pool, hr]; exact r n⟩
      room := fun ⟨q, e, x⟩ => ⟨hq q, e, x⟩
      pool := fun x => State.poolOk_congr x
        ⟨hr, show (f t.pool).collections.freeTop = _ by rw [hc]; rfl, show (f t.pool).collections.freeCount = _ by rw [hc]; rfl,
          show (f t.pool).collections.retHead = _ by rw [hc]; rfl, show (f t.pool).collections.retTail = _ by rw [hc]; rfl,
          show (f t.pool).collections.retCount = _ by rw [hc]; rfl, show (f t.pool).collections.liveCount = _ by rw [hc]; rfl⟩
        (fun _ => ⟨rfl, rfl, id⟩) (Nat.le_refl _) }

theorem Works.needEdition : Works s t.needEdition :=
  Works.ite (fun _ => h.updSweep _ rfl (nextEdition_le _)) fun _ => h

theorem Works.offer (r : PoolRequest) : Works s (t.offer r) := by
  have admitted : ∀ {u : State}, Works s u → Works s (u.updPool (Pool.admitOrHold r)) := fun {u} k => by
    refine k.updPool _ ?_ (fun x => ?_) fun x => ?_
    · unfold Pool.admitOrHold; split <;> rfl
    · unfold State.parityOk State.updPool Pool.admitOrHold; split <;> exact x
    · unfold Pool.admitOrHold
      split
      · next y => rw [List.length_append]; exact y
      · exact x
  unfold State.offer
  refine Works.ite (fun _ => h) fun _ => admitted (Works.ite (fun _ => h.needEdition) fun _ => h)

/-- SET POOL: outside an operation its write is a step of the summary revision (R15, R24). -/
theorem Works.setPolicy (p : PoolPolicy) : Works s (t.updPool (Pool.setPolicy p)) := by
  refine h.updPool _ rfl (fun x => ?_) id
  unfold State.parityOk at x ⊢
  simp only [State.updPool_pool, Pool.setPolicy]
  rw [← x]
  split
  · bv_omega
  · rfl

theorem Works.keepPolicy : Works s (t.updPool Pool.keepPolicy) := by
  refine h.updPool _ ?_ (fun x => ?_) fun x => ?_ <;> unfold Pool.keepPolicy
  · split <;> rfl
  · unfold State.parityOk State.updPool at *
    dsimp only
    split
    · exact x
    · dsimp only
      rw [← x]
      bv_omega
  · split <;> exact x

/-- The beginning of an operation: the summary revision becomes odd with the operation (R13, R15). -/
theorem Works.begin (self : SelfHistory) (last : Edition) : Works s (t.updPool (Pool.begin self last)) := by
  refine h.updPool _ ?_ (fun x => ?_) fun x => ?_
  · unfold Pool.begin Pool.admitWaiting
    split
    · dsimp only
      split <;> rfl
    · rfl
  · unfold State.parityOk State.updPool Pool.begin at *
    dsimp only
    split
    · next e _ =>
      rw [e] at x
      simp only [Option.isSome_none, Bool.false_eq_true, iff_false, Option.isSome_some, iff_true] at x ⊢
      bv_omega
    · exact x
  · unfold Pool.begin Pool.admitWaiting
    split
    · next e =>
      rw [e] at x
      dsimp only
      split
      · exact Nat.le_of_succ_le x
      · rw [List.length_append]; exact x
    · exact x

end

end Sys2Proof.Machine
end

section
/-! SUPPORT. The operations of channels, contexts, sweeps and the allocator, as work. -/

namespace Sys2Proof.Machine

/-! ### Channels -/

section
variable {c d : Channel}

theorem Channel.stays_refl (c : Channel) : c.stays c := ⟨rfl, id⟩

theorem Channel.stays.trans {e : Channel} (h : c.stays d) (k : d.stays e) : c.stays e :=
  ⟨k.revision.trans h.revision, fun x => k.room (h.room x)⟩

/-- An update that leaves the revision and makes no queue, FIFO or credit count larger. -/
theorem Channel.stays_of_le (hr : d.revision = c.revision) (hq : d.txQueue.length ≤ c.txQueue.length)
    (hf : d.fifo.length ≤ c.fifo.length) (hp : d.pacer.credits ≤ c.pacer.credits) : c.stays d :=
  ⟨hr, fun ⟨x, y, z⟩ => ⟨hq.trans x, hf.trans y, hp.trans z⟩⟩

/-- An update that leaves the revision, the queue, the FIFO and the credits. -/
theorem Channel.stays_of_eq (hr : d.revision = c.revision) (hq : d.txQueue = c.txQueue)
    (hf : d.fifo = c.fifo) (hp : d.pacer.credits = c.pacer.credits) : c.stays d :=
  Channel.stays_of_le hr (by rw [hq]) (by rw [hf]) (by rw [hp])

theorem Channel.enqueue_stays (e : TxEntry) (c : Channel) : c.stays (c.enqueue e) := by
  unfold Channel.enqueue
  split
  · next x => exact ⟨rfl, fun y => ⟨by rw [List.length_append]; exact x, y.2⟩⟩
  · exact Channel.stays_of_eq rfl rfl rfl rfl

theorem Channel.admitOutside_stays (c : Channel) : c.stays c.admitOutside := by
  unfold Channel.admitOutside
  split
  · exact Channel.stays_refl c
  · split
    · next x => exact ⟨rfl, fun y => ⟨by rw [List.length_append]; exact x, y.2⟩⟩
    · exact Channel.stays_refl c

theorem Channel.stays.admitOutside (h : c.stays d) : c.stays d.admitOutside := h.trans (Channel.admitOutside_stays d)

theorem Channel.offerFrame_stays (e : TxEntry) (c : Channel) : c.stays (c.offerFrame e) := by
  unfold Channel.offerFrame
  split
  · exact Channel.stays_of_eq rfl rfl rfl rfl
  · exact Channel.enqueue_stays e c

theorem Channel.headLeaves_stays (c : Channel) : c.stays c.headLeaves := by
  unfold Channel.headLeaves
  split
  · exact Channel.stays_refl c
  · next rest hq =>
    dsimp only
    refine forEach_invariant c.stays _ (fun e x k => k.trans (Channel.enqueue_stays e x)) _ _ ?_
    exact Channel.stays.admitOutside
      (Channel.stays_of_le rfl (by rw [hq]; exact Nat.le_succ _) (Nat.le_refl _) (Nat.le_refl _))

theorem Channel.withdraw_stays (k : CtxId) (c : Channel) : c.stays (c.withdraw k) := by
  unfold Channel.withdraw
  split
  · exact Channel.stays_of_eq rfl rfl rfl rfl
  · next hq =>
    split
    · exact Channel.stays_of_le rfl (by rw [hq]; exact Nat.le_refl _) (Nat.le_refl _) (Nat.le_refl _)
    · split
      · exact Channel.stays.admitOutside
          (Channel.stays_of_le rfl (List.length_filter_le _ _) (Nat.le_refl _) (Nat.le_refl _))
      · exact Channel.stays_of_eq rfl rfl rfl rfl

theorem Channel.orphan_stays (k : CtxId) (c : Channel) : c.stays (c.orphan k) :=
  Channel.stays_of_le rfl (by rw [Channel.orphan, List.length_map]) (Nat.le_refl _) (Nat.le_refl _)

theorem Channel.freezeCtx_stays (k : CtxId) (c : Channel) : c.stays (c.freezeCtx k) :=
  Channel.stays.admitOutside (Channel.stays_of_le rfl (List.length_filter_le _ _) (Nat.le_refl _) (Nat.le_refl _))

theorem Channel.wake_stays (c : Channel) : c.stays c.wake :=
  (Channel.enqueue_stays c.wakeEntry c).trans (Channel.stays_of_eq rfl rfl rfl rfl)

theorem Channel.compareErrors_stays (c : Channel) : c.stays c.compareErrors := by
  unfold Channel.compareErrors
  (repeat' split) <;> exact Channel.stays_of_eq rfl rfl rfl rfl

theorem Channel.stays.compareErrors (h : c.stays d) : c.stays d.compareErrors := h.trans (Channel.compareErrors_stays d)

theorem Channel.sentOk_stays (c : Channel) : c.stays c.sentOk := Channel.stays.compareErrors (Channel.stays_of_eq rfl rfl rfl rfl)
theorem Channel.receivedOk_stays (c : Channel) : c.stays c.receivedOk :=
  Channel.stays.compareErrors (Channel.stays_of_eq rfl rfl rfl rfl)
theorem Channel.receiveError_stays (c : Channel) : c.stays c.receiveError :=
  Channel.stays.compareErrors (Channel.stays_of_eq rfl rfl rfl rfl)
theorem Channel.sendError_stays (c : Channel) : c.stays c.sendError :=
  Channel.stays.compareErrors (Channel.stays_of_eq rfl rfl rfl rfl)

theorem Channel.headFails_stays (c : Channel) : c.stays c.headFails := by
  unfold Channel.headFails
  split
  · exact Channel.stays_refl c
  · next hq =>
    split
    · exact Channel.headLeaves_stays c
    · exact Channel.stays_of_le rfl (by rw [hq]; exact Nat.le_refl _) (Nat.le_refl _) (Nat.le_refl _)

theorem Channel.beginHead_stays (c : Channel) : c.stays c.beginHead := by
  unfold Channel.beginHead
  split
  · exact Channel.stays_refl c
  · next hq => exact Channel.stays_of_le rfl (by rw [hq]; exact Nat.le_refl _) (Nat.le_refl _) (Nat.le_refl _)

theorem Channel.countFrame_stays (f : Frame) (c : Channel) : c.stays (c.countFrame f) := Channel.stays_of_eq rfl rfl rfl rfl

theorem Channel.pushFifo_stays (f : Frame) (c : Channel) : c.stays (c.pushFifo f) := by
  unfold Channel.pushFifo
  split
  · next x => exact ⟨rfl, fun ⟨y, _, z⟩ => ⟨y, by rw [List.length_append]; exact x, z⟩⟩
  · next x =>
    dsimp only
    split
    · exact Channel.stays_of_eq rfl rfl rfl rfl
    · refine Channel.stays_of_le rfl (Nat.le_refl _) ?_ (Nat.le_refl _)
      rw [List.length_append, List.length_tail, List.length_singleton]
      simp only [Config.fifoDepth] at x
      omega

theorem Channel.countStray_stays (c : Channel) : c.stays c.countStray := Channel.stays_of_eq rfl rfl rfl rfl

theorem Channel.wakeSent_stays (now : Clock) (settle : Nat) (c : Channel) : c.stays (c.wakeSent now settle) := by
  unfold Channel.wakeSent
  (repeat' split) <;> exact Channel.stays_of_eq rfl rfl rfl rfl

theorem Channel.applyPacing_stays (v : PacingSettings) (c : Channel) : c.stays (c.applyPacing v) := by
  refine Channel.stays_of_eq rfl rfl rfl ?_
  unfold Channel.applyPacing
  dsimp only
  split <;> rfl

theorem Channel.startRate_stays (now : Clock) (v : ChanSettings) (c : Channel) : c.stays (c.startRate now v) :=
  Channel.stays_of_le rfl (Nat.zero_le _) (Nat.zero_le _) (Nat.zero_le _)

theorem Channel.stopRate_stays (v : ChanSettings) (c : Channel) : c.stays (c.stopRate v) :=
  Channel.stays_of_le rfl (Nat.zero_le _) (Nat.zero_le _) (Nat.zero_le _)

theorem Channel.enterBusOff_stays (now : Clock) (c : Channel) : c.stays (c.enterBusOff now) :=
  Channel.stays_of_le rfl (Nat.zero_le _) (Nat.zero_le _) (Nat.zero_le _)

theorem Channel.fresh_stays (c : Channel) : c.stays (Channel.fresh c.revision) :=
  Channel.stays_of_le rfl (Nat.zero_le _) (Nat.zero_le _) (Nat.zero_le _)

theorem Channel.stays.startWindow (h : c.stays d) (t : Clock) : c.stays (d.startWindow t) := h.trans (Channel.stays_of_eq rfl rfl rfl rfl)

/-- The fields that a measured window writes, whatever their values (R130). -/
theorem Channel.load_stays (load frames target : Nat) (c : Channel) :
    c.stays { c with lastLoad := load, lastFrames := frames, pacer := { c.pacer with target := target } } :=
  Channel.stays_of_eq rfl rfl rfl rfl

theorem Channel.measure_stays (t : Clock) (c : Channel) : c.stays (c.measure t) :=
  Channel.stays.startWindow (Channel.load_stays _ _ _ c) t

/-- Credits are issued up to their cap (R136). -/
theorem Pacer.issue_credits (p : Pacer) : p.issue.credits ≤ 64 := Nat.min_le_left Config.creditCap _

theorem Channel.pacerTick_stays (t : Clock) (c : Channel) : c.stays (c.pacerTick t) := by
  constructor
  · rfl
  · intro x
    obtain ⟨hq, hf, hp⟩ := x
    refine ⟨hq, hf, ?_⟩
    unfold Channel.pacerTick
    dsimp only
    split
    · exact Pacer.issue_credits _
    · exact hp

end

section
variable {s t : State} (h : Works s t)
include h

theorem Works.updPacer (c : ChanId) (f : Pacer → Pacer)
    (hf : (f t.chans[c].pacer).credits ≤ t.chans[c].pacer.credits) : Works s (t.updPacer c f) :=
  h.updChan c _ (Channel.stays_of_le rfl (Nat.le_refl _) (Nat.le_refl _) hf)

/-! ### Contexts -/

theorem Works.sendFrame (k : CtxId) (kind : TxKind) : Works s (t.sendFrame k kind) :=
  (h.updChan _ _ (Channel.offerFrame_stays _ _)).updCtx k _ rfl

theorem Works.placeGranted (k : CtxId) : Works s (t.placeGranted k) := (h.updCtx k _ rfl).sendFrame k _

theorem Works.serveLine (ch : ChanId) (n : Nat) : Works s (t.serveLine ch n) := by
  induction n generalizing t with
  | zero => exact h
  | succ n ih =>
    unfold State.serveLine
    split
    · exact h
    · split
      · exact h
      · split
        · exact ih ((h.updPacer ch _ (Nat.sub_le _ _)).placeGranted _)
        · exact h

theorem Works.serve (ch : ChanId) : Works s (t.serve ch) := h.serveLine ch _

theorem Works.joinLine (k : CtxId) (need : Nat) : Works s (t.joinLine k need) := by
  have join := (h.updCtx k (fun c => { c with creditNeed := need }) rfl).updPacer t.ctxs[k].channel
    (fun p => { p with line := p.line ++ [k] }) (Nat.le_refl _)
  exact Works.ite (fun _ => join.serve _) fun _ => join

theorem Works.quitLine (k : CtxId) : Works s (t.quitLine k) :=
  Works.ite (fun _ => (h.updCtx k _ rfl).updPacer _ _ (Nat.le_refl _)) fun _ => h

theorem Works.leaveLine (k : CtxId) : Works s (t.leaveLine k) :=
  Works.ite (fun _ => (h.quitLine k).serve _) fun _ => h.quitLine k

theorem Works.withdrawFrame (k : CtxId) : Works s (t.withdrawFrame k) :=
  (h.updChan _ _ (Channel.withdraw_stays _ _)).updCtx k _ rfl

theorem Works.detach (k : CtxId) : Works s (t.detach k) := ((h.withdrawFrame k).leaveLine k).updCtx k _ rfl

theorem Works.freeContext (k : CtxId) : Works s (t.freeContext k) :=
  (h.updChan _ _ (Channel.orphan_stays _ _)).updCtx k _ rfl

theorem Works.sweepTake (u : UnitId) (out : UnitOutcome) : Works s (t.sweepTake u out) := by
  refine Works.ite (fun _ => ?_) fun _ => h
  refine (h.writeEntry u _ ⟨rfl, rfl, fun x => ⟨x, fun _ y => ?_⟩⟩).updSweep _ rfl (Nat.le_refl _)
  cases out <;> exact SweepMark.noConfusion y

theorem Works.skipPending (u : UnitId) : Works s (t.skipPending u) :=
  Works.ite (fun _ => (h.writeEntry u _ ⟨rfl, rfl, fun x => ⟨x, fun _ y => SweepMark.noConfusion y⟩⟩).updSweep _ rfl
    (Nat.le_refl _)) fun _ => h

theorem Works.offerDelist (u : UnitId) : Works s (t.offerDelist u) := by
  unfold State.offerDelist
  split
  · split
    · exact (h.skipPending u).offer _
    · exact h.skipPending u
  · exact h

omit h in
/-- An ending never leaves an entry VACANT. -/
theorem endState_ne_vacant {next : UnitState} (e : DirEntry) (hn : next ≠ .vacant) : endState next e ≠ .vacant := by
  unfold endState
  split
  · decide
  · exact hn

omit h in
theorem DirEntry.placed_of_ne {u : UnitId} {e e' : DirEntry} (h : e'.state ≠ .vacant) : e.placed u e' := fun x => absurd x h

omit h in
theorem DirEntry.endRead_ne_vacant (out : UnitOutcome) (ed : Edition) (e : DirEntry) : (e.endRead out ed).state ≠ .vacant := by
  refine endState_ne_vacant e ?_
  cases out <;> decide

/-- A read request's end without a commit; `g` changes nothing of the chain. -/
theorem Works.endRequestWith {g : DirEntry → DirEntry} (hg : ∀ e, (g e).chainHead = e.chainHead ∧ (g e).liveCount = e.liveCount)
    (u : UnitId) (out : UnitOutcome) : Works s (t.endRequestWith g u out) := by
  have write := h.writeEntry u (fun e => DirEntry.endRead out t.sweep.openEdition (g e))
    ⟨(hg _).1, (hg _).2, DirEntry.placed_of_ne (DirEntry.endRead_ne_vacant _ _ _)⟩
  have faulty := Works.ite (p := out = .unitFaulty) (fun _ => write.logSelfNat .unitFaulty u.val) fun _ => write
  exact Works.ite (fun _ => faulty.logSelfNat _ _) fun _ => faulty

theorem Works.endRequest (u : UnitId) (out : UnitOutcome) : Works s (t.endRequest u out) :=
  h.endRequestWith (fun _ => ⟨rfl, rfl⟩) u out

theorem Works.endReadAs {g : DirEntry → DirEntry} (hg : ∀ e, (g e).chainHead = e.chainHead ∧ (g e).liveCount = e.liveCount)
    (k : CtxId) (out told : UnitOutcome) : Works s (t.endReadAs g k out told) :=
  ((((h.endRequestWith hg _ out).freeContext k).sweepTake _ told).completeUnitOrders out _).offerDelist _

theorem Works.endRead (k : CtxId) (out : UnitOutcome) : Works s (t.endRead k out) :=
  h.endReadAs (fun _ => ⟨rfl, rfl⟩) k out out

theorem Works.endErase (k : CtxId) (out : UnitOutcome) : Works s (t.endErase k out) :=
  (((h.writeEntry _ _ ⟨rfl, rfl, DirEntry.placed_of_ne (endState_ne_vacant (next := .idle) _ (by decide))⟩).freeContext
    k).completeUnitOrders out _).offerDelist _

theorem Works.endContext (k : CtxId) (out : UnitOutcome) : Works s (t.endContext k out) := by
  unfold State.endContext
  split
  · exact h.endRead k out
  · exact h.endErase k out

theorem Works.endCommitting (k : CtxId) (out : UnitOutcome) : Works s (t.endCommitting k out) := by
  unfold State.endCommitting
  dsimp only
  split
  · exact (((h.freeContext k).sweepTake _ out).completeUnitOrders out _).offerDelist _
  · exact ((h.freeContext k).completeUnitOrders out _).offerDelist _

theorem Works.stopContext (k : CtxId) : Works s (t.stopContext k) := by
  unfold State.stopContext
  split
  · exact (h.detach k).endContext k _
  · exact ((h.detach k).updCtx k _ rfl).sendFrame k _
  · exact ((h.detach k).updCtx k _ rfl).sendFrame k _
  · exact ((h.detach k).updCtx k _ rfl).sendFrame k _
  all_goals exact h

theorem Works.loseStopped (k : CtxId) : Works s (t.loseStopped k) := by
  unfold State.loseStopped
  split
  · exact h.endReadAs (fun _ => ⟨rfl, rfl⟩) k _ _
  · exact h.endErase k _

theorem Works.loseContext (ch : ChanId) (k : CtxId) : Works s (t.loseContext ch k) := by
  unfold State.loseContext
  split
  · split
    · exact h.endContext k _
    · exact h.endContext k _
    · exact h.endContext k _
    · exact h.endContext k _
    · exact h.loseStopped k
    · exact h
    · exact h
  · exact h

theorem Works.loseContexts (ch : ChanId) : Works s (t.loseContexts ch) := h.forEach _ fun k _ x => x.loseContext ch k

theorem Works.clearWaits (ch : ChanId) : Works s (t.clearWaits ch) :=
  h.forEach _ fun k _ x => Works.ite (fun _ => x.updCtx k _ rfl) fun _ => x

theorem Works.restart (k : CtxId) : Works s (t.restart k) := by
  have count := (h.detach k).writeEntry t.ctxs[k].target (fun e => { e with restartCount := satSucc 7 e.restartCount })
    (DirEntry.stays_of_eq rfl rfl rfl rfl)
  exact Works.ite (fun _ => (count.updCtx k _ rfl).joinLine k _) fun _ => count.endRead k _

theorem Works.startMending (k : CtxId) (round : Nat) : Works s (t.startMending k round) :=
  Works.ite (fun _ => (h.updCtx k _ rfl).sendFrame k _) fun _ => (h.updCtx k _ rfl).joinLine k _

theorem Works.offerCommit (k : CtxId) : Works s (t.offerCommit k) := (h.updCtx k _ rfl).offer _

theorem Works.completionTest (k : CtxId) : Works s (t.completionTest k) := by
  have stop := h.updCtx k Context.stopTimer rfl
  exact Works.ite (fun _ => Works.ite (fun _ => (stop.updCtx k _ rfl).joinLine k _) fun _ => stop.offerCommit k) fun _ =>
    Works.ite (fun _ => stop.startMending k _) fun _ => stop.restart k

theorem Works.markMalformed (k : CtxId) : Works s (t.markMalformed k) := h.writeEntry _ _ (DirEntry.stays_of_eq rfl rfl rfl rfl)

/-! ### Sweeps -/

/-- The mark at a sweep's start: no VACANT entry but unit 0 becomes PENDING (R147). -/
theorem Works.markUnit (mask : BitVec 4) (u : UnitId) : Works s (t.markUnit mask u) := by
  have start : u ≠ 0 → t.dir[u].state = .vacant → (t.startMark mask u).1 = .none := fun hu hv => by
    unfold State.startMark
    rw [if_neg hu]
    exact congrArg Prod.fst (if_pos hv)
  have write := h.writeEntry u (fun e =>
      { e with mark := (t.startMark mask u).1
               lastOutcome := if (t.startMark mask u).2 = .faulty then .faultySkipped else e.lastOutcome })
    ⟨rfl, rfl, fun x => ⟨x, fun hu y => SweepMark.noConfusion ((start hu x).symm.trans y)⟩⟩
  unfold State.markUnit
  dsimp only
  split
  · exact write
  · exact write.updSweep _ rfl (Nat.le_refl _)
  · exact write.updSweep _ rfl (Nat.le_refl _)

theorem Works.wakeChannel (ch : ChanId) : Works s (t.wakeChannel ch) :=
  Works.ite (fun _ => h.updChan ch _ (Channel.wake_stays _)) fun _ => h

theorem Works.startSweep (origin : SweepOrigin) (mask : BitVec 4) (budget : Nat) :
    Works s (t.startSweep origin mask budget) := by
  have begun := h.needEdition.updSweep (fun w =>
    { w with state := .running, origin := origin, outcome := .none, mask := mask, budget := budget,
             edition := w.openEdition, startClock := t.needEdition.clock, endClock := 0, tallies := Tallies.zero,
             budgetTimer := if budget = 0 then none else some (clockAfter t.needEdition.clock (budget * 1000)) })
    rfl (Nat.le_refl _)
  have marked := begun.forEach allUnits fun u _ x => x.markUnit mask u
  have woken := marked.forEach allChans fun c _ x => x.wakeChannel c
  exact Works.ite (fun _ => woken.offer _) fun _ => woken

theorem Works.withdrawHeld (u : UnitId) : Works s (t.withdrawHeld u) :=
  Works.ite (fun _ => h.endRequest u _) fun _ => h

theorem Works.drainUnit (u : UnitId) : Works s (t.drainUnit u) :=
  Works.ite (fun _ => (h.skipPending u).withdrawHeld u) fun _ => h

theorem Works.stopSweep : Works s t.stopSweep :=
  ((h.forEach _ fun k _ x => x.quitLine k).forEach _ fun k _ x => x.stopContext k).forEach _ fun c _ x => x.serve c

theorem Works.enterDraining (out : SweepOutcome) : Works s (t.enterDraining out) := by
  have drained := ((h.updSweep (fun w => { w with state := .draining, outcome := out, budgetTimer := none }) rfl
    (Nat.le_refl _)).forEach allUnits fun u _ x => x.drainUnit u).stopSweep
  exact Works.ite (fun _ => drained.logSelf _ _ _) fun _ => drained

theorem Works.finishSweep : Works s t.finishSweep := by
  have done := (h.updSweep (fun w =>
    { w with state := .idle, outcome := if w.state = .draining then w.outcome else .complete, endClock := t.clock,
             budgetTimer := none }) rfl (Nat.le_refl _)).handToOrder
  exact Works.ite (fun _ => (done.updSweep _ rfl (Nat.le_refl _)).startSweep _ _ _) fun _ => done

theorem Works.sweepTest : Works s t.sweepTest := Works.ite (fun _ => h.finishSweep) fun _ => h

theorem Works.closeTest : Works s t.closeTest :=
  Works.ite (fun _ => ((h.updSweep _ rfl (Nat.le_refl _)).raiseAttn _).forEach _ fun n _ x => x.completeSweepOrder _ n)
    fun _ => h

/-! ### The allocator -/

omit h in
theorem DirEntry.assigned_stays (u : UnitId) (p : Purpose) (e : DirEntry) : e.stays u (e.assigned p) := by
  unfold DirEntry.assigned
  split
  · exact ⟨rfl, rfl, DirEntry.placed_of_ne nofun⟩
  · split
    · exact ⟨rfl, rfl, DirEntry.placed_of_ne nofun⟩
    · exact ⟨rfl, rfl, DirEntry.placed_of_ne nofun⟩

theorem Works.assign (k : CtxId) (u : UnitId) (p : Purpose) : Works s (t.assign k u p) :=
  ((h.writeEntry u _ (DirEntry.assigned_stays u p _)).updCtx k _ rfl).joinLine k _

theorem Works.allocate (n : Nat) : Works s (t.allocate n) :=
  State.allocate_induct (Works s) (fun k u p _ _ _ x => x.assign k u p) n t h

theorem Works.settle : Works s t.settle := (((h.sweepTest).sweepTest).closeTest).allocate 8

end

end Sys2Proof.Machine
end

section
/-! SUPPORT. The commands of channels, of the order table, of the staging port and of the windows, as work. -/

namespace Sys2Proof.Machine

section
variable {s t : State} (h : Works s t)
include h

/-! ### Channel events -/

theorem Works.receiveFrame (ch : ChanId) (f : Frame) : Works s (t.receiveFrame ch f) := by
  have counted := h.updChan ch (fun c => (c.receivedOk).countFrame f)
    ((Channel.receivedOk_stays _).trans (Channel.countFrame_stays f _))
  have pushed := counted.updChan ch (Channel.pushFifo f) (Channel.pushFifo_stays f _)
  exact Works.ite (fun _ => Works.ite (fun _ => pushed.logSelfNat _ _) fun _ => pushed) fun _ => counted

theorem Works.busOff (ch : ChanId) : Works s (t.busOff ch) := by
  have off := (h.updChan ch _ (Channel.enterBusOff_stays t.clock _)).clearWaits ch
  exact ((Works.ite (fun _ => off) fun _ => off.loseContexts ch).logSelf _ _ _).raiseAttn _

theorem Works.transmitError (ch : ChanId) (kind : TxErrorKind) : Works s (t.transmitError ch kind) :=
  Works.ite (fun _ => h.updChan ch _ (Channel.headFails_stays _)) fun _ =>
    Works.ite (fun _ => h.busOff ch) fun _ =>
      h.updChan ch _ ((Channel.sendError_stays _).trans (Channel.headFails_stays _))

theorem Works.tellSender (k : CtxId) (kind : TxKind) : Works s (t.tellSender k kind) := by
  unfold State.tellSender
  refine h.updCtx k _ ?_
  dsimp only
  split
  · rfl
  · unfold Context.windowFor
    split <;> rfl

theorem Works.afterSent (ch : ChanId) (e : TxEntry) : Works s (t.afterSent ch e) := by
  unfold State.afterSent
  split
  · exact Works.ite (fun _ => h.tellSender _ _) fun _ => h
  · exact h.updChan ch _ (Channel.wakeSent_stays _ _ _)

theorem Works.frameSent (ch : ChanId) : Works s (t.frameSent ch) := by
  unfold State.frameSent
  split
  · exact h
  · exact (h.updChan ch _ (((Channel.sentOk_stays _).trans (Channel.countFrame_stays _ _)).trans
      (Channel.headLeaves_stays _))).afterSent ch _

theorem Works.pacingTick (ch : ChanId) (c : Clock) : Works s (t.pacingTick ch c) := by
  have ticked := (h.advanceTo c).updChan ch _ (Channel.pacerTick_stays c _)
  exact Works.ite (fun _ => ticked.serve ch) fun _ => ticked

/-! ### Orders -/

theorem Works.loseHeld (ch : ChanId) (u : UnitId) : Works s (t.loseHeld ch u) :=
  Works.ite (fun _ => h.endRequest u _) fun _ => h

theorem Works.setChannelOff (ch : ChanId) (v : ChanSettings) : Works s (t.setChannelOff ch v) := by
  have off := ((h.updChan ch _ (Channel.stopRate_stays v _)).clearWaits ch).loseContexts ch
  exact (off.forEach allUnits fun u _ x => x.loseHeld ch u).completeUnitOrders _ _

theorem Works.applySetChannel (ch : ChanId) (v : ChanSettings) : Works s (t.applySetChannel ch v) := by
  have set := Works.ite (p := v.bitRate = .off) (fun _ => h.setChannelOff ch v) fun _ =>
    h.updChan ch _ (Channel.startRate_stays t.clock v _)
  exact Works.ite (fun _ => set.clearBusOffActive ch) fun _ => set

/-- ENLIST UNIT on a VACANT entry, which has no chain (R51, R53). -/
theorem Works.enlist (u : UnitId) (ch : ChanId) (a : Byte) (label : Word) (cls : Fin 4) (hv : t.dir[u].state = .vacant) :
    Works s (t.writeEntry u (DirEntry.enlisted ch a label cls)) := by
  refine h.writeEntry_of u _ (DirEntry.placed_of_ne nofun) fun ⟨chain, f, q, x⟩ => ?_
  have empty := x.vacant u hv
  have head := x.onChain u
  have count := x.chainCount u
  rw [empty] at head count
  exact ⟨head.symm, count.symm⟩

theorem Works.joinRead (n : SlotId) (u : UnitId) : Works s (t.joinRead n u) := by
  unfold State.joinRead
  split
  · exact Works.ite (fun _ => h.updCtx _ _ rfl) fun _ => h
  · exact h

theorem Works.takeRead (n : SlotId) (u : UnitId) : Works s (t.takeRead n u) := by
  have taken := h.needEdition.takeSlot n (.readUnit u)
  exact Works.ite (fun _ => taken.offer _) fun _ => taken.joinRead n u

theorem Works.takeErase (n : SlotId) (u : UnitId) : Works s (t.takeErase n u) := by
  have taken := h.needEdition.takeSlot n (.eraseUnit u)
  exact Works.ite (fun _ => taken.eraseSelf.offer _) fun _ => taken

theorem Works.endWaiting (u : UnitId) (wasHeld : Bool) : Works s (t.endWaiting u wasHeld) := by
  have ended := (Works.ite (p := wasHeld = true) (fun _ => h.endRequest u .stopped) fun _ => h)
  unfold State.endWaiting
  dsimp only
  split
  · exact Works.ite (fun _ => ended.completeUnitOrders _ _) fun _ => (ended.completeUnitOrders _ _).skipPending u
  · exact ended.completeUnitOrders _ _

theorem Works.takeDelist (n : SlotId) (u : UnitId) : Works s (t.takeDelist n u) := by
  have waited := (((Works.ite (p := (t.servedBy u).isNone = true) (fun _ => h.needEdition) fun _ => h).takeSlot n
    (.delistUnit u)).writeEntry u (fun e => { e with state := .delisting, holdRunOut := false })
    ⟨rfl, rfl, DirEntry.placed_of_ne nofun⟩).endWaiting u (decide (t.dir[u].state = .held))
  unfold State.takeDelist
  dsimp only
  split
  · exact waited.stopContext _
  · exact waited.offerDelist u

theorem Works.takeSweep (n : SlotId) (mask : BitVec 4) (budget : Nat) : Works s (t.takeSweep n mask budget) :=
  (h.needEdition.takeSlot n _).startSweep _ mask budget

theorem Works.freezeCtx (k : CtxId) : Works s (t.freezeCtx k) := by
  have frozen := h.updChan t.ctxs[k].channel _ (Channel.freezeCtx_stays k _)
  exact Works.ite (fun _ => h) fun _ => Works.ite (fun _ => frozen) fun _ => frozen.updCtx k _ rfl

theorem Works.resetTaken : Works s (t.updSweep SweepCtl.resetTaken) := h.updSweep _ rfl (Nat.le_refl _)

theorem Works.takeReset (n : SlotId) : Works s (t.takeReset n) :=
  (((h.takeSlot n .resetPart).updOrders (fun o => { o with resetting := some n, scanHalt := none }) rfl).forEach _ fun k _ x =>
    x.freezeCtx k).resetTaken

/-- Every order a pass takes: an ENLIST UNIT that passed its checks finds its entry VACANT (R166, R171). -/
theorem Works.take (n : SlotId) (o : Order) (hj : ∀ u ch a label cls, o = .enlistUnit u ch a label cls → t.dir[u].state = .vacant) :
    Works s (t.take n o) := by
  unfold State.take
  split
  · exact ((h.updOrders _ rfl).updPort _).doneNow n _ _ _ _
  · exact h.takeReset n
  · exact (h.applySetChannel _ _).doneNow n _ _ _ _
  · exact (h.updChan _ _ (Channel.applyPacing_stays _ _)).doneNow n _ _ _ _
  · exact (h.setTiming _).doneNow n _ _ _ _
  · exact (h.updSweep _ rfl (Nat.le_refl _)).doneNow n _ _ _ _
  · exact (h.setPolicy _).doneNow n _ _ _ _
  · exact (h.enlist _ _ _ _ _ (hj _ _ _ _ _ rfl)).doneNow n _ _ _ _
  · exact h.takeDelist n _
  · exact h.takeSweep n _ _
  · exact h.takeRead n _
  · exact h.takeErase n _
  · exact (h.updSweep _ rfl (Nat.le_refl _)).doneNow n _ _ _ _
  · exact (h.updSweep _ rfl (Nat.le_refl _)).doneNow n _ _ _ _
  · exact (h.enterDraining _).doneNow n _ _ _ _
  · exact (h.takeSlot n _).offer _

/-! ### Answers of units -/

/-- What a frame does once it has left its FIFO. -/
theorem Works.portPass (ch : ChanId) (f : Frame) (rest : List Frame) {g : CtxId → Frame → State → State}
    (hg : ∀ k f u, Works s u → Works s (g k f u)) (hf : t.chans[ch].fifo = f :: rest) : Works s (t.portPass ch f rest g) := by
  have left := (h.updChan ch (fun c => { c with fifo := rest })
    (Channel.stays_of_le rfl (Nat.le_refl _) (by rw [hf]; exact Nat.le_succ _) (Nat.le_refl _))).setPortLast ch
  exact Works.ite (fun _ => hg _ _ _ left) fun _ => left.updChan ch _ (Channel.countStray_stays _)

theorem Works.meet (kind : RxKind) {g : CtxId → Frame → State → State} (k : CtxId) (f : Frame)
    (hg : Works s (g k f t)) : Works s (State.meet kind g k f t) :=
  Works.ite (fun _ => Works.ite (fun _ => h.endContext k _) fun _ => h) fun _ =>
    Works.ite (fun _ => h.markMalformed k) fun _ => hg

theorem Works.grantOpening (k : CtxId) (f : Frame) : Works s (t.grantOpening k f) := by
  refine Works.ite (fun _ => h.restart k) fun _ => Works.ite (fun _ => h.markMalformed k) fun _ =>
    Works.ite (fun _ => (h.detach k).updCtx k _ ?_) fun _ => h.markMalformed k
  unfold Context.grant
  dsimp only
  split <;> rfl

theorem Works.grantCompared (k : CtxId) (f : Frame) : Works s (t.grantCompared k f) :=
  Works.ite (fun _ => h.restart k) fun _ => Works.ite (fun _ => h) fun _ => h.markMalformed k

theorem Works.takeGrant (k : CtxId) (f : Frame) : Works s (t.takeGrant k f) := by
  unfold State.takeGrant
  split
  · exact h.markMalformed k
  · exact h.grantOpening k f
  · exact h.grantCompared k f
  · exact h.grantCompared k f
  all_goals exact h

omit h in
theorem DirEntry.heldFor_stays (u : UnitId) (c : Clock) (e : DirEntry) : e.stays u (e.heldFor c) :=
  ⟨rfl, rfl, DirEntry.placed_of_ne nofun⟩

theorem Works.holdRead (k : CtxId) (f : Frame) : Works s (t.holdRead k f) := by
  have left := h.detach k
  exact Works.ite (fun _ => (left.writeEntry _ _ (DirEntry.heldFor_stays _ _ _)).freeContext k) fun _ =>
    left.endReadAs (g := DirEntry.countHold) (fun _ => ⟨rfl, rfl⟩) k .heldOut .heldOut

omit h in
theorem Context.startTimer_revision (now : Clock) (kind : WindowKind) (ms : Nat) (c : Context) :
    (c.startTimer now kind ms).revision = c.revision := rfl

theorem Works.holdErase (k : CtxId) (f : Frame) : Works s (t.holdErase k f) := by
  have counted := (h.detach k).writeEntry t.ctxs[k].target DirEntry.countHold (DirEntry.stays_of_eq rfl rfl rfl rfl)
  unfold State.holdErase
  exact Works.ite (fun _ => counted.updCtx k _ (Context.startTimer_revision _ _ _ _)) fun _ => counted.endErase k _

theorem Works.takeHold (k : CtxId) (f : Frame) : Works s (t.takeHold k f) := by
  unfold State.takeHold
  split
  · exact Works.ite (fun _ => h.holdErase k f) fun _ => h.markMalformed k
  · exact Works.ite (fun _ => h.holdRead k f) fun _ => h.markMalformed k
  · exact Works.ite (fun _ => h.holdRead k f) fun _ => h.markMalformed k
  all_goals exact h

theorem Works.storeHalf (k : CtxId) (f : Frame) (g : Place → Place) : Works s (t.storeHalf k f g) := by
  refine Works.ite (fun _ => h) fun _ => Works.ite (fun _ => h.updCtx k _ ?_) fun _ => h.markMalformed k
  have set : ∀ c : Context, (c.setPlace f.entryIndex g).revision = c.revision := fun c => by
    unfold Context.setPlace
    split <;> rfl
  unfold Context.restartGap
  split
  · exact set _
  · exact set _

theorem Works.takeHalf (g : Frame → Place → Place) (k : CtxId) (f : Frame) : Works s (State.takeHalf g k f t) := by
  unfold State.takeHalf
  split
  · exact h.markMalformed k
  · exact h.storeHalf k f _
  · exact h.storeHalf k f _
  all_goals exact h

theorem Works.closeSegment (k : CtxId) (f : Frame) : Works s (t.closeSegment k f) :=
  Works.ite (fun _ => h.restart k) fun _ => Works.ite (fun _ => h.markMalformed k) fun _ =>
    Works.ite (fun _ => h) fun _ => h.completionTest k

theorem Works.takeClose (k : CtxId) (f : Frame) : Works s (t.takeClose k f) := by
  unfold State.takeClose
  split
  · exact h.markMalformed k
  · exact h.closeSegment k f
  · exact h.closeSegment k f
  all_goals exact h

theorem Works.takeErased (k : CtxId) (f : Frame) : Works s (t.takeErased k f) := by
  unfold State.takeErased
  split
  · exact h.markMalformed k
  · exact ((h.detach k).updCtx k _ rfl).offer _

/-! ### Expiries -/

theorem Works.resend (k : CtxId) (need : Nat) : Works s (t.resend k need) := (h.updCtx k _ rfl).joinLine k need

theorem Works.mendSilence (k : CtxId) : Works s (t.mendSilence k) :=
  Works.ite (fun _ => h.startMending k _) fun _ => h.restart k

theorem Works.answerExpired (k : CtxId) : Works s (t.answerExpired k) := by
  unfold State.answerExpired
  split
  · exact Works.ite (fun _ => h.resend k _) fun _ => Works.ite (fun _ => h.endRead k _) fun _ => h.restart k
  · exact Works.ite (fun _ => h.resend k _) fun _ => h.endErase k _
  · exact h.mendSilence k
  all_goals exact h

theorem Works.gapExpired (k : CtxId) : Works s (t.gapExpired k) := by
  unfold State.gapExpired
  split
  · exact h.startMending k _
  · exact h.mendSilence k
  all_goals exact h

theorem Works.stopExpired (k : CtxId) : Works s (t.stopExpired k) := Works.ite (fun _ => h.endContext k _) fun _ => h

theorem Works.holdExpired (k : CtxId) : Works s (t.holdExpired k) := (h.updCtx k _ rfl).joinLine k _

theorem Works.scheduleDue : Works s t.scheduleDue :=
  Works.ite (fun _ => h) fun _ => Works.ite (fun _ => h.startSweep _ _ _) fun _ => h.updSweep _ rfl (Nat.le_refl _)

theorem Works.scanExpired : Works s t.scanExpired := (h.advanceTo _).updOrders _ rfl

/-! ### The end of an engine reset -/

theorem Works.resetChannel (ch : ChanId) : Works s (t.resetChannel ch) := by
  have fresh := h.updChan ch (fun c => Channel.fresh c.revision) (Channel.fresh_stays _)
  exact Works.ite (fun _ => fresh.clearBusOffActive ch) fun _ => fresh

theorem Works.abortSlot (n : SlotId) : Works s (t.abortSlot n) := by
  unfold State.abortSlot
  split
  · exact Works.ite (fun _ => h) fun _ => h.refuseSlot _ _ _ _
  · exact h

theorem Works.resetOrders (n : SlotId) : Works s (t.resetOrders n) :=
  (((h.forEach _ fun n _ x => x.abortSlot n).doneSlot n _ _).updOrders _ rfl).raiseAttn _

omit h in
theorem DirEntry.resetStep_stays (u : UnitId) (e : DirEntry) : e.stays u e.resetStep := by
  have idle : ∀ x : DirEntry, x.state = .idle → x.chainHead = e.chainHead → x.liveCount = e.liveCount → e.stays u x :=
    fun x hs hc hl => ⟨hc, hl, DirEntry.placed_of_ne (by rw [hs]; decide)⟩
  have unmark : e.stays u { e with mark := .none } := ⟨rfl, rfl, fun x => ⟨x, fun _ y => SweepMark.noConfusion y⟩⟩
  unfold DirEntry.resetStep
  split
  · exact idle _ rfl rfl rfl
  · exact idle _ rfl rfl rfl
  · exact idle _ rfl rfl rfl
  · exact idle _ rfl rfl rfl
  all_goals exact unmark

theorem Works.resetClose : Works s t.resetClose :=
  Works.ite (fun _ => h) fun _ => (h.updSweep _ rfl (Nat.le_refl _)).raiseAttn _

theorem Works.resetEnd (now : Clock) : Works s (t.updSweep (SweepCtl.resetEnd now)) := by
  refine h.updSweep _ ?_ ?_ <;> unfold SweepCtl.resetEnd <;> split
  · rfl
  · rfl
  · exact Nat.le_refl _
  · exact Nat.le_refl _

theorem Works.resetContexts : Works s t.resetContexts := h.forEach _ fun k _ x => x.updCtx k _ rfl

theorem Works.resetPort : Works s { t with portLast := 3, timing := Timing.fresh } := (h.setPortLast 3).setTiming _

theorem Works.resetEntries : Works s (Machine.forEach allUnits (fun u s => s.writeEntry u DirEntry.resetStep) t) :=
  h.forEach _ fun u _ x => x.writeEntry u _ (DirEntry.resetStep_stays u _)

theorem Works.resetSteps (n : SlotId) : Works s (t.resetSteps n) := by
  have channels := h.resetContexts.forEach allChans fun c _ x => x.resetChannel c
  unfold State.resetSteps
  exact (((channels.resetPort).resetEnd _).resetClose).resetEntries.keepPolicy.resetOrders n

end

end Sys2Proof.Machine
end

section
/-! SUPPORT. The pool's operations run to their end, as work: the revisions of the records, the read list's order, the collections
(R3, R30), and the summary's parity (R15). -/

namespace Sys2Proof.Machine

/-! ### The revisions of the records (R3) -/

/-- Every record's revision is even. -/
def recordsEven (rs : Vector FaultRecord 1536) : Prop := ∀ r : RecId, rs[r].revision.toNat % 2 = 0

theorem nextRecordRevision_even {r : BitVec 8} (h : r.toNat % 2 = 0) : (nextRecordRevision r).toNat % 2 = 0 := by
  unfold nextRecordRevision
  split
  · rfl
  · exact even_add_two h

section
variable {w : PoolWork} (h : recordsEven w.records)
include h

theorem PoolWork.writeRecord_even (r : RecId) (f : FaultRecord → FaultRecord) : recordsEven (w.writeRecord r f).records := by
  intro j
  rw [PoolWork.writeRecord_get]
  split
  · exact nextRecordRevision_even (h r)
  · exact h j

theorem PoolWork.setNext_even (prev next : Option RecId) : recordsEven (w.setNext prev next).records := by
  unfold PoolWork.setNext
  split
  · exact PoolWork.writeRecord_even h _ _
  · exact h

theorem PoolWork.retire_even (st : RecState) (ed : Edition) (r : RecId) : recordsEven (w.retire st ed r).records := by
  have stamped := PoolWork.writeRecord_even h r fun x => { x with state := st, changed := ed, retired := ed, link := none }
  unfold PoolWork.retire
  dsimp only
  split
  · exact stamped
  · exact PoolWork.writeRecord_even stamped _ _

theorem PoolWork.retireAll_even (st : RecState) (ed : Edition) (fuel : Nat) : recordsEven (w.retireAll st ed fuel).records := by
  induction fuel generalizing w with
  | zero => exact h
  | succ fuel ih =>
    unfold PoolWork.retireAll
    split
    · exact h
    · next r _ => exact ih (PoolWork.retire_even (w := { w with chainHead := w.records[r].link }) h _ _ _)

theorem PoolWork.releaseUpTo_even (applied : Edition) (fuel : Nat) : recordsEven (w.releaseUpTo applied fuel).records := by
  induction fuel generalizing w with
  | zero => exact h
  | succ fuel ih =>
    unfold PoolWork.releaseUpTo
    split
    · exact h
    · split
      · refine ih fun j => ?_
        simp only [PoolWork.freeHead, Fin.getElem_fin, Vector.getElem_set]
        split
        · rfl
        · exact h j
      · exact h

omit h in
theorem PoolWork.alloc_records {policy : PoolPolicy} {r : RecId} {v : PoolWork} (h : w.alloc policy = some (r, v)) :
    v.records = w.records := by
  unfold PoolWork.alloc at h
  split at h
  · cases h; rfl
  · split at h
    · cases h; rfl
    · cases h

theorem PoolWork.create_even (policy : PoolPolicy) (u : UnitId) (ed : Edition) (e : ReadEntry) (prev next : Option RecId) :
    recordsEven (w.create policy u ed e prev next).2.records := by
  rw [PoolWork.create_eq]
  split
  · exact h
  · next hv =>
    rw [← PoolWork.alloc_records hv] at h
    exact PoolWork.setNext_even (PoolWork.writeRecord_even h _ _) _ _

theorem PoolWork.update_even (ed : Edition) (e : ReadEntry) (r : RecId) : recordsEven (w.update ed e r).records := by
  unfold PoolWork.update
  split
  · exact h
  · exact PoolWork.writeRecord_even h _ _

theorem PoolWork.lapse_even (ed : Edition) (prev : Option RecId) (r : RecId) : recordsEven (w.lapse ed prev r).records :=
  PoolWork.retire_even (PoolWork.setNext_even h _ _) _ _ _

theorem PoolWork.merge_even (policy : PoolPolicy) (u : UnitId) (ed : Edition) (fuel : Nat) (entries : List ReadEntry)
    (prev cur : Option RecId) : recordsEven (w.merge policy u ed fuel entries prev cur).records := by
  induction fuel generalizing entries prev cur w with
  | zero => exact h
  | succ fuel ih =>
    cases entries with
    | nil =>
      cases cur with
      | none => exact h
      | some r => exact ih (PoolWork.lapse_even h _ _ _) _ _ _
    | cons e rest =>
      cases cur with
      | none => exact ih (PoolWork.create_even h _ _ _ _ _ _) _ _ _
      | some r =>
        rw [PoolWork.merge]
        dsimp only
        split
        · exact ih (PoolWork.update_even h _ _ _) _ _ _
        · split
          · exact ih (PoolWork.create_even h _ _ _ _ _ _) _ _ _
          · exact ih (PoolWork.lapse_even h _ _ _) _ _ _

theorem PoolWork.reconcile_even (policy : PoolPolicy) (u : UnitId) (entry : DirEntry) (epoch : Byte) (ed : Edition)
    (entries : List ReadEntry) : recordsEven (w.reconcile policy u entry epoch ed entries).records := by
  refine PoolWork.merge_even ?_ _ _ _ _ _ _ _
  unfold PoolWork.epochStep
  split
  · exact h
  · exact PoolWork.retireAll_even h _ _ _

end

/-! ### The read list ascends (R29, R30) -/

/-- Two identities, neither the other, stand in one order or the other. -/
theorem identLt_total {a b : ReadEntry} (hne : a.sameIdent b = false) (h : identLt a.code a.mode b.code b.mode = false) :
    identLt b.code b.mode a.code a.mode = true := by
  simp only [ReadEntry.sameIdent, identLt, Bool.and_eq_false_iff, Bool.or_eq_false_iff, Bool.or_eq_true, Bool.and_eq_true,
    decide_eq_false_iff_not, decide_eq_true_eq, beq_iff_eq, beq_eq_false_iff_ne] at *
  by_cases hc : a.code = b.code
  · right
    refine ⟨hc.symm, ?_⟩
    have hm : a.mode.toNat ≠ b.mode.toNat := fun x => (hne.resolve_left fun y => y hc) (BitVec.eq_of_toNat_eq x)
    have := h.2.resolve_left fun y => y hc
    omega
  · left
    have : a.code.toNat ≠ b.code.toNat := fun x => hc (BitVec.eq_of_toNat_eq x)
    omega

theorem ReadEntry.sameIdent_comm (a b : ReadEntry) : a.sameIdent b = b.sameIdent a := by
  unfold ReadEntry.sameIdent
  rw [BEq.comm, BEq.comm (a := a.mode)]

/-- Screening leaves no identity twice, and none already seen. -/
theorem screenFrom_distinct (seen l : List ReadEntry) :
    (screenFrom seen l).Pairwise (fun a b => a.sameIdent b = false) ∧
      ∀ e ∈ screenFrom seen l, ∀ x ∈ seen, e.sameIdent x = false := by
  induction l generalizing seen with
  | nil => exact ⟨List.Pairwise.nil, fun _ h => absurd h List.not_mem_nil⟩
  | cons e l ih =>
    unfold screenFrom
    split
    · exact ih seen
    · next h =>
      obtain ⟨distinct, fresh⟩ := ih (e :: seen)
      push Not at h
      refine ⟨List.pairwise_cons.mpr ⟨fun x hx => ?_, distinct⟩, fun x hx y hy => ?_⟩
      · rw [ReadEntry.sameIdent_comm]
        exact fresh x hx e List.mem_cons_self
      · rcases List.mem_cons.mp hx with rfl | hx
        · exact List.any_eq_false.mp (Bool.not_eq_true _ ▸ h.2) y hy |> fun z => Bool.not_eq_true _ ▸ z
        · exact fresh x hx y (List.mem_cons_of_mem _ hy)

theorem mem_insertEntry {e x : ReadEntry} {l : List ReadEntry} : x ∈ insertEntry e l ↔ x = e ∨ x ∈ l := by
  induction l with
  | nil => simp [insertEntry]
  | cons y l ih =>
    unfold insertEntry
    split
    · simp only [List.mem_cons, ih]
      tauto
    · simp only [List.mem_cons]

theorem insertEntry_ascending {e : ReadEntry} {l : List ReadEntry} (he : ∀ x ∈ l, e.sameIdent x = false)
    (hl : l.Pairwise fun a b => identLt a.code a.mode b.code b.mode = true) :
    (insertEntry e l).Pairwise fun a b => identLt a.code a.mode b.code b.mode = true := by
  induction l with
  | nil => exact List.pairwise_singleton _ _
  | cons x l ih =>
    obtain ⟨hx, hl'⟩ := List.pairwise_cons.mp hl
    unfold insertEntry
    split
    · next hlt =>
      refine List.pairwise_cons.mpr ⟨fun y hy => ?_, ih (fun y hy => he y (List.mem_cons_of_mem _ hy)) hl'⟩
      rcases mem_insertEntry.mp hy with rfl | hy
      · exact hlt
      · exact hx y hy
    · next hlt =>
      have first : identLt e.code e.mode x.code x.mode = true := by
        refine identLt_total ?_ (Bool.not_eq_true _ ▸ hlt)
        rw [ReadEntry.sameIdent_comm]
        exact he x List.mem_cons_self
      refine List.pairwise_cons.mpr ⟨fun y hy => ?_, hl⟩
      rcases List.mem_cons.mp hy with rfl | hy
      · exact first
      · exact identLt_trans first (hx y hy)

theorem mem_foldr_insertEntry {x : ReadEntry} {l : List ReadEntry} : x ∈ l.foldr insertEntry [] ↔ x ∈ l := by
  induction l with
  | nil => rfl
  | cons e l ih => rw [List.foldr_cons, mem_insertEntry, ih, List.mem_cons]

/-- The read list stands in strictly ascending identity. -/
theorem readList_ascending (l : List ReadEntry) :
    (readList l).Pairwise fun a b => identLt a.code a.mode b.code b.mode = true := by
  have distinct := (screenFrom_distinct [] l).1
  unfold readList screen
  generalize screenFrom [] l = entered at distinct ⊢
  induction entered with
  | nil => exact List.Pairwise.nil
  | cons e l ih =>
    obtain ⟨he, hl⟩ := List.pairwise_cons.mp distinct
    exact insertEntry_ascending (fun x hx => he x (mem_foldr_insertEntry.mp hx)) (ih hl)

/-! ### The end of an operation -/

theorem State.finishPool_pool (w : PoolWork) (s : State) : (s.finishPool w).pool = Pool.finish w s.pool := by
  unfold State.finishPool
  dsimp only
  split <;> rfl

theorem State.finishPool_pending (w : PoolWork) (s : State) : (s.finishPool w).pending = s.pending := by
  unfold State.finishPool
  dsimp only
  split <;> rfl

/-- What holds of every entry and of the entry written holds of every entry after a write. -/
theorem State.writeEntry_forall {P : UnitId → DirEntry → Prop} {s : State} {u : UnitId} {f : DirEntry → DirEntry}
    (h : ∀ v : UnitId, P v s.dir[v]) (hu : P u { f s.dir[u] with revision := s.dir[u].revision + 2 }) (v : UnitId) :
    P v (s.writeEntry u f).dir[v] := by
  rw [State.writeEntry_get]
  split
  · next x => rw [x.1]; exact hu
  · exact h v

/-- An entry for which no sweep waits while it is VACANT (R51, R147). -/
def DirEntry.unawaited (e : DirEntry) : Prop := e.state = .vacant → e.mark ≠ .pending

section
variable {s t : State} (h : Works s t)
include h

/-- An operation ends: one directory write, the summary's new values, its revision even again (R15). -/
theorem Works.endOperation (w : PoolWork) (u : UnitId) (D : DirEntry → DirEntry) (hop : t.pool.op.isSome = true)
    (he : recordsEven t.pool.records → recordsEven w.records) (hd : t.dir[u].unawaited → (D t.dir[u]).unawaited)
    (hp : t.poolOk → ((t.writeEntry u D).finishPool w).poolOk) : Works s ((t.writeEntry u D).finishPool w) := by
  obtain ⟨v, hv⟩ : ∃ v, v = (t.writeEntry u D).finishPool w := ⟨_, rfl⟩
  obtain ⟨fdir, fmem, forders, fctxs, _, fself, fchans, fsweep⟩ := State.finishPool_frame w (t.writeEntry u D)
  have fpool := State.finishPool_pool w (t.writeEntry u D)
  have fpending := State.finishPool_pending w (t.writeEntry u D)
  obtain ⟨_, _, emem, eorders, esweep, eself, epool, ectxs, _, echans, _, epending⟩ := State.writeEntry_frame u D t
  rw [← hv] at fdir fmem forders fctxs fself fchans fsweep fpool fpending hp ⊢
  rw [epool] at fpool
  refine h.trans
    { pending := fpending.trans epending
      parity := fun x => ?_
      mem := fun x => by rw [State.memOk, fmem, emem]; exact x
      even := fun ⟨d, c, x, y, z, r⟩ => ?_
      room := fun x => by rw [State.roomOk, fpool, fself, eself, fchans, echans]; exact x
      pool := hp
      tidy := fun _ ⟨x, y⟩ => ?_
      ctxs := fun _ => by rw [fctxs, ectxs]
      chans := fun _ => by rw [fchans, echans]
      sweep := by rw [fsweep, esweep] }
  · unfold State.parityOk at x ⊢
    rw [fpool]
    simp only [Pool.finish, Option.isSome_none, Bool.false_eq_true, iff_false]
    have odd := x.mpr hop
    bv_omega
  · unfold State.blocksEven
    rw [fdir, fctxs, ectxs, fchans, echans, fsweep, esweep, fself, eself, fpool]
    exact ⟨State.writeEntry_forall (P := fun _ e => e.revision.toNat % 2 = 0) d (even_add_two (d u)), c, x, y, z, he r⟩
  · unfold State.tidy
    rw [forders, eorders, fmem, emem, fdir]
    refine ⟨x, State.writeEntry_forall (P := fun v e => v ≠ 0 → e.unawaited) y fun hu => hd (y u hu)⟩

theorem Works.logExhausted (w : PoolWork) : Works s (t.logExhausted w) := by
  have reclaimed := Works.ite (p := w.reclaimed ≠ 0) (fun _ => h.logSelfNat .poolExhausted 1) fun _ => h
  exact Works.ite (fun _ => reclaimed.logSelfNat _ _) fun _ => reclaimed

end

/-- The collections after an operation on one unit's chain, whose entry takes the chain it leaves (R4 to R8). -/
theorem State.poolOk_operation {t : State} {chain : UnitId → List RecId} {f q c' f' q' : List RecId} {u : UnitId} {w : PoolWork}
    {D : DirEntry → DirEntry} (h : t.poolHolds chain f q)
    (hw : w.sound t.pool.records (otherChains chain u).length (chain u ++ f ++ q) u t.sweep.counter c' f' q')
    (hc : (D t.dir[u]).chainHead = w.chainHead) (hl : (D t.dir[u]).liveCount = w.chainCount)
    (hv : (D t.dir[u]).state = .vacant → c' = []) : ((t.writeEntry u D).finishPool w).poolOk := by
  obtain ⟨fdir, _, _, _, _, _, _, fsweep⟩ := State.finishPool_frame w (t.writeEntry u D)
  have fpool := State.finishPool_pool w (t.writeEntry u D)
  refine State.poolHolds_of_sound h hw (by rw [fpool]; rfl) (by rw [fpool]; rfl) (by rw [fpool]; rfl) (by rw [fpool]; rfl)
    (by rw [fpool]; rfl) (by rw [fpool]; rfl) (by rw [fpool]; rfl) ?_ ?_ ?_ (fun v hvu => ?_) ?_
  · rw [fdir, State.writeEntry_congr u D t (·.chainHead) fun _ _ => rfl]
    exact hc
  · rw [fdir, State.writeEntry_congr u D t (·.liveCount) fun _ _ => rfl]
    exact hl
  · rw [fdir, State.writeEntry_congr u D t (·.state) fun _ _ => rfl]
    exact hv
  · rw [fdir, State.writeEntry_get, if_neg fun x => hvu x.1]
    exact ⟨rfl, rfl, id⟩
  · rw [fsweep, (State.writeEntry_frame u D t).2.2.2.2.1]

/-! ### The five operations -/

section
variable {s t : State} (h : Works s t) (hop : t.pool.op.isSome = true)
include h hop

/-- A commit's directory and pool work, of a context or of the self history (R28, R39, R42). -/
theorem Works.commitEnds (policy : PoolPolicy) (u : UnitId) (gen : Word) (epoch : Byte) (total : Nat)
    (truncated malformed : Bool) (entries : List ReadEntry) :
    Works s ((t.writeEntry u (DirEntry.committed gen epoch total truncated malformed t.sweep.counter
      (t.commitWork policy u epoch entries))).finishPool (t.commitWork policy u epoch entries)) := by
  have ne : ∀ w e, (DirEntry.committed gen epoch total truncated malformed t.sweep.counter w e).state ≠ .vacant :=
    fun _ e => endState_ne_vacant (next := .idle) e (by decide)
  refine h.endOperation _ u _ hop (fun x => PoolWork.reconcile_even (w := PoolWork.start t.pool t.dir[u]) x _ _ _ _ _ _)
    (fun _ y => absurd y (ne _ _)) fun ⟨chain, f, q, x⟩ => ?_
  obtain ⟨c', f', q', sound⟩ := PoolWork.reconcile_sound policy t.dir[u] epoch (readList entries)
    (State.poolHolds_start x u) (readList_ascending entries)
  exact State.poolOk_operation x sound rfl rfl fun y => absurd y (ne _ _)

/-- The directory and pool work of an operation that retires its unit's whole chain (R44, R46). -/
theorem Works.retireEnds (st : RecState) (hst : st = .cleared ∨ st = .lapsed ∨ st = .delisted) (u : UnitId)
    (D : DirEntry → DirEntry) (hc : (D t.dir[u]).chainHead = none) (hl : (D t.dir[u]).liveCount = 0)
    (hd : (D t.dir[u]).unawaited) : Works s ((t.writeEntry u D).finishPool (t.retireWork st u)) := by
  refine h.endOperation _ u D hop (fun x => PoolWork.retireAll_even (w := PoolWork.start t.pool t.dir[u]) x _ _ _) (fun _ => hd)
    fun ⟨chain, f, q, x⟩ => ?_
  have start := State.poolHolds_start x u
  have fuel : (chain u).length < walkFuel 0 := by
    have := nodup_length (List.nodup_append.mp (List.nodup_append.mp start.holds.nodup).1).1
    simp only [walkFuel, Config.poolSize]
    omega
  have sound := PoolWork.retireAll_sound st hst (walkFuel 0) start fuel
  have head : (t.retireWork st u).chainHead = none := sound.holds.onChain
  have count : (t.retireWork st u).chainCount = 0 := sound.chainCount
  exact State.poolOk_operation x sound (hc.trans head.symm) (hl.trans count.symm) fun _ => rfl

theorem Works.runCommit (policy : PoolPolicy) (k : CtxId) (u : UnitId) (gen : Word) (epoch : Byte) (total : Nat) (trunc : Bool) :
    Works s (t.runCommit policy k u gen epoch total trunc) := by
  have ended := (h.commitEnds hop policy u gen epoch total
    (trunc || (t.commitWork policy u epoch (stagedEntries t.ctxs[k].staging total)).failed)
    (screenDrops (stagedEntries t.ctxs[k].staging total)) (stagedEntries t.ctxs[k].staging total)).logExhausted
      (t.commitWork policy u epoch (stagedEntries t.ctxs[k].staging total))
  unfold State.runCommit
  exact (Works.ite (fun _ => ended.logSelfNat _ _) fun _ => ended).endCommitting k _

theorem Works.runSelfCommit (policy : PoolPolicy) (hist : SelfHistory) (origin : SelfOrigin) :
    Works s (t.runSelfCommit policy hist origin) := by
  have ended := (h.commitEnds hop policy 0 hist.generation hist.epoch hist.entries.length
    (t.commitWork policy 0 hist.epoch (snapshotEntries hist)).failed false (snapshotEntries hist)).logExhausted
      (t.commitWork policy 0 hist.epoch (snapshotEntries hist))
  unfold State.runSelfCommit State.reportSelf
  dsimp only
  split
  · exact ended.sweepTake 0 _
  · exact ended.completeUnitOrder _ _

theorem Works.runEraseClear (u : UnitId) (gen : Word) (epoch : Byte) (n : SlotId) (ctx : Option CtxId) :
    Works s (t.runEraseClear u gen epoch n ctx) := by
  have ended := h.retireEnds hop .cleared (.inl rfl) u (DirEntry.eraseCleared gen epoch) rfl rfl
    fun x => absurd x (endState_ne_vacant (next := .idle) _ (by decide))
  unfold State.runEraseClear
  dsimp only
  split
  · exact ended.endCommitting _ _
  · exact ended.completeUnitOrder _ _

theorem Works.runDelistRetire (u : UnitId) (n : SlotId) : Works s (t.runDelistRetire u n) := by
  have ended := h.retireEnds hop .delisted (.inr (.inr rfl)) u DirEntry.vacated rfl rfl fun _ => SweepMark.noConfusion
  exact ended.doneSlot _ _ _

theorem Works.runRelease (applied : Edition) (n : SlotId) : Works s (t.runRelease applied n) := by
  have same : t.writeEntry 0 id = t := if_pos rfl
  have ended := h.endOperation (t.releaseWork applied) 0 id hop
    (fun x => PoolWork.releaseUpTo_even (w := PoolWork.start t.pool DirEntry.vacant) x _ _) id fun x => ?_
  · rw [same] at ended
    exact ended.doneSlot _ _ _
  · have fpool := State.finishPool_pool (t.releaseWork applied) t
    obtain ⟨fdir, _, _, _, _, _, _, fsweep⟩ := State.finishPool_frame (t.releaseWork applied) t
    rw [same]
    refine State.poolOk_release applied x rfl (by rw [fpool]; exact ⟨rfl, rfl, rfl, rfl, rfl, rfl, rfl⟩) (fun v => ?_)
      (by rw [fsweep])
    rw [fdir]
    exact ⟨rfl, rfl, id⟩

end

end Sys2Proof.Machine
end

section
/-! SUPPORT. The end of an event: the stamp of the revisions, and what follows at once, after which nothing is left undone. -/

namespace Sys2Proof.Machine

/-! ### The stamp -/

/-- From `s` to `t` each context view, channel's block and the sweep record has been written at most once, and only if it shows
something else (R92, R131, R145). -/
structure WrittenOnce (s t : State) : Prop where
  ctxs : ∀ k : CtxId, t.ctxs[k].revision = s.ctxs[k].revision + (if t.ctxView k = s.ctxView k then 0 else 2)
  chans : ∀ c : ChanId, t.chans[c].revision = s.chans[c].revision + (if t.chans[c].view = s.chans[c].view then 0 else 2)
  sweep : t.sweep.revision = s.sweep.revision + (if t.sweep.view = s.sweep.view then 0 else 2)

theorem WrittenOnce.refl (s : State) : WrittenOnce s s where
  ctxs _ := by rw [if_pos rfl]; exact (BitVec.add_zero _).symm
  chans _ := by rw [if_pos rfl]; exact (BitVec.add_zero _).symm
  sweep := by rw [if_pos rfl]; exact (BitVec.add_zero _).symm

/-- A view does not show its revision. -/
theorem State.stamp_ctxView (s t : State) (k : CtxId) : (State.stamp s t).ctxView k = t.ctxView k := by
  obtain ⟨r, hr⟩ : ∃ r, State.stampCtx s t k = { t.ctxs[k] with revision := r } := by
    unfold State.stampCtx
    split
    · exact ⟨_, rfl⟩
    · exact ⟨_, rfl⟩
  simp only [State.ctxView, State.stamp_ctx, hr, State.stamp_dir]
  rfl

theorem stampChan_view (c d : Channel) : (stampChan c d).view = d.view := by
  unfold stampChan
  split <;> rfl

theorem stampSweep_view (c d : SweepCtl) : (stampSweep c d).view = d.view := by
  unfold stampSweep
  split <;> rfl

/-- The stamp steps each of these revisions once. -/
theorem Works.writtenOnce {s t : State} (h : Works s t) : WrittenOnce s (State.stamp s t) where
  ctxs k := by
    rw [State.stamp_ctxView, State.stamp_ctx, State.stampCtx]
    split
    · exact (h.ctxs k).trans (BitVec.add_zero _).symm
    · exact congrArg (· + 2) (h.ctxs k)
  chans c := by
    rw [State.stamp_chan, stampChan_view, stampChan]
    split
    · exact (h.chans c).trans (BitVec.add_zero _).symm
    · exact congrArg (· + 2) (h.chans c)
  sweep := by
    rw [State.stamp_sweep, stampSweep_view, stampSweep]
    split
    · exact h.sweep.trans (BitVec.add_zero _).symm
    · exact congrArg (· + 2) h.sweep

theorem WrittenOnce.even {s t : State} (h : WrittenOnce s t) :
    ((∀ k : CtxId, s.ctxs[k].revision.toNat % 2 = 0) → ∀ k : CtxId, t.ctxs[k].revision.toNat % 2 = 0) ∧
    ((∀ c : ChanId, s.chans[c].revision.toNat % 2 = 0) → ∀ c : ChanId, t.chans[c].revision.toNat % 2 = 0) ∧
    (s.sweep.revision.toNat % 2 = 0 → t.sweep.revision.toNat % 2 = 0) := by
  have step : ∀ (r : BitVec 8) (p : Prop) [Decidable p], r.toNat % 2 = 0 → (r + if p then 0 else 2).toNat % 2 = 0 := by
    intro r p _ hr
    split
    · exact (BitVec.add_zero r).symm ▸ hr
    · exact even_add_two hr
  exact ⟨fun x k => h.ctxs k ▸ step _ _ (x k), fun x c => h.chans c ▸ step _ _ (x c), fun x => h.sweep ▸ step _ _ x⟩

theorem State.stamp_roomOk {s t : State} (h : t.roomOk) : (State.stamp s t).roomOk := by
  obtain ⟨hq, he, hc⟩ := h
  refine ⟨hq, he, fun c => ?_⟩
  rw [State.stamp_chan, stampChan]
  split
  · exact hc c
  · exact hc c

theorem State.stamp_poolOk {s t : State} (h : t.poolOk) : (State.stamp s t).poolOk :=
  State.poolOk_same (s := t) rfl rfl (le_of_eq (State.stamp_sweep_congr s t (·.counter.toNat) fun _ _ => rfl).symm) h

/-- Work closed by the stamp keeps the invariants of a run. -/
theorem Works.stamp {s t : State} (h : Works s t) : Keeps s (State.stamp s t) where
  pending := h.pending
  parity := h.parity
  mem := h.mem
  even x := by
    have w := h.writtenOnce.even
    obtain ⟨hd, _, _, _, hs, hr⟩ := h.even x
    obtain ⟨_, hk, hc, hw, _, _⟩ := x
    exact ⟨hd, w.1 hk, w.2.1 hc, w.2.2 hw, hs, hr⟩
  room x := State.stamp_roomOk (h.room x)
  pool x := State.stamp_poolOk (h.pool x)
  tidy := h.tidy

/-! ### Nothing left undone -/

/-- What leaves the sweep's state, the open edition and the marks alone, and ends no order or request of an edition, leaves
nothing undone. -/
theorem State.settled_congr {s t : State} (hs : t.sweep.state = s.sweep.state)
    (ho : t.sweep.openEdition = s.sweep.openEdition) (hm : ∀ u : UnitId, t.dir[u].mark = s.dir[u].mark)
    (hk : t.nothingKeeps → s.nothingKeeps) (h : s.settled) : t.settled := by
  obtain ⟨hw, he⟩ := h
  refine ⟨fun x => ?_, fun x y z => ?_⟩
  · obtain ⟨u, hu⟩ := hw (hs ▸ x)
    exact ⟨u, (hm u).trans hu⟩
  · exact he (ho ▸ x) (hs ▸ y) (hk z)

theorem State.nothingKeeps_congr {s t : State} (ho : t.orders.taken = s.orders.taken) (hp : t.pool = s.pool)
    (h : t.nothingKeeps) : s.nothingKeeps := by
  unfold State.nothingKeeps at *
  rwa [ho, hp] at h

theorem State.settled_same {s t : State} (hs : t.sweep.state = s.sweep.state)
    (ho : t.sweep.openEdition = s.sweep.openEdition) (hd : t.dir = s.dir)
    (hq : t.orders.taken = s.orders.taken) (hp : t.pool = s.pool) (h : s.settled) : t.settled :=
  State.settled_congr hs ho (fun u => by rw [show t.dir[u] = s.dir[u] by rw [hd]]) (State.nothingKeeps_congr hq hp) h

theorem State.stamp_settled {s t : State} (h : t.settled) : (State.stamp s t).settled :=
  State.settled_same (State.stamp_sweep_congr s t (·.state) fun _ _ => rfl)
    (State.stamp_sweep_congr s t (·.openEdition) fun _ _ => rfl) rfl rfl rfl h

theorem State.anyPending_iff (s : State) : s.anyPending = true ↔ ∃ u : UnitId, s.dir[u].mark = .pending := by
  simp [State.anyPending, allUnits]

theorem Order.keepsEdition_cases {o : Order} (h : o.keepsEdition = true) :
    ∃ u, o = .readUnit u ∨ o = .eraseUnit u ∨ o = .delistUnit u := by
  unfold Order.keepsEdition at h
  split at h
  · exact ⟨_, .inl rfl⟩
  · exact ⟨_, .inr (.inl rfl)⟩
  · exact ⟨_, .inr (.inr rfl)⟩
  · cases h

/-- With nothing that keeps it, an edition is ready for its close once the sweep is IDLE (R157). -/
theorem State.closeReady_of {s : State} (hk : s.nothingKeeps) (ho : s.sweep.openEdition ≠ 0) (hs : s.sweep.state = .idle) :
    s.closeReady = true := by
  obtain ⟨hord, hreq, hop⟩ := hk
  have h1 : s.orderKeepsEdition = false := by
    unfold State.orderKeepsEdition
    rw [List.any_eq_false]
    intro n _
    split
    · next x hx =>
      intro hk
      obtain ⟨u, hu⟩ := Order.keepsEdition_cases hk
      obtain ⟨hr, he, hd⟩ := hord n x u hx
      exact hu.elim hr fun hu => hu.elim he hd
    · decide
  have hrel : ∀ r ∈ s.pool.queue ++ s.pool.waiting, r.ofEdition = false := by
    intro r hr
    obtain ⟨e, n, rfl⟩ := hreq r hr
    rfl
  have h2 : s.requestKeepsEdition = false := by
    unfold State.requestKeepsEdition
    simp only [Bool.or_eq_false_iff, List.any_eq_false, Bool.not_eq_true]
    refine ⟨⟨fun r hr => hrel r (List.mem_append_left _ hr), fun r hr => hrel r (List.mem_append_right _ hr)⟩, ?_⟩
    split
    · next o ho =>
      obtain ⟨e, n, hn⟩ := hop o ho
      rw [hn]
      rfl
    · rfl
  simpa [State.closeReady, h1, h2, hs] using ho

/-! ### What the tests leave -/

/-- The sweep either is IDLE or waits for some unit (R150, R153). -/
def State.sweepOk (s : State) : Prop := s.sweep.state ≠ .idle → s.anyPending = true

theorem State.needEdition_autoDue (s : State) : s.needEdition.sweep.autoDue = s.sweep.autoDue := by
  unfold State.needEdition
  split <;> rfl

theorem State.offer_autoDue (r : PoolRequest) (s : State) : (s.offer r).sweep.autoDue = s.sweep.autoDue := by
  unfold State.offer
  split
  · rfl
  · show (if r.opensEdition then s.needEdition else s).sweep.autoDue = s.sweep.autoDue
    split
    · exact s.needEdition_autoDue
    · rfl

theorem State.markUnit_autoDue (mask : BitVec 4) (u : UnitId) (s : State) :
    (s.markUnit mask u).sweep.autoDue = s.sweep.autoDue := by
  unfold State.markUnit
  dsimp only
  split <;> simp

theorem State.startSweep_autoDue (origin : SweepOrigin) (mask : BitVec 4) (budget : Nat) (s : State) :
    (s.startSweep origin mask budget).sweep.autoDue = s.sweep.autoDue := by
  unfold State.startSweep
  dsimp only
  split
  all_goals simp only [State.offer_autoDue, forEach_keeps (fun t : State => t.sweep.autoDue) State.wakeChannel (by simp),
    forEach_keeps (fun t : State => t.sweep.autoDue) _ (State.markUnit_autoDue mask), State.updSweep_sweep,
    State.needEdition_autoDue]

theorem State.handToOrder_sweep (s : State) : s.handToOrder.sweep = s.sweep := by simp

theorem State.finishSweep_idle_or (s : State) :
    s.finishSweep.sweep.autoDue = false ∧ (s.sweep.autoDue = false → s.finishSweep.sweep.state = .idle) := by
  unfold State.finishSweep
  dsimp only
  rw [State.handToOrder_sweep]
  split
  · next h =>
    exact ⟨by rw [State.startSweep_autoDue]; rfl, fun x => absurd h (by rw [State.updSweep_sweep, x]; decide)⟩
  · next h => 
    rw [State.handToOrder_sweep]
    exact ⟨by simpa using h, fun _ => rfl⟩

theorem State.sweepTest_of_sweepOk {s : State} (h : s.sweepOk) : s.sweepTest = s := by
  unfold State.sweepTest
  rw [if_neg]
  rintro ⟨hs, hp⟩
  rw [h hs] at hp
  cases hp

/-- A first test leaves a sweep that waits for a unit, or one that no auto-due follows. -/
theorem State.sweepTest_first (s : State) : s.sweepTest.sweepOk ∨ s.sweepTest.sweep.autoDue = false := by
  by_cases h : s.sweepOk
  · exact .inl (by rwa [State.sweepTest_of_sweepOk h])
  · refine .inr ?_
    have hc : s.sweep.state ≠ .idle ∧ s.anyPending = false := by
      simpa [State.sweepOk, Classical.not_imp] using h
    rw [State.sweepTest, if_pos hc]
    exact s.finishSweep_idle_or.1

theorem State.sweepTest_second {s : State} (h : s.sweepOk ∨ s.sweep.autoDue = false) : s.sweepTest.sweepOk := by
  rcases h with h | h
  · rwa [State.sweepTest_of_sweepOk h]
  · unfold State.sweepTest
    split
    · exact fun x => absurd (s.finishSweep_idle_or.2 h) x
    · next hc =>
      intro x
      by_contra hp
      exact hc ⟨x, by simpa using hp⟩

theorem State.closeEdition_sweep (s : State) : s.closeEdition.sweep = SweepCtl.closed s.clock .normal s.sweep := by
  unfold State.closeEdition
  rw [forEach_keeps State.sweep _ (by simp)]
  rfl

theorem State.closeTest_settled {s : State} (h : s.sweepOk) : s.closeTest.settled := by
  unfold State.closeTest
  split
  · refine ⟨fun x => ?_, fun x => absurd (by rw [State.closeEdition_sweep]; rfl) x⟩
    rw [State.closeEdition_sweep] at x
    obtain ⟨u, hu⟩ := s.anyPending_iff.1 (h x)
    exact ⟨u, by simpa using hu⟩
  · next hc => exact ⟨fun x => s.anyPending_iff.1 (h x), fun x y z => hc (State.closeReady_of z x y)⟩

theorem DirEntry.assigned_mark (p : Purpose) (e : DirEntry) : (e.assigned p).mark = e.mark := by
  unfold DirEntry.assigned
  split
  · rfl
  · split <;> rfl

theorem State.assign_mark (k : CtxId) (u : UnitId) (p : Purpose) (s : State) (v : UnitId) :
    (s.assign k u p).dir[v].mark = s.dir[v].mark := by
  unfold State.assign
  simp only [State.joinLine_frame, State.updCtx_dir]
  rw [State.writeEntry_get]
  split
  · next h => rw [h.1]; exact DirEntry.assigned_mark p _
  · rfl

theorem State.assign_settled (k : CtxId) (u : UnitId) (p : Purpose) {s : State} (h : s.settled) : (s.assign k u p).settled :=
  State.settled_congr (by simp) (by simp) (s.assign_mark k u p) (State.nothingKeeps_congr (by simp) (by simp)) h

/-- What an event leads to at once leaves nothing undone, whatever was before it (R150, R153, R157). -/
theorem State.settle_settled (s : State) : s.settle.settled :=
  State.allocate_induct State.settled (fun k u p _ _ _ x => State.assign_settled k u p x) 8 _
    (State.closeTest_settled (State.sweepTest_second s.sweepTest_first))

end Sys2Proof.Machine
end

section
/-! SUPPORT. What a command's answer keeps: the commands that are one event, with all that follows them at once. -/

namespace Sys2Proof.Machine

/-- An answer to a command keeps the invariants of a run, and leaves nothing undone if nothing was. -/
structure Answers (s t : State) : Prop extends Keeps s t where
  settled : s.settled → t.settled

/-- An answer that is one event of the part, or none. -/
structure AnswersOnce (s t : State) : Prop extends Answers s t where
  once : WrittenOnce s t

theorem Answers.refl (s : State) : Answers s s := ⟨Keeps.refl s, id⟩

theorem Answers.trans {s t u : State} (h : Answers s t) (k : Answers t u) : Answers s u :=
  ⟨h.toKeeps.trans k.toKeeps, fun x => k.settled (h.settled x)⟩

theorem AnswersOnce.refl (s : State) : AnswersOnce s s := ⟨Answers.refl s, WrittenOnce.refl s⟩

/-! ### Events -/

theorem AnswersOnce.event {f : State → State} {s : State} (h : Works s (f s)) (hs : s.settled → (f s).settled) :
    AnswersOnce s (event f s) :=
  ⟨⟨h.stamp, fun x => State.stamp_settled (hs x)⟩, h.writtenOnce⟩

theorem AnswersOnce.ite {s t u : State} {p : Prop} [Decidable p] (h : p → AnswersOnce s t) (k : ¬ p → AnswersOnce s u) :
    AnswersOnce s (if p then t else u) := by
  split
  · exact h ‹_›
  · exact k ‹_›

theorem AnswersOnce.partEvent {f : State → State} {s : State} (h : Works s (f s)) (hs : s.settled → (f s).settled) :
    AnswersOnce s (partEvent f s) :=
  AnswersOnce.ite (fun _ => AnswersOnce.refl s) fun _ => AnswersOnce.event h hs

/-- An event with all it leads to needs nothing to be settled before it. -/
theorem AnswersOnce.settledEvent {f : State → State} {s : State} (h : Works s (f s)) : AnswersOnce s (settledEvent f s) :=
  AnswersOnce.partEvent (f := fun s => (f s).settle) h.settle fun _ => (f s).settle_settled

theorem AnswersOnce.windowExpiry (k : CtxId) (kind : WindowKind) {f : CtxId → State → State} (s : State)
    (hf : ∀ t, Works s t → Works s (f k t)) : AnswersOnce s (windowExpiry k kind f s) := by
  unfold Machine.windowExpiry
  split
  · exact AnswersOnce.ite (fun _ => AnswersOnce.settledEvent (hf _ ((Works.refl s).advanceTo _))) fun _ => AnswersOnce.refl s
  · exact AnswersOnce.refl s

theorem AnswersOnce.portTake (kind : RxKind) {g : CtxId → Frame → State → State} (s : State)
    (hg : ∀ k f t, Works s t → Works s (g k f t)) : AnswersOnce s (portTake kind g s) := by
  unfold Machine.portTake
  split
  · split
    · next f rest hf =>
      exact AnswersOnce.ite (fun _ => AnswersOnce.settledEvent ((Works.refl s).portPass _ f rest hg hf)) fun _ =>
        AnswersOnce.refl s
    · exact AnswersOnce.refl s
  · exact AnswersOnce.refl s

theorem AnswersOnce.runOperation {f : PoolOp → Option (State → State)} (s : State)
    (hf : ∀ o g, s.pool.op = some o → f o = some g → Works s (g s)) : AnswersOnce s (runOperation f s) := by
  unfold Machine.runOperation
  split
  · exact AnswersOnce.refl s
  · split
    · exact AnswersOnce.settledEvent (hf _ _ ‹_› ‹_›)
    · exact AnswersOnce.refl s

/-! ### The host's accesses -/

/-- An answer that touches none of the blocks with a revision of the stamp, and no order, request or mark. -/
theorem AnswersOnce.of_same {s t : State} (h : Works s t) (hx : t.ctxs = s.ctxs) (hc : t.chans = s.chans)
    (hw : t.sweep = s.sweep) (hd : t.dir = s.dir) (ho : t.orders.taken = s.orders.taken)
    (hp : t.pool = s.pool) : AnswersOnce s t where
  toKeeps := h.toKeeps
  settled := State.settled_same (by rw [hw]) (by rw [hw]) hd ho hp
  once :=
    { ctxs := fun k => by
        have hv : t.ctxView k = s.ctxView k := by simp only [State.ctxView, hx, hd]
        rw [if_pos hv, h.ctxs k]
        exact (BitVec.add_zero _).symm
      chans := fun c => by
        rw [if_pos (by rw [hc]), h.chans c]
        exact (BitVec.add_zero _).symm
      sweep := by
        rw [if_pos (by rw [hw]), h.sweep]
        exact (BitVec.add_zero _).symm }

theorem AnswersOnce.updPort (f : HostPort → HostPort) (s : State) : AnswersOnce s (s.updPort f) :=
  AnswersOnce.of_same ((Works.refl s).updPort f) rfl rfl rfl rfl rfl rfl

/-- The host moves the state word of a slot that is not TAKEN alone (R164). -/
theorem Works.hostSlotState (n : SlotId) (v : Word) (s : State) : Works s (s.hostSlotState n v) := by
  refine Works.ite (fun hv => ?_) fun _ => Works.refl s
  refine (Works.refl s).slots rfl rfl rfl rfl rfl rfl rfl (fun m => Memory.wf_writeWord m _ _) fun m x j y hy => ?_
  rw [State.putSlot_mem]
  have hj : j ≠ n := fun e => hv.2 (e ▸ x j y hy)
  rw [slotState_putSlot m hj _ (by decide)]
  exact x j y hy

theorem AnswersOnce.hostSlotState (n : SlotId) (v : Word) (s : State) : AnswersOnce s (s.hostSlotState n v) := by
  have h := Works.hostSlotState n v s
  unfold State.hostSlotState at *
  split at h
  · rw [if_pos ‹_›]
    exact AnswersOnce.of_same h rfl rfl rfl rfl rfl rfl
  · rw [if_neg ‹_›]
    exact AnswersOnce.refl s

/-- A word that is no slot's state word shares no byte with one. -/
theorem slotState_writeWord_of_not {m : Memory} (hm : m.wf = true) {addr : BitVec 15} (h : isSlotStateWord addr = false)
    (v : Word) (n : SlotId) : slotState (Memory.writeWord m (byteOffset addr) v) n = slotState m n := by
  have h : ¬ (byteOffset addr < 1024 ∧ byteOffset addr % 64 = 0) := by simpa [isSlotStateWord] using h
  have hn : slotAt n + Config.slotStateOff = 64 * n.val := by simp [slotAt, Config.slotBase, Config.slotSize, Config.slotStateOff]
  have he : byteOffset addr = 2 * addr.toNat := rfl
  unfold slotState slotWord
  rw [hn]
  refine Memory.readWord_writeWord_of_ne hm _ _ v ?_
  have := n.isLt
  omega

theorem AnswersOnce.hostWrite (addr : BitVec 15) (v : Word) (s : State) : AnswersOnce s (s.hostWrite addr v) := by
  unfold State.hostWrite
  split
  · exact AnswersOnce.hostSlotState _ v s
  · next h =>
    refine AnswersOnce.ite (fun _ => AnswersOnce.of_same ?_ rfl rfl rfl rfl rfl rfl) fun _ => AnswersOnce.refl s
    refine (Works.refl s).slots rfl rfl rfl rfl rfl rfl rfl (fun m => Memory.wf_writeWord m _ _) fun m x j y hy => ?_
    rw [State.updMem_mem, slotState_writeWord_of_not m (by simpa using h)]
    exact x j y hy

/-! ### Events that nothing follows -/

/-- A change of one channel's counters or queue is an event that nothing follows (R119, R122). -/
theorem AnswersOnce.updChan (s : State) (ch : ChanId) (f : Channel → Channel) (hf : s.chans[ch].stays (f s.chans[ch])) :
    AnswersOnce s (Machine.partEvent (State.updChan ch f) s) :=
  AnswersOnce.partEvent ((Works.refl s).updChan ch f hf) (State.settled_same rfl rfl rfl rfl rfl)

theorem State.receiveFrame_settled (ch : ChanId) (f : Frame) (s : State) (h : s.settled) : (s.receiveFrame ch f).settled := by
  have hx : (s.receiveFrame ch f).sweep = s.sweep ∧ (s.receiveFrame ch f).dir = s.dir ∧
      (s.receiveFrame ch f).orders = s.orders ∧ (s.receiveFrame ch f).pool = s.pool := by
    unfold State.receiveFrame
    dsimp only
    (repeat' split) <;> simp
  obtain ⟨hw, hd, ho, hp⟩ := hx
  exact State.settled_same (by rw [hw]) (by rw [hw]) hd (by rw [ho]) hp h

/-- The head request that begins keeps the edition open as it did in the queue. -/
theorem Pool.begin_nothingKeeps (self : SelfHistory) (last : Edition) (s : State)
    (h : (s.updPool (Pool.begin self last)).nothingKeeps) : s.nothingKeeps := by
  obtain ⟨hord, hreq, hop⟩ := h
  refine ⟨hord, ?_⟩
  unfold Pool.begin Pool.admitWaiting at hreq hop
  simp only [State.updPool_pool] at hreq hop
  split at hreq
  · next r rest hnone hq =>
    rw [hnone]
    simp only [hnone, hq] at hreq hop ⊢
    refine ⟨fun x hx => ?_, nofun⟩
    rcases List.mem_append.1 hx with hx | hx
    · rcases List.mem_cons.1 hx with rfl | hx
      · exact hop _ rfl
      · split at hreq
        · exact hreq x (List.mem_append_left _ hx)
        · exact hreq x (List.mem_append_left _ (List.mem_append_left _ hx))
    · split at hreq
      · exact hreq x (List.mem_append_right _ hx)
      · next w ws hw =>
        rw [hw] at hx
        exact hreq x (by simpa using Or.inr (List.mem_cons.1 hx))
  · next hn =>
    refine ⟨hreq, fun o ho => hop o ?_⟩
    split
    · next h1 _ => rw [h1] at ho; cases ho
    · exact ho

theorem State.begin_settled (self : SelfHistory) (last : Edition) (s : State) (h : s.settled) :
    (s.updPool (Pool.begin self last)).settled :=
  State.settled_congr (s := s) rfl rfl (fun _ => rfl) (Pool.begin_nothingKeeps self last s) h

/-- The end of an engine reset leaves the sweep IDLE and no edition open (R161). -/
theorem State.resetSteps_settled (n : SlotId) (s : State) : (s.resetSteps n).settled := by
  have close : ∀ t : State, t.resetClose.sweep.openEdition = 0 ∧ t.resetClose.sweep.state = t.sweep.state := by
    intro t
    unfold State.resetClose
    split
    · exact ⟨‹_›, rfl⟩
    · exact ⟨rfl, rfl⟩
  have idle : ∀ (now : Clock) (w : SweepCtl), (w.resetEnd now).state = .idle := by
    intro now w
    unfold SweepCtl.resetEnd
    split
    · exact ‹_›
    · rfl
  have abort : ∀ (j : SlotId) (t : State), (t.abortSlot j).sweep = t.sweep := by
    intro j t
    unfold State.abortSlot
    (repeat' split) <;> simp
  have orders : ∀ t : State, (t.resetOrders n).sweep = t.sweep := by
    intro t
    unfold State.resetOrders
    dsimp only
    rw [State.raiseAttn_sweep, State.updOrders_sweep, (State.doneSlot_frame _ _ _ _).2.1, forEach_keeps State.sweep _ abort]
  have steps : (s.resetSteps n).sweep.openEdition = 0 ∧ (s.resetSteps n).sweep.state = .idle := by
    unfold State.resetSteps
    dsimp only
    rw [orders, State.updPool_sweep, forEach_keeps State.sweep _ fun u t => by simp]
    exact ⟨(close _).1, (close _).2.trans (idle _ _)⟩
  exact ⟨fun x => absurd steps.2 x, fun x => absurd steps.1 x⟩

/-! ### Every command that is one event -/

/-- The commands whose answer is one event, or none: not a pass over the order table, nor a full reset (log entry 8). -/
def oneEvent : Instr → Bool
  | .fullReset | .initialisationEnd | .signalWrite _ | .orderScanTimerExpiry => false
  | _ => true

theorem exec_answersOnce (c : Instr) (hc : oneEvent c = true) (s : State) : ∃ t, exec c s = .next t ∧ AnswersOnce s t := by
  have r := Works.refl s
  have op : ∀ o, s.pool.op = some o → s.pool.op.isSome = true := fun o ho => by rw [ho]; rfl
  cases c
  case fullReset => cases hc
  case initialisationEnd => cases hc
  case signalWrite => cases hc
  case orderScanTimerExpiry => cases hc
  case attentionWrite v => exact ⟨_, rfl, AnswersOnce.partEvent (r.updPort _) (State.settled_same rfl rfl rfl rfl rfl)⟩
  case attnMaskWrite v => exact ⟨_, rfl, AnswersOnce.partEvent (r.updPort _) (State.settled_same rfl rfl rfl rfl rfl)⟩
  case clockLoRead =>
    exact ⟨_, rfl, AnswersOnce.ite (fun _ => AnswersOnce.updPort _ s) fun _ => AnswersOnce.updPort _ s⟩
  case registerWriteIgnored addr v => exact ⟨_, rfl, AnswersOnce.refl s⟩
  case slotStateWrite n v => exact ⟨_, rfl, AnswersOnce.ite (fun _ => AnswersOnce.refl s) fun _ => AnswersOnce.hostSlotState n v s⟩
  case hostMemoryWrite addr v => exact ⟨_, rfl, AnswersOnce.ite (fun _ => AnswersOnce.refl s) fun _ => AnswersOnce.hostWrite addr v s⟩
  case poolOperationBegin => exact ⟨_, rfl, AnswersOnce.partEvent (r.begin _ _) (State.begin_settled _ _ s)⟩
  case commit =>
    refine ⟨_, rfl, AnswersOnce.runOperation s fun o g ho hg => ?_⟩
    have hop := op o ho
    split at hg
    case h_1 =>
      cases hg
      exact r.runCommit hop _ _ _ _ _ _ _
    all_goals cases hg
  case selfCommit =>
    refine ⟨_, rfl, AnswersOnce.runOperation s fun o g ho hg => ?_⟩
    have hop := op o ho
    split at hg
    case h_1 =>
      cases hg
      exact r.runSelfCommit hop _ _ _
    all_goals cases hg
  case eraseClear =>
    refine ⟨_, rfl, AnswersOnce.runOperation s fun o g ho hg => ?_⟩
    have hop := op o ho
    split at hg
    case h_1 =>
      cases hg
      exact r.runEraseClear hop _ _ _ _ _
    all_goals cases hg
  case delistRetire =>
    refine ⟨_, rfl, AnswersOnce.runOperation s fun o g ho hg => ?_⟩
    have hop := op o ho
    split at hg
    case h_1 =>
      cases hg
      exact r.runDelistRetire hop _ _
    all_goals cases hg
  case release =>
    refine ⟨_, rfl, AnswersOnce.runOperation s fun o g ho hg => ?_⟩
    have hop := op o ho
    split at hg
    case h_1 =>
      cases hg
      exact r.runRelease hop _ _
    all_goals cases hg
  case holdRunOut u =>
    exact ⟨_, rfl, AnswersOnce.ite (fun _ => AnswersOnce.settledEvent ((r.advanceTo _).runOut u)) fun _ => AnswersOnce.refl s⟩
  case frameReceived ch f =>
    exact ⟨_, rfl, AnswersOnce.ite (fun _ => AnswersOnce.partEvent (r.receiveFrame ch f) (State.receiveFrame_settled ch f s))
      fun _ => AnswersOnce.refl s⟩
  case receiveError ch =>
    exact ⟨_, rfl, AnswersOnce.ite (fun _ => AnswersOnce.updChan s ch _ (Channel.receiveError_stays _)) fun _ => AnswersOnce.refl s⟩
  case transmitError ch kind =>
    exact ⟨_, rfl, AnswersOnce.ite (fun _ => AnswersOnce.settledEvent (r.transmitError ch kind)) fun _ => AnswersOnce.refl s⟩
  case frameSent ch =>
    exact ⟨_, rfl, AnswersOnce.ite (fun _ => AnswersOnce.settledEvent (r.frameSent ch)) fun _ => AnswersOnce.refl s⟩
  case transmissionBegin ch =>
    exact ⟨_, rfl, AnswersOnce.ite (fun _ => AnswersOnce.updChan s ch _ (Channel.beginHead_stays _)) fun _ => AnswersOnce.refl s⟩
  case recoveryHoldExpiry ch =>
    refine ⟨_, rfl, ?_⟩
    split
    · exact AnswersOnce.settledEvent ((r.advanceTo _).updChan ch _ (Channel.stays_of_eq rfl rfl rfl rfl))
    · exact AnswersOnce.refl s
  case recoveryComplete ch =>
    have recovered := (r.updChan ch Channel.recovered (Channel.stays_of_eq rfl rfl rfl rfl)).clearBusOffActive ch
    exact ⟨_, rfl, AnswersOnce.ite (fun _ => AnswersOnce.settledEvent recovered) fun _ => AnswersOnce.refl s⟩
  case loadWindowExpiry ch =>
    refine ⟨_, rfl, ?_⟩
    split
    · exact AnswersOnce.settledEvent ((r.advanceTo _).updChan ch _ (Channel.measure_stays _ _))
    · exact AnswersOnce.refl s
  case pacingTimerExpiry ch =>
    refine ⟨_, rfl, ?_⟩
    split
    · exact AnswersOnce.settledEvent (r.pacingTick ch _)
    · exact AnswersOnce.refl s
  case settleTimerExpiry ch =>
    refine ⟨_, rfl, ?_⟩
    split
    · exact AnswersOnce.settledEvent ((r.advanceTo _).updChan ch _ (Channel.stays_of_eq rfl rfl rfl rfl))
    · exact AnswersOnce.refl s
  case grant => exact ⟨_, rfl, AnswersOnce.portTake _ s fun k f t x => x.meet _ k f (x.takeGrant k f)⟩
  case hold => exact ⟨_, rfl, AnswersOnce.portTake _ s fun k f t x => x.meet _ k f (x.takeHold k f)⟩
  case entryA => exact ⟨_, rfl, AnswersOnce.portTake _ s fun k f t x => x.meet _ k f (x.takeHalf _ k f)⟩
  case entryB => exact ⟨_, rfl, AnswersOnce.portTake _ s fun k f t x => x.meet _ k f (x.takeHalf _ k f)⟩
  case close => exact ⟨_, rfl, AnswersOnce.portTake _ s fun k f t x => x.meet _ k f (x.takeClose k f)⟩
  case erased => exact ⟨_, rfl, AnswersOnce.portTake _ s fun k f t x => x.meet _ k f (x.takeErased k f)⟩
  case answerWindowExpiry k => exact ⟨_, rfl, AnswersOnce.windowExpiry k _ s fun t x => x.answerExpired k⟩
  case gapWindowExpiry k => exact ⟨_, rfl, AnswersOnce.windowExpiry k _ s fun t x => x.gapExpired k⟩
  case stopWindowExpiry k => exact ⟨_, rfl, AnswersOnce.windowExpiry k _ s fun t x => x.stopExpired k⟩
  case holdWindowExpiry k => exact ⟨_, rfl, AnswersOnce.windowExpiry k _ s fun t x => x.holdExpired k⟩
  case budgetTimerExpiry =>
    refine ⟨_, rfl, ?_⟩
    split
    · exact AnswersOnce.ite (fun _ => AnswersOnce.settledEvent ((r.advanceTo _).enterDraining _)) fun _ => AnswersOnce.refl s
    · exact AnswersOnce.refl s
  case scheduleTimerExpiry =>
    refine ⟨_, rfl, ?_⟩
    split
    · exact AnswersOnce.settledEvent ((r.advanceTo _).updSweep _ rfl (Nat.le_refl _)).scheduleDue
    · exact AnswersOnce.refl s
  case engineResetEnd =>
    refine ⟨_, rfl, ?_⟩
    split
    · next n _ =>
      exact AnswersOnce.ite (fun _ => AnswersOnce.partEvent (r.resetSteps n) fun _ => State.resetSteps_settled n s) fun _ =>
        AnswersOnce.refl s
    · exact AnswersOnce.refl s

end Sys2Proof.Machine
end

section
/-! SUPPORT. What a pass over the order table and a full reset keep; with these every command answers and every step keeps the
invariants of a run. -/

namespace Sys2Proof.Machine

/-! ### The pass (R165 to R167) -/

/-- An ENLIST UNIT is taken for a VACANT entry alone (R170). -/
theorem State.judge_enlist {s : State} {n : SlotId} {u : UnitId} {ch : ChanId} {a : Byte} {label : Word} {cls : Fin 4}
    (h : s.judge n = .taken (.enlistUnit u ch a label cls)) : s.dir[u].state = .vacant := by
  unfold State.judge at h
  split at h
  · cases h
  · split at h
    · cases h
    · split at h
      · cases h
      · split at h
        · cases h
        · next hc =>
          split at h
          · cases h
          · cases h
            by_contra hv
            have occupied : s.checkOrder (.enlistUnit u ch a label cls) = some .unitOccupied := if_pos hv
            rw [occupied] at hc
            cases hc

theorem Answers.setHalt (x : Option SlotId) (s : State) : Answers s (s.setHalt x) :=
  ⟨((Works.refl s).updOrders _ rfl).toKeeps, State.settled_same rfl rfl rfl rfl rfl⟩

theorem Answers.refuse (n : SlotId) (r : OrderRefusal) (w : Word) (s : State) :
    Answers s (event (fun s => (s.refuseSlot n r w s.sweep.openEdition).settle) s) := by
  have h : Works s (s.refuseSlot n r w s.sweep.openEdition).settle := ((Works.refl s).refuseSlot n r w _).settle
  exact (AnswersOnce.event (f := fun s => (s.refuseSlot n r w s.sweep.openEdition).settle) h
    fun _ => State.settle_settled _).toAnswers

theorem Answers.take (n : SlotId) (o : Order) (s : State) (hj : s.judge n = .taken o) :
    Answers s (event (fun s => (s.take n o).settle) s) := by
  have h : Works s (s.take n o).settle := ((Works.refl s).take n o fun u ch a label cls e => by
    rw [e] at hj
    exact State.judge_enlist hj).settle
  exact (AnswersOnce.event (f := fun s => (s.take n o).settle) h fun _ => State.settle_settled _).toAnswers

/-- Each visit is an event of its own (log entry 8). -/
theorem Answers.pass (s : State) : Answers s s.pass :=
  State.pass_induct (Answers s) (fun x t h => h.trans (Answers.setHalt x t))
    (fun n r w t h => h.trans (Answers.refuse n r w t)) (fun n o t hj h => h.trans (Answers.take n o t hj)) s (Answers.refl s)

/-! ### The reset values -/

theorem freshRecords_get (r : RecId) :
    freshRecords[r] = FaultRecord.freed (if h : r.val + 1 < 1536 then some ⟨r.val + 1, h⟩ else none) := by
  simp [freshRecords]

/-- From record `i` on the fresh records are linked in order of index (R26). -/
theorem freshRecords_linked (k i : Nat) (hk : i + k = 1536) (l : List RecId) (hl : l = (List.finRange 1536).drop i) :
    linked freshRecords (if h : i < 1536 then some ⟨i, h⟩ else none) l := by
  induction k generalizing i l with
  | zero =>
    have hnil : l = [] := by rw [hl, List.drop_of_length_le (by rw [List.length_finRange]; omega)]
    have hi : ¬ i < 1536 := by omega
    rw [hnil, dif_neg hi]
    rfl
  | succ k ih =>
    have hi : i < 1536 := by omega
    have hcons : l = ⟨i, hi⟩ :: (List.finRange 1536).drop (i + 1) := by
      rw [hl, List.drop_eq_getElem_cons (by rw [List.length_finRange]; exact hi), List.getElem_finRange]
      rfl
    generalize hd : (List.finRange 1536).drop (i + 1) = d at hcons
    rw [hcons, dif_pos hi]
    refine ⟨rfl, ?_⟩
    rw [freshRecords_get]
    exact ih (i + 1) (by omega) d hd.symm

/-- Unit 0 alone has an entry that is not VACANT, and no entry has a chain or a mark. -/
theorem State.reset_dir (u : UnitId) :
    State.reset.dir[u] = if u = 0 then DirEntry.collector else DirEntry.vacant := by
  unfold State.reset
  simp only [Fin.getElem_fin, Vector.getElem_set, Vector.getElem_replicate, Fin.ext_iff, eq_comm]
  rfl

theorem State.reset_dir_fields (u : UnitId) : State.reset.dir[u].chainHead = none ∧ State.reset.dir[u].liveCount = 0 ∧
    State.reset.dir[u].mark = .none ∧ State.reset.dir[u].revision = 0 := by
  rw [State.reset_dir]
  split
  · exact ⟨rfl, rfl, rfl, rfl⟩
  · exact ⟨rfl, rfl, rfl, rfl⟩

theorem State.reset_ctx (k : CtxId) : State.reset.ctxs[k] = Context.freed 0 false := by
  unfold State.reset
  simp only [Fin.getElem_fin, Vector.getElem_replicate]

theorem State.reset_chan (c : ChanId) : State.reset.chans[c] = Channel.fresh 0 := by
  unfold State.reset
  simp only [Fin.getElem_fin, Vector.getElem_replicate]

theorem OrderEngine.fresh_taken (n : SlotId) : OrderEngine.fresh.taken[n] = none := by
  unfold OrderEngine.fresh
  simp only [Fin.getElem_fin, Vector.getElem_replicate]

theorem no_chains : ((List.finRange 64).flatMap fun _ => ([] : List RecId)) = [] := List.flatMap_eq_nil_iff.2 fun _ _ => rfl

/-- After a full reset every record stands on the free stack (R26). -/
theorem State.reset_poolHolds (f : List RecId) (hf : f = List.finRange 1536) : State.reset.poolHolds (fun _ => []) f [] where
  onFree := freshRecords_linked 1536 0 (by omega) f (by rw [hf, List.drop_zero])
  onQueue := rfl
  last := rfl
  onChain u := (State.reset_dir_fields u).1
  parts := by rw [no_chains, List.append_nil, List.append_nil, hf]
  freeCount := by rw [hf, List.length_finRange]; rfl
  retCount := rfl
  liveCount := by rw [no_chains]; rfl
  chainCount u := (State.reset_dir_fields u).2.1
  vacant _ _ := rfl
  free r _ := by
    show freshRecords[r].state = .free
    rw [freshRecords_get]
    rfl
  retired _ h := absurd h List.not_mem_nil
  inOrder := List.Pairwise.nil
  live _ _ h := absurd h List.not_mem_nil
  ascending _ := List.Pairwise.nil

/-- The reset values meet every invariant, whatever the port shows and whether START is set (R183). -/
theorem Answers.reset (p : HostPort) (o : OrderEngine) (ho : o.taken = OrderEngine.fresh.taken) (s : State) :
    Answers s { State.reset with port := p, orders := o, pending := s.pending } where
  pending := rfl
  parity _ := ⟨fun h => absurd (show 0 = 1 from h) (by decide), fun h => absurd (show false = true from h) (by decide)⟩
  mem _ := rfl
  even _ := by
    refine ⟨fun u => ?_, fun k => ?_, fun c => ?_, rfl, rfl, fun r => ?_⟩
    · exact congrArg (fun r : BitVec 8 => r.toNat % 2) (State.reset_dir_fields u).2.2.2
    · exact congrArg (fun c : Context => c.revision.toNat % 2) (State.reset_ctx k)
    · exact congrArg (fun c : Channel => c.revision.toNat % 2) (State.reset_chan c)
    · exact congrArg (fun x : FaultRecord => x.revision.toNat % 2) (freshRecords_get r)
  room _ := by
    refine ⟨Nat.zero_le _, Nat.zero_le _, fun c => ?_⟩
    have h : Channel.roomOk State.reset.chans[c] := by
      rw [State.reset_chan]
      exact ⟨Nat.zero_le _, Nat.zero_le _, Nat.zero_le _⟩
    exact h
  pool _ := State.poolOk_same (s := State.reset) rfl rfl (Nat.le_refl _) ⟨_, _, _, State.reset_poolHolds _ rfl⟩
  tidy _ _ := by
    refine ⟨fun n x hx => ?_, fun u _ _ hm => ?_⟩
    · have hx : o.taken[n] = some x := hx
      rw [ho, OrderEngine.fresh_taken] at hx
      cases hx
    · rw [show State.reset.dir[u].mark = .none from (State.reset_dir_fields u).2.2.1] at hm
      cases hm
  settled _ := ⟨fun x => absurd rfl x, fun x => absurd rfl x⟩

/-! ### Every command -/

theorem exec_answers (c : Instr) (s : State) : ∃ t, exec c s = .next t ∧ Answers s t := by
  have once : oneEvent c = true → ∃ t, exec c s = .next t ∧ Answers s t := fun h =>
    let ⟨t, ht, a⟩ := exec_answersOnce c h s
    ⟨t, ht, a.toAnswers⟩
  cases c
  case fullReset => exact ⟨_, rfl, Answers.reset State.initialisation.port State.initialisation.orders rfl s⟩
  case initialisationEnd =>
    refine ⟨_, rfl, ?_⟩
    split
    · exact Answers.reset HostPort.fresh OrderEngine.fresh rfl s
    · exact Answers.refl s
  case signalWrite v =>
    refine ⟨_, rfl, ?_⟩
    split
    · exact Answers.refl s
    · exact Answers.pass s
  case orderScanTimerExpiry =>
    refine ⟨_, rfl, ?_⟩
    split
    · exact Answers.refl s
    · exact (AnswersOnce.settledEvent (Works.refl s).scanExpired).toAnswers.trans (Answers.pass _)
  all_goals exact once rfl

end Sys2Proof.Machine
end

section
/-! SUPPORT. The statements on every command and every step. -/

namespace Sys2Proof.Machine

/-- The commands waiting outside are no part of what the invariants speak of. -/
theorem State.takeFront_poolOk {s : State} (rest : List Instr) (h : s.poolOk) : { s with pending := rest }.poolOk :=
  State.poolOk_same (s := s) rfl rfl (Nat.le_refl _) h

/-- A step either lets a millisecond pass or is the answer to the front command. -/
theorem step_cases {s t : State} (h : step s = .next t) :
    (s.pending = [] ∧ t = s.tick) ∨
      ∃ c rest, s.pending = c :: rest ∧ exec c { s with pending := rest } = .next t := by
  unfold step at h
  split at h
  · next c rest hp => exact .inr ⟨c, rest, hp, h⟩
  · next hp => exact .inl ⟨hp, (Host.Outcome.next.inj h).symm⟩

/-- What every step keeps of the invariants of a run, the queue of commands apart. -/
theorem step_keeps {s t : State} (h : step s = .next t) : (s.parityOk → t.parityOk) ∧ (s.memOk → t.memOk) ∧
    (s.blocksEven → t.blocksEven) ∧ (s.roomOk → t.roomOk) ∧ (s.poolOk → t.poolOk) := by
  rcases step_cases h with ⟨_, rfl⟩ | ⟨c, rest, _, hx⟩
  · have k := (Works.refl s).tick
    exact ⟨k.parity, k.mem, k.even, k.room, k.pool⟩
  · obtain ⟨u, hu, k⟩ := exec_answers c { s with pending := rest }
    obtain rfl : u = t := Host.Outcome.next.inj (hu.symm.trans hx)
    exact ⟨k.parity, k.mem, k.even, k.room, fun x => k.pool (State.takeFront_poolOk rest x)⟩

/-- Settles O59: the invariants by `step_keeps`, the revisions by the stamp of the one event. -/
theorem everyStepKeepsParityAndMemory : Obligations.EveryStepKeepsParityAndMemory := by
  unfold Obligations.EveryStepKeepsParityAndMemory
  intro s t h
  obtain ⟨parity, mem, even, _, _⟩ := step_keeps h
  refine ⟨parity, mem, even, fun c rest hp h1 h2 h3 h4 => ?_⟩
  have hone : oneEvent c = true := by
    cases c
    case orderScanTimerExpiry => exact absurd rfl h1
    case fullReset => exact absurd rfl h2
    case initialisationEnd => exact absurd rfl h3
    case signalWrite v => exact absurd rfl (h4 v)
    all_goals rfl
  rcases step_cases h with ⟨hnil, _⟩ | ⟨c', rest', hp', hx⟩
  · rw [hp] at hnil
    cases hnil
  · rw [hp] at hp'
    cases hp'
    obtain ⟨u, hu, k⟩ := exec_answersOnce c hone { s with pending := rest }
    obtain rfl : u = t := Host.Outcome.next.inj (hu.symm.trans hx)
    exact ⟨k.once.ctxs, k.once.chans, k.once.sweep⟩

/-- Settles O60: `step_keeps`, whose pool part rests on the working operations of the pool, each of which keeps its collections. -/
theorem everyStepKeepsRoom : Obligations.EveryStepKeepsRoom := by
  unfold Obligations.EveryStepKeepsRoom
  intro s t h
  obtain ⟨_, _, _, room, pool⟩ := step_keeps h
  exact ⟨room, pool⟩

/-- Settles O3: each command's answer by `exec_answers`. -/
theorem everyCommandAnswers : Obligations.EveryCommandAnswers := by
  unfold Obligations.EveryCommandAnswers
  intro c s
  obtain ⟨t, ht, k⟩ := exec_answers c s
  exact ⟨t, ht, k.pending, k.settled, k.tidy⟩

/-- Settles O5: the end of initialisation leaves the reset values, whatever the part was doing (R26). -/
theorem fullResetPool : Obligations.FullResetPool := by
  unfold Obligations.FullResetPool
  intro s t u ht hu
  obtain rfl : { State.initialisation with pending := s.pending } = t := Host.Outcome.next.inj ht
  obtain rfl : { State.reset with pending := s.pending } = u := Host.Outcome.next.inj hu
  have low : HostPort.fresh.attention &&& AttnBit.poolLow.bit = 0 := by decide
  exact ⟨rfl, rfl, rfl, freshRecords_get, rfl, rfl, rfl, rfl, rfl, rfl, rfl, rfl, rfl,
    fun v => ⟨(State.reset_dir_fields v).1, (State.reset_dir_fields v).2.1⟩, low⟩

end Sys2Proof.Machine
end

section
/-! SUPPORT. The beginning of a pool operation (R13 to R15). -/

namespace Sys2Proof.Machine

/-- An event that leaves the blocks with a stamped revision alone moves ATTN_N at most. -/
theorem State.stamp_of_same {s t : State} (hx : t.ctxs = s.ctxs) (hc : t.chans = s.chans) (hw : t.sweep = s.sweep)
    (hd : t.dir = s.dir) : State.stamp s t = { t with port := { t.port with attnLow := attnDriven t.port } } :=
  calc State.stamp s t
    _ = { t with ctxs := (State.stamp s t).ctxs, chans := (State.stamp s t).chans, sweep := (State.stamp s t).sweep,
                 port := { t.port with attnLow := attnDriven t.port } } := rfl
    _ = _ := by rw [State.stamp_ctxs_of_eq hx hd, State.stamp_chans_of_eq hc, State.stamp_sweep_of_eq hw]

/-- What a beginning makes of the pool: the head request runs, and the earliest waiting offer is admitted (R11, R13). -/
theorem Pool.begin_eq {p : Pool} {r : PoolRequest} {rest : List PoolRequest} (self : SelfHistory) (last : Edition)
    (hop : p.op = none) (hq : p.queue = r :: rest) :
    p.begin self last =
      { p with queue := rest ++ p.waiting.take 1, waiting := p.waiting.drop 1, revision := p.revision + 1
               op := some { request := r, policy := p.policy, snapshot := self, applied := appliedEdition last r } } := by
  unfold Pool.begin Pool.admitWaiting
  rw [hop, hq]
  cases hw : p.waiting with
  | nil => simp
  | cons x xs => simp

theorem Pool.begin_busy {p : Pool} (self : SelfHistory) (last : Edition) (hop : p.op ≠ none) : p.begin self last = p := by
  unfold Pool.begin
  split
  · next h _ => exact absurd h hop
  · rfl

/-- While an operation runs it holds the staging port: no frame passes (R14). -/
theorem portTake_busy (kind : RxKind) (g : CtxId → Frame → State → State) {s : State} (hop : s.pool.op ≠ none) :
    portTake kind g s = s := by
  unfold portTake
  split
  · next h _ => exact absurd h hop
  · rfl

theorem bvMin_toNat {n : Nat} (a b : BitVec n) : (bvMin a b).toNat = min a.toNat b.toNat := by
  unfold bvMin
  split <;> omega

theorem execPoolOperationBegin_running {s : State} (h : s.running) : exec .poolOperationBegin s =
    .next (State.stamp s (s.updPool (Pool.begin s.self s.sweep.lastClosed))) := by
  have h : s.port.initialising = false := h
  show Host.Outcome.next (partEvent _ s) = _
  rw [partEvent, if_neg (by rw [h]; decide)]
  rfl

/-- Settles O22. -/
theorem operationBeginsWithTheHead : Obligations.OperationBeginsWithTheHead := by
  unfold Obligations.OperationBeginsWithTheHead
  refine ⟨fun r rest s hrun hop hq hpar => ?_, fun s hop => ?_⟩
  · have hpool := Pool.begin_eq s.self s.sweep.lastClosed hop hq
    refine ⟨_, execPoolOperationBegin_running hrun, ?_⟩
    let o : PoolOp :=
      { request := r, policy := s.pool.policy, snapshot := s.self, applied := appliedEdition s.sweep.lastClosed r }
    have parity := ((Works.refl s).begin s.self s.sweep.lastClosed).stamp.parity hpar
    refine ⟨?_, parity, ?_, ?_, ⟨o, ?_, rfl, rfl, rfl, ?_⟩, ?_⟩
    · rw [State.stamp_pool, State.updPool_pool, hpool]
    · rw [State.stamp_pool, State.updPool_pool, hpool]
    · rw [State.stamp_pool, State.updPool_pool, hpool]
    · rw [State.stamp_pool, State.updPool_pool, hpool]
    · rintro e n rfl
      exact bvMin_toNat e s.sweep.lastClosed
    · rw [State.stamp_of_same (s := s) (t := s.updPool (Pool.begin s.self s.sweep.lastClosed)) rfl rfl rfl rfl]
      unfold State.updPool
      rw [hpool]
  · have busy := fun kind g => portTake_busy kind g hop
    refine ⟨congrArg Host.Outcome.next (busy _ _), congrArg Host.Outcome.next (busy _ _),
      congrArg Host.Outcome.next (busy _ _), congrArg Host.Outcome.next (busy _ _), congrArg Host.Outcome.next (busy _ _),
      congrArg Host.Outcome.next (busy _ _), _, rfl, ?_⟩
    unfold partEvent
    split
    · rfl
    · exact Pool.begin_busy _ _ hop

end Sys2Proof.Machine
end

section
/-! SUPPORT. The create case of the merge, record by record (R16 to R19, R36). -/

namespace Sys2Proof.Machine

/-! ### Allocation (R16 to R19) -/

/-- The free stack's top is taken whatever the policy (R16). -/
theorem PoolWork.alloc_top (policy : PoolPolicy) {r : RecId} {w : PoolWork} (h : w.freeTop = some r) :
    w.alloc policy = some (r, { w with freeTop := w.records[r].link, freeCount := w.freeCount - 1 }) := by
  unfold PoolWork.alloc
  rw [h]

/-- Under KEEP an empty free stack gives no record (R17). -/
theorem PoolWork.alloc_keep {w : PoolWork} (h : w.freeTop = none) : w.alloc .keep = none := by
  unfold PoolWork.alloc
  rw [h]

/-- With no retired record either, none is found under RECLAIM (R19). -/
theorem PoolWork.alloc_bare {w : PoolWork} (h : w.freeTop = none) (hr : w.retHead = none) : w.alloc .reclaim = none := by
  unfold PoolWork.alloc
  split
  · next x => cases h.symm.trans x
  · split
    · next x => cases hr.symm.trans x
    · rfl

/-- RECLAIM takes the head of the retired queue, whose tail becomes none with its last record (R18). -/
theorem PoolWork.alloc_head {r : RecId} {w : PoolWork} (h : w.freeTop = none) (hr : w.retHead = some r) :
    w.alloc .reclaim = some (r,
      { w with retHead := w.records[r].link, retTail := if w.records[r].link = none then none else w.retTail
               retCount := w.retCount - 1, reclaimed := w.reclaimed + 1 }) := by
  unfold PoolWork.alloc
  split
  · next x => cases h.symm.trans x
  · split
    · next x => cases hr.symm.trans x; rfl
    · next x => exact absurd hr (x _ rfl)

/-! ### The record placed (R6, R36) -/

section
variable (u : UnitId) (ed : Edition) (e : ReadEntry) (prev next : Option RecId) (r : RecId) (w : PoolWork)

/-- What a record placed in a chain leaves beside the records. -/
theorem PoolWork.place_fields : let v := w.place u ed e prev next r
    v.freeTop = w.freeTop ∧ v.freeCount = w.freeCount ∧ v.retHead = w.retHead ∧ v.retTail = w.retTail ∧
      v.retCount = w.retCount ∧ v.chainCount = w.chainCount + 1 ∧ v.liveCount = w.liveCount + 1 ∧
      v.reclaimed = w.reclaimed ∧ v.failed = w.failed ∧ v.chainHead = if prev = none then some r else w.chainHead := by
  cases prev with
  | none => exact ⟨rfl, rfl, rfl, rfl, rfl, rfl, rfl, rfl, rfl, (if_pos rfl).symm⟩
  | some p => exact ⟨rfl, rfl, rfl, rfl, rfl, rfl, rfl, rfl, rfl, (if_neg nofun).symm⟩

/-- The record placed is filled in one write; the record before it takes the link, and no other is written. -/
theorem PoolWork.place_get (hp : prev ≠ some r) : let v := w.place u ed e prev next r
    v.records[r] =
      { w.records[r].filled u ed e next with revision := nextRecordRevision w.records[r].revision } ∧
    (∀ p, prev = some p → v.records[p].link = some r) ∧
    ∀ j, j ≠ r → prev ≠ some j → v.records[j] = w.records[j] := by
  have filled := PoolWork.writeRecord_get r (FaultRecord.filled u ed e next) w
  intro v
  cases prev with
  | none =>
    have hv : v.records = (w.writeRecord r (FaultRecord.filled u ed e next)).records := rfl
    exact ⟨by rw [hv, filled, if_pos rfl], nofun, fun j hj _ => by rw [hv, filled, if_neg hj]⟩
  | some p =>
    have hpr : r ≠ p := fun x => hp (by rw [x])
    have linked := PoolWork.writeRecord_get p (fun x => { x with link := some r })
      (w.writeRecord r (FaultRecord.filled u ed e next))
    have hv : v.records = ((w.writeRecord r (FaultRecord.filled u ed e next)).writeLink p (some r)).records := rfl
    unfold PoolWork.writeLink at hv
    refine ⟨by rw [hv, linked, if_neg hpr, filled, if_pos rfl], fun p' h' => ?_, fun j hj hne => ?_⟩
    · cases h'
      rw [hv, linked, if_pos rfl]
    · rw [hv, linked, if_neg fun x => hne (by rw [x]), filled, if_neg hj]

/-- A collection with neither the record placed nor the one before it stays linked. -/
theorem PoolWork.place_linked (hp : prev ≠ some r) {h : Option RecId} {l : List RecId} (hl : linked w.records h l) (hr : r ∉ l)
    (hq : ∀ p, prev = some p → p ∉ l) : linked (w.place u ed e prev next r).records h l := by
  obtain ⟨_, _, kept⟩ := PoolWork.place_get u ed e prev next r w hp
  exact linked_congr hl fun j hj => by rw [kept j (fun x => hr (x ▸ hj)) fun x => hq j x hj]

end

/-- Settles O25. -/
theorem createFillsTheTop : Obligations.CreateFillsTheTop := by
  unfold Obligations.CreateFillsTheTop
  intro policy u ed e prev next r f w hl hp hn hf
  obtain ⟨htop, hlink⟩ := hl
  obtain ⟨hr, _⟩ := List.nodup_cons.1 hn
  let x : PoolWork := { w with freeTop := w.records[r].link, freeCount := w.freeCount - 1 }
  rw [PoolWork.create_eq, show w.alloc policy = some (r, x) from PoolWork.alloc_top policy htop]
  obtain ⟨top, count, _, _, _, chain, live, _, failed, head⟩ := PoolWork.place_fields u ed e prev next r x
  obtain ⟨filled, link, _⟩ := PoolWork.place_get u ed e prev next r x hp
  refine ⟨rfl, ?_, count, filled, fun p h => ⟨link p h, ?_⟩, fun h => ?_, chain, live, failed⟩
  · rw [top]
    exact PoolWork.place_linked u ed e prev next r x hp hlink hr hf
  · rw [head, if_neg (by rw [h]; nofun)]
  · rw [head, if_pos h]

/-- Settles O26. -/
theorem allocationOnAnEmptyStack : Obligations.AllocationOnAnEmptyStack := by
  unfold Obligations.AllocationOnAnEmptyStack
  intro u ed e prev next w htop
  refine ⟨?_, fun hret => ?_, fun r q hl hn hp hq htail => ?_⟩
  · rw [PoolWork.create_eq, PoolWork.alloc_keep htop]
  · rw [PoolWork.create_eq, PoolWork.alloc_bare htop hret]
  · obtain ⟨hhead, hlink⟩ := hl
    obtain ⟨hr, _⟩ := List.nodup_cons.1 hn
    let x : PoolWork :=
      { w with retHead := w.records[r].link, retTail := if w.records[r].link = none then none else w.retTail
               retCount := w.retCount - 1, reclaimed := w.reclaimed + 1 }
    have tail : x.retTail = q.getLast? := by
      have hlink : w.records[r].link = q.head? := linked_head hlink
      cases q with
      | nil => exact if_pos hlink
      | cons a q => exact (if_neg (by rw [hlink]; nofun)).trans (htail.trans (List.getLast?_cons_cons ..))
    rw [PoolWork.create_eq, show w.alloc .reclaim = some (r, x) from PoolWork.alloc_head htop hhead]
    obtain ⟨_, free, ret, last, count, _, live, taken, failed, _⟩ := PoolWork.place_fields u ed e prev next r x
    obtain ⟨filled, _, _⟩ := PoolWork.place_get u ed e prev next r x hp
    refine ⟨rfl, ?_, last.trans tail, count, free, live, taken, failed, ?_⟩
    · rw [ret]
      exact PoolWork.place_linked u ed e prev next r x hp hlink hr hq
    · rw [filled]
      exact ⟨rfl, rfl, rfl, rfl, rfl, rfl⟩

end Sys2Proof.Machine
end

section
/-! SUPPORT. The release of retired records, shown whole at the end of its operation (R21, R22). -/

namespace Sys2Proof.Machine

theorem satAdd32_zero (c : BitVec 32) : satAdd32 c 0 = c := by
  unfold satAdd32
  have := c.isLt
  rw [Nat.add_zero, Nat.min_eq_right (by omega), BitVec.ofNat_toNat, BitVec.setWidth_eq]

/-- The tail of the retired queue after a release is the last record left (R9). -/
theorem PoolWork.releaseUpTo_last (applied : Edition) (fuel : Nat) (w : PoolWork) {q : List RecId} {k : Nat}
    (hq : linked w.records w.retHead q) (ht : w.retTail = q.getLast?)
    (hv : linked (w.releaseUpTo applied fuel).records (w.releaseUpTo applied fuel).retHead (q.drop k)) :
    (w.releaseUpTo applied fuel).retTail = (q.drop k).getLast? := by
  have empty : w.retHead = none → w.retTail = none := fun h => by
    rw [linked_head hq, List.head?_eq_none_iff] at h
    rw [ht, h]
    rfl
  rw [PoolWork.releaseUpTo_tail applied fuel w empty, linked_head hv, ht, List.getLast?_drop]
  by_cases h : q.length ≤ k
  · rw [if_pos h, if_pos (List.head?_eq_none_iff.2 (List.drop_eq_nil_of_le h))]
  · rw [if_neg h, if_neg (by rw [List.head?_eq_none_iff, List.drop_eq_nil_iff]; exact h)]

/-- An operation that ends by completing a slot and then settles: the pool is as its work left it, the slot shows its result, and
nothing else is touched. -/
theorem State.finish_done_settled (w : PoolWork) (n : SlotId) (r : OrderResult) (ed : Edition) (s : State) (hm : s.memOk) :
    let t := State.stamp s ((s.finishPool w).doneSlot n r ed).settle
    (∀ {α : Type} (g : Pool → α), (∀ (p : Pool) a b, g { p with queue := a, waiting := b } = g p) →
      g t.pool = g (Pool.finish w s.pool)) ∧
    t.slotShows n 3 r.code r.w0 r.w1 r.w2 r.w3 ed s.clock ∧ t.orders.taken[n] = none ∧ t.hasAttn .orderDone ∧
    t.clock = s.clock ∧ t.self = s.self ∧ Rest { slots := (· = n) } (s.updPool (Pool.finish w)) t := by
  obtain ⟨_, fmem, _, _, fclock, fself, _, _⟩ := State.finishPool_frame w s
  obtain ⟨G, hG⟩ : ∃ G, G = (s.finishPool w).doneSlot n r ed := ⟨_, rfl⟩
  have hmem : (s.finishPool w).memOk := by rw [State.memOk, fmem]; exact hm
  have after : Rest {} G (State.stamp s G.settle) := (Rest.settle G).stamp s
  have own : Rest { slots := (· = n) } (s.updPool (Pool.finish w)) G := by
    rw [hG]
    exact (Rest.finishPool w s).widen.trans (Rest.completeSlot n _ r ed _)
  have pool : G.pool = Pool.finish w s.pool := by rw [hG, ← State.finishPool_pool]; simp
  have shows_ : G.slotShows n 3 r.code r.w0 r.w1 r.w2 r.w3 ed s.clock := by
    rw [hG, ← fclock]
    exact State.completeSlot_shows n _ r ed _ hmem
  have done : G.hasAttn .orderDone := by
    rw [hG, State.hasAttn, State.doneSlot, State.completeSlot_attention]
    exact attn_hasOr _ _
  have gone : G.orders.taken[n] = none := by rw [hG, State.doneSlot, State.completeSlot_taken, if_pos rfl]
  have hmG : G.memOk := by
    rw [hG]
    exact State.completeSlot_memOk n _ r ed _ hmem
  obtain ⟨hshows, htaken, hattn⟩ := after.shows_after hmG n gone shows_ done
  rw [← hG]
  refine ⟨fun g hg => after.pool_of_finish (by rw [pool]) g hg, hshows, htaken, hattn, ?_, ?_, own.trans after.widen⟩
  · rw [State.stamp_clock, State.settle_clock, hG, (State.doneSlot_frame n r ed _).1, fclock]
  · rw [State.stamp_self, (State.settle_frame G).2.1, hG, (State.doneSlot_frame n r ed _).2.2.2.1, fself]

/-- What a RELEASE order reports: the applied edition and the number freed (R22, R175). -/
def releaseResult (applied : Edition) (freed : Nat) : OrderResult :=
  { code := 0, w0 := applied.extractLsb' 0 16, w1 := applied.extractLsb' 16 16, w2 := BitVec.ofNat 16 freed }

theorem State.runRelease_eq (applied : Edition) (n : SlotId) (s : State) : s.runRelease applied n =
    (s.finishPool (s.releaseWork applied)).doneSlot n
      (releaseResult applied ((s.releaseWork applied).freeCount - s.pool.freeCount)) s.sweep.openEdition := by
  obtain ⟨_, _, _, _, _, _, _, fsweep⟩ := State.finishPool_frame (s.releaseWork applied) s
  show (s.finishPool (s.releaseWork applied)).doneSlot n _ (s.finishPool (s.releaseWork applied)).sweep.openEdition = _
  rw [fsweep]
  rfl

theorem execRelease_eq {e : Edition} {n : SlotId} {o : PoolOp} {s : State} (h : s.operates (.release e n) o) :
    exec .release s = .next (State.stamp s (s.runRelease o.applied n).settle) := by
  refine congrArg Host.Outcome.next (runOperation_eq h _ _ ?_)
  obtain ⟨_, _, hreq⟩ := h
  rw [hreq]

/-- A release reclaims nothing and leaves the live records: these are what its end writes of the pool. -/
theorem State.updPool_finish_release {w : PoolWork} {s : State} (live : w.liveCount = s.pool.liveCount) (taken : w.reclaimed = 0) :
    s.updPool (Pool.finish w) =
      { s with pool := { s.pool with records := w.records, freeTop := w.freeTop, freeCount := w.freeCount,
                                     retHead := w.retHead, retTail := w.retTail, retCount := w.retCount,
                                     revision := s.pool.revision + 1, op := none } } := by
  unfold State.updPool Pool.finish
  rw [live, taken, satAdd32_zero]

/-- Settles O28. -/
theorem releaseFreesThePrefix : Obligations.ReleaseFreesThePrefix := by
  unfold Obligations.ReleaseFreesThePrefix
  intro o e n q f s hop hm hq hf hn gone
  let w := s.releaseWork o.applied
  have hlen : q.length ≤ walkFuel 0 := (nodup_length (List.nodup_append.1 hn).1).trans (by decide)
  obtain ⟨queue, stack, zeroed, kept, free, ret, live, taken, _⟩ :=
    PoolWork.releaseUpTo_spec o.applied (walkFuel 0) q f (PoolWork.start s.pool DirEntry.vacant) hq hf hn hlen gone rfl
  have tail := fun ht => PoolWork.releaseUpTo_last o.applied (walkFuel 0) (PoolWork.start s.pool DirEntry.vacant) hq ht queue
  have freed : w.freeCount - s.pool.freeCount = gone.length :=
    (congrArg (· - s.pool.freeCount) free).trans (Nat.add_sub_cancel_left ..)
  have hexec := execRelease_eq hop
  rw [State.runRelease_eq, freed] at hexec
  obtain ⟨pool, shows_, htaken, hattn, clock, self, rest⟩ :=
    State.finish_done_settled w n (releaseResult o.applied gone.length) s.sweep.openEdition s hm
  refine ⟨_, hexec, ?_⟩
  have records : _ = w.records := pool (·.records) fun _ _ _ => rfl
  have top : _ = w.freeTop := pool (·.freeTop) fun _ _ _ => rfl
  have head : _ = w.retHead := pool (·.retHead) fun _ _ _ => rfl
  have last : _ = w.retTail := pool (·.retTail) fun _ _ _ => rfl
  have nfree : _ = w.freeCount := pool (·.freeCount) fun _ _ _ => rfl
  have nret : _ = w.retCount := pool (·.retCount) fun _ _ _ => rfl
  rw [records, top, head, last, nfree, nret, ← State.updPool_finish_release (w := w) live taken]
  exact ⟨queue, stack, zeroed, kept, free, ret, tail, shows_, hattn, htaken, clock, self, rest⟩

end Sys2Proof.Machine
end

section
/-! SUPPORT. The read list: which entries survive screening (R29, R30). -/

namespace Sys2Proof.Machine

/-- The entry stands in the list with no entry of its identity before it (R29). -/
def ReadEntry.firstIn (e : ReadEntry) (l : List ReadEntry) : Prop :=
  ∃ l1 l2, l = l1 ++ e :: l2 ∧ ∀ x ∈ l1, ¬ (x.code = e.code ∧ x.mode = e.mode)

theorem ReadEntry.sameIdent_iff {a b : ReadEntry} : a.sameIdent b = true ↔ a.code = b.code ∧ a.mode = b.mode := by
  simp [ReadEntry.sameIdent]

theorem ReadEntry.firstIn_nil (e : ReadEntry) : ¬ e.firstIn [] := by
  rintro ⟨l1, l2, h, _⟩
  cases l1 <;> cases h

theorem ReadEntry.firstIn_cons {e y : ReadEntry} {l : List ReadEntry} :
    e.firstIn (y :: l) ↔ y = e ∨ (¬ (y.code = e.code ∧ y.mode = e.mode) ∧ e.firstIn l) := by
  constructor
  · rintro ⟨l1, l2, h, before⟩
    cases l1 with
    | nil => exact .inl (List.cons.inj h).1
    | cons a l1 =>
      obtain ⟨rfl, rfl⟩ := List.cons.inj h
      exact .inr ⟨before _ List.mem_cons_self, l1, l2, rfl, fun x hx => before x (List.mem_cons_of_mem _ hx)⟩
  · rintro (rfl | ⟨hy, l1, l2, rfl, before⟩)
    · exact ⟨[], l, rfl, fun _ h => absurd h List.not_mem_nil⟩
    · exact ⟨y :: l1, l2, rfl, List.forall_mem_cons.2 ⟨hy, before⟩⟩

/-- What screening keeps: no code 0, no identity entered already, and of each identity the first entry alone. -/
theorem mem_screenFrom {seen l : List ReadEntry} {e : ReadEntry} : e ∈ screenFrom seen l ↔
    e.code ≠ 0 ∧ (∀ x ∈ seen, ¬ (x.code = e.code ∧ x.mode = e.mode)) ∧ e.firstIn l := by
  induction l generalizing seen with
  | nil => exact ⟨fun h => absurd h List.not_mem_nil, fun h => absurd h.2.2 e.firstIn_nil⟩
  | cons y l ih =>
    rw [ReadEntry.firstIn_cons, screenFrom]
    split
    · next dropped =>
      -- an entry of a dropped one's identity is itself dropped
      have other : e.code ≠ 0 → (∀ x ∈ seen, ¬ (x.code = e.code ∧ x.mode = e.mode)) → ¬ (y.code = e.code ∧ y.mode = e.mode) := by
        rintro code fresh ⟨hc, hm⟩
        rcases dropped with zero | again
        · exact code (hc ▸ zero)
        · obtain ⟨x, hx, same⟩ := List.any_eq_true.1 again
          obtain ⟨kc, km⟩ := ReadEntry.sameIdent_iff.1 same
          exact fresh x hx ⟨kc.symm.trans hc, km.symm.trans hm⟩
      rw [ih]
      refine and_congr_right fun code => and_congr_right fun fresh => ?_
      have hy := other code fresh
      exact ⟨fun h => .inr ⟨hy, h⟩, fun h => h.elim (fun x => absurd ⟨by rw [x], by rw [x]⟩ hy) And.right⟩
    · next kept =>
      obtain ⟨code, fresh⟩ := not_or.1 kept
      have fresh : ∀ x ∈ seen, ¬ (x.code = y.code ∧ x.mode = y.mode) := fun x hx h =>
        fresh (List.any_eq_true.2 ⟨x, hx, ReadEntry.sameIdent_iff.2 ⟨h.1.symm, h.2.symm⟩⟩)
      rw [List.mem_cons, ih, List.forall_mem_cons]
      constructor
      · rintro (rfl | ⟨hc, ⟨hy, hs⟩, hl⟩)
        · exact ⟨code, fresh, .inl rfl⟩
        · exact ⟨hc, hs, .inr ⟨hy, hl⟩⟩
      · rintro ⟨hc, hs, rfl | ⟨hy, hl⟩⟩
        · exact .inl rfl
        · exact .inr ⟨hc, ⟨hy, hs⟩, hl⟩

theorem mem_readList {l : List ReadEntry} {e : ReadEntry} : e ∈ readList l ↔ e.code ≠ 0 ∧ e.firstIn l := by
  rw [readList, mem_foldr_insertEntry, screen, mem_screenFrom]
  simp

theorem insertEntry_length (e : ReadEntry) (l : List ReadEntry) : (insertEntry e l).length = l.length + 1 := by
  induction l with
  | nil => rfl
  | cons x l ih =>
    unfold insertEntry
    split
    · rw [List.length_cons, ih, List.length_cons]
    · rfl

/-- Sorting loses no entry. -/
theorem readList_length (l : List ReadEntry) : (readList l).length = (screen l).length := by
  unfold readList
  induction screen l with
  | nil => rfl
  | cons e l ih => rw [List.foldr_cons, insertEntry_length, ih, List.length_cons]

theorem screenFrom_length_le (seen l : List ReadEntry) : (screenFrom seen l).length ≤ l.length := by
  induction l generalizing seen with
  | nil => exact Nat.le_refl _
  | cons e l ih =>
    unfold screenFrom
    split
    · exact (ih seen).trans (Nat.le_succ _)
    · exact Nat.succ_le_succ (ih _)

/-- Settles O23: screening decides membership and count, insertion in order the rest. -/
theorem readListScreenedAndSorted : Obligations.ReadListScreenedAndSorted := by
  unfold Obligations.ReadListScreenedAndSorted
  intro l
  refine ⟨readList_ascending l, fun e => mem_readList, ?_⟩
  have le : (screen l).length ≤ l.length := screenFrom_length_le [] l
  rw [screenDrops, decide_eq_true_iff, readList_length]
  omega

end Sys2Proof.Machine
end

section
/-! SUPPORT. The update case of the merge, field by field (R33 to R35). -/

namespace Sys2Proof.Machine

theorem bvMax_toNat {n : Nat} (a b : BitVec n) : (bvMax a b).toNat = max a.toNat b.toNat := by
  unfold bvMax
  split <;> omega

theorem countDelta_eq (old new : Byte) : countDelta old new = (256 + new.toNat - old.toNat) % 256 := by
  unfold countDelta
  rw [BitVec.toNat_sub]
  omega

/-- The occurrence count of an updated record (R33). -/
theorem FaultRecord.updated_cumulative (e : ReadEntry) (x : FaultRecord) : (x.updated e).cumulative.toNat =
    min 16777215 (x.cumulative.toNat + (256 + e.count.toNat - x.lastCount.toNat) % 256) := by
  rw [← countDelta_eq]
  show (BitVec.ofNat 24 (min Config.odoMax _)).toNat = _
  rw [BitVec.toNat_ofNat, Config.odoMax]
  omega

/-- The saturation mark follows the count (R33). -/
theorem FaultRecord.updated_saturated (e : ReadEntry) (x : FaultRecord) : (x.updated e).saturated = true ↔
    x.saturated = true ∨ (x.updated e).cumulative.toNat = 16777215 := by
  rw [FaultRecord.updated_cumulative, ← countDelta_eq]
  show (x.saturated || decide (min Config.odoMax _ = Config.odoMax)) = true ↔ _
  rw [Bool.or_eq_true, decide_eq_true_iff, Config.odoMax]

/-- The odometers widen (R34). -/
theorem FaultRecord.updated_odometers (e : ReadEntry) {x : FaultRecord} (h : x.firstOdo.toNat ≤ x.lastOdo.toNat) :
    (x.updated e).firstOdo.toNat = min x.firstOdo.toNat e.firstOdo.toNat ∧
      (x.updated e).lastOdo.toNat = max x.lastOdo.toNat e.lastOdo.toNat := by
  have first : (x.updated e).firstOdo.toNat = min x.firstOdo.toNat e.firstOdo.toNat := bvMin_toNat _ _
  refine ⟨first, ?_⟩
  show (bvMax (bvMax x.lastOdo e.lastOdo) (x.updated e).firstOdo).toNat = _
  rw [bvMax_toNat, bvMax_toNat, first]
  omega

/-- An update that moves none of the fields it may move leaves the record as it is (R35). -/
theorem FaultRecord.updated_eq_self {e : ReadEntry} {x : FaultRecord} (h1 : (x.updated e).state = x.state)
    (h2 : (x.updated e).lastCount = x.lastCount) (h3 : (x.updated e).cumulative = x.cumulative)
    (h4 : (x.updated e).saturated = x.saturated) (h5 : (x.updated e).activeNow = x.activeNow)
    (h6 : (x.updated e).confirmed = x.confirmed) (h7 : (x.updated e).lamp = x.lamp)
    (h8 : (x.updated e).firstOdo = x.firstOdo) (h9 : (x.updated e).lastOdo = x.lastOdo) : x.updated e = x :=
  calc x.updated e
    _ = { x with
          state := (x.updated e).state, lastCount := (x.updated e).lastCount, cumulative := (x.updated e).cumulative
          saturated := (x.updated e).saturated, activeNow := (x.updated e).activeNow
          confirmed := (x.updated e).confirmed, lamp := (x.updated e).lamp, firstOdo := (x.updated e).firstOdo
          lastOdo := (x.updated e).lastOdo } := rfl
    _ = x := by rw [h1, h2, h3, h4, h5, h6, h7, h8, h9]

/-- A record the update touches is written once, any other stands as it did (R35). -/
theorem PoolWork.update_get (ed : Edition) (e : ReadEntry) (r : RecId) (w : PoolWork) (j : RecId) :
    (w.update ed e r).records[j] =
      if j = r ∧ w.records[r].updated e ≠ w.records[r] then
        { w.records[r].updated e with changed := ed, revision := nextRecordRevision w.records[r].revision }
      else w.records[j] := by
  unfold PoolWork.update
  split
  · next h => exact (if_neg fun x => x.2 h).symm
  · next h =>
    rw [PoolWork.writeRecord_get]
    by_cases hj : j = r
    · rw [if_pos hj, if_pos ⟨hj, h⟩]
    · rw [if_neg hj, if_neg fun x => hj x.1]

/-- What the update leaves in its record beside the changed edition and the revision, written or not. -/
theorem PoolWork.update_same (ed : Edition) (e : ReadEntry) (r : RecId) (w : PoolWork) :
    { (w.update ed e r).records[r] with changed := 0, revision := 0 } = { w.records[r].updated e with changed := 0, revision := 0 } := by
  rw [PoolWork.update_get]
  split
  · rfl
  · next h =>
    by_cases same : w.records[r].updated e = w.records[r]
    · rw [same]
    · exact absurd ⟨rfl, same⟩ h

/-- What is read of an updated record beside these two. -/
theorem PoolWork.update_congr {α : Sort _} (ed : Edition) (e : ReadEntry) (r : RecId) (w : PoolWork) (g : FaultRecord → α)
    (hg : ∀ x c v, g { x with changed := c, revision := v } = g x) :
    g (w.update ed e r).records[r] = g (w.records[r].updated e) := by
  rw [← hg (w.update ed e r).records[r] 0 0, PoolWork.update_same, hg]

/-- Settles O24, field by field of the record as the update leaves it. -/
theorem updateCountsAndWidens : Obligations.UpdateCountsAndWidens := by
  unfold Obligations.UpdateCountsAndWidens
  intro ed e r w odometers x y
  have read : ∀ {α : Type} (g : FaultRecord → α), (∀ x c v, g { x with changed := c, revision := v } = g x) → g y = g (x.updated e) :=
    fun g => PoolWork.update_congr ed e r w g
  have cumulative : y.cumulative = (x.updated e).cumulative := read (·.cumulative) fun _ _ _ => rfl
  have saturated : y.saturated = (x.updated e).saturated := read (·.saturated) fun _ _ _ => rfl
  have firstOdo : y.firstOdo = (x.updated e).firstOdo := read (·.firstOdo) fun _ _ _ => rfl
  have lastOdo : y.lastOdo = (x.updated e).lastOdo := read (·.lastOdo) fun _ _ _ => rfl
  obtain ⟨first, last⟩ := FaultRecord.updated_odometers e odometers
  refine ⟨?_, ?_, read (·.lastCount) fun _ _ _ => rfl, ?_, ?_, ?_, read (·.state) fun _ _ _ => rfl,
    read (·.activeNow) fun _ _ _ => rfl, read (·.confirmed) fun _ _ _ => rfl, read (·.lamp) fun _ _ _ => rfl,
    read (·.owner) fun _ _ _ => rfl, read (·.code) fun _ _ _ => rfl, read (·.mode) fun _ _ _ => rfl,
    read (·.link) fun _ _ _ => rfl, read (·.created) fun _ _ _ => rfl, read (·.retired) fun _ _ _ => rfl, ?_, ?_, ?_⟩
  · rw [cumulative, FaultRecord.updated_cumulative]
  · rw [cumulative, saturated, FaultRecord.updated_saturated]
  · rw [firstOdo, first]
  · rw [lastOdo, last]
  · rw [firstOdo, lastOdo, first, last]
    omega
  · have hy : y = _ := PoolWork.update_get ed e r w r
    split at hy
    · rw [hy]
      exact .inr ⟨rfl, rfl⟩
    · exact .inl hy
  · have hy : y = _ := PoolWork.update_get ed e r w r
    split at hy
    · next h =>
      rintro - ⟨f1, f2, f3, f4, f5, f6, f7, f8, f9⟩
      rw [hy] at f1 f2 f3 f4 f5 f6 f7 f8 f9
      exact h.2 (FaultRecord.updated_eq_self f1 f2 f3 f4 f5 f6 f7 f8 f9)
    · rw [hy]
      rintro (h | h) <;> exact absurd rfl h
  · intro j hj
    rw [PoolWork.update_get, if_neg fun x => hj x.1]

end Sys2Proof.Machine
end

section
/-! SUPPORT. The merge, from the read list and the chain it begins with to the chain and the retired queue it leaves (R32 to R37). -/

namespace Sys2Proof.Machine

/-! ### Identities -/

theorem identLt_ne {c d : Triple} {m n : Byte} (h : identLt c m d n = true) : ¬ (c = d ∧ m = n) := by
  rintro ⟨rfl, rfl⟩
  simp [identLt] at h

theorem identLt_of_not {c d : Triple} {m n : Byte} (hne : ¬ (c = d ∧ m = n)) (h : ¬ identLt c m d n = true) :
    identLt d n c m = true :=
  identLt_total (a := ⟨c, m, 0, false, false, false, 0, 0⟩) (b := ⟨d, n, 0, false, false, false, 0, 0⟩)
    (Bool.not_eq_true _ ▸ fun x => hne (ReadEntry.sameIdent_iff.1 x)) (Bool.not_eq_true _ ▸ h)

/-- No entry of the read list carries the record's identity: the record lapses (R37). -/
def FaultRecord.unread (entries : List ReadEntry) (x : FaultRecord) : Bool :=
  decide (∀ e ∈ entries, ¬ (e.code = x.code ∧ e.mode = x.mode))

theorem FaultRecord.unread_congr (entries : List ReadEntry) {x y : FaultRecord} (hc : x.code = y.code) (hm : x.mode = y.mode) :
    x.unread entries = y.unread entries := by
  unfold FaultRecord.unread
  rw [hc, hm]

theorem FaultRecord.unread_content (entries : List ReadEntry) {x y : FaultRecord} (h : x.content = y.content) :
    x.unread entries = y.unread entries :=
  FaultRecord.unread_congr entries (FaultRecord.content_fields h).2.2.1 (FaultRecord.content_fields h).2.2.2.1

theorem FaultRecord.unread_cons {e : ReadEntry} {entries : List ReadEntry} {x : FaultRecord}
    (h : ¬ (e.code = x.code ∧ e.mode = x.mode)) : x.unread (e :: entries) = x.unread entries := by
  simp only [FaultRecord.unread, List.forall_mem_cons, h, not_false_eq_true, true_and]

theorem FaultRecord.not_unread_cons {e : ReadEntry} {entries : List ReadEntry} {x : FaultRecord}
    (h : e.code = x.code ∧ e.mode = x.mode) : x.unread (e :: entries) = false :=
  decide_eq_false fun k => k e List.mem_cons_self h

/-- A record before the head of an ascending read list is before every entry of it. -/
theorem FaultRecord.unread_of_before {e : ReadEntry} {entries : List ReadEntry} {x : FaultRecord}
    (hs : (e :: entries).Pairwise fun a b => identLt a.code a.mode b.code b.mode = true)
    (h : identLt x.code x.mode e.code e.mode = true) : x.unread (e :: entries) = true := by
  refine decide_eq_true (List.forall_mem_cons.2 ⟨fun k => identLt_ne h ⟨k.1.symm, k.2.symm⟩, fun y hy k => ?_⟩)
  exact identLt_ne (identLt_trans h ((List.pairwise_cons.1 hs).1 y hy)) ⟨k.1.symm, k.2.symm⟩

/-! ### What the record of an entry shows -/

/-- The record stands for the entry: its identity, its count, its flags and the state they give (R35, R36). -/
def ReadEntry.shownBy (e : ReadEntry) (x : FaultRecord) : Prop :=
  x.code = e.code ∧ x.mode = e.mode ∧ x.lastCount = e.count ∧ x.activeNow = e.activeNow ∧ x.confirmed = e.confirmed ∧
    x.lamp = e.lamp ∧ x.state = (if e.activeNow then .active else .stored)

theorem ReadEntry.shownBy_congr {e : ReadEntry} {x y : FaultRecord}
    (h : { x.content with changed := 0 } = { y.content with changed := 0 }) (hy : e.shownBy y) : e.shownBy x := by
  have code : x.code = y.code := congrArg (·.code) h
  have mode : x.mode = y.mode := congrArg (·.mode) h
  have count : x.lastCount = y.lastCount := congrArg (·.lastCount) h
  have active : x.activeNow = y.activeNow := congrArg (·.activeNow) h
  have confirmed : x.confirmed = y.confirmed := congrArg (·.confirmed) h
  have lamp : x.lamp = y.lamp := congrArg (·.lamp) h
  have state : x.state = y.state := congrArg (·.state) h
  unfold ReadEntry.shownBy
  rw [code, mode, count, active, confirmed, lamp, state]
  exact hy

theorem ReadEntry.shownBy_filled (u : UnitId) (ed : Edition) (e : ReadEntry) (next : Option RecId) (x : FaultRecord) :
    e.shownBy (x.filled u ed e next) := ⟨rfl, rfl, rfl, rfl, rfl, rfl, rfl⟩

theorem ReadEntry.shownBy_updated {e : ReadEntry} {x : FaultRecord} (h : e.code = x.code ∧ e.mode = x.mode) :
    e.shownBy (x.updated e) := ⟨h.1.symm, h.2.symm, rfl, rfl, rfl, rfl, rfl⟩

/-! ### The walk -/

/-- The records of the chain's rest that no entry names, in chain order. -/
def PoolWork.lapsing (w : PoolWork) (entries : List ReadEntry) (rem : List RecId) : List RecId :=
  rem.filter fun r => w.records[r].unread entries

theorem PoolWork.lapsing_pos {w : PoolWork} {entries : List ReadEntry} {r : RecId} (rem : List RecId)
    (h : w.records[r].unread entries = true) : w.lapsing entries (r :: rem) = r :: w.lapsing entries rem :=
  List.filter_cons_of_pos h

theorem PoolWork.lapsing_neg {w : PoolWork} {entries : List ReadEntry} {r : RecId} (rem : List RecId)
    (h : w.records[r].unread entries = false) : w.lapsing entries (r :: rem) = w.lapsing entries rem :=
  List.filter_cons_of_neg (by rw [h]; decide)

theorem PoolWork.lapsing_congr {w v : PoolWork} {entries others : List ReadEntry} {rem : List RecId}
    (h : ∀ j ∈ rem, v.records[j].unread others = w.records[j].unread entries) : v.lapsing others rem = w.lapsing entries rem :=
  List.filter_congr h

/-- What a walk that met `entries` and the chain's rest `rem` behind the records `done` has made of `w`: in `rem`'s place stand the
records `placed`, one for each entry, and the records of `rem` not read have joined the retired queue in chain order. -/
structure PoolWork.merged (ed : Edition) (entries : List ReadEntry) (done rem f q : List RecId) (w v : PoolWork)
    (placed f' : List RecId) : Prop where
  holds : v.holds (done ++ placed) f' (q ++ w.lapsing entries rem)
  failed : v.failed = w.failed
  shows : List.Forall₂ (fun (r : RecId) e => e.shownBy v.records[r]) placed entries
  kept : ∀ r ∈ rem, w.records[r].unread entries = false → r ∈ placed
  gone : ∀ r ∈ rem, w.records[r].unread entries = true → v.records[r].content = w.records[r].retiredAs .lapsed ed
  others : ∀ j, j ∉ rem → j ∉ f → v.records[j].content = w.records[j].content

/-- What a retirement stamps is read from the content. -/
theorem FaultRecord.retiredAs_content {st : RecState} {ed : Edition} {x y : FaultRecord} (h : x.content = y.content) :
    x.retiredAs st ed = y.retiredAs st ed := by
  unfold FaultRecord.retiredAs
  rw [h]

section Steps
variable {policy : PoolPolicy} {u : UnitId} {ed : Edition} {e : ReadEntry} {entries : List ReadEntry}
variable {done rem f q placed f' : List RecId} {r : RecId} {w v v' : PoolWork}

theorem PoolWork.merged_nil (h : w.holds (done ++ []) f q) : w.merged ed [] done [] f q w [] f :=
  ⟨(List.append_nil q).symm ▸ h, rfl, .nil, fun _ x => absurd x List.not_mem_nil, fun _ x => absurd x List.not_mem_nil,
    fun _ _ _ => rfl⟩

/-- A record of the chain is in no other place of the chain and not free. -/
theorem PoolWork.holds_head (h : w.holds (done ++ r :: rem) f q) : r ∉ rem ∧ r ∉ f ∧ ∀ j ∈ rem, j ≠ r ∧ j ∉ f := by
  have chain := (List.nodup_append.1 (List.nodup_append.1 (List.nodup_append.1 h.nodup).1).1).2.1
  have notRem := (List.nodup_cons.1 chain).1
  have free := fun j hj => ((PoolWork.holds_apart h).1 j (List.mem_append_right done hj)).1
  exact ⟨notRem, free r List.mem_cons_self, fun j hj => ⟨fun x => notRem (x ▸ hj), free j (List.mem_cons_of_mem r hj)⟩⟩

/-- The link of a chain's record is the record after it. -/
theorem PoolWork.holds_link (h : w.holds (done ++ r :: rem) f q) : w.records[r].link = rem.head? := by
  have rest := linked_split (a := done ++ [r]) (b := rem) (by rw [List.append_assoc]; exact h.onChain)
  rw [if_neg (by simp), List.getLast?_concat] at rest
  exact linked_head rest

/-- The lapse case: a record not read leaves the chain's rest for the retired queue's tail (R37). -/
theorem PoolWork.merged_lapse (h : w.holds (done ++ r :: rem) f q) (hr : w.records[r].unread entries = true)
    (hv : v = w.lapse ed done.getLast? r) (m : v.merged ed entries done rem f (q ++ [r]) v' placed f') :
    w.merged ed entries done (r :: rem) f q v' placed f' := by
  obtain ⟨_, lapsed, content, failed, _⟩ := PoolWork.lapse_spec ed done rem f q r w h
  rw [← hv] at lapsed content failed
  obtain ⟨notRem, notFree, apart⟩ := PoolWork.holds_head h
  have unread := fun j (hj : j ∈ rem) => FaultRecord.unread_content entries (content j (apart j hj).1)
  refine ⟨?_, m.failed.trans failed, m.shows, List.forall_mem_cons.2 ⟨fun x => ?_, fun j hj x => ?_⟩,
    List.forall_mem_cons.2 ⟨fun _ => ?_, fun j hj x => ?_⟩, fun j hj hf => ?_⟩
  · have holds := m.holds
    rwa [PoolWork.lapsing_congr unread, List.append_assoc, List.singleton_append, ← PoolWork.lapsing_pos rem hr] at holds
  · exact absurd (hr.symm.trans x) (by decide)
  · exact m.kept j hj ((unread j hj).trans x)
  · exact (m.others r notRem notFree).trans lapsed
  · rw [m.gone j hj ((unread j hj).trans x), FaultRecord.retiredAs_content (content j (apart j hj).1)]
  · obtain ⟨hr, hj⟩ := List.ne_and_not_mem_of_not_mem_cons hj
    rw [m.others j hj hf, content j hr]

/-- The update case: the record read keeps its place (R35). -/
theorem PoolWork.merged_update (h : w.holds (done ++ r :: rem) f q) (same : e.code = w.records[r].code ∧ e.mode = w.records[r].mode)
    (later : ∀ j ∈ rem, ¬ (e.code = w.records[j].code ∧ e.mode = w.records[j].mode)) (hv : v = w.update ed e r)
    (m : v.merged ed entries (done ++ [r]) rem f q v' placed f') :
    w.merged ed (e :: entries) done (r :: rem) f q v' (r :: placed) f' := by
  obtain ⟨_, kept, _, updated, failed, _⟩ := PoolWork.update_spec ed e (done ++ r :: rem) f q r w h
  rw [← hv] at kept updated failed
  obtain ⟨notRem, notFree, apart⟩ := PoolWork.holds_head h
  have record := fun j (hj : j ∈ rem) => kept j (apart j hj).1
  have unread : ∀ j ∈ rem, v.records[j].unread entries = w.records[j].unread (e :: entries) := fun j hj => by
    rw [record j hj, FaultRecord.unread_cons (later j hj)]
  refine ⟨?_, m.failed.trans failed, .cons ?_ m.shows, List.forall_mem_cons.2 ⟨fun _ => List.mem_cons_self, fun j hj x => ?_⟩,
    List.forall_mem_cons.2 ⟨fun x => ?_, fun j hj x => ?_⟩, fun j hj hf => ?_⟩
  · have holds := m.holds
    rwa [PoolWork.lapsing_congr unread, List.append_assoc, List.singleton_append,
      ← PoolWork.lapsing_neg rem (FaultRecord.not_unread_cons same)] at holds
  · refine ReadEntry.shownBy_congr ?_ (ReadEntry.shownBy_updated same)
    rw [m.others r notRem notFree]
    exact updated
  · exact List.mem_cons_of_mem r (m.kept j hj ((unread j hj).trans x))
  · exact absurd (x.symm.trans (FaultRecord.not_unread_cons same)) (by decide)
  · rw [m.gone j hj ((unread j hj).trans x), record j hj]
  · obtain ⟨hr, hj⟩ := List.ne_and_not_mem_of_not_mem_cons hj
    rw [m.others j hj hf, kept j hr]

/-- The create case: the free stack's top takes its place before the chain's rest (R36). -/
theorem PoolWork.merged_create (h : w.holds (done ++ rem) (r :: f) q)
    (later : ∀ j ∈ rem, ¬ (e.code = w.records[j].code ∧ e.mode = w.records[j].mode))
    (hv : v = (w.create policy u ed e done.getLast? rem.head?).2) (m : v.merged ed entries (done ++ [r]) rem f q v' placed f') :
    w.merged ed (e :: entries) done rem (r :: f) q v' (r :: placed) f' := by
  obtain ⟨_, holds, filled, content, failed⟩ := PoolWork.create_spec policy u ed e done rem f q r w h
  rw [← hv] at holds filled content failed
  obtain ⟨notRem, notFree, apart⟩ := PoolWork.holds_head holds
  have unread : ∀ j ∈ rem, v.records[j].unread entries = w.records[j].unread (e :: entries) := fun j hj => by
    rw [FaultRecord.unread_content entries (content j (apart j hj).1), FaultRecord.unread_cons (later j hj)]
  refine ⟨?_, m.failed.trans failed, .cons ?_ m.shows, fun j hj x => ?_, fun j hj x => ?_, fun j hj hf => ?_⟩
  · have holds := m.holds
    rwa [PoolWork.lapsing_congr unread, List.append_assoc, List.singleton_append] at holds
  · refine ReadEntry.shownBy_congr ?_ (ReadEntry.shownBy_filled u ed e none w.records[r])
    rw [m.others r notRem notFree, filled]
  · exact List.mem_cons_of_mem r (m.kept j hj ((unread j hj).trans x))
  · rw [m.gone j hj ((unread j hj).trans x), FaultRecord.retiredAs_content (content j (apart j hj).1)]
  · obtain ⟨hr, hf⟩ := List.ne_and_not_mem_of_not_mem_cons hf
    rw [m.others j hj hf, content j hr]

end Steps

/-- The walk over the read list and the chain's rest, with a free record for every entry (R32). -/
theorem PoolWork.merge_merged (policy : PoolPolicy) (u : UnitId) (ed : Edition) (fuel : Nat) (entries : List ReadEntry)
    (done rem f q : List RecId) (w : PoolWork) (hs : entries.Pairwise fun a b => identLt a.code a.mode b.code b.mode = true)
    (hc : rem.Pairwise fun a b => w.records[a].before w.records[b]) (h : w.holds (done ++ rem) f q)
    (hf : entries.length ≤ f.length) (fuelOk : entries.length + rem.length < fuel) :
    ∃ placed f', w.merged ed entries done rem f q (w.merge policy u ed fuel entries done.getLast? rem.head?) placed f' := by
  induction fuel generalizing entries done rem f q w with
  | zero => omega
  | succ fuel ih =>
    have create : ∀ (e : ReadEntry) (rest : List ReadEntry), entries = e :: rest →
        (∀ j ∈ rem, identLt e.code e.mode w.records[j].code w.records[j].mode = true) →
        ∃ placed f', w.merged ed (e :: rest) done rem f q ((w.create policy u ed e done.getLast? rem.head?).2.merge policy u ed
          fuel rest (w.create policy u ed e done.getLast? rem.head?).1 rem.head?) placed f' := by
      rintro e rest rfl later
      cases f with
      | nil => simp at hf
      | cons r f =>
        obtain ⟨top, holds, _, content, _⟩ := PoolWork.create_spec policy u ed e done rem f q r w h
        have apart := (PoolWork.holds_head holds).2.2
        obtain ⟨placed, f', m⟩ := ih rest (done ++ [r]) rem f q (w.create policy u ed e done.getLast? rem.head?).2
          (List.pairwise_cons.1 hs).2
          (hc.imp_of_mem fun {a b} ha hb x =>
            (FaultRecord.before_content (content a (apart a ha).1) (content b (apart b hb).1)).2 x)
          (by rw [List.append_assoc]; exact holds) (by simpa using hf) (by simp at fuelOk; omega)
        rw [List.getLast?_concat] at m
        rw [top]
        exact ⟨_, _, PoolWork.merged_create h (fun j hj => identLt_ne (later j hj)) rfl m⟩
    have lapse : ∀ (r : RecId) (rest : List RecId), rem = r :: rest → w.records[r].unread entries = true →
        ∃ placed f', w.merged ed entries done (r :: rest) f q
          ((w.lapse ed done.getLast? r).merge policy u ed fuel entries done.getLast? w.records[r].link) placed f' := by
      rintro r rest rfl unread
      obtain ⟨holds, _, content, _⟩ := PoolWork.lapse_spec ed done rest f q r w h
      have apart := (PoolWork.holds_head h).2.2
      obtain ⟨placed, f', m⟩ := ih entries done rest f (q ++ [r]) (w.lapse ed done.getLast? r) hs
        ((List.pairwise_cons.1 hc).2.imp_of_mem fun {a b} ha hb x =>
          (FaultRecord.before_content (content a (apart a ha).1) (content b (apart b hb).1)).2 x)
        holds hf (by simp at fuelOk; omega)
      rw [PoolWork.holds_link h]
      exact ⟨_, _, PoolWork.merged_lapse h unread rfl m⟩
    cases entries with
    | nil =>
      cases rem with
      | nil => exact ⟨_, _, PoolWork.merged_nil h⟩
      | cons r rem => exact lapse r rem rfl rfl
    | cons e rest =>
      cases rem with
      | nil => exact create e rest rfl fun _ x => absurd x List.not_mem_nil
      | cons r rem =>
        obtain ⟨first, _⟩ := List.pairwise_cons.1 hc
        rw [List.head?_cons, PoolWork.merge]
        dsimp only
        split
        · next same =>
          have later : ∀ j ∈ rem, ¬ (e.code = w.records[j].code ∧ e.mode = w.records[j].mode) := fun j hj x =>
            identLt_ne (first j hj) ⟨same.1.symm.trans x.1, same.2.symm.trans x.2⟩
          obtain ⟨holds, kept, _⟩ := PoolWork.update_spec ed e (done ++ r :: rem) f q r w h
          have apart := (PoolWork.holds_head h).2.2
          obtain ⟨placed, f', m⟩ := ih rest (done ++ [r]) rem f q (w.update ed e r) (List.pairwise_cons.1 hs).2
            ((List.pairwise_cons.1 hc).2.imp_of_mem fun {a b} ha hb x => by
              rw [kept a (apart a ha).1, kept b (apart b hb).1]; exact x)
            (by rw [List.append_assoc]; exact holds) (Nat.le_of_succ_le hf) (by simp at fuelOk; omega)
          rw [List.getLast?_concat, ← PoolWork.holds_link h] at m
          exact ⟨_, _, PoolWork.merged_update h same later rfl m⟩
        · next differ =>
          split
          · next hlt =>
            exact create e rest rfl (List.forall_mem_cons.2 ⟨hlt, fun j hj => identLt_trans hlt (first j hj)⟩)
          · next hge => exact lapse r rem rfl (FaultRecord.unread_of_before hs (identLt_of_not differ hge))

/-- Settles O27: the whole chain is the walk's rest, with no record behind it. -/
theorem mergeLeavesTheReadList : Obligations.MergeLeavesTheReadList := by
  unfold Obligations.MergeLeavesTheReadList
  intro policy u ed entries chain f q w hs hc h hf v gone
  have fuel : entries.length + chain.length < walkFuel entries.length := by
    have := nodup_length (List.nodup_append.1 (List.nodup_append.1 h.nodup).1).1
    simp only [walkFuel, Config.poolSize]
    omega
  obtain ⟨placed, f', m⟩ := PoolWork.merge_merged policy u ed (walkFuel entries.length) entries [] chain f q w hs hc h hf fuel
  rw [List.getLast?_nil, ← linked_head h.onChain] at m
  have unread : ∀ {r : RecId}, r ∈ chain → (r ∈ gone ↔ w.records[r].unread entries = true) := fun hr =>
    List.mem_filter.trans (and_iff_right hr)
  refine ⟨placed, f', m.holds, m.failed, m.shows, fun r hr x => m.kept r hr (Bool.not_eq_true _ ▸ fun y => x ((unread hr).2 y)),
    fun r hr => ?_⟩
  have inChain : r ∈ chain := (List.mem_filter.1 hr).1
  have lapsed : v.records[r].content = w.records[r].retiredAs .lapsed ed := m.gone r inChain ((unread inChain).1 hr)
  exact ⟨congrArg (·.state) lapsed, congrArg (·.retired) lapsed, congrArg (·.changed) lapsed, congrArg (·.code) lapsed,
    congrArg (·.mode) lapsed, congrArg (·.cumulative) lapsed⟩

end Sys2Proof.Machine
end

section
/-! SUPPORT. What follow-up work makes of one entry and of one context, and how a sweep returns to IDLE (R94, R147, R150, R157, R158). -/

namespace Sys2Proof.Machine

/-! ### One directory entry -/

/-- What a sweep's start writes of one entry (R147). -/
theorem State.markUnit_dir (mask : BitVec 4) (u : UnitId) (s : State) : (s.markUnit mask u).dir =
    (s.writeEntry u fun e =>
      { e with mark := (s.startMark mask u).1
               lastOutcome := if (s.startMark mask u).2 = .faulty then .faultySkipped else e.lastOutcome }).dir := by
  unfold State.markUnit
  dsimp only
  split <;> rfl

theorem State.markUnit_other (mask : BitVec 4) {u v : UnitId} (hv : v ≠ u) (s : State) :
    (s.markUnit mask u).dir[v] = s.dir[v] := by
  rw [State.markUnit_dir, State.writeEntry_get, if_neg fun x => hv x.1]

/-- FAULTY_SKIPPED is written of a FAULTY unit alone, and never of unit 0 (R60, R147). -/
theorem State.startMark_faulty {s : State} {mask : BitVec 4} {u : UnitId} (h : (s.startMark mask u).2 = .faulty) :
    s.dir[u].state = .faulty ∧ u ≠ 0 := by
  unfold State.startMark at h
  dsimp only at h
  split at h
  · split at h <;> cases h
  · next hu =>
    refine ⟨?_, hu⟩
    by_contra hf
    rw [if_neg hf] at h
    repeat' split at h
    all_goals cases h

section
variable {P : DirEntry → Prop} {u : UnitId}

/-- What the mark of its own unit keeps of an entry, the start of a sweep keeps. -/
theorem State.startSweep_entry (hmark : ∀ (mask : BitVec 4) (t : State), P t.dir[u] → P (t.markUnit mask u).dir[u])
    (origin : SweepOrigin) (mask : BitVec 4) (budget : Nat) {s : State} (h : P s.dir[u]) :
    P (s.startSweep origin mask budget).dir[u] := by
  have marked : ∀ t : State, t.dir = s.dir → P (forEach allUnits (State.markUnit mask) t).dir[u] := fun t ht => by
    refine forEach_invariant (fun x : State => P x.dir[u]) _ (fun v x hx => ?_) _ _ (by rw [ht]; exact h)
    by_cases hv : u = v
    · exact hv ▸ hmark mask x hx
    · rwa [State.markUnit_other mask hv]
  have woken : ∀ t : State, t.dir = s.dir →
      P (forEach allChans State.wakeChannel (forEach allUnits (State.markUnit mask) t)).dir[u] := fun t ht => by
    rw [forEach_keeps State.dir State.wakeChannel (by simp)]
    exact marked t ht
  unfold State.startSweep
  dsimp only
  split
  · simp only [State.offer_frame]
    exact woken _ (by simp)
  · exact woken _ (by simp)

theorem State.sweepTest_entry (hmark : ∀ (mask : BitVec 4) (t : State), P t.dir[u] → P (t.markUnit mask u).dir[u]) {s : State}
    (h : P s.dir[u]) : P s.sweepTest.dir[u] := by
  unfold State.sweepTest State.finishSweep
  dsimp only
  split
  · split
    · exact State.startSweep_entry hmark _ _ _ (by simpa using h)
    · simpa using h
  · exact h

/-- An assignment takes no entry but one it may take, and unit 0's never (R68, R95). -/
theorem State.nextUnit_some {s : State} {v : UnitId} {p : Purpose} (h : s.nextUnit = some (v, p)) :
    v ≠ 0 ∧ s.dir[v].assignable p = true := by
  refine ⟨?_, State.nextUnit_assignable h⟩
  have nonzero : ∀ {w : UnitId} {p : Purpose}, s.eligible w p = true → w ≠ 0 := fun h => by
    unfold State.eligible at h
    simp only [Bool.and_eq_true, bne_iff_ne] at h
    exact h.1.1.1.1.1
  unfold State.nextUnit at h
  split at h
  · next w hw =>
    cases h
    have eligible := List.find?_some hw
    exact nonzero eligible
  · obtain ⟨w, hw, e⟩ := Option.map_eq_some_iff.1 h
    cases e
    have eligible := List.find?_some hw
    exact nonzero eligible

/-- What an assignment writes of the directory (R54, R58). -/
theorem State.assign_dir (k : CtxId) (v : UnitId) (p : Purpose) (s : State) :
    (s.assign k v p).dir = (s.writeEntry v (DirEntry.assigned p)).dir := by
  unfold State.assign
  simp

theorem State.allocate_entry
    (hassign : ∀ (e : DirEntry) p r, u ≠ 0 → e.assignable p = true → P e → P { e.assigned p with revision := r })
    (n : Nat) {s : State} (h : P s.dir[u]) : P (s.allocate n).dir[u] := by
  refine State.allocate_induct (fun t => P t.dir[u]) (fun k v p t _ hv x => ?_) n s h
  obtain ⟨nonzero, assignable⟩ := State.nextUnit_some hv
  rw [State.assign_dir, State.writeEntry_get]
  split
  · next hu =>
    obtain ⟨rfl, _⟩ := hu
    exact hassign _ p _ nonzero assignable x
  · exact x

/-- What the start of a sweep and an assignment keep of an entry, follow-up work keeps. -/
theorem State.settle_entry (hmark : ∀ (mask : BitVec 4) (t : State), P t.dir[u] → P (t.markUnit mask u).dir[u])
    (hassign : ∀ (e : DirEntry) p r, u ≠ 0 → e.assignable p = true → P e → P { e.assigned p with revision := r })
    {s : State} (h : P s.dir[u]) : P s.settle.dir[u] := by
  refine State.allocate_entry hassign 8 ?_
  rw [(State.closeTest_frame _).2.1]
  exact State.sweepTest_entry hmark (State.sweepTest_entry hmark h)

end

/-! ### One context -/

theorem State.updCtx_leaves {k j : CtxId} {f : Context → Context} {s : State} (hf : (f s.ctxs[j]).state ≠ .committing)
    (h : s.ctxs[k].state ≠ .committing) : (s.updCtx j f).ctxs[k].state ≠ .committing := by
  rw [State.updCtx_get]
  split
  · exact hf
  · exact h

theorem State.placeGranted_leaves {k : CtxId} (j : CtxId) {s : State} (h : s.ctxs[k].state ≠ .committing) :
    (s.placeGranted j).ctxs[k].state ≠ .committing := by
  unfold State.placeGranted
  dsimp only
  rw [State.sendFrame_get]
  simp only [State.updCtx_get]
  by_cases hk : k = j
  · subst hk
    simp only [if_pos]
    split
    · decide
    · exact h
  · rw [if_neg hk, if_neg hk]
    exact h

theorem State.joinLine_leaves {k : CtxId} (j : CtxId) (need : Nat) {s : State} (h : s.ctxs[k].state ≠ .committing)
    (hj : s.ctxs[j].state ≠ .committing) : (s.joinLine j need).ctxs[k].state ≠ .committing := by
  have joined : (s.updCtx j fun c => { c with creditNeed := need }).ctxs[k].state ≠ .committing := State.updCtx_leaves hj h
  unfold State.joinLine
  dsimp only
  split
  · exact State.serveLine_induct (fun t => t.ctxs[k].state ≠ .committing) _ (fun _ _ x => x)
      (fun j _ x => State.placeGranted_leaves j x) _ _ joined
  · exact joined

/-- An assignment sets its context to PACED and, granted at once, to OPENING; it makes none COMMITTING (R96, R99). -/
theorem State.assign_leaves {k : CtxId} (j : CtxId) (u : UnitId) (p : Purpose) {s : State} (h : s.ctxs[k].state ≠ .committing) :
    (s.assign j u p).ctxs[k].state ≠ .committing := by
  refine State.joinLine_leaves j _ (State.updCtx_leaves (by simp [Context.beginOpening]) ?_) ?_
  · simpa using h
  · rw [State.updCtx_get, if_pos rfl]
    simp [Context.beginOpening]

/-- Follow-up work makes no context COMMITTING. -/
theorem State.settle_leaves {k : CtxId} {s : State} (h : s.ctxs[k].state ≠ .committing) : s.settle.ctxs[k].state ≠ .committing := by
  refine State.allocate_induct (fun t => t.ctxs[k].state ≠ .committing) (fun j u p _ _ _ x => State.assign_leaves j u p x) 8 _ ?_
  simpa using h

/-! ### A sweep that waits, and one that ends -/

/-- A sweep that waits for some unit goes on, and its edition stays open (R150, R157). -/
theorem State.settle_waiting {s : State} (hs : s.sweep.state ≠ .idle) (hp : s.anyPending = true) : s.settle = s.allocate 8 := by
  have ok : s.sweepOk := fun _ => hp
  have open_ : s.closeReady = false := by
    unfold State.closeReady
    simp [hs]
  unfold State.settle State.closeTest
  rw [State.sweepTest_of_sweepOk ok, State.sweepTest_of_sweepOk ok, open_]
  rfl

/-- The sweep record of a sweep that returns to IDLE (R150, R153). -/
def SweepCtl.finished (now : Clock) (w : SweepCtl) : SweepCtl :=
  { w with state := .idle, outcome := if w.state = .draining then w.outcome else .complete, endClock := now, budgetTimer := none }

/-- The return to IDLE with no auto-due to follow: the record, and what its SWEEP order is handed. -/
def State.finished (s : State) : State := (s.updSweep (SweepCtl.finished s.clock)).handToOrder

theorem State.finishSweep_calm {s : State} (ha : s.sweep.autoDue = false) : s.finishSweep = s.finished := by
  have calm : ¬ s.finished.sweep.autoDue = true := by
    rw [State.finished, State.handToOrder_sweep]
    exact Bool.not_eq_true _ ▸ ha
  exact if_neg calm

theorem State.finished_sweep (s : State) : s.finished.sweep = SweepCtl.finished s.clock s.sweep := State.handToOrder_sweep _

/-- With no auto-due set, the sweep's two tests are its one return to IDLE, if no unit is PENDING (R150, R153). -/
theorem State.settle_calm {s : State} (ha : s.sweep.autoDue = false) :
    s.settle = ((if s.sweep.state ≠ .idle ∧ s.anyPending = false then s.finished else s).closeTest).allocate 8 := by
  unfold State.settle
  by_cases h : s.sweep.state ≠ .idle ∧ s.anyPending = false
  · have first : s.sweepTest = s.finished := (if_pos h).trans (State.finishSweep_calm ha)
    have idle : s.finished.sweepOk := fun x => absurd (congrArg SweepCtl.state s.finished_sweep) x
    rw [first, State.sweepTest_of_sweepOk idle, if_pos h]
  · have first : s.sweepTest = s := if_neg h
    rw [first, first, if_neg h]

theorem State.finished_dir (s : State) : s.finished.dir = s.dir := by
  unfold State.finished
  simp

/-- With no auto-due set follow-up work marks no unit. -/
theorem State.settle_mark {s : State} (ha : s.sweep.autoDue = false) (v : UnitId) : s.settle.dir[v].mark = s.dir[v].mark := by
  rw [State.settle_calm ha]
  refine State.allocate_induct (fun t => t.dir[v].mark = s.dir[v].mark) (fun k u p t _ _ x => (State.assign_mark k u p t v).trans x) 8 _ ?_
  have dir : (if s.sweep.state ≠ .idle ∧ s.anyPending = false then s.finished else s).dir = s.dir := by
    split
    · exact s.finished_dir
    · rfl
  rw [(State.closeTest_frame _).2.1, dir]

/-- What a close leaves of the sweep record: all but the edition's fields (R157). -/
theorem State.closeTest_sweep {α : Sort _} (g : SweepCtl → α) (hg : ∀ now cause w, g (SweepCtl.closed now cause w) = g w) (s : State) :
    g s.closeTest.sweep = g s.sweep := by
  unfold State.closeTest
  split
  · rw [State.closeEdition_sweep, hg]
  · rfl

/-- With no auto-due set follow-up work counts nothing. -/
theorem State.settle_tallies {s : State} (ha : s.sweep.autoDue = false) : s.settle.sweep.tallies = s.sweep.tallies := by
  rw [State.settle_calm ha, (State.allocate_frame 8 _).2.2.2.2.1, State.closeTest_sweep (·.tallies) fun _ _ _ => rfl]
  split
  · rw [State.finished_sweep]
    rfl
  · rfl

/-! ### The SWEEP order of a sweep that ends -/

/-- The SWEEP order of the sweep's slot is handed the outcome and the tallies (R158). -/
theorem State.finished_taken {s : State} {n : SlotId} {x : Taken} {mask : BitVec 4} {budget : Nat} (hx : s.orders.taken[n] = some x)
    (ho : x.order = .sweep mask budget) (hr : x.sweepResult = none) (origin : s.sweep.origin = .slot n) :
    s.finished.orders.taken[n] = some (x.withResult (SweepCtl.finished s.clock s.sweep).result) := by
  have hor : (s.updSweep (SweepCtl.finished s.clock)).sweep.origin = .slot n := origin
  have htk : (s.updSweep (SweepCtl.finished s.clock)).orders.taken[n] = some x := hx
  unfold State.finished State.handToOrder
  rw [hor]
  dsimp only
  rw [htk]
  dsimp only
  rw [ho, hr]
  dsimp only
  rw [State.setTaken_get, if_pos rfl]
  rfl

/-- A slot completed DONE shows its result through what follows (R168). -/
theorem Rest.shows_done {n : SlotId} {r : OrderResult} {ed : Edition} {s t : State} (h : Rest {} (s.doneSlot n r ed) t)
    (hm : s.memOk) :
    t.slotShows n 3 r.code r.w0 r.w1 r.w2 r.w3 ed s.clock ∧ t.orders.taken[n] = none ∧ t.hasAttn .orderDone := by
  refine h.shows_after (State.completeSlot_memOk n _ r ed s hm) n ?_ (State.completeSlot_shows n _ r ed s hm) ?_
  · rw [State.doneSlot, State.completeSlot_taken, if_pos rfl]
  · rw [State.hasAttn, State.doneSlot, State.completeSlot_attention]
    exact attn_hasOr _ _

/-- What waits at the close in a SWEEP order's slot completes with its sweep's result (R158, R174). -/
theorem State.completeSweepOrders_shows {ed : Edition} {l : List SlotId} (hl : l.Nodup) {s : State} (hm : s.memOk) {n : SlotId}
    (hn : n ∈ l) {y : Taken} (hy : s.orders.taken[n] = some y) {mask : BitVec 4} {budget : Nat} (ho : y.order = .sweep mask budget)
    {r : SweepResult} (hr : y.sweepResult = some r) :
    let t := forEach l (State.completeSweepOrder ed) s
    t.slotShows n 3 r.outcome.result (ed.extractLsb' 0 16) (ed.extractLsb' 16 16) (BitVec.ofNat 16 r.readOk)
      (BitVec.ofNat 16 r.truncated) y.edition s.clock ∧ t.orders.taken[n] = none ∧ t.hasAttn .orderDone := by
  induction l generalizing s with
  | nil => cases hn
  | cons a l ih =>
    obtain ⟨ha, hl⟩ := List.nodup_cons.1 hl
    by_cases same : n = a
    · subst same
      have first : s.completeSweepOrder ed n = s.doneSlot n (sweepResultWords ed r) y.edition := by
        unfold State.completeSweepOrder
        rw [hy]
        dsimp only
        rw [ho, hr]
      have after := Rest.forEach _ (Rest.completeSweepOrder ed) l (s.doneSlot n (sweepResultWords ed r) y.edition)
      have key := after.shows_done hm
      rwa [← first] at key
    · have hy' : (s.completeSweepOrder ed a).orders.taken[n] = some y := by
        unfold State.completeSweepOrder
        split
        · split
          · rw [State.doneSlot, State.completeSlot_taken, if_neg same, hy]
          · exact hy
        · exact hy
      have key := ih hl ((Rest.completeSweepOrder ed a s).mem hm).1 ((List.mem_cons.1 hn).resolve_left same) hy'
      rwa [(State.completeSweepOrder_frame ed a s).1] at key

theorem sweepCode_eq (out : SweepOutcome) : out.result = sweepCode out := by
  cases out <;> rfl

/-- The result handed to a SWEEP order leaves every slot its order. -/
theorem State.handToOrder_order {s : State} {n : SlotId} {y : Taken} (h : s.handToOrder.orders.taken[n] = some y) :
    ∃ x, s.orders.taken[n] = some x ∧ y.order = x.order := by
  unfold State.handToOrder at h
  split at h
  · exact ⟨y, h, rfl⟩
  · split at h
    · exact ⟨y, h, rfl⟩
    · next t ht =>
      split at h
      · rw [State.setTaken_get] at h
        split at h
        · next hn =>
          cases h
          exact ⟨t, hn ▸ ht, rfl⟩
        · exact ⟨y, h, rfl⟩
      · exact ⟨y, h, rfl⟩

theorem State.finished_nothingKeeps {s : State} (h : s.nothingKeeps) : s.finished.nothingKeeps := by
  obtain ⟨orders, requests, operation⟩ := h
  have pool : s.finished.pool = s.pool := by unfold State.finished; simp
  refine ⟨fun n y u hy => ?_, by rwa [pool], by rwa [pool]⟩
  obtain ⟨x, hx, same⟩ := State.handToOrder_order hy
  exact same ▸ orders n x u hx

/-- A close tells the host (R157). -/
theorem State.closeEdition_attn (s : State) : s.closeEdition.hasAttn .editionClosed := by
  obtain ⟨c, hc⟩ : ∃ c, c = (s.updSweep (SweepCtl.closed s.clock .normal)).raiseAttn .editionClosed := ⟨_, rfl⟩
  have raised : c.hasAttn .editionClosed := by
    rw [hc]
    exact attn_hasOr _ _
  have completed : s.closeEdition = forEach allSlots (State.completeSweepOrder s.sweep.openEdition) c := by rw [hc]; rfl
  rw [completed]
  exact hasAttn_rise raised (Rest.forEach _ (Rest.completeSweepOrder s.sweep.openEdition) allSlots c).attention

/-- At the close of an edition a SWEEP order that holds its sweep's result is DONE with it (R158, R174). -/
theorem State.closeEdition_shows {s : State} (hm : s.memOk) {n : SlotId} {y : Taken} (hy : s.orders.taken[n] = some y) {mask : BitVec 4}
    {budget : Nat} (ho : y.order = .sweep mask budget) {r : SweepResult} (hr : y.sweepResult = some r) {t : State}
    (after : Rest {} s.closeEdition t) :
    t.slotShows n 3 r.outcome.result (s.sweep.openEdition.extractLsb' 0 16) (s.sweep.openEdition.extractLsb' 16 16)
      (BitVec.ofNat 16 r.readOk) (BitVec.ofNat 16 r.truncated) y.edition s.clock ∧ t.orders.taken[n] = none := by
  obtain ⟨c, hc⟩ : ∃ c, c = (s.updSweep (SweepCtl.closed s.clock .normal)).raiseAttn .editionClosed := ⟨_, rfl⟩
  have clock : c.clock = s.clock := by rw [hc]; rfl
  have mem : c.mem = s.mem := by rw [hc]; rfl
  have memOk : c.memOk := by rw [State.memOk, mem]; exact hm
  have slot : c.orders.taken[n] = some y := by rw [hc]; exact hy
  have member : ∀ n : SlotId, n ∈ allSlots := by decide
  have completed : s.closeEdition = forEach allSlots (State.completeSweepOrder s.sweep.openEdition) c := by rw [hc]; rfl
  obtain ⟨shown, gone, done⟩ := State.completeSweepOrders_shows (ed := s.sweep.openEdition) (l := allSlots) (by decide) memOk
    (member n) slot ho hr
  rw [clock] at shown
  have memLast := ((Rest.forEach _ (Rest.completeSweepOrder s.sweep.openEdition) allSlots c).mem memOk).1
  rw [completed] at after
  obtain ⟨hshows, htaken, _⟩ := after.shows_after memLast n gone shown done
  exact ⟨hshows, htaken⟩

/-- The edition of a sweep that has ended closes if nothing else keeps it open (R157). -/
theorem State.finished_closes {s : State} (opened : s.sweep.openEdition ≠ 0) (keeps : s.nothingKeeps) :
    s.finished.closeTest = s.finished.closeEdition := by
  refine if_pos (State.closeReady_of (State.finished_nothingKeeps keeps) ?_ ?_)
  · rw [State.finished_sweep]
    exact opened
  · rw [State.finished_sweep]
    rfl

/-- A sweep with no unit PENDING and no auto-due set returns to IDLE at the end of the event, and the edition that nothing else keeps
open closes (R150, R153, R157, R158). -/
theorem State.sweepReturns_settle {s : State} (s0 : State) (hs : s.sweep.state ≠ .idle) (hp : s.anyPending = false)
    (ha : s.sweep.autoDue = false) (hm : s.memOk) (own : SlotId → Prop) :
    s.sweepReturns (State.stamp s0 s.settle) (if s.sweep.state = .draining then s.sweep.outcome else .complete) s.clock own := by
  have settle : s.settle = s.finished.closeTest.allocate 8 := by rw [State.settle_calm ha, if_pos ⟨hs, hp⟩]
  have last : s.settle.sweep = s.finished.closeTest.sweep := by rw [settle, (State.allocate_frame 8 _).2.2.2.2.1]
  -- the sweep's own fields, which the stamp and the close leave
  have field : ∀ {α : Type} (g : SweepCtl → α), (∀ w r, g { w with revision := r } = g w) →
      (∀ now cause w, g (SweepCtl.closed now cause w) = g w) →
      g (State.stamp s0 s.settle).sweep = g (SweepCtl.finished s.clock s.sweep) := fun g hr hc => by
    rw [State.stamp_sweep_congr s0 s.settle g hr, last, State.closeTest_sweep g hc, State.finished_sweep]
  refine ⟨field (·.state) (fun _ _ => rfl) fun _ _ _ => rfl, field (·.outcome) (fun _ _ => rfl) fun _ _ _ => rfl,
    field (·.endClock) (fun _ _ => rfl) fun _ _ _ => rfl, field (·.budgetTimer) (fun _ _ => rfl) fun _ _ _ => rfl,
    fun opened keeps => ?_⟩
  have close := State.finished_closes opened keeps
  have clock : s.finished.clock = s.clock := by unfold State.finished; simp
  have after : Rest {} s.finished.closeEdition (State.stamp s0 s.settle) := by
    rw [settle, close]
    exact (Rest.allocate 8 _).stamp s0
  have edition : ∀ {α : Type} (g : SweepCtl → α), (∀ w r, g { w with revision := r } = g w) →
      g (State.stamp s0 s.settle).sweep = g (SweepCtl.closed s.clock .normal (SweepCtl.finished s.clock s.sweep)) := fun g hr => by
    rw [State.stamp_sweep_congr s0 s.settle g hr, last, close, State.closeEdition_sweep, clock, State.finished_sweep]
  refine ⟨⟨edition (·.openEdition) fun _ _ => rfl, edition (·.openClock) fun _ _ => rfl, edition (·.lastClosed) fun _ _ => rfl,
    edition (·.closeCause) fun _ _ => rfl, edition (·.closeClock) fun _ _ => rfl,
    hasAttn_rise (State.closeEdition_attn _) after.attention⟩, fun n x mask budget _ hx ho hr origin => ?_⟩
  have memOk : s.finished.memOk := by
    have mem : s.finished.mem = s.mem := by unfold State.finished; simp
    rw [State.memOk, mem]
    exact hm
  obtain ⟨shown, gone⟩ := State.closeEdition_shows memOk (State.finished_taken hx ho hr origin) ho rfl after
  rw [State.finished_sweep, clock] at shown
  refine ⟨gone, ?_⟩
  rw [field (·.tallies) (fun _ _ => rfl) fun _ _ _ => rfl, ← sweepCode_eq]
  exact shown

/-- What `sweepReturns` says of the state before: its open edition, what keeps that open, and the sweep's own SWEEP order. -/
theorem State.sweepReturns_congr {s s' t : State} {out : SweepOutcome} {at_ : Clock} {own : SlotId → Prop}
    (hopen : s'.sweep.openEdition = s.sweep.openEdition) (horigin : s'.sweep.origin = s.sweep.origin)
    (hkeeps : s.nothingKeeps → s'.nothingKeeps) (htaken : ∀ n, s.sweepSlot n → s'.orders.taken[n] = s.orders.taken[n])
    (h : s'.sweepReturns t out at_ own) : s.sweepReturns t out at_ own := by
  obtain ⟨idle, outcome, ended, timer, closes⟩ := h
  rw [hopen] at closes
  refine ⟨idle, outcome, ended, timer, fun opened keeps => ?_⟩
  obtain ⟨close, orders⟩ := closes opened (hkeeps keeps)
  refine ⟨?_, fun n x mask budget hown hx ho hr origin => ?_⟩
  · unfold State.closesEdition at close ⊢
    rwa [hopen] at close
  · exact orders n x mask budget hown ((htaken n ⟨x, mask, budget, hx, ho⟩).trans hx) ho hr (horigin.trans origin)

end Sys2Proof.Machine
end

section
/-! SUPPORT. What one event's occurrences leave of an identity in the self history (R63, R64). -/

namespace Sys2Proof.Machine

/-- The self history's entry of an identity. -/
def State.logged (s : State) (code : SelfCode) (mode : Byte) : Option SelfEntry := s.self.entries.find? (SelfEntry.hasIdent code mode)

/-- From `s` to `t` the identity's entry stands as it did, the history has not shrunk and no attention bit has fallen. -/
structure State.keepsLog (s t : State) (code : SelfCode) (mode : Byte) : Prop where
  entry : t.logged code mode = s.logged code mode
  length : s.self.entries.length ≤ t.self.entries.length
  attention : s.port.attention &&& t.port.attention = s.port.attention

theorem State.keepsLog_trans {s t u : State} {code : SelfCode} {mode : Byte} (h : s.keepsLog t code mode) (k : t.keepsLog u code mode) :
    s.keepsLog u code mode :=
  ⟨k.entry.trans h.entry, h.length.trans k.length, and_trans6 h.attention k.attention⟩

theorem Rest.keepsLog {d : Touch} {s t : State} (r : Rest d s t) (h : t.self = s.self) (code : SelfCode) (mode : Byte) :
    s.keepsLog t code mode :=
  ⟨by rw [State.logged, h]; rfl, by rw [h], r.attention⟩

section
variable {s t u : State} {code : SelfCode} {mode : Byte} {active : Bool}

/-- An occurrence logged stays logged through what keeps the identity's entry. -/
theorem State.logs_after (h : s.logs t code mode active) (k : t.keepsLog u code mode) : s.logs u code mode active := by
  have entry : u.self.entries.find? (fun e => e.code == code && e.mode == mode) =
    t.self.entries.find? (fun e => e.code == code && e.mode == mode) := k.entry
  have grew : t.hasAttn .selfGrew → u.hasAttn .selfGrew := fun x => hasAttn_rise x k.attention
  unfold State.logs at h ⊢
  dsimp only at h ⊢
  rw [entry]
  split
  · next e he =>
    rw [he] at h
    exact ⟨h.1, grew h.2⟩
  · next he =>
    rw [he] at h
    exact h.imp (fun x => ⟨x.1, grew x.2⟩) fun x => ⟨x.1, x.2.trans k.length⟩

/-- What comes before an occurrence and leaves its identity's entry and the odometer does not show in it. -/
theorem State.logs_before (h : s.keepsLog t code mode) (hm : t.mem = s.mem) (k : t.logs u code mode active) : s.logs u code mode active := by
  have entry : t.self.entries.find? (fun e => e.code == code && e.mode == mode) =
    s.self.entries.find? (fun e => e.code == code && e.mode == mode) := h.entry
  have odometer : t.odometer = s.odometer := by unfold State.odometer; rw [hm]
  unfold State.logs at k ⊢
  dsimp only at k ⊢
  rwa [entry, odometer] at k

end

theorem SelfEntry.hasIdent_iff {code : SelfCode} {mode : Byte} {e : SelfEntry} :
    e.hasIdent code mode = true ↔ e.code = code ∧ e.mode = mode := by
  simp [SelfEntry.hasIdent]

/-- One more occurrence of an identity, seen at an entry that may carry it (R64). -/
def SelfEntry.counted (code : SelfCode) (mode : Byte) (odo : Triple) (active : Bool) (e : SelfEntry) : SelfEntry :=
  if e.hasIdent code mode then e.again odo active else e

theorem SelfEntry.hasIdent_counted (code c : SelfCode) (mode m : Byte) (odo : Triple) (active : Bool) :
    SelfEntry.hasIdent code mode ∘ SelfEntry.counted c m odo active = SelfEntry.hasIdent code mode := by
  funext e
  unfold SelfEntry.counted
  rw [Function.comp_apply]
  split <;> rfl

/-- The entry of an identity after an occurrence of one is counted. -/
theorem find_counted (code c : SelfCode) (mode m : Byte) (odo : Triple) (active : Bool) (es : List SelfEntry) :
    (es.map (SelfEntry.counted c m odo active)).find? (SelfEntry.hasIdent code mode) =
      (es.find? (SelfEntry.hasIdent code mode)).map (SelfEntry.counted c m odo active) := by
  rw [List.find?_map, SelfEntry.hasIdent_counted]

/-- The entry that an occurrence of a new identity appends (R63, R64). -/
def State.firstEntry (s : State) (code : SelfCode) (mode : Byte) (active : Bool) : SelfEntry :=
  { code := code, mode := mode, count := 1, activeNow := active, firstOdo := s.odometer, lastOdo := s.odometer }

/-- What a logging request makes of the history: it counts the occurrence in the identity's entry, appends one, or meets a full
history (R64). -/
theorem State.logSelf_cases (code : SelfCode) (mode : Byte) (active : Bool) (s : State) :
    let t := s.logSelf code mode active
    (t.self.entries = s.self.entries.map (SelfEntry.counted code mode s.odometer active) ∧ t.hasAttn .selfGrew ∧
        (s.logged code mode).isSome = true) ∨
      (t.self.entries = s.self.entries ++ [s.firstEntry code mode active] ∧ t.hasAttn .selfGrew ∧ s.logged code mode = none) ∨
      (t = s ∧ 64 ≤ s.self.entries.length ∧ s.logged code mode = none) := by
  have absent : ¬ s.self.entries.any (SelfEntry.hasIdent code mode) = true → s.logged code mode = none := fun h =>
    List.find?_eq_none.2 fun e he x => h (List.any_eq_true.2 ⟨e, he, x⟩)
  unfold State.logSelf
  split
  · next present => exact .inl ⟨rfl, attn_hasOr _ _, List.find?_isSome.2 (List.any_eq_true.1 present)⟩
  · next h =>
    split
    · exact .inr (.inl ⟨rfl, attn_hasOr _ _, absent h⟩)
    · next full => exact .inr (.inr ⟨rfl, Nat.le_of_not_lt full, absent h⟩)

/-- One logging request logs one occurrence (R64). -/
theorem State.logs_logSelf (code : SelfCode) (mode : Byte) (active : Bool) (s : State) :
    s.logs (s.logSelf code mode active) code mode active := by
  have cases := State.logSelf_cases code mode active s
  generalize s.logSelf code mode active = t at cases
  have before : s.self.entries.find? (fun e => e.code == code && e.mode == mode) = s.logged code mode := rfl
  have after : t.self.entries.find? (fun e => e.code == code && e.mode == mode) = t.logged code mode := rfl
  unfold State.logs
  dsimp only
  rw [before, after]
  rcases cases with ⟨entries, grew, present⟩ | ⟨entries, grew, absent⟩ | ⟨rfl, full, absent⟩
  · obtain ⟨e, he⟩ := Option.isSome_iff_exists.1 present
    have mine : e.hasIdent code mode = true := List.find?_some he
    have counted : t.logged code mode = (s.logged code mode).map (SelfEntry.counted code mode s.odometer active) := by
      unfold State.logged
      rw [entries, find_counted]
    rw [he] at counted ⊢
    refine ⟨counted.trans ?_, grew⟩
    rw [Option.map_some, SelfEntry.counted, if_pos mine]
    rfl
  · rw [absent]
    refine .inl ⟨?_, grew⟩
    have none : s.self.entries.find? (SelfEntry.hasIdent code mode) = none := absent
    rw [State.logged, entries, List.find?_append, none]
    simp [State.firstEntry, SelfEntry.hasIdent]
  · rw [absent]
    exact .inr ⟨rfl, full⟩

/-- A logging request leaves the entries of other identities (R64). -/
theorem State.logSelf_keepsLog {code c : SelfCode} {mode m : Byte} (hne : ¬ (c = code ∧ m = mode)) (active : Bool) (s : State) :
    s.keepsLog (s.logSelf c m active) code mode := by
  refine ⟨?_, ?_, (Rest.logSelf c m active s).attention⟩
  · rcases State.logSelf_cases c m active s with ⟨entries, _⟩ | ⟨entries, _⟩ | ⟨same, _⟩
    · rw [State.logged, entries, find_counted]
      show (s.logged code mode).map _ = s.logged code mode
      cases he : s.logged code mode with
      | none => rfl
      | some e =>
        have mine := SelfEntry.hasIdent_iff.1 (List.find?_some he)
        rw [Option.map_some, SelfEntry.counted, if_neg fun x => ?_]
        obtain ⟨hc, hm⟩ := SelfEntry.hasIdent_iff.1 x
        exact hne ⟨hc.symm.trans mine.1, hm.symm.trans mine.2⟩
    · rw [State.logged, entries, List.find?_append]
      have other : [s.firstEntry c m active].find? (SelfEntry.hasIdent code mode) = none :=
        List.find?_eq_none.2 fun e he x => by
          rw [List.mem_singleton.1 he] at x
          exact hne (SelfEntry.hasIdent_iff.1 x)
      rw [other, Option.or_none]
      rfl
    · rw [same]
  · rcases State.logSelf_cases c m active s with ⟨entries, _⟩ | ⟨entries, _⟩ | ⟨same, _⟩
    · rw [entries, List.length_map]
    · rw [entries, List.length_append]
      exact Nat.le_add_right _ _
    · rw [same]

/-- An occurrence that may be logged leaves the entries of other identities. -/
theorem State.ite_logSelf_keepsLog {p : Prop} [Decidable p] {code c : SelfCode} {mode m : Byte} (hne : ¬ (c = code ∧ m = mode))
    (active : Bool) (s : State) : s.keepsLog (if p then s.logSelf c m active else s) code mode := by
  split
  · exact State.logSelf_keepsLog hne active s
  · exact (Rest.refl {} s).keepsLog rfl code mode

end Sys2Proof.Machine
end

section
/-! SUPPORT. The end of a pool operation: the directory and the summary written, the context released, the orders completed, the sweep
told, and what of these follow-up work leaves (R23, R40, R41, R44, R148 to R150). -/

namespace Sys2Proof.Machine

/-! ### The two writes -/

/-- The directory's write and the summary's, with which an operation on a unit's chain ends (R15, R39, R44, R46). -/
def State.operated (u : UnitId) (D : DirEntry → DirEntry) (w : PoolWork) (s : State) : State := (s.writeEntry u D).finishPool w

section
variable (u : UnitId) (D : DirEntry → DirEntry) (w : PoolWork) (s : State)

@[simp] theorem State.operated_mem : (s.operated u D w).mem = s.mem := by simp [State.operated, State.finishPool_frame]
@[simp] theorem State.operated_orders : (s.operated u D w).orders = s.orders := by simp [State.operated, State.finishPool_frame]
@[simp] theorem State.operated_ctxs : (s.operated u D w).ctxs = s.ctxs := by simp [State.operated, State.finishPool_frame]
@[simp] theorem State.operated_clock : (s.operated u D w).clock = s.clock := by simp [State.operated, State.finishPool_frame]
@[simp] theorem State.operated_self : (s.operated u D w).self = s.self := by simp [State.operated, State.finishPool_frame]
@[simp] theorem State.operated_sweep : (s.operated u D w).sweep = s.sweep := by simp [State.operated, State.finishPool_frame]
@[simp] theorem State.operated_dir : (s.operated u D w).dir = (s.writeEntry u D).dir := by simp [State.operated, State.finishPool_frame]
@[simp] theorem State.operated_pool : (s.operated u D w).pool = Pool.finish w s.pool := by
  simp [State.operated, State.finishPool_pool]

theorem Rest.operated : Rest { units := (· = u) } (s.updPool (Pool.finish w)) (s.operated u D w) := Rest.writeFinish w s u D

/-- A crossing below 64 free records raises POOL_LOW (R23). -/
theorem State.operated_low (h1 : 64 ≤ s.pool.freeCount) (h2 : w.freeCount < 64) : (s.operated u D w).hasAttn .poolLow :=
  State.finishPool_low w (s.writeEntry u D) (by simpa using h1) h2

end

/-! ### One entry, but for its revision and its mark -/

/-- An entry but for its revision and its sweep mark. -/
def DirEntry.body (e : DirEntry) : DirEntry := { e with revision := 0, mark := .none }

theorem DirEntry.body_congr {α : Sort _} {e f : DirEntry} (h : e.body = f.body) (g : DirEntry → α) (hg : ∀ x, g (DirEntry.body x) = g x) :
    g e = g f := by
  rw [← hg e, h, hg]

theorem State.writeEntry_body {u : UnitId} {f : DirEntry → DirEntry} {s : State} (h : (f s.dir[u]).body = s.dir[u].body) (v : UnitId) :
    (s.writeEntry u f).dir[v].body = s.dir[v].body := by
  rw [State.writeEntry_get]
  split
  · next x => exact x.1 ▸ h
  · rfl

theorem State.operated_body (u : UnitId) (D : DirEntry → DirEntry) (w : PoolWork) (s : State) :
    (s.operated u D w).dir[u].body = (D s.dir[u]).body := by
  have dir : (s.operated u D w).dir[u] = (s.writeEntry u D).dir[u] := by simp
  rw [dir]
  exact State.writeEntry_congr u D s DirEntry.body fun _ _ => rfl

/-- In `t` stand the two writes with which the operation ends, and nothing else has changed but what was logged and raised. -/
structure State.wrote (s t : State) (u : UnitId) (D : DirEntry → DirEntry) (w : PoolWork) : Prop where
  body : t.dir[u].body = (D s.dir[u]).body
  marks : (D s.dir[u]).mark = s.dir[u].mark → ∀ v : UnitId, t.dir[v].mark = s.dir[v].mark
  pool : t.pool = Pool.finish w s.pool
  mem : t.mem = s.mem
  orders : t.orders = s.orders
  ctxs : t.ctxs = s.ctxs
  clock : t.clock = s.clock
  sweep : t.sweep = s.sweep
  low : 64 ≤ s.pool.freeCount → w.freeCount < 64 → t.hasAttn .poolLow
  rest : ∀ {d : Touch} {v : State}, d.units u → Rest d t v → Rest d (s.updPool (Pool.finish w)) v

theorem State.writeEntry_mark {u : UnitId} {f : DirEntry → DirEntry} {s : State} (h : (f s.dir[u]).mark = s.dir[u].mark) (v : UnitId) :
    (s.writeEntry u f).dir[v].mark = s.dir[v].mark := by
  rw [State.writeEntry_get]
  split
  · next x => exact x.1 ▸ h
  · rfl

theorem State.operated_wrote (u : UnitId) (D : DirEntry → DirEntry) (w : PoolWork) (s : State) : s.wrote (s.operated u D w) u D w where
  body := State.operated_body u D w s
  marks h v := by
    have dir := State.operated_dir u D w s
    rw [dir]
    exact State.writeEntry_mark h v
  pool := State.operated_pool u D w s
  mem := State.operated_mem u D w s
  orders := State.operated_orders u D w s
  ctxs := State.operated_ctxs u D w s
  clock := State.operated_clock u D w s
  sweep := State.operated_sweep u D w s
  low := State.operated_low u D w s
  rest hu r := ((Rest.operated u D w s).mono (fun _ x => x.elim) (fun _ x => x.elim) (fun v x => (show v = u from x) ▸ hu)
    fun _ x => x.elim).trans r

section
variable {s t : State} {u : UnitId} {D : DirEntry → DirEntry} {w : PoolWork}

theorem State.wrote_memOk (h : s.wrote t u D w) (hm : s.memOk) : t.memOk := by
  rw [State.memOk, h.mem]
  exact hm

theorem State.wrote_trans (h : s.wrote t u D w) {v : State} (r : Rest {} t v) (dir : v.dir = t.dir) (pool : v.pool = t.pool)
    (mem : v.mem = t.mem) (orders : v.orders = t.orders) (ctxs : v.ctxs = t.ctxs) (clock : v.clock = t.clock)
    (sweep : v.sweep = t.sweep) : s.wrote v u D w where
  body := by rw [dir, h.body]
  marks hD x := by rw [dir, h.marks hD]
  pool := pool.trans h.pool
  mem := mem.trans h.mem
  orders := orders.trans h.orders
  ctxs := ctxs.trans h.ctxs
  clock := clock.trans h.clock
  sweep := sweep.trans h.sweep
  low above below := hasAttn_rise (h.low above below) r.attention
  rest hu r' := h.rest hu (r.widen.trans r')

end

theorem State.sweepTake_body (u : UnitId) (out : UnitOutcome) (s : State) (v : UnitId) : (s.sweepTake u out).dir[v].body = s.dir[v].body := by
  unfold State.sweepTake
  split
  · exact State.writeEntry_body (f := fun e => { e with mark := outcomeMark out }) rfl v
  · rfl

theorem State.skipPending_body (u : UnitId) (s : State) (v : UnitId) : (s.skipPending u).dir[v].body = s.dir[v].body := by
  unfold State.skipPending
  split
  · exact State.writeEntry_body (f := fun e => { e with mark := .skipped }) rfl v
  · rfl

theorem State.offerDelist_body (u : UnitId) (s : State) (v : UnitId) : (s.offerDelist u).dir[v].body = s.dir[v].body := by
  unfold State.offerDelist
  split
  · split
    · simpa using State.skipPending_body u s v
    · exact State.skipPending_body u s v
  · rfl

/-- What a context's release and a sweep's count leave before the orders complete (R113). -/
def State.toldSweep (k : CtxId) (out : UnitOutcome) (s : State) : State :=
  match s.ctxs[k].purpose with
  | .read => (s.freeContext k).sweepTake s.ctxs[k].target out
  | .erase => s.freeContext k

theorem State.endCommitting_eq (k : CtxId) (out : UnitOutcome) (s : State) : s.endCommitting k out =
    ((s.toldSweep k out).completeUnitOrders out (slotsOf s.ctxs[k].attached)).offerDelist s.ctxs[k].target := rfl

theorem State.toldSweep_frame (k : CtxId) (out : UnitOutcome) (s : State) : (s.toldSweep k out).mem = s.mem ∧
    (s.toldSweep k out).orders = s.orders ∧ (s.toldSweep k out).clock = s.clock ∧ (s.toldSweep k out).pool = s.pool := by
  unfold State.toldSweep
  split <;> simp

theorem State.toldSweep_body (k : CtxId) (out : UnitOutcome) (s : State) (v : UnitId) :
    (s.toldSweep k out).dir[v].body = s.dir[v].body := by
  unfold State.toldSweep
  split
  · simpa using State.sweepTake_body s.ctxs[k].target out (s.freeContext k) v
  · simp

/-- A COMMITTING context's end writes of the entries their marks alone (R41, R113, R149). -/
theorem State.endCommitting_body (k : CtxId) (out : UnitOutcome) (s : State) (v : UnitId) :
    (s.endCommitting k out).dir[v].body = s.dir[v].body := by
  rw [State.endCommitting_eq, State.offerDelist_body]
  simpa using State.toldSweep_body k out s v

/-- The context of a commit or an erase-clear that has ended is COMMITTING no longer. -/
theorem State.endCommitting_leaves (k : CtxId) (out : UnitOutcome) (s : State) : (s.endCommitting k out).ctxs[k].state ≠ .committing := by
  have ctxs : (s.endCommitting k out).ctxs = (s.freeContext k).ctxs := by
    rw [State.endCommitting_eq]
    unfold State.toldSweep
    split <;> simp
  have freed : (s.freeContext k).ctxs[k].state = .free := by
    unfold State.freeContext
    rw [State.updCtx_get, if_pos rfl]
    rfl
  simp only [ctxs, freed]
  decide

/-! ### The orders -/

theorem readWords_body {e f : DirEntry} (h : e.body = f.body) (code : Word) : readWords e code = readWords f code :=
  DirEntry.body_congr h (readWords · code) fun _ => rfl

theorem eraseWords_body {e f : DirEntry} (h : e.body = f.body) (code : Word) : eraseWords e code = eraseWords f code :=
  DirEntry.body_congr h (eraseWords · code) fun _ => rfl

/-- An order attached to the context completes with the words that its kind reads of the unit's entry (R113, R168). -/
theorem State.endCommitting_shows {k : CtxId} {out : UnitOutcome} {s : State} (hm : s.memOk) {n : SlotId}
    (hn : hasSlot s.ctxs[k].attached n = true) {x : Taken} (hx : s.orders.taken[n] = some x) {r : OrderResult}
    (hr : ∀ t : State, (∀ v : UnitId, t.dir[v].body = s.dir[v].body) → t.orders.taken[n] = some x →
      t.completeUnitOrder out n = t.doneSlot n r x.edition) :
    let t := s.endCommitting k out
    t.slotShows n 3 r.code r.w0 r.w1 r.w2 r.w3 x.edition s.clock ∧ t.orders.taken[n] = none ∧ t.hasAttn .orderDone := by
  obtain ⟨mem, orders, clock, _⟩ := State.toldSweep_frame k out s
  have memTold : (s.toldSweep k out).memOk := by rw [State.memOk, mem]; exact hm
  obtain ⟨shown, gone, done⟩ := State.completeUnitOrders_shows out (slotsOf s.ctxs[k].attached) (slotsOf_nodup _) (s.toldSweep k out)
    memTold n (mem_slotsOf.2 hn) x (by rw [orders]; exact hx) r fun t hd ht =>
      hr t (fun v => by rw [hd]; exact State.toldSweep_body k out s v) ht
  rw [clock] at shown
  rw [State.endCommitting_eq]
  exact (Rest.offerDelist _ _).shows_after ((Rest.completeUnitOrders out _ _).mem memTold).1 n gone shown done

/-! ### The sweep -/

/-- The sweep record but for the edition that is open, which an offer may open (R12, R156). -/
def SweepCtl.course (w : SweepCtl) : SweepCtl := { w with counter := 0, openEdition := 0, openClock := 0 }

theorem SweepCtl.course_congr {α : Sort _} {v w : SweepCtl} (h : v.course = w.course) (g : SweepCtl → α)
    (hg : ∀ x, g (SweepCtl.course x) = g x) : g v = g w := by
  rw [← hg v, h, hg]

theorem State.offer_course (r : PoolRequest) (s : State) : (s.offer r).sweep.course = s.sweep.course := by
  have opened : s.needEdition.sweep.course = s.sweep.course := by
    unfold State.needEdition
    split <;> rfl
  unfold State.offer
  split
  · rfl
  · show (if r.opensEdition then s.needEdition else s).sweep.course = _
    split
    · exact opened
    · rfl

/-- A sweep that waits for the unit takes its outcome: the mark and the tally (R148, R149). -/
theorem State.sweepTake_pending {u : UnitId} {out : UnitOutcome} {s : State} (h : s.dir[u].mark = .pending) :
    (∀ v : UnitId, (s.sweepTake u out).dir[v].mark = if v = u then outcomeMark out else s.dir[v].mark) ∧
      (s.sweepTake u out).sweep = { s.sweep with tallies := s.sweep.tallies.count out } := by
  have taken : s.sweepTake u out = (s.writeEntry u fun e => { e with mark := outcomeMark out }).updSweep fun w =>
      { w with tallies := w.tallies.count out } := if_pos h
  rw [taken]
  refine ⟨fun v => ?_, by simp⟩
  by_cases hv : v = u
  · rw [if_pos hv, hv]
    exact State.writeEntry_congr u _ s (·.mark) fun _ _ => rfl
  · rw [if_neg hv, State.updSweep_dir, State.writeEntry_get, if_neg fun x => hv x.1]

theorem outcomeMark_ne_pending (out : UnitOutcome) : outcomeMark out ≠ .pending := by
  cases out <;> decide

/-- A unit that no sweep waits for is offered for its delisting, or left alone (R61). -/
theorem State.offerDelist_unmarked {u : UnitId} {s : State} (h : s.dir[u].mark ≠ .pending) :
    (s.offerDelist u).dir = s.dir ∧ (s.offerDelist u).sweep.course = s.sweep.course := by
  have skip : s.skipPending u = s := if_neg h
  unfold State.offerDelist
  rw [skip]
  split
  · split
    · exact ⟨by simp, State.offer_course _ s⟩
    · exact ⟨rfl, rfl⟩
  · exact ⟨rfl, rfl⟩

/-- The end of a commit, as a sweep that waits for the unit sees it (R41, R148, R149). -/
theorem State.endCommitting_pending {k : CtxId} {u : UnitId} {out : UnitOutcome} {s : State} (hp : s.ctxs[k].purpose = .read)
    (hu : s.ctxs[k].target = u) (h : s.dir[u].mark = .pending) :
    (∀ v : UnitId, (s.endCommitting k out).dir[v].mark = if v = u then outcomeMark out else s.dir[v].mark) ∧
      (s.endCommitting k out).sweep.course = { s.sweep with tallies := s.sweep.tallies.count out }.course := by
  subst hu
  have told : s.toldSweep k out = (s.freeContext k).sweepTake s.ctxs[k].target out := by
    unfold State.toldSweep
    rw [hp]
  have freed : (s.freeContext k).dir[s.ctxs[k].target].mark = .pending := by simpa using h
  obtain ⟨marks, sweep⟩ := State.sweepTake_pending (out := out) freed
  obtain ⟨G, hG⟩ : ∃ G, G = (s.toldSweep k out).completeUnitOrders out (slotsOf s.ctxs[k].attached) := ⟨_, rfl⟩
  have dirG : G.dir = (s.toldSweep k out).dir := by rw [hG]; simp
  have marksG : ∀ v : UnitId, G.dir[v].mark = if v = s.ctxs[k].target then outcomeMark out else s.dir[v].mark := fun v => by
    rw [dirG, told, marks v]
    simp
  obtain ⟨dir, course⟩ := State.offerDelist_unmarked (u := s.ctxs[k].target) (s := G)
    (by rw [marksG, if_pos rfl]; exact outcomeMark_ne_pending out)
  rw [State.endCommitting_eq, ← hG]
  refine ⟨fun v => by rw [dir]; exact marksG v, course.trans ?_⟩
  rw [hG, (State.completeUnitOrders_frame out _ _).2.1, told, sweep]
  simp

theorem State.sweepTake_opening (u : UnitId) (out : UnitOutcome) (s : State) :
    (s.sweepTake u out).sweep.openEdition = s.sweep.openEdition ∧ (s.sweepTake u out).sweep.origin = s.sweep.origin := by
  unfold State.sweepTake
  split <;> simp

/-- A sweep's own read with no delisting behind it ends in the context's release and the sweep's count alone. -/
theorem State.endCommitting_own {k : CtxId} {u : UnitId} {out : UnitOutcome} {s : State} (hp : s.ctxs[k].purpose = .read)
    (hu : s.ctxs[k].target = u) (ha : s.ctxs[k].attached = 0) (hd : s.dir[u].state ≠ .delisting) :
    s.endCommitting k out = (s.freeContext k).sweepTake u out := by
  subst hu
  have told : s.toldSweep k out = (s.freeContext k).sweepTake s.ctxs[k].target out := by
    unfold State.toldSweep
    rw [hp]
  have noSlots : slotsOf (0 : BitVec 16) = [] := by decide
  have state : (s.toldSweep k out).dir[s.ctxs[k].target].state = s.dir[s.ctxs[k].target].state :=
    DirEntry.body_congr (State.toldSweep_body k out s _) (·.state) fun _ => rfl
  rw [State.endCommitting_eq, ha, noSlots, ← told]
  exact if_neg (by rw [← state] at hd; exact hd)

/-- A sweep's return behind a finished operation, seen from the state before it but for the operation's end. -/
theorem State.sweepReturns_finished {w : PoolWork} {s m t : State} {out : SweepOutcome} {at_ : Clock} {own : SlotId → Prop}
    (hpool : m.pool = Pool.finish w s.pool) (horders : m.orders = s.orders) (hopen : m.sweep.openEdition = s.sweep.openEdition)
    (horigin : m.sweep.origin = s.sweep.origin) (h : m.sweepReturns t out at_ own) :
    State.sweepReturns { s with pool := { s.pool with op := none } } t out at_ own := by
  refine State.sweepReturns_congr hopen horigin (fun ⟨orders, requests, running⟩ => ?_) (fun n _ => ?_) h
  · refine ⟨by rw [horders]; exact orders, by rw [hpool]; exact requests, by rw [hpool]; exact running⟩
  · rw [horders]

/-- What a running sweep makes of a finished operation that has told it a unit's outcome, with no auto-due set (R148 to R150, R157,
R158). -/
theorem State.counted_settle {s m : State} {u : UnitId} {tallies : Tallies}
    (hmark : ∀ v : UnitId, m.dir[v].mark = if v = u then .done else s.dir[v].mark)
    (hsweep : m.sweep.course = { s.sweep with tallies := tallies }.course) (hclock : m.clock = s.clock) (hm : m.memOk)
    (running : s.sweep.state ≠ .idle) (calm : s.sweep.autoDue = false) :
    let t := State.stamp s m.settle
    t.dir[u].mark = .done ∧ t.sweep.tallies = tallies ∧
      ((∃ v : UnitId, v ≠ u ∧ s.dir[v].mark = .pending) →
        t.sweep.state = s.sweep.state ∧ t.sweep.outcome = s.sweep.outcome ∧ t.sweep.endClock = s.sweep.endClock) ∧
      ((∀ v : UnitId, v ≠ u → s.dir[v].mark ≠ .pending) → ∀ w : PoolWork, m.pool = Pool.finish w s.pool → m.orders = s.orders →
        m.sweep.openEdition = s.sweep.openEdition → m.sweep.origin = s.sweep.origin →
        State.sweepReturns { s with pool := { s.pool with op := none } } t
          (if s.sweep.state = .draining then s.sweep.outcome else .complete) s.clock fun _ => False) := by
  have state : m.sweep.state = s.sweep.state := SweepCtl.course_congr hsweep (·.state) fun _ => rfl
  have outcome : m.sweep.outcome = s.sweep.outcome := SweepCtl.course_congr hsweep (·.outcome) fun _ => rfl
  have ended : m.sweep.endClock = s.sweep.endClock := SweepCtl.course_congr hsweep (·.endClock) fun _ => rfl
  have counted : m.sweep.tallies = tallies := SweepCtl.course_congr hsweep (·.tallies) fun _ => rfl
  have calm' : m.sweep.autoDue = false := (SweepCtl.course_congr hsweep (·.autoDue) fun _ => rfl : m.sweep.autoDue = _).trans calm
  have running' : m.sweep.state ≠ .idle := by rw [state]; exact running
  refine ⟨?_, ?_, fun ⟨v, hv, pending⟩ => ?_, fun none w hpool horders hopen horigin => ?_⟩
  · rw [State.stamp_dir, State.settle_mark calm', hmark, if_pos rfl]
  · rw [State.stamp_sweep_congr s _ (·.tallies) fun _ _ => rfl, State.settle_tallies calm', counted]
  · have waits : m.anyPending = true := m.anyPending_iff.2 ⟨v, by rw [hmark, if_neg hv]; exact pending⟩
    have sweep : m.settle.sweep = m.sweep := by
      rw [State.settle_waiting running' waits, (State.allocate_frame 8 m).2.2.2.2.1]
    rw [State.stamp_sweep_congr s _ (·.state) fun _ _ => rfl, State.stamp_sweep_congr s _ (·.outcome) fun _ _ => rfl,
      State.stamp_sweep_congr s _ (·.endClock) fun _ _ => rfl, sweep]
    exact ⟨state, outcome, ended⟩
  · have noneLeft : m.anyPending = false := by
      rw [← Bool.not_eq_true, m.anyPending_iff]
      rintro ⟨v, hv⟩
      rw [hmark] at hv
      split at hv
      · cases hv
      · next hne => exact none v hne hv
    have returns := State.sweepReturns_settle s running' noneLeft calm' hm fun _ => False
    rw [state, outcome, hclock] at returns
    exact State.sweepReturns_finished hpool horders hopen horigin returns

end Sys2Proof.Machine
end

section
/-! SUPPORT. What follow-up work leaves of the entry at the end of a pool operation on its unit's chain, and the retired chain as the
pool then shows it (R8, R40, R44 to R46). -/

namespace Sys2Proof.Machine

/-! ### The unit's entry -/

/-- An entry whose read or erase has ended with the outcome, as far as an assignment behind it keeps it (R54, R58, R61). -/
structure DirEntry.ended (was : UnitState) (out : UnitOutcome) (malformed : Bool) (e : DirEntry) : Prop where
  state : if was = .delisting then e.state = .delisting else e.state = .idle ∨ e.state = .reading ∨ e.state = .erasing
  outcome : e.lastOutcome = out
  restart : e.restartCount = 0
  hold : e.holdCount = 0
  malformed : e.state ≠ .reading → e.malformed = malformed

section
variable {was : UnitState} {out : UnitOutcome} {malformed : Bool}

theorem DirEntry.ended_congr {e f : DirEntry} (h : e.body = f.body) (hf : f.ended was out malformed) : e.ended was out malformed := by
  have state : e.state = f.state := DirEntry.body_congr h (·.state) fun _ => rfl
  have outcome : e.lastOutcome = f.lastOutcome := DirEntry.body_congr h (·.lastOutcome) fun _ => rfl
  have restart : e.restartCount = f.restartCount := DirEntry.body_congr h (·.restartCount) fun _ => rfl
  have hold : e.holdCount = f.holdCount := DirEntry.body_congr h (·.holdCount) fun _ => rfl
  have mark : e.malformed = f.malformed := DirEntry.body_congr h (·.malformed) fun _ => rfl
  exact ⟨by rw [state]; exact hf.state, outcome.trans hf.outcome, restart.trans hf.restart, hold.trans hf.hold,
    by rw [state, mark]; exact hf.malformed⟩

theorem DirEntry.ended_not_faulty {e : DirEntry} (h : e.ended was out malformed) : e.state ≠ .faulty := by
  have state := h.state
  intro faulty
  rw [faulty] at state
  split at state
  · cases state
  · rcases state with x | x | x <;> cases x

/-- Of what a read or an erase may leave, an assignment takes an IDLE unit alone (R54, R58). -/
theorem DirEntry.ended_assignable {e : DirEntry} {p : Purpose} (h : e.ended was out malformed) (ha : e.assignable p = true) :
    was ≠ .delisting ∧ e.state = .idle := by
  have state := h.state
  unfold DirEntry.assignable at ha
  split at state
  · rw [state] at ha
    cases ha
  · next other =>
    refine ⟨other, ?_⟩
    rcases state with x | x | x
    · exact x
    · rw [x] at ha
      cases ha
    · rw [x] at ha
      cases ha

theorem DirEntry.ended_assigned {e : DirEntry} {p : Purpose} (h : e.ended was out malformed) (ha : e.assignable p = true)
    (r : BitVec 8) : DirEntry.ended was out malformed { e.assigned p with revision := r } := by
  obtain ⟨other, idle⟩ := DirEntry.ended_assignable h ha
  have notHeld : e.state ≠ .held := by rw [idle]; decide
  cases p with
  | read =>
    rw [DirEntry.assigned, if_neg notHeld]
    exact ⟨by rw [if_neg other]; exact .inr (.inl rfl), h.outcome, rfl, rfl, fun x => absurd rfl x⟩
  | erase => exact ⟨by rw [if_neg other]; exact .inr (.inr rfl), h.outcome, h.restart, rfl, fun _ => h.malformed (by rw [idle]; decide)⟩

end

/-- A sweep's start writes of an entry its mark alone, unless its unit is FAULTY (R147). -/
theorem State.markUnit_body (mask : BitVec 4) {u : UnitId} {s : State} (h : s.dir[u].state = .faulty → u = 0) :
    (s.markUnit mask u).dir[u].body = s.dir[u].body := by
  rw [State.markUnit_dir]
  refine State.writeEntry_body ?_ u
  have notFaulty : (s.startMark mask u).2 ≠ .faulty := fun x => (State.startMark_faulty x).2 (h (State.startMark_faulty x).1)
  rw [if_neg notFaulty]
  rfl

theorem State.settle_ended {was : UnitState} {out : UnitOutcome} {malformed : Bool} {u : UnitId} {s : State}
    (h : s.dir[u].ended was out malformed) : s.settle.dir[u].ended was out malformed :=
  State.settle_entry (P := DirEntry.ended was out malformed)
    (fun mask _ x => DirEntry.ended_congr (State.markUnit_body mask fun faulty => absurd faulty (DirEntry.ended_not_faulty x)) x)
    (fun _ _ r _ ha x => DirEntry.ended_assigned x ha r) h

/-- No context ever reads unit 0: of its entry, follow-up work writes the mark alone (R42, R67). -/
theorem State.settle_self (s : State) : s.settle.dir[(0 : UnitId)].body = s.dir[(0 : UnitId)].body :=
  State.settle_entry (P := fun e => e.body = s.dir[(0 : UnitId)].body)
    (fun mask _ x => (State.markUnit_body mask fun _ => rfl).trans x) (fun _ _ _ nonzero => absurd rfl nonzero) rfl

theorem State.settle_record (s : State) (u : UnitId) : s.settle.dir[u].record = s.dir[u].record := (Rest.settle s).dir u id

/-- A VACANT entry stays VACANT (R51). -/
theorem State.settle_vacant {u : UnitId} {s : State} (h : s.dir[u].state = .vacant) : s.settle.dir[u].state = .vacant := by
  refine State.settle_entry (P := fun e => e.state = .vacant) (fun mask t x => ?_) (fun e p r _ ha x => ?_) h
  · have body := State.markUnit_body (u := u) (s := t) mask fun faulty => absurd (faulty.symm.trans x) (by decide)
    exact (DirEntry.body_congr body (·.state) fun _ => rfl).trans x
  · rw [DirEntry.assignable, x] at ha
    cases ha

/-- Follow-up work writes nothing of a VACANT entry without a mark (R147). -/
theorem State.settle_unlisted {u : UnitId} {s : State} (hu : u ≠ 0) (h : s.dir[u].state = .vacant) (hm : s.dir[u].mark = .none) :
    s.settle.dir[u] = s.dir[u] := by
  refine State.settle_entry (P := fun e => e = s.dir[u]) (fun mask t x => ?_) (fun e p r _ ha x => ?_) rfl
  · have none : t.startMark mask u = (.none, .nothing) := by
      have vacant : t.dir[u].state = .vacant := by rw [x, h]
      unfold State.startMark
      dsimp only
      rw [if_neg hu, if_pos vacant]
    rw [State.markUnit_dir, State.writeEntry_get, if_neg, x]
    rintro ⟨_, changed⟩
    rw [none] at changed
    refine changed ?_
    have mark : t.dir[u].mark = .none := by rw [x, hm]
    rw [if_neg (by decide), ← mark]
  · rw [DirEntry.assignable, x, h] at ha
    cases ha

/-! ### The retired chain -/

/-- `Pool.retires` reads nothing of the request queue. -/
theorem Pool.retires_store {p p' : Pool} {st : RecState} {ed : Edition} {l q : List RecId} :
    p.retires p'.store st ed l q ↔ p.retires p' st ed l q :=
  ⟨fun ⟨a, b, c, d, e, f, g, h⟩ => ⟨a, b, c, d, e, f, g, h⟩, fun ⟨a, b, c, d, e, f, g, h⟩ => ⟨a, b, c, d, e, f, g, h⟩⟩

/-- What `PoolWork.retireAll` makes of the pool, as `Pool.retires` says it (R8). -/
theorem PoolWork.retireAll_retires (st : RecState) (ed : Edition) {p : Pool} {e : DirEntry} {l q : List RecId}
    (hl : linked p.records e.chainHead l) (hq : linked p.records p.retHead q) (hn : (l ++ q).Nodup) (ht : p.retTail = q.getLast?) :
    let v := (PoolWork.start p e).retireAll st ed (walkFuel 0)
    v.chainHead = none ∧ v.freeTop = p.freeTop ∧ v.freeCount = p.freeCount ∧ v.reclaimed = 0 ∧
      ∀ p' : Pool, p'.records = v.records → p'.retHead = v.retHead → p'.retTail = v.retTail → p'.retCount = v.retCount →
        p'.liveCount = v.liveCount → p'.freeTop = p.freeTop → p'.freeCount = p.freeCount → p'.reclaimed = p.reclaimed →
        p.retires p' st ed l q := by
  have short : l.length < walkFuel 0 := by
    have := nodup_length (List.nodup_append.1 hn).1
    simp only [walkFuel, Config.poolSize]
    omega
  obtain ⟨queue, tail, count, live, stamped, kept, before, top, free, head, taken, _⟩ :=
    PoolWork.retireAll_spec st ed (walkFuel 0) l q (PoolWork.start p e) hl hq ht hn short
  refine ⟨head, top, free, taken, fun p' records retHead retTail retCount liveCount freeTop freeCount reclaimed => ?_⟩
  exact
    { queue := by rw [records, retHead]; exact queue
      tail := retTail.trans tail
      count := retCount.trans count
      live := liveCount.trans live
      stamped := fun r hr => by rw [records]; exact stamped r hr
      kept := fun r hr hlast => by rw [records]; exact kept r hr hlast
      before := fun r hr => by rw [records]; exact before r hr
      free := ⟨freeTop, freeCount, reclaimed⟩ }

/-- An operation that retires its unit's whole chain leaves of the pool what `Pool.retires` says (R8, R44, R46). -/
theorem Rest.retires {d : Touch} {s t : State} {st : RecState} {u : UnitId} (r : Rest d (s.updPool (Pool.finish (s.retireWork st u))) t)
    {l q : List RecId} (hl : linked s.pool.records s.dir[u].chainHead l) (hq : linked s.pool.records s.pool.retHead q)
    (hn : (l ++ q).Nodup) (ht : s.pool.retTail = q.getLast?) :
    s.pool.retires t.pool st s.sweep.counter l q ∧
      Rest d { s with pool := { s.pool with records := t.pool.records, retHead := t.pool.retHead, retTail := t.pool.retTail,
                                            retCount := t.pool.retCount, liveCount := t.pool.liveCount,
                                            revision := s.pool.revision + 1, op := none } } t := by
  obtain ⟨w, hw⟩ : ∃ w, w = s.retireWork st u := ⟨_, rfl⟩
  have work : (PoolWork.start s.pool s.dir[u]).retireAll st s.sweep.counter (walkFuel 0) = w := hw.symm
  have facts := PoolWork.retireAll_retires st s.sweep.counter hl hq hn ht
  dsimp only at facts
  rw [work] at facts
  obtain ⟨_, top, free, taken, retires⟩ := facts
  rw [← hw] at r
  have reclaimed : satAdd32 s.pool.reclaimed w.reclaimed = s.pool.reclaimed := by rw [taken, satAdd32_zero]
  have store : t.pool.store = (Pool.finish w s.pool).store := r.store
  refine ⟨?_, ?_⟩
  · rw [← Pool.retires_store, store, Pool.retires_store]
    exact retires _ rfl rfl rfl rfl rfl top free reclaimed
  · have records : t.pool.records = w.records := congrArg (·.records) store
    have retHead : t.pool.retHead = w.retHead := congrArg (·.retHead) store
    have retTail : t.pool.retTail = w.retTail := congrArg (·.retTail) store
    have retCount : t.pool.retCount = w.retCount := congrArg (·.retCount) store
    have liveCount : t.pool.liveCount = w.liveCount := congrArg (·.liveCount) store
    have base : s.updPool (Pool.finish w) =
        { s with pool := { s.pool with records := w.records, retHead := w.retHead, retTail := w.retTail, retCount := w.retCount,
                                       liveCount := w.liveCount, revision := s.pool.revision + 1, op := none } } := by
      unfold State.updPool Pool.finish
      rw [top, free, reclaimed]
    rwa [records, retHead, retTail, retCount, liveCount, ← base]

end Sys2Proof.Machine
end

section
/-! SUPPORT. The ERASE-CLEAR and the DELIST-RETIRE, shown whole at the end of their operation (R44 to R46). -/

namespace Sys2Proof.Machine

/-! ### A COMMITTING context's end and what follows it -/

/-- The end of context `k`'s commit or erase-clear in `s` leads, with all that follows it, to `t`. -/
structure State.endsIn (s t : State) (k : CtxId) (out : UnitOutcome) : Prop where
  record : ∀ u : UnitId, t.dir[u].record = s.dir[u].record
  entry : ∀ (u : UnitId) was malformed, s.dir[u].ended was out malformed → t.dir[u].ended was out malformed
  leaves : t.ctxs[k].state ≠ .committing
  clock : t.clock = s.clock
  self : t.self = s.self
  rest : Rest { ctxs := (· = k), chans := (· = s.ctxs[k].channel), slots := fun n => hasSlot s.ctxs[k].attached n = true } s t
  shows_ : s.memOk → ∀ n x r, hasSlot s.ctxs[k].attached n = true → s.orders.taken[n] = some x →
    (∀ m : State, (∀ v : UnitId, m.dir[v].body = s.dir[v].body) → m.orders.taken[n] = some x →
      m.completeUnitOrder out n = m.doneSlot n r x.edition) →
    t.slotShows n 3 r.code r.w0 r.w1 r.w2 r.w3 x.edition s.clock ∧ t.orders.taken[n] = none ∧ t.hasAttn .orderDone

theorem State.endsIn_settled (k : CtxId) (out : UnitOutcome) (b s : State) :
    s.endsIn (State.stamp b (s.endCommitting k out).settle) k out := by
  have body := State.endCommitting_body k out s
  have own : Rest { ctxs := (· = k), chans := (· = s.ctxs[k].channel), slots := fun n => hasSlot s.ctxs[k].attached n = true } s
      (s.endCommitting k out) :=
    (Rest.endCommitting k out s).mono (fun _ x => x) (fun _ x => x) (fun _ x => x) fun _ x => mem_slotsOf.1 x
  refine ⟨fun u => ?_, fun u was malformed h => ?_, fun committing => ?_, ?_, ?_, own.settled, fun hm n x r hn hx hr => ?_⟩
  · rw [State.stamp_dir, State.settle_record]
    exact DirEntry.body_congr (body u) DirEntry.record fun _ => rfl
  · rw [State.stamp_dir]
    exact State.settle_ended (DirEntry.ended_congr (body u) h)
  · rw [State.stamp_ctx_congr b _ k (·.state) fun _ _ => rfl] at committing
    exact State.settle_leaves (State.endCommitting_leaves k out s) committing
  · simp
  · simp
  · obtain ⟨shown, gone, done⟩ := State.endCommitting_shows hm hn hx hr
    exact ((Rest.settle _).stamp b).shows_after (own.mem hm).1 n gone shown done

section
variable {s F t : State} {u : UnitId} {D : DirEntry → DirEntry} {w : PoolWork} {k : CtxId} {out : UnitOutcome} {n : SlotId} {x : Taken}

/-- The operation with its context's end touches the unit's entry, the context with its channel, and the slots of its orders. -/
theorem Rest.wrote_endsIn (h : s.wrote F u D w) (e : F.endsIn t k out) :
    Rest { ctxs := (· = k), chans := (· = s.ctxs[k].channel), units := (· = u), slots := fun n => hasSlot s.ctxs[k].attached n = true }
      (s.updPool (Pool.finish w)) t := by
  have rest := e.rest
  rw [h.ctxs] at rest
  exact h.rest rfl (rest.mono (fun _ x => x) (fun _ x => x) (fun _ x => x.elim) fun _ x => x)

theorem State.wrote_endsIn_record (h : s.wrote F u D w) (e : F.endsIn t k out) : t.dir[u].record = (D s.dir[u]).record :=
  (e.record u).trans (DirEntry.body_congr h.body DirEntry.record fun _ => rfl)

/-- A READ UNIT order attached to the context reports the entry as written (R113, R172). -/
theorem State.wrote_endsIn_read (h : s.wrote F u D w) (e : F.endsIn t k out) (hm : s.memOk) (hn : hasSlot s.ctxs[k].attached n = true)
    (hx : s.orders.taken[n] = some x) (ho : x.order = .readUnit u) :
    let r := readWords (D s.dir[u]) (BitVec.ofNat 16 out.code)
    t.slotShows n 3 r.code r.w0 r.w1 r.w2 r.w3 x.edition s.clock ∧ t.orders.taken[n] = none ∧ t.hasAttn .orderDone := by
  rw [← h.clock]
  exact e.shows_ (State.wrote_memOk h hm) n x _ (by rw [h.ctxs]; exact hn) (by rw [h.orders]; exact hx) fun m hd ht => by
    rw [State.completeUnitOrder_read out ho rfl ht, readWords_body ((hd u).trans h.body)]

/-- An ERASE UNIT order attached to the context reports the entry as written (R113, R173). -/
theorem State.wrote_endsIn_erase (h : s.wrote F u D w) (e : F.endsIn t k out) (hm : s.memOk) (hn : hasSlot s.ctxs[k].attached n = true)
    (hx : s.orders.taken[n] = some x) (ho : x.order = .eraseUnit u) :
    let r := eraseWords (D s.dir[u]) (BitVec.ofNat 16 out.code)
    t.slotShows n 3 r.code r.w0 r.w1 r.w2 r.w3 x.edition s.clock ∧ t.orders.taken[n] = none ∧ t.hasAttn .orderDone := by
  rw [← h.clock]
  exact e.shows_ (State.wrote_memOk h hm) n x _ (by rw [h.ctxs]; exact hn) (by rw [h.orders]; exact hx) fun m hd ht => by
    rw [State.completeUnitOrder_erase out ho rfl ht, eraseWords_body ((hd u).trans h.body)]

/-! ### An operation on unit 0, with no context -/

/-- Of unit 0's entry as written, what ends the operation and follows it changes the revision and the mark alone. -/
theorem State.wrote_self {m : State} (h : s.wrote F 0 D w) (hb : m.dir[(0 : UnitId)].body = F.dir[(0 : UnitId)].body) {α : Type}
    (g : DirEntry → α) (hg : ∀ x, g (DirEntry.body x) = g x) :
    g (State.stamp s m.settle).dir[(0 : UnitId)] = g (D s.dir[(0 : UnitId)]) := by
  refine DirEntry.body_congr ?_ g hg
  rw [State.stamp_dir, State.settle_self, hb, h.body]

theorem State.wrote_read (h : s.wrote F u D w) (hm : s.memOk) (hx : s.orders.taken[n] = some x) (ho : x.order = .readUnit u)
    (after : Rest {} (F.completeUnitOrder out n) t) :
    let r := readWords (D s.dir[u]) (BitVec.ofNat 16 out.code)
    t.slotShows n 3 r.code r.w0 r.w1 r.w2 r.w3 x.edition s.clock ∧ t.orders.taken[n] = none ∧ t.hasAttn .orderDone := by
  rw [State.completeUnitOrder_read out ho rfl (h.orders.symm ▸ hx : F.orders.taken[n] = some x), readWords_body h.body] at after
  rw [← h.clock]
  exact after.shows_done (State.wrote_memOk h hm)

theorem State.wrote_erase (h : s.wrote F u D w) (hm : s.memOk) (hx : s.orders.taken[n] = some x) (ho : x.order = .eraseUnit u)
    (after : Rest {} (F.completeUnitOrder out n) t) :
    let r := eraseWords (D s.dir[u]) (BitVec.ofNat 16 out.code)
    t.slotShows n 3 r.code r.w0 r.w1 r.w2 r.w3 x.edition s.clock ∧ t.orders.taken[n] = none ∧ t.hasAttn .orderDone := by
  rw [State.completeUnitOrder_erase out ho rfl (h.orders.symm ▸ hx : F.orders.taken[n] = some x), eraseWords_body h.body] at after
  rw [← h.clock]
  exact after.shows_done (State.wrote_memOk h hm)

end

/-! ### ERASE-CLEAR (R44, R45) -/

/-- A unit that was not being delisted rests IDLE at the end of its operation, another stays DELISTING (R61). -/
theorem endState_idle (e : DirEntry) : if e.state = .delisting then endState .idle e = .delisting
    else endState .idle e = .idle ∨ endState .idle e = .reading ∨ endState .idle e = .erasing := by
  unfold endState
  split
  · rfl
  · exact .inl rfl

theorem DirEntry.eraseCleared_ended (gen : Word) (epoch : Byte) (e : DirEntry) :
    (e.eraseCleared gen epoch).ended e.state .erased e.malformed := ⟨endState_idle e, rfl, rfl, rfl, fun _ => rfl⟩

theorem execEraseClear_eq {u : UnitId} {gen : Word} {epoch : Byte} {n : SlotId} {ctx : Option CtxId} {o : PoolOp} {s : State}
    (h : s.operates (.eraseClear u gen epoch n ctx) o) :
    exec .eraseClear s = .next (State.stamp s (s.runEraseClear u gen epoch n ctx).settle) := by
  refine congrArg Host.Outcome.next (runOperation_eq h _ _ ?_)
  obtain ⟨_, _, hreq⟩ := h
  rw [hreq]

/-- Settles O31: the two writes stand, then the context's end (or, for unit 0, its order's completion) and follow-up work keep them. -/
theorem eraseClearRetiresTheChain : Obligations.EraseClearRetiresTheChain := by
  unfold Obligations.EraseClearRetiresTheChain
  constructor
  · intro o k u gen epoch n l q s hop hm target purpose hl hq hn ht
    obtain ⟨F, hF⟩ : ∃ F, F = s.operated u (DirEntry.eraseCleared gen epoch) (s.retireWork .cleared u) := ⟨_, rfl⟩
    obtain ⟨t, hT⟩ : ∃ t, t = State.stamp s (F.endCommitting k .erased).settle := ⟨_, rfl⟩
    have hexec : exec .eraseClear s = .next t := by
      rw [execEraseClear_eq hop, hT, hF]
      rfl
    have wrote : s.wrote F u (DirEntry.eraseCleared gen epoch) (s.retireWork .cleared u) := hF ▸ State.operated_wrote u _ _ s
    have ends : F.endsIn t k .erased := hT ▸ State.endsIn_settled k .erased s F
    have ended := ends.entry u _ _ (DirEntry.ended_congr wrote.body (DirEntry.eraseCleared_ended gen epoch s.dir[u]))
    have self : F.self = s.self := by rw [hF, State.operated_self]
    obtain ⟨retired, rest⟩ := (Rest.wrote_endsIn wrote ends).retires hl hq hn ht
    refine ⟨t, hexec, retired, State.wrote_endsIn_record wrote ends, ended.state, ended.outcome, ended.restart, ended.hold, ends.leaves,
      fun j x hj hx ho => ?_, ends.clock.trans wrote.clock, ends.self.trans self, rest⟩
    obtain ⟨shown, gone, _⟩ := State.wrote_endsIn_erase wrote ends hm hj hx ho
    exact ⟨shown, gone⟩
  · intro o gen epoch n l q s hop hm hl hq hn ht
    obtain ⟨F, hF⟩ : ∃ F, F = s.operated 0 (DirEntry.eraseCleared gen epoch) (s.retireWork .cleared 0) := ⟨_, rfl⟩
    obtain ⟨m, hM⟩ : ∃ m, m = F.completeUnitOrder .erased n := ⟨_, rfl⟩
    obtain ⟨t, hT⟩ : ∃ t, t = State.stamp s m.settle := ⟨_, rfl⟩
    have hexec : exec .eraseClear s = .next t := by
      rw [execEraseClear_eq hop, hT, hM, hF]
      rfl
    have wrote : s.wrote F 0 (DirEntry.eraseCleared gen epoch) (s.retireWork .cleared 0) := hF ▸ State.operated_wrote 0 _ _ s
    obtain ⟨clock, _, dir, self, _⟩ := State.completeUnitOrder_frame .erased n F
    rw [← hM] at clock dir self
    have field : ∀ {α : Type} (g : DirEntry → α), (∀ x, g (DirEntry.body x) = g x) →
        g t.dir[(0 : UnitId)] = g (DirEntry.eraseCleared gen epoch s.dir[(0 : UnitId)]) := fun g hg => by
      rw [hT]
      exact State.wrote_self wrote (by rw [dir]) g hg
    have settled : Rest {} m t := hT ▸ (Rest.settle m).stamp s
    have own : Rest { slots := (· = n) } F m := hM ▸ Rest.completeUnitOrder .erased n F
    obtain ⟨retired, rest⟩ := (wrote.rest rfl ((own.trans settled.widen).mono (e := { units := (· = 0), slots := (· = n) })
      (fun _ x => x) (fun _ x => x) (fun _ x => x.elim) fun _ x => x)).retires hl hq hn ht
    refine ⟨t, hexec, retired, field DirEntry.record fun _ => rfl, fun idle => ?_, field (·.lastOutcome) fun _ => rfl,
      field (·.restartCount) fun _ => rfl, field (·.holdCount) fun _ => rfl, fun x hx ho => ?_, ?_, ?_, rest⟩
    · exact (field (·.state) fun _ => rfl).trans (if_neg (by rw [idle]; decide))
    · rw [hM] at settled
      obtain ⟨shown, gone, _⟩ := State.wrote_erase wrote hm hx ho settled
      exact ⟨shown, gone⟩
    · rw [hT, State.stamp_clock, State.settle_clock, clock, wrote.clock]
    · rw [hT, State.stamp_self, (State.settle_frame m).2.1, self, hF, State.operated_self]

/-! ### DELIST-RETIRE (R46) -/

theorem execDelistRetire_eq {u : UnitId} {n : SlotId} {o : PoolOp} {s : State} (h : s.operates (.delistRetire u n) o) :
    exec .delistRetire s = .next (State.stamp s (s.runDelistRetire u n).settle) := by
  refine congrArg Host.Outcome.next (runOperation_eq h _ _ ?_)
  obtain ⟨_, _, hreq⟩ := h
  rw [hreq]

/-- What a DELIST UNIT order reports: the number of records retired (R171). -/
def delistResult (retired : Nat) : OrderResult := { code := 0, w0 := BitVec.ofNat 16 retired }

theorem State.runDelistRetire_eq (u : UnitId) (n : SlotId) (s : State) : s.runDelistRetire u n =
    (s.operated u DirEntry.vacated (s.retireWork .delisted u)).doneSlot n
      (delistResult ((s.retireWork .delisted u).retCount - s.pool.retCount)) s.sweep.counter := by
  show (s.operated u DirEntry.vacated (s.retireWork .delisted u)).doneSlot n _
    (s.operated u DirEntry.vacated (s.retireWork .delisted u)).sweep.counter = _
  rw [State.operated_sweep]
  rfl

/-- Settles O32: an entry VACANT and unmarked is out of reach of all follow-up work. -/
theorem delistRetireVacatesTheEntry : Obligations.DelistRetireVacatesTheEntry := by
  unfold Obligations.DelistRetireVacatesTheEntry
  intro o u n l q s hop hm hl hq hn ht
  obtain ⟨F, hF⟩ : ∃ F, F = s.operated u DirEntry.vacated (s.retireWork .delisted u) := ⟨_, rfl⟩
  obtain ⟨m, hM⟩ : ∃ m, m = F.doneSlot n (delistResult l.length) s.sweep.counter := ⟨_, rfl⟩
  obtain ⟨t, hT⟩ : ∃ t, t = State.stamp s m.settle := ⟨_, rfl⟩
  have short : l.length < walkFuel 0 := by
    have := nodup_length (List.nodup_append.1 hn).1
    simp only [walkFuel, Config.poolSize]
    omega
  have retiredCount : (s.retireWork .delisted u).retCount = s.pool.retCount + l.length :=
    (PoolWork.retireAll_spec .delisted s.sweep.counter (walkFuel 0) l q (PoolWork.start s.pool s.dir[u]) hl hq ht hn short).2.2.1
  have hexec : exec .delistRetire s = .next t := by
    rw [execDelistRetire_eq hop, State.runDelistRetire_eq, retiredCount, Nat.add_sub_cancel_left, hT, hM, hF]
  have wrote : s.wrote F u DirEntry.vacated (s.retireWork .delisted u) := hF ▸ State.operated_wrote u _ _ s
  obtain ⟨clock, _, dir, self, _⟩ := State.doneSlot_frame n (delistResult l.length) s.sweep.counter F
  rw [← hM] at clock dir self
  have body : m.dir[u].body = (DirEntry.vacated s.dir[u]).body := by rw [dir, wrote.body]
  have vacant : m.dir[u].state = .vacant := DirEntry.body_congr body (·.state) fun _ => rfl
  have settled : Rest {} m t := hT ▸ (Rest.settle m).stamp s
  have own : Rest { slots := (· = n) } F m := hM ▸ Rest.completeSlot n _ _ _ F
  obtain ⟨retired, rest⟩ := (wrote.rest rfl ((own.trans settled.widen).mono (e := { units := (· = u), slots := (· = n) })
    (fun _ x => x) (fun _ x => x) (fun _ x => x.elim) fun _ x => x)).retires hl hq hn ht
  rw [hM] at settled
  obtain ⟨shown, gone, done⟩ := settled.shows_done (State.wrote_memOk wrote hm)
  rw [wrote.clock] at shown
  refine ⟨t, hexec, retired, ?_, ?_, shown, done, gone, ?_, ?_, fun hu delisting => ?_, rest⟩
  · rw [hT]
    exact State.settle_vacant vacant
  · rw [hT, State.stamp_dir, State.settle_record]
    exact DirEntry.body_congr body DirEntry.record fun _ => rfl
  · rw [hT, State.stamp_clock, State.settle_clock, clock, wrote.clock]
  · rw [hT, State.stamp_self, (State.settle_frame m).2.1, self, hF, State.operated_self]
  · have changed : DirEntry.vacated s.dir[u] ≠ s.dir[u] := fun same => by
      have state : (DirEntry.vacated s.dir[u]).state = s.dir[u].state := by rw [same]
      rw [delisting] at state
      cases state
    have entry : m.dir[u] = { DirEntry.vacated s.dir[u] with revision := s.dir[u].revision + 2 } := by
      rw [dir, hF, State.operated_dir, State.writeEntry_get, if_pos ⟨rfl, changed⟩]
    have unmarked : m.dir[u].mark = .none := by
      rw [entry]
      rfl
    rw [hT, State.stamp_dir, State.settle_unlisted hu vacant unmarked, entry]

end Sys2Proof.Machine
end

section
/-! SUPPORT. The COMMIT and the SELF COMMIT, shown whole at the end of their operation (R28, R39 to R43). -/

namespace Sys2Proof.Machine

/-! ### What a commit logs (R40) -/

section
variable (w : PoolWork) (s : State)

/-- A commit that reclaimed nothing and failed no allocation logs no exhaustion. -/
theorem State.logExhausted_quiet {w : PoolWork} (hf : w.failed = false) (hr : w.reclaimed = 0) : s.logExhausted w = s := by
  unfold State.logExhausted
  dsimp only
  rw [hf, if_neg (not_not_intro hr)]
  rfl

theorem State.logExhausted_pool : (s.logExhausted w).pool = s.pool := by
  unfold State.logExhausted
  split <;> split <;> simp

/-- Records reclaimed are logged under mode 1, whatever is logged behind (R40). -/
theorem State.logs_reclaimed {w : PoolWork} (h : w.reclaimed ≠ 0) : s.logs (s.logExhausted w) .poolExhausted 1 false := by
  unfold State.logExhausted
  dsimp only
  rw [if_pos h]
  exact State.logs_after (State.logs_logSelf .poolExhausted 1 false s)
    (State.ite_logSelf_keepsLog (mode := 1) (m := 0) (fun x => absurd x.2 (by decide)) false _)

/-- Allocations failed are logged under mode 0, whatever was logged before (R40). -/
theorem State.logs_failed {w : PoolWork} (h : w.failed = true) : s.logs (s.logExhausted w) .poolExhausted 0 false := by
  unfold State.logExhausted
  dsimp only
  rw [if_pos h]
  have before : s.keepsLog (if w.reclaimed ≠ 0 then s.logSelfNat .poolExhausted 1 else s) .poolExhausted 0 :=
    State.ite_logSelf_keepsLog (m := 1) (fun x => absurd x.2 (by decide)) false s
  exact State.logs_before before (by split <;> simp) (State.logs_logSelf .poolExhausted 0 false _)

/-- Exhaustion is logged under its own identities. -/
theorem State.logExhausted_keepsLog {code : SelfCode} (h : code ≠ .poolExhausted) (mode : Byte) :
    s.keepsLog (s.logExhausted w) code mode := by
  have other : ∀ m : Byte, ¬ (SelfCode.poolExhausted = code ∧ m = mode) := fun _ x => h x.1.symm
  unfold State.logExhausted
  exact State.keepsLog_trans (State.ite_logSelf_keepsLog (other _) false s) (State.ite_logSelf_keepsLog (other _) false _)

/-- What a commit logs: exhaustion, and PROTOCOL_ERROR for a unit left MALFORMED (R40). -/
def State.commitLogged (u : UnitId) : State :=
  if (s.logExhausted w).dir[u].malformed then (s.logExhausted w).logSelfNat .protocolError u.val else s.logExhausted w

theorem Rest.commitLogged_exhausted (u : UnitId) : Rest {} (s.logExhausted w) (s.commitLogged w u) := by
  unfold State.commitLogged
  split
  · exact Rest.logSelfNat _ _ _
  · exact Rest.refl _ _

theorem State.commitLogged_quiet {w : PoolWork} {u : UnitId} (hf : w.failed = false) (hr : w.reclaimed = 0)
    (hd : s.dir[u].malformed = false) : s.commitLogged w u = s := by
  unfold State.commitLogged
  rw [State.logExhausted_quiet s hf hr, hd]
  rfl

theorem State.logExhausted_logs {code : SelfCode} {mode : Byte} (h : s.logs (s.logExhausted w) code mode false)
    (hc : code ≠ .protocolError) (u : UnitId) : s.logs (s.commitLogged w u) code mode false :=
  State.logs_after h (State.ite_logSelf_keepsLog (fun x => hc x.1.symm) false _)

theorem State.logs_malformed {u : UnitId} (hd : s.dir[u].malformed = true) :
    s.logs (s.commitLogged w u) .protocolError (BitVec.ofNat 8 u.val) false := by
  unfold State.commitLogged
  have dir := (State.logExhausted_frame w s).1
  have mem := (State.logExhausted_frame w s).2.1
  rw [dir, if_pos hd]
  exact State.logs_before (State.logExhausted_keepsLog w s (by decide) _) mem (State.logs_logSelf _ _ false _)

end

/-- The two writes log nothing. -/
theorem State.operated_keepsLog (u : UnitId) (D : DirEntry → DirEntry) (w : PoolWork) (s : State) (code : SelfCode) (mode : Byte) :
    s.keepsLog (s.operated u D w) code mode := by
  obtain ⟨entry, length, attention⟩ := (Rest.operated u D w s).keepsLog (by simp) code mode
  exact ⟨entry, length, attention⟩

/-- What is logged right behind the two writes stays logged through what follows. -/
theorem State.logs_operated {u : UnitId} {D : DirEntry → DirEntry} {w : PoolWork} {s F t : State} {d : Touch} {code : SelfCode}
    {mode : Byte} (h : (s.operated u D w).logs F code mode false) (r : Rest d F t) (hs : t.self = F.self) :
    s.logs t code mode false :=
  State.logs_after (State.logs_before (State.operated_keepsLog u D w s code mode) (State.operated_mem u D w s) h) (r.keepsLog hs _ _)

theorem State.logged_wrote (u : UnitId) (D : DirEntry → DirEntry) (w : PoolWork) (s : State) :
    s.wrote ((s.operated u D w).logExhausted w) u D w := by
  obtain ⟨dir, mem, orders, ctxs, clock, _, sweep⟩ := State.logExhausted_frame w (s.operated u D w)
  exact State.wrote_trans (State.operated_wrote u D w s) (Rest.logExhausted w _) dir (State.logExhausted_pool w _) mem orders ctxs clock
    sweep

theorem State.committed_wrote (u : UnitId) (D : DirEntry → DirEntry) (w : PoolWork) (s : State) :
    s.wrote ((s.operated u D w).commitLogged w u) u D w := by
  refine State.wrote_trans (State.logged_wrote u D w s) (Rest.commitLogged_exhausted w _ u) ?_ ?_ ?_ ?_ ?_ ?_ ?_ <;>
  · unfold State.commitLogged
    split <;> simp

/-! ### What a sweep takes of a commit (R148 to R150) -/

theorem outcomeMark_commit (truncated : Bool) : outcomeMark (commitOutcome truncated) = .done := by cases truncated <;> rfl

theorem code_commit (truncated : Bool) : BitVec.ofNat 16 (commitOutcome truncated).code = if truncated then 2 else 1 := by
  cases truncated <;> rfl

theorem Tallies.count_commit (truncated : Bool) (t : Tallies) : t.count (commitOutcome truncated) =
    if truncated then { t with truncated := t.truncated + 1 } else { t with readOk := t.readOk + 1 } := by
  cases truncated <;> rfl

/-! ### COMMIT (R28) -/

theorem DirEntry.committed_ended (gen : Word) (epoch : Byte) (total : Nat) (truncated drops : Bool) (ed : Edition) (w : PoolWork)
    (e : DirEntry) : (e.committed gen epoch total truncated drops ed w).ended e.state (commitOutcome truncated) (e.malformed || drops) :=
  ⟨endState_idle e, rfl, rfl, rfl, fun _ => rfl⟩

theorem execCommit_eq {k : CtxId} {u : UnitId} {gen : Word} {epoch : Byte} {total : Nat} {trunc : Bool} {o : PoolOp} {s : State}
    (h : s.operates (.commit k u gen epoch total trunc) o) :
    exec .commit s = .next (State.stamp s (s.runCommit o.policy k u gen epoch total trunc).settle) := by
  refine congrArg Host.Outcome.next (runOperation_eq h _ _ ?_)
  obtain ⟨_, _, hreq⟩ := h
  rw [hreq]

/-- The work a merge is given and the work it makes: the epoch step before it retires the chain of another epoch (R31, R32). -/
theorem State.commitWork_steps (policy : PoolPolicy) (u : UnitId) (epoch : Byte) (entries : List ReadEntry) (s : State) {l q : List RecId}
    (hl : linked s.pool.records s.dir[u].chainHead l) (hq : linked s.pool.records s.pool.retHead q) (hn : (l ++ q).Nodup)
    (ht : s.pool.retTail = q.getLast?) :
    let start := PoolWork.start s.pool s.dir[u]
    let x := start.epochStep s.dir[u] epoch s.sweep.counter
    s.commitWork policy u epoch entries =
      x.merge policy u s.sweep.counter (walkFuel (readList entries).length) (readList entries) none x.chainHead ∧
    (s.dir[u].neverRead = true ∨ epoch = s.dir[u].epoch → x = start) ∧
    (s.dir[u].neverRead = false → epoch ≠ s.dir[u].epoch → x.chainHead = none ∧
      s.pool.retires { s.pool with records := x.records, freeTop := x.freeTop, freeCount := x.freeCount, retHead := x.retHead,
                                   retTail := x.retTail, retCount := x.retCount, liveCount := x.liveCount }
        .cleared s.sweep.counter l q) := by
  refine ⟨rfl, fun same => if_pos same, fun read other => ?_⟩
  have step : (PoolWork.start s.pool s.dir[u]).epochStep s.dir[u] epoch s.sweep.counter =
      (PoolWork.start s.pool s.dir[u]).retireAll .cleared s.sweep.counter (walkFuel 0) := by
    refine if_neg ?_
    rintro (never | same)
    · rw [read] at never
      cases never
    · exact other same
  obtain ⟨head, top, free, _, retires⟩ := PoolWork.retireAll_retires .cleared s.sweep.counter hl hq hn ht
  rw [step]
  exact ⟨head, retires _ rfl rfl rfl rfl rfl top free rfl⟩

/-- What a sweep that waits for the unit takes of its commit (R148 to R150, R157, R158). -/
theorem State.commit_counted {s F : State} {k : CtxId} {u : UnitId} {D : DirEntry → DirEntry} {w : PoolWork} {truncated : Bool}
    (wrote : s.wrote F u D w) (hD : ∀ e, (D e).mark = e.mark ∧ (D e).state = endState .idle e) (target : s.ctxs[k].target = u)
    (purpose : s.ctxs[k].purpose = .read) (hm : s.memOk) (pending : s.dir[u].mark = .pending) (running : s.sweep.state ≠ .idle)
    (calm : s.sweep.autoDue = false) :
    let t := State.stamp s (F.endCommitting k (commitOutcome truncated)).settle
    t.dir[u].mark = .done ∧
    t.sweep.tallies =
      (if truncated then { s.sweep.tallies with truncated := s.sweep.tallies.truncated + 1 }
        else { s.sweep.tallies with readOk := s.sweep.tallies.readOk + 1 }) ∧
    ((∃ v : UnitId, v ≠ u ∧ s.dir[v].mark = .pending) →
      t.sweep.state = s.sweep.state ∧ t.sweep.outcome = s.sweep.outcome ∧ t.sweep.endClock = s.sweep.endClock) ∧
    ((∀ v : UnitId, v ≠ u → s.dir[v].mark ≠ .pending) → s.ctxs[k].attached = 0 → s.dir[u].state ≠ .delisting →
      State.sweepReturns { s with pool := { s.pool with op := none } } t
        (if s.sweep.state = .draining then s.sweep.outcome else .complete) s.clock fun _ => False) := by
  obtain ⟨m, hM⟩ : ∃ m, m = F.endCommitting k (commitOutcome truncated) := ⟨_, rfl⟩
  have readF : F.ctxs[k].purpose = .read := by rw [wrote.ctxs]; exact purpose
  have targetF : F.ctxs[k].target = u := by rw [wrote.ctxs]; exact target
  have markF := wrote.marks (hD s.dir[u]).1
  have clock : m.clock = s.clock := by rw [hM, (State.endCommitting_frame k _ F).1, wrote.clock]
  have memOk : m.memOk := hM ▸ ((Rest.endCommitting k _ F).mem (State.wrote_memOk wrote hm)).1
  obtain ⟨marks, course⟩ := State.endCommitting_pending (out := commitOutcome truncated) readF targetF ((markF u).trans pending)
  rw [← hM, wrote.sweep, Tallies.count_commit] at course
  have marked : ∀ v : UnitId, m.dir[v].mark = if v = u then .done else s.dir[v].mark := fun v => by
    rw [hM, marks, outcomeMark_commit, markF]
  rw [← hM]
  obtain ⟨mark, tallies, waits, returns⟩ := State.counted_settle marked course clock memOk running calm
  refine ⟨mark, tallies, waits, fun noneLeft unattached enlisted => ?_⟩
  have resting : F.dir[u].state ≠ .delisting := by
    have state : F.dir[u].state = (D s.dir[u]).state := DirEntry.body_congr wrote.body (·.state) fun _ => rfl
    rw [state, (hD s.dir[u]).2, endState, if_neg enlisted]
    decide
  have own : m = (F.freeContext k).sweepTake u (commitOutcome truncated) :=
    hM.trans (State.endCommitting_own readF targetF (by rw [wrote.ctxs]; exact unattached) resting)
  obtain ⟨opened, origin⟩ := State.sweepTake_opening u (commitOutcome truncated) (F.freeContext k)
  refine returns noneLeft w ?_ ?_ ?_ ?_
  · rw [own, ← wrote.pool]
    simp
  · rw [own, ← wrote.orders]
    simp
  · rw [own, opened, ← wrote.sweep]
    simp
  · rw [own, origin, ← wrote.sweep]
    simp

/-- Settles O29: the two writes stand, the occurrences are logged behind them, then the context's end and follow-up work keep both. -/
theorem commitEndsTheRead : Obligations.CommitEndsTheRead := by
  unfold Obligations.CommitEndsTheRead
  intro o k u gen epoch total trunc s hop hm target purpose staged w truncated
  obtain ⟨D, hD⟩ : ∃ D, D = DirEntry.committed gen epoch total truncated (screenDrops staged) s.sweep.counter w := ⟨_, rfl⟩
  obtain ⟨A, hA⟩ : ∃ A, A = s.operated u D w := ⟨_, rfl⟩
  obtain ⟨F, hF⟩ : ∃ F, F = A.commitLogged w u := ⟨_, rfl⟩
  obtain ⟨t, hT⟩ : ∃ t, t = State.stamp s (F.endCommitting k (commitOutcome truncated)).settle := ⟨_, rfl⟩
  have hexec : exec .commit s = .next t := by
    rw [execCommit_eq hop, hT, hF, hA, hD]
    rfl
  have wrote : s.wrote F u D w := by
    rw [hF, hA]
    exact State.committed_wrote u D w s
  have ends : F.endsIn t k (commitOutcome truncated) := hT ▸ State.endsIn_settled k _ s F
  have entry : (D s.dir[u]).ended s.dir[u].state (commitOutcome truncated) (s.dir[u].malformed || screenDrops staged) :=
    hD ▸ DirEntry.committed_ended ..
  have ended := ends.entry u _ _ (DirEntry.ended_congr wrote.body entry)
  have malformed : A.dir[u].malformed = (s.dir[u].malformed || screenDrops staged) := by
    have body := State.operated_body u D w s
    rw [← hA, hD] at body
    exact DirEntry.body_congr body (·.malformed) fun _ => rfl
  have logs : ∀ {code mode}, A.logs F code mode false → s.logs t code mode false := fun h =>
    State.logs_operated (hA ▸ h) ends.rest ends.self
  have record := State.wrote_endsIn_record wrote ends
  rw [hD] at record
  refine ⟨t, hexec, record, ended.state, ended.outcome, ended.restart, ended.hold, ended.malformed, ends.leaves, fun n x hn hx ho => ?_,
    fun above below => hasAttn_rise (wrote.low above below) ends.rest.attention, fun failed reclaimed sound kept => ?_,
    fun reclaimed => logs ?_, fun failed => logs ?_, fun bad => logs ?_, ends.clock.trans wrote.clock,
    fun l q hl hq hn ht => State.commitWork_steps o.policy u epoch staged s hl hq hn ht, fun pending running calm => ?_,
    Rest.wrote_endsIn wrote ends⟩
  · have shown := State.wrote_endsIn_read wrote ends hm hn hx ho
    rw [hD, code_commit] at shown
    exact shown
  · rw [ends.self, hF, State.commitLogged_quiet A failed reclaimed (by rw [malformed, sound, kept]; rfl), hA, State.operated_self]
  · rw [hF]
    exact State.logExhausted_logs w A (State.logs_reclaimed A reclaimed) (by decide) u
  · rw [hF]
    exact State.logExhausted_logs w A (State.logs_failed A failed) (by decide) u
  · rw [hF]
    exact State.logs_malformed w A (malformed.trans (Bool.or_eq_true_iff.2 bad))
  · rw [hT]
    exact State.commit_counted wrote (by rw [hD]; exact fun _ => ⟨rfl, rfl⟩) target purpose hm pending running calm

end Sys2Proof.Machine
end

section
/-! SUPPORT. The SELF COMMIT, shown whole at the end of its operation (R42, R43). -/

namespace Sys2Proof.Machine

section
variable (origin : SelfOrigin) (out : UnitOutcome) (s : State)

theorem State.reportSelf_frame : (s.reportSelf origin out).clock = s.clock ∧ (s.reportSelf origin out).self = s.self := by
  unfold State.reportSelf
  split <;> simp

/-- The report of a SELF COMMIT writes of the entries their marks alone (R43, R149). -/
theorem State.reportSelf_body (v : UnitId) : (s.reportSelf origin out).dir[v].body = s.dir[v].body := by
  unfold State.reportSelf
  split
  · exact State.sweepTake_body 0 out s v
  · rw [(State.completeUnitOrder_frame out _ s).2.2.1]

theorem Rest.reportSelf_origin : Rest { slots := fun n => origin = .slot n } s (s.reportSelf origin out) := by
  cases origin with
  | sweep => exact (Rest.sweepTake 0 out s).widen
  | slot n => exact (Rest.reportSelf n out s).mono (fun _ x => x) (fun _ x => x) (fun _ x => x) fun _ x => by rw [show _ = n from x]

end

/-- The directory write of a SELF COMMIT (R39, R42). -/
def PoolOp.selfEntry (o : PoolOp) (w : PoolWork) (ed : Edition) : DirEntry → DirEntry :=
  DirEntry.committed o.snapshot.generation o.snapshot.epoch o.snapshot.entries.length w.failed false ed w

theorem execSelfCommit_eq {origin : SelfOrigin} {o : PoolOp} {s : State} (h : s.operates (.selfCommit origin) o) :
    exec .selfCommit s = .next (State.stamp s (s.runSelfCommit o.policy o.snapshot origin).settle) := by
  refine congrArg Host.Outcome.next (runOperation_eq h _ _ ?_)
  obtain ⟨_, _, hreq⟩ := h
  rw [hreq]

/-- What a sweep that asked for the SELF COMMIT takes of it (R148 to R150, R153, R157, R158). -/
theorem State.selfCommit_counted {s F : State} {D : DirEntry → DirEntry} {w : PoolWork} {truncated : Bool} (wrote : s.wrote F 0 D w)
    (hD : ∀ e, (D e).mark = e.mark) (hm : s.memOk) (pending : s.dir[(0 : UnitId)].mark = .pending) (running : s.sweep.state ≠ .idle)
    (calm : s.sweep.autoDue = false) :
    let t := State.stamp s (F.sweepTake 0 (commitOutcome truncated)).settle
    t.dir[(0 : UnitId)].mark = .done ∧
    t.sweep.tallies =
      (if truncated then { s.sweep.tallies with truncated := s.sweep.tallies.truncated + 1 }
        else { s.sweep.tallies with readOk := s.sweep.tallies.readOk + 1 }) ∧
    ((∃ v : UnitId, v ≠ 0 ∧ s.dir[v].mark = .pending) →
      t.sweep.state = s.sweep.state ∧ t.sweep.outcome = s.sweep.outcome ∧ t.sweep.endClock = s.sweep.endClock) ∧
    ((∀ v : UnitId, v ≠ 0 → s.dir[v].mark ≠ .pending) →
      State.sweepReturns { s with pool := { s.pool with op := none } } t
        (if s.sweep.state = .draining then s.sweep.outcome else .complete) s.clock fun _ => False) := by
  have markF := wrote.marks (hD _)
  obtain ⟨marks, counted⟩ := State.sweepTake_pending (out := commitOutcome truncated) ((markF 0).trans pending)
  obtain ⟨m, hM⟩ : ∃ m, m = F.sweepTake 0 (commitOutcome truncated) := ⟨_, rfl⟩
  rw [← hM, wrote.sweep, Tallies.count_commit] at counted
  have marked : ∀ v : UnitId, m.dir[v].mark = if v = 0 then .done else s.dir[v].mark := fun v => by
    rw [hM, marks, outcomeMark_commit, markF]
  have clock : m.clock = s.clock := by
    rw [hM, ← wrote.clock]
    simp
  have memOk : m.memOk := hM ▸ ((Rest.sweepTake 0 _ F).mem (State.wrote_memOk wrote hm)).1
  rw [← hM]
  obtain ⟨mark, tallies, waits, returns⟩ :=
    State.counted_settle marked (congrArg SweepCtl.course counted) clock memOk running calm
  refine ⟨mark, tallies, waits, fun noneLeft => returns noneLeft w ?_ ?_ (by rw [counted]) (by rw [counted])⟩
  · rw [hM, ← wrote.pool]
    simp
  · rw [hM, ← wrote.orders]
    simp

/-- Settles O30, as O29 but with a report in place of a context: no assignment ever takes unit 0, so its entry stands as written. -/
theorem selfCommitEndsTheSelfRead : Obligations.SelfCommitEndsTheSelfRead := by
  unfold Obligations.SelfCommitEndsTheSelfRead
  intro o origin s hop hm w
  obtain ⟨A, hA⟩ : ∃ A, A = s.operated 0 (o.selfEntry w s.sweep.counter) w := ⟨_, rfl⟩
  obtain ⟨F, hF⟩ : ∃ F, F = A.logExhausted w := ⟨_, rfl⟩
  obtain ⟨m, hM⟩ : ∃ m, m = F.reportSelf origin (commitOutcome w.failed) := ⟨_, rfl⟩
  obtain ⟨t, hT⟩ : ∃ t, t = State.stamp s m.settle := ⟨_, rfl⟩
  have hexec : exec .selfCommit s = .next t := by
    rw [execSelfCommit_eq hop, hT, hM, hF, hA]
    rfl
  have wrote : s.wrote F 0 (o.selfEntry w s.sweep.counter) w := by
    rw [hF, hA]
    exact State.logged_wrote 0 _ w s
  obtain ⟨clock, selfM⟩ := State.reportSelf_frame origin (commitOutcome w.failed) F
  rw [← hM] at clock selfM
  have field : ∀ {α : Type} (g : DirEntry → α), (∀ x, g (DirEntry.body x) = g x) →
      g t.dir[(0 : UnitId)] = g (o.selfEntry w s.sweep.counter s.dir[(0 : UnitId)]) := fun g hg => by
    rw [hT]
    exact State.wrote_self wrote (by rw [hM, State.reportSelf_body]) g hg
  have self : t.self = F.self := by rw [hT, State.stamp_self, (State.settle_frame m).2.1, selfM]
  have settled : Rest {} m t := hT ▸ (Rest.settle m).stamp s
  have after : Rest { slots := fun n => origin = .slot n } F t := (hM ▸ Rest.reportSelf_origin origin _ F).trans settled.widen
  have logs : ∀ {code mode}, A.logs F code mode false → s.logs t code mode false := fun h =>
    State.logs_operated (hA ▸ h) after self
  refine ⟨t, hexec, field DirEntry.record fun _ => rfl, field (·.lastOutcome) fun _ => rfl, field (·.restartCount) fun _ => rfl,
    field (·.holdCount) fun _ => rfl, (field (·.malformed) fun _ => rfl).trans (Bool.or_false _), fun idle => ?_,
    fun reclaimed => logs (hF ▸ State.logs_reclaimed A reclaimed), fun failed => logs (hF ▸ State.logs_failed A failed),
    fun n x hn hx ho => ?_, fun above below => hasAttn_rise (wrote.low above below) after.attention, fun failed reclaimed => ?_, ?_,
    fun hs pending running calm => ?_, wrote.rest rfl (after.mono (fun _ x => x) (fun _ x => x) (fun _ x => x.elim) fun _ x => x)⟩
  · exact (field (·.state) fun _ => rfl).trans (if_neg (by rw [idle]; decide))
  · subst hn
    rw [hM] at settled
    obtain ⟨shown, gone, _⟩ := State.wrote_read wrote hm hx ho settled
    rw [code_commit] at shown
    exact ⟨shown, gone⟩
  · rw [self, hF, State.logExhausted_quiet A failed reclaimed, hA, State.operated_self]
  · rw [hT, State.stamp_clock, State.settle_clock, clock, wrote.clock]
  · subst hs
    rw [hT, hM]
    exact State.selfCommit_counted wrote (fun _ => rfl) hm pending running calm

end Sys2Proof.Machine
end

section
/-! SUPPORT. An event after which nothing is left undone leads to assignments alone, and so leaves the sweep controller as it stood
(R94, R150, R153, R157). -/

namespace Sys2Proof.Machine

theorem mem_allSlots (n : SlotId) : n ∈ allSlots := by
  revert n
  decide

/-- An edition is ready for its close only with nothing that keeps it open (R157). -/
theorem State.nothingKeeps_of_closeReady {s : State} (h : s.closeReady = true) : s.nothingKeeps := by
  unfold State.closeReady State.requestKeepsEdition State.orderKeepsEdition at h
  simp only [Bool.and_eq_true, Bool.not_eq_true', Bool.or_eq_false_iff, List.any_eq_false, Bool.not_eq_true] at h
  obtain ⟨⟨_, orders⟩, ⟨queue, waiting⟩, operation⟩ := h
  have release : ∀ {r : PoolRequest}, r.ofEdition = false → ∃ e n, r = .release e n := fun {r} hr => by
    cases r with
    | release e n => exact ⟨e, n, rfl⟩
    | commit | selfCommit | eraseClear | delistRetire => cases hr
  refine ⟨fun n x u hx => ?_, fun r hr => release ?_, fun o ho => release ?_⟩
  · have keeps : x.order.keepsEdition = false := by
      have none := orders n (mem_allSlots n)
      rw [hx] at none
      exact none
    refine ⟨?_, ?_, ?_⟩ <;> intro ho <;> rw [ho] at keeps <;> cases keeps
  · exact (List.mem_append.1 hr).elim (queue r) (waiting r)
  · rw [ho] at operation
    exact operation

/-- With nothing left undone what follows an event at once is assignments (R94). -/
theorem State.settle_of_settled {s : State} (h : s.settled) : s.settle = s.allocate 8 := by
  obtain ⟨waits, opened⟩ := h
  have ok : s.sweepOk := fun x => s.anyPending_iff.2 (waits x)
  have close : s.closeTest = s := if_neg fun ready => by
    have keeps := State.nothingKeeps_of_closeReady ready
    unfold State.closeReady at ready
    simp only [Bool.and_eq_true, bne_iff_ne, beq_iff_eq] at ready
    exact opened ready.1.1.1 ready.1.1.2 keeps
  unfold State.settle
  rw [State.sweepTest_of_sweepOk ok, State.sweepTest_of_sweepOk ok, close]

/-- An event that leaves the sweep controller alone and nothing undone leaves it so at its end. -/
theorem State.stamp_settle_sweep {s m : State} (hw : m.sweep = s.sweep) (h : m.settled) :
    (State.stamp s m.settle).sweep = s.sweep := by
  have settle : m.settle.sweep = s.sweep := by
    rw [State.settle_of_settled h, (State.allocate_frame 8 m).2.2.2.2.1, hw]
  rw [State.stamp_sweep_of_eq settle, settle]

end Sys2Proof.Machine
end

section
/-! SUPPORT. A hold that has run out (R56, R95). -/

namespace Sys2Proof.Machine

/-- What the passing of time leaves of an entry: all but the latch of its hold (R56). -/
theorem State.advanceTo_entry (c : Clock) (s : State) (v : UnitId) : ∃ b, (s.advanceTo c).dir[v] = { s.dir[v] with holdRunOut := b } := by
  unfold State.advanceTo
  split
  · exact ⟨_, rfl⟩
  · rw [State.setClock, vecMap_get]
    unfold DirEntry.latchHold
    split
    · exact ⟨true, rfl⟩
    · exact ⟨_, rfl⟩

theorem State.runOut_get (u : UnitId) (s : State) (v : UnitId) :
    (s.runOut u).dir[v] = if v = u then { s.dir[u] with holdRunOut := true } else s.dir[v] := by
  simp only [State.runOut, Fin.getElem_fin, Vector.getElem_set, Fin.ext_iff, eq_comm]

/-- The latch of a hold is no part of what Rest keeps of an entry. -/
theorem Rest.runOut (u : UnitId) (s : State) : Rest {} s (s.runOut u) := by
  refine Rest.of_kept rfl rfl rfl rfl rfl rfl (fun _ _ _ => rfl) (fun _ _ => ⟨rfl, List.prefix_rfl⟩) fun v _ => ?_
  rw [State.runOut_get]
  split
  · next h => rw [h]; rfl
  · rfl

/-- A unit that takes a hold's expiry: HELD with its hold run out, or read again (R54, R56). -/
def DirEntry.resumable (e : DirEntry) : Prop := e.state = .held ∧ e.holdRunOut = true ∨ e.state = .reading

/-- Follow-up work makes of a held request whose hold has run out at most a read (R54, R56, R95). -/
theorem State.settle_resumable {u : UnitId} {s : State} (h : s.dir[u].resumable) : s.settle.dir[u].resumable := by
  refine State.settle_entry (P := DirEntry.resumable) (fun mask t x => ?_) (fun e p r _ ha x => ?_) h
  · have body := State.markUnit_body (u := u) (s := t) mask fun faulty => by
      rcases x with ⟨held, _⟩ | reading
      · cases held.symm.trans faulty
      · cases reading.symm.trans faulty
    exact (DirEntry.body_congr body DirEntry.resumable fun _ => rfl).symm ▸ x
  · rcases x with ⟨held, _⟩ | reading
    · cases p with
      | read =>
        rw [DirEntry.assigned, if_pos held]
        exact .inr rfl
      | erase =>
        rw [DirEntry.assignable, held] at ha
        cases ha
    · rw [DirEntry.assignable, reading] at ha
      cases ha

/-- Settles O55: the latch stands when the event's own work is done, and of what follows only an assignment to a read ends the hold. -/
theorem holdRunOutMakesEligible : Obligations.HoldRunOutMakesEligible := by
  unfold Obligations.HoldRunOutMakesEligible
  intro u s run held
  obtain ⟨m, hM⟩ : ∃ m, m = (s.advanceTo s.dir[u].holdUntil).runOut u := ⟨_, rfl⟩
  have hexec : exec (.holdRunOut u) s = .next (State.stamp s m.settle) := by
    rw [hM]
    exact congrArg Host.Outcome.next ((if_pos held).trans (settledEvent_eq _ s run))
  -- of an entry the event's own work writes the latch alone
  have entry : ∀ v : UnitId, ∃ b, m.dir[v] = { s.dir[v] with holdRunOut := b } ∧ (v = u → b = true) := fun v => by
    obtain ⟨b, hb⟩ := State.advanceTo_entry s.dir[u].holdUntil s v
    rw [hM, State.runOut_get]
    split
    · next same =>
      subst same
      exact ⟨true, by rw [hb], fun _ => rfl⟩
    · next other => exact ⟨b, hb, fun same => absurd same other⟩
  have resumable : m.dir[u].resumable := by
    obtain ⟨b, hb, latched⟩ := entry u
    rw [hb, latched rfl]
    exact .inl ⟨held, rfl⟩
  obtain ⟨_, _, orders, sweep, self, pool, _, _, _, portLast, _⟩ := State.advanceTo_frame s.dir[u].holdUntil s
  have still : s.still (State.stamp s m.settle) := fun settled _ => by
    refine State.stamp_settle_sweep (hM ▸ sweep) (State.settled_congr ?_ ?_ (fun v => ?_) (State.nothingKeeps_congr ?_ ?_) settled)
    · rw [hM]; exact congrArg SweepCtl.state sweep
    · rw [hM]; exact congrArg SweepCtl.openEdition sweep
    · obtain ⟨_, hb, _⟩ := entry v
      rw [hb]
    · rw [hM]; exact congrArg OrderEngine.taken orders
    · rw [hM]; exact pool
  refine ⟨State.stamp s m.settle, hexec, ?_, ?_, ?_, State.settle_resumable resumable, still, ?_⟩
  · rw [State.stamp_clock, State.settle_clock, hM]
    exact State.advanceTo_clock s s.dir[u].holdUntil
  · rw [State.stamp_self, (State.settle_frame m).2.1, hM]
    exact self
  · rw [State.stamp_portLast, (State.settle_frame m).2.2.2.1, hM]
    exact portLast
  · have own : Rest {} s m := hM ▸ (Rest.advanceTo _ s).trans (Rest.runOut u _)
    exact own.settled

end Sys2Proof.Machine
end

section
/-! SUPPORT. The order table: the visit that takes an order, the slots that work on other orders leaves alone, and orders that
complete (R94, R164 to R168). -/

namespace Sys2Proof.Machine

/-! ### The visit that takes an order -/

/-- What a visit touches does not depend on the halt, which the pass clears (R165, R167). -/
theorem Rest.setHalt {d : Touch} {a b : State} (r : Rest d a b) (x : Option SlotId) : Rest d (a.setHalt x) (b.setHalt x) := by
  refine { r with scan := ?_, taken := fun n => r.taken n, mem := fun hm => r.mem hm }
  have scan := r.scan
  unfold OrderEngine.scan at scan ⊢
  simp only [State.setHalt_orders, OrderEngine.mk.injEq] at scan ⊢
  simp [scan]

theorem State.visit_taken {n : SlotId} {s : State} {o : Order} (hp : slotState s.mem n = Config.stPosted) (hj : s.judge n = .taken o)
    (ho : o ≠ .resetPart) : s.visit n = .goOn (event (fun s => (s.take n o).settle) s) := by
  unfold State.visit
  rw [if_pos hp, hj]
  split
  · next h => cases h
  · next h => cases h
  · next h => exact absurd (Verdict.taken.inj h) ho
  · next h => rw [Verdict.taken.inj h]

/-- The command that finds its one POSTED slot with an order to take (R165, R166). -/
theorem execSignalWrite_takes (v : Word) {n : SlotId} {s : State} {o : Order} (h : s.visits n) (hj : s.judge n = .taken o)
    (ho : o ≠ .resetPart) (hm : (s.take n o).memOk) (others : ∀ j, j ≠ n → slotState (s.take n o).mem j ≠ Config.stPosted) :
    exec (.signalWrite v) s = .next ((State.stamp s (s.take n o).settle).setHalt none) := by
  obtain ⟨_, _, _, posted, _⟩ := id h
  exact execSignalWrite_goOn v n s h (fun s => s.take n o) (State.visit_taken posted hj ho) hm others

/-- The value and state checks passed, an order is taken unless it needs room in the request queue that is not there (R166, R167). -/
theorem State.judge_order {n : SlotId} {s : State} {o : Order} {k : Nat} (hk : (slotKind s.mem n).toNat = k) (h1 : 1 ≤ k) (h2 : k ≤ 16)
    (hs : s.orders.start = false) (hp : parseOrder s.mem n = .order o) (hc : s.checkOrder o = none) : s.judge n =
      if s.takingOffers o && decide (Config.poolQueueDepth ≤ s.pool.queue.length) then .halted else .taken o := by
  rw [State.judge_started hk h1 h2 hs, hp]
  dsimp only
  rw [hc]

/-! ### Orders taken and completed -/

theorem State.takeSlot_get (n : SlotId) (o : Order) (s : State) (j : SlotId) : (s.takeSlot n o).orders.taken[j] =
    if j = n then some { order := o, edition := s.sweep.openEdition, sweepResult := none } else s.orders.taken[j] := by
  rw [State.takeSlot, State.setTaken_get]
  rfl

theorem Rest.takeSlot (n : SlotId) (o : Order) (s : State) : Rest { slots := (· = n) } s (s.takeSlot n o) :=
  (Rest.putSlot n _ _ s (by decide)).trans (Rest.setTaken n _ _)

theorem State.takeSlot_state {n : SlotId} {o : Order} {s : State} (hm : s.memOk) (j : SlotId) :
    slotState (s.takeSlot n o).mem j = if j = n then Config.stTaken else slotState s.mem j := by
  show slotState (Memory.writeWord s.mem (slotAt n + Config.slotStateOff) Config.stTaken) j = _
  split
  · next h =>
    rw [h]
    exact Memory.readWord_writeWord hm _ _
  · next h => exact slotState_putSlot hm h _ (by decide) _

/-- From `s` to `t` orders have at most been completed: no slot has been taken or posted (R164, R168). -/
structure State.completesOnly (s t : State) : Prop where
  mem : s.memOk → t.memOk
  state : s.memOk → ∀ j, slotState t.mem j = slotState s.mem j ∨ slotState t.mem j = Config.stDone
  taken : ∀ j : SlotId, t.orders.taken[j] = s.orders.taken[j] ∨ t.orders.taken[j] = none

theorem State.completesOnly_same {s t : State} (hm : t.mem = s.mem) (ho : t.orders = s.orders) : s.completesOnly t where
  mem h := by rw [State.memOk, hm]; exact h
  state _ j := .inl (by rw [hm])
  taken j := .inl (by rw [ho])

theorem State.completesOnly_trans {s t u : State} (h : s.completesOnly t) (k : t.completesOnly u) : s.completesOnly u where
  mem x := k.mem (h.mem x)
  state x j := by
    rcases k.state (h.mem x) j with same | done
    · rw [same]
      exact h.state x j
    · exact .inr done
  taken j := by
    rcases k.taken j with same | gone
    · rw [same]
      exact h.taken j
    · exact .inr gone

theorem State.completesOnly_done (n : SlotId) (r : OrderResult) (ed : Edition) (s : State) : s.completesOnly (s.doneSlot n r ed) where
  mem := State.completeSlot_memOk n _ r ed s
  state hm j := by
    by_cases h : j = n
    · rw [h]
      exact .inr (State.completeSlot_shows n Config.stDone r ed s hm).1
    · exact .inl (State.completeSlot_other h Config.stDone r ed hm)
  taken j := by
    rw [State.doneSlot, State.completeSlot_taken]
    split
    · exact .inr rfl
    · exact .inl rfl

theorem State.completesOnly_orders (out : UnitOutcome) (slots : List SlotId) (s : State) :
    s.completesOnly (s.completeUnitOrders out slots) := by
  refine forEach_invariant s.completesOnly _ (fun n t h => State.completesOnly_trans h ?_) slots s (State.completesOnly_same rfl rfl)
  unfold State.completeUnitOrder
  split
  · split
    · exact State.completesOnly_done _ _ _ t
    · exact State.completesOnly_done _ _ _ t
    · exact State.completesOnly_same rfl rfl
  · exact State.completesOnly_same rfl rfl

/-- A completed order of the unit shows the outcome's code (R168, R172, R173). -/
theorem State.completeUnitOrders_done {out : UnitOutcome} {slots : List SlotId} (nodup : slots.Nodup) {s : State} (hm : s.memOk)
    {j : SlotId} (hj : j ∈ slots) {x : Taken} (hx : s.orders.taken[j] = some x) {u : UnitId}
    (ho : x.order = .readUnit u ∨ x.order = .eraseUnit u) :
    (s.completeUnitOrders out slots).slotDone j (BitVec.ofNat 16 out.code) x.edition s.clock := by
  rcases ho with read | erase
  · obtain ⟨shown, gone, _⟩ := State.completeUnitOrders_shows out slots nodup s hm j hj x hx _ fun t hd ht =>
      State.completeUnitOrder_read out read hd ht
    exact ⟨gone, _, _, _, _, shown⟩
  · obtain ⟨shown, gone, _⟩ := State.completeUnitOrders_shows out slots nodup s hm j hj x hx _ fun t hd ht =>
      State.completeUnitOrder_erase out erase hd ht
    exact ⟨gone, _, _, _, _, shown⟩

/-- What touches no completed order leaves its result. -/
theorem Rest.slotDone {d : Touch} {s t : State} (r : Rest d s t) (hm : s.memOk) {j : SlotId} (hj : ¬ d.slots j) {code : Word}
    {ed : Edition} {at_ : Clock} (h : s.slotDone j code ed at_) : t.slotDone j code ed at_ := by
  obtain ⟨gone, w0, w1, w2, w3, shown⟩ := h
  have other : ¬ s.sweepSlot j := by
    rintro ⟨x, _, _, hx, _⟩
    rw [gone] at hx
    cases hx
  exact ⟨(r.taken j hj other).trans gone, w0, w1, w2, w3, r.slotShows hm j hj other shown⟩

/-! ### Orders that wait on a unit -/

theorem hasSlot_foldl (n : SlotId) (f : CtxId → BitVec 16) (l : List CtxId) (b : BitVec 16) :
    hasSlot (l.foldl (fun b k => b ||| f k) b) n = (hasSlot b n || l.any fun k => hasSlot (f k) n) := by
  induction l generalizing b with
  | nil => simp
  | cons k l ih =>
    rw [List.foldl_cons, ih, List.any_cons, ← Bool.or_assoc]
    congr 1
    simp [hasSlot]

/-- A slot counts as attached when some context has it attached (R97). -/
theorem State.attachedAll_eq_false {s : State} {n : SlotId} :
    hasSlot s.attachedAll n = false ↔ ∀ k : CtxId, hasSlot s.ctxs[k].attached n = false := by
  have every : ∀ k : CtxId, k ∈ allCtxs := by decide
  have zero : hasSlot 0 n = false := by simp [hasSlot]
  rw [State.attachedAll, hasSlot_foldl, zero, Bool.false_or, List.any_eq_false]
  exact ⟨fun h k => Bool.not_eq_true _ ▸ h k (every k), fun h k _ => by rw [h k]; decide⟩

theorem State.mem_waitingSlots {s : State} {p : Order → Bool} {j : SlotId} : j ∈ s.waitingSlots p ↔
    (∀ k : CtxId, hasSlot s.ctxs[k].attached j = false) ∧ ∃ x, s.orders.taken[j] = some x ∧ p x.order = true := by
  rw [State.waitingSlots, List.mem_filter, ← State.attachedAll_eq_false, and_iff_right (mem_allSlots j)]
  cases s.orders.taken[j] with
  | none => simp
  | some x =>
    dsimp only
    rw [Bool.and_eq_true, Bool.not_eq_true', and_comm]
    simp

theorem State.waitingSlots_nodup (s : State) (p : Order → Bool) : (s.waitingSlots p).Nodup := List.Nodup.filter _ (by decide)

theorem State.mem_waitingOrders {s : State} {u : UnitId} {j : SlotId} : j ∈ s.waitingOrders u ↔
    (∀ k : CtxId, hasSlot s.ctxs[k].attached j = false) ∧
      ∃ x, s.orders.taken[j] = some x ∧ (x.order = .readUnit u ∨ x.order = .eraseUnit u) := by
  have names : ∀ o : Order, (o.readsUnit u || o.erasesUnit u) = true ↔ o = .readUnit u ∨ o = .eraseUnit u := fun o => by
    cases o with
    | readUnit v => simpa [Order.readsUnit, Order.erasesUnit] using eq_comm
    | eraseUnit v => simpa [Order.readsUnit, Order.erasesUnit] using eq_comm
    | _ => simp [Order.readsUnit, Order.erasesUnit]
  simp only [State.waitingOrders, State.mem_waitingSlots, names]

/-- The one slot that waits with an order of the kind is the list of them. -/
theorem State.waitingSlots_single {s : State} {p : Order → Bool} {n : SlotId} (h : ∀ j, j ∈ s.waitingSlots p ↔ j = n) :
    s.waitingSlots p = [n] := by
  have perm : (s.waitingSlots p).Perm [n] :=
    (List.perm_ext_iff_of_nodup (s.waitingSlots_nodup p) (List.nodup_singleton n)).2 fun j => by rw [h, List.mem_singleton]
  exact List.perm_singleton.1 perm

end Sys2Proof.Machine
end

section
/-! SUPPORT. What a context keeps while it leaves its line or its frame, what it touches in leaving, and how its read or erase ends
(R99, R109, R113, R122, R138, R139). -/

namespace Sys2Proof.Machine

/-! ### What a context keeps -/

/-- A context but for its revision, its state and what it waits for: credits, a sending, a window. -/
def Context.bond (c : Context) : Context := { c.plan with window := none }

theorem Context.bond_congr {α : Sort _} {c d : Context} (h : c.bond = d.bond) (g : Context → α) (hg : ∀ x, g (Context.bond x) = g x) :
    g c = g d := by
  rw [← hg c, h, hg]

/-- Every context of `t` serves as it did in `s`. -/
def State.bonds (s t : State) : Prop := ∀ j : CtxId, t.ctxs[j].bond = s.ctxs[j].bond

theorem State.bonds_updCtx {s t : State} (h : s.bonds t) (k : CtxId) {f : Context → Context} (hf : ∀ c, (f c).bond = c.bond) :
    s.bonds (t.updCtx k f) := fun j => by
  rw [State.updCtx_get]
  split
  · next e => rw [hf, e]; exact h k
  · exact h j

theorem State.bonds_placeGranted {s t : State} (h : s.bonds t) (k : CtxId) : s.bonds (t.placeGranted k) := by
  have granted : s.bonds (t.updCtx k fun c => { c with creditNeed := 0, state := if c.state = .paced then .opening else c.state }) :=
    State.bonds_updCtx h k fun _ => rfl
  unfold State.placeGranted State.sendFrame
  exact State.bonds_updCtx (t := State.updChan _ _ _) granted k fun _ => rfl

theorem State.bonds_serve {s t : State} (h : s.bonds t) (ch : ChanId) : s.bonds (t.serve ch) :=
  State.serveLine_induct s.bonds ch (fun _ _ x => x) (fun k _ x => State.bonds_placeGranted x k) _ t h

theorem State.bonds_quitLine {s t : State} (h : s.bonds t) (k : CtxId) : s.bonds (t.quitLine k) := by
  unfold State.quitLine
  dsimp only
  split
  · have left : s.bonds (t.updCtx k fun c => { c with creditNeed := 0 }) := State.bonds_updCtx h k fun _ => rfl
    exact left
  · exact h

theorem State.bonds_detach (k : CtxId) (s : State) : s.bonds (s.detach k) := by
  have withdrawn : s.bonds (s.withdrawFrame k) :=
    State.bonds_updCtx (t := s.updChan s.ctxs[k].channel (Channel.withdraw k)) (fun _ => rfl) k fun _ => rfl
  have left : s.bonds ((s.withdrawFrame k).leaveLine k) := by
    unfold State.leaveLine
    dsimp only
    split
    · exact State.bonds_serve (State.bonds_quitLine withdrawn k) _
    · exact State.bonds_quitLine withdrawn k
  exact State.bonds_updCtx left k fun _ => rfl

theorem State.detach_window (k : CtxId) (s : State) : (s.detach k).ctxs[k].window = none := by
  unfold State.detach
  rw [State.updCtx_get, if_pos rfl]
  rfl

/-! ### What leaving touches -/

theorem Channel.admitOutside_pacer (c : Channel) : c.admitOutside.pacer = c.pacer := by
  unfold Channel.admitOutside
  split
  · rfl
  · split <;> rfl

theorem Channel.withdraw_pacer (k : CtxId) (c : Channel) : (c.withdraw k).pacer = c.pacer := by
  unfold Channel.withdraw
  split
  · rfl
  · split
    · rfl
    · split
      · exact Channel.admitOutside_pacer _
      · rfl

theorem Rest.withdrawFrame (k : CtxId) (s : State) :
    Rest { ctxs := (· = k), chans := (· = s.ctxs[k].channel) } s (s.withdrawFrame k) :=
  Rest.trans ((Rest.updChan s.ctxs[k].channel (Channel.withdraw k) s).mono (fun _ x => x.elim) (fun _ x => x) (fun _ x => x) fun _ x => x)
    ((Rest.updCtx k _ _).mono (fun _ x => x) (fun _ x => x.elim) (fun _ x => x) fun _ x => x)

theorem Rest.quitLine (k : CtxId) (s : State) : Rest { ctxs := (· = k) } s (s.quitLine k) := by
  unfold State.quitLine
  dsimp only
  refine Rest.ite (fun _ => ?_) fun _ => Rest.refl _ _
  exact (Rest.updCtx k _ s).trans (Rest.updPacer _ _ _ rfl).widen

/-- Who quits a line leaves it to those that stood in it. -/
theorem State.quitLine_line {k j : CtxId} {ch : ChanId} {s : State} (h : j ∈ (s.quitLine k).chans[ch].pacer.line) :
    j ∈ s.chans[ch].pacer.line := by
  unfold State.quitLine at h
  dsimp only at h
  split at h
  · rw [State.updPacer, State.updChan_get] at h
    split at h
    · next e => rw [e]; exact List.mem_of_mem_erase h
    · exact h
  · exact h

/-- Leaving a line without a grant touches the context and, at the line's head, those behind it (R139). -/
theorem Rest.leaveLine (k : CtxId) (s : State) : Rest { ctxs := s.leaving k } s (s.leaveLine k) := by
  have quit : Rest { ctxs := s.leaving k } s (s.quitLine k) :=
    (Rest.quitLine k s).mono (fun _ x => .inl x) (fun _ x => x) (fun _ x => x) fun _ x => x
  unfold State.leaveLine
  dsimp only
  split
  · next head =>
    refine quit.trans ((Rest.serve _ _).mono (fun j hj => ?_) (fun _ x => x) (fun _ x => x) fun _ x => x)
    exact .inr ⟨List.mem_of_head? head, State.quitLine_line hj⟩
  · exact quit

/-- Leaving line, frame and window touches the context, its channel, and those that stood in the line with it (R99, R122, R139). -/
theorem Rest.detach (k : CtxId) (s : State) :
    Rest { ctxs := s.leaving k, chans := (· = s.ctxs[k].channel) } s (s.detach k) := by
  have line : (s.withdrawFrame k).chans[s.ctxs[k].channel].pacer.line = s.chans[s.ctxs[k].channel].pacer.line := by
    have chans : (s.withdrawFrame k).chans = (s.updChan s.ctxs[k].channel (Channel.withdraw k)).chans := rfl
    rw [chans, State.updChan_get, if_pos rfl, Channel.withdraw_pacer]
  have channel : (s.withdrawFrame k).ctxs[k].channel = s.ctxs[k].channel := by
    unfold State.withdrawFrame
    rw [State.updCtx_get, if_pos rfl]
    rfl
  have leaving : ∀ j, (s.withdrawFrame k).leaving k j → s.leaving k j := fun j hj => by
    unfold State.leaving at hj ⊢
    simp only [channel, line] at hj
    exact hj
  refine Rest.trans ?_ ((Rest.updCtx k _ _).mono (fun _ x => .inl x) (fun _ x => x.elim) (fun _ x => x) fun _ x => x)
  exact Rest.trans ((Rest.withdrawFrame k s).mono (fun _ x => .inl x) (fun _ x => x) (fun _ x => x) fun _ x => x)
    ((Rest.leaveLine k _).mono leaving (fun _ x => x.elim) (fun _ x => x) fun _ x => x)

/-! ### The end of a read or an erase -/

theorem Rest.endRequestWith (g : DirEntry → DirEntry) (u : UnitId) (out : UnitOutcome) (s : State) :
    Rest { units := (· = u) } s (s.endRequestWith g u out) := by
  unfold State.endRequestWith
  dsimp only
  have written := Rest.writeEntry u (fun e => DirEntry.endRead out s.sweep.openEdition (g e)) s
  have logged : ∀ t : State, Rest { units := (· = u) } t (if out = .unitFaulty then t.logSelfNat .unitFaulty u.val else t) := fun t =>
    Rest.ite (fun _ => (Rest.logSelfNat _ _ t).widen) fun _ => Rest.refl _ t
  exact (written.trans (logged _)).trans (Rest.ite (fun _ => (Rest.logSelfNat _ _ _).widen) fun _ => Rest.refl _ _)

theorem State.endRequestWith_dir (g : DirEntry → DirEntry) (u : UnitId) (out : UnitOutcome) (s : State) :
    (s.endRequestWith g u out).dir = (s.writeEntry u fun e => DirEntry.endRead out s.sweep.openEdition (g e)).dir := by
  simp [State.endRequestWith, apply_ite State.dir]

/-- What ends a context before its orders complete: the directory's write, the release and, for a read, the sweep's count (R113). -/
def State.endedRequest (k : CtxId) (out : UnitOutcome) (s : State) : State :=
  match s.ctxs[k].purpose with
  | .read => ((s.endRequestWith id s.ctxs[k].target out).freeContext k).sweepTake s.ctxs[k].target out
  | .erase => (s.writeEntry s.ctxs[k].target (DirEntry.endErase out)).freeContext k

theorem State.endContext_eq (k : CtxId) (out : UnitOutcome) (s : State) : s.endContext k out =
    ((s.endedRequest k out).completeUnitOrders out (slotsOf s.ctxs[k].attached)).offerDelist s.ctxs[k].target := by
  unfold State.endContext State.endedRequest
  cases s.ctxs[k].purpose with
  | read => rfl
  | erase => rfl

section
variable (k : CtxId) (out : UnitOutcome) (s : State)

theorem State.endedRequest_frame : (s.endedRequest k out).mem = s.mem ∧ (s.endedRequest k out).orders = s.orders ∧
    (s.endedRequest k out).clock = s.clock ∧ (s.endedRequest k out).pool = s.pool := by
  unfold State.endedRequest
  split <;> simp

theorem State.endedRequest_get (j : CtxId) : (s.endedRequest k out).ctxs[j] =
    if j = k then Context.freed s.ctxs[k].revision s.ctxs[k].parity else s.ctxs[j] := by
  have freed : ∀ t : State, t.ctxs = s.ctxs → (t.freeContext k).ctxs[j] =
      if j = k then Context.freed s.ctxs[k].revision s.ctxs[k].parity else s.ctxs[j] := fun t ht => by
    unfold State.freeContext
    rw [State.updCtx_get, State.updChan_ctxs, ht]
  unfold State.endedRequest
  split
  · have ctxs := (State.sweepTake_frame s.ctxs[k].target out
      ((s.endRequestWith id s.ctxs[k].target out).freeContext k)).2.2.2.2.2.2.1
    rw [ctxs]
    exact freed _ (by simp)
  · exact freed _ (by simp)

theorem Rest.endedRequest :
    Rest { ctxs := (· = k), chans := (· = s.ctxs[k].channel), units := (· = s.ctxs[k].target) } s (s.endedRequest k out) := by
  have freed : ∀ t : State, t.ctxs = s.ctxs → Rest { units := (· = s.ctxs[k].target) } s t →
      Rest { ctxs := (· = k), chans := (· = s.ctxs[k].channel), units := (· = s.ctxs[k].target) } s (t.freeContext k) := fun t ht r => by
    have free := Rest.freeContext k t
    rw [ht] at free
    exact Rest.trans (r.mono (fun _ x => x.elim) (fun _ x => x.elim) (fun _ x => x) fun _ x => x)
      (free.mono (fun _ x => x) (fun _ x => x) (fun _ x => x.elim) fun _ x => x)
  unfold State.endedRequest
  split
  · exact (freed _ (by simp) (Rest.endRequestWith id _ out s)).trans (Rest.sweepTake _ _ _).widen
  · exact freed _ (by simp) (Rest.writeEntry _ _ s)

/-- A context's end touches the context with its channel, its unit, and the slots of its orders (R113). -/
theorem Rest.endContext :
    Rest { ctxs := (· = k), chans := (· = s.ctxs[k].channel), units := (· = s.ctxs[k].target)
           slots := fun n => hasSlot s.ctxs[k].attached n = true } s (s.endContext k out) := by
  rw [State.endContext_eq]
  refine Rest.trans ?_ (Rest.offerDelist _ _).widen
  exact Rest.trans ((Rest.endedRequest k out s).mono (fun _ x => x) (fun _ x => x) (fun _ x => x) fun _ x => x.elim)
    ((Rest.completeUnitOrders out _ _).mono (fun _ x => x.elim) (fun _ x => x.elim) (fun _ x => x.elim) fun _ x => mem_slotsOf.1 x)

theorem State.endContext_completesOnly : s.completesOnly (s.endContext k out) := by
  obtain ⟨mem, orders, _, _⟩ := State.endedRequest_frame k out s
  rw [State.endContext_eq]
  have completed := State.completesOnly_trans (State.completesOnly_same mem orders)
    (State.completesOnly_orders out (slotsOf s.ctxs[k].attached) (s.endedRequest k out))
  exact State.completesOnly_trans completed (State.completesOnly_same (by simp) (by simp))

end

/-- The orders that wait on a context that ends complete with its outcome (R113). -/
theorem State.endContext_done {k : CtxId} (out : UnitOutcome) {s : State} (hm : s.memOk) {j : SlotId} {x : Taken} (h : s.awaits k j x) :
    (s.endContext k out).slotDone j (BitVec.ofNat 16 out.code) x.edition s.clock := by
  obtain ⟨attached, hx, ho⟩ := h
  obtain ⟨mem, orders, clock, _⟩ := State.endedRequest_frame k out s
  have memEnded : (s.endedRequest k out).memOk := by rw [State.memOk, mem]; exact hm
  have order : x.order = .readUnit s.ctxs[k].target ∨ x.order = .eraseUnit s.ctxs[k].target := by
    split at ho
    · exact .inl ho
    · exact .inr ho
  have done := State.completeUnitOrders_done (out := out) (slotsOf_nodup s.ctxs[k].attached) memEnded (mem_slotsOf.2 attached)
    (orders ▸ hx) order
  rw [clock] at done
  rw [State.endContext_eq]
  exact (Rest.offerDelist _ _).slotDone ((State.completesOnly_orders out _ _).mem memEnded) id done

end Sys2Proof.Machine
end

section
/-! SUPPORT. What follow-up work leaves of frames that wait and of a context just released (R94, R96, R122, R127). -/

namespace Sys2Proof.Machine

/-! ### Frames that wait -/

/-- The frames that wait on a channel, in the queue, outside it or behind a withdrawn frame (R122). -/
def Channel.frames (c : Channel) : List TxEntry := c.txQueue ++ c.txOutside ++ c.txDeferred

theorem Channel.frames_enqueue (e : TxEntry) (c : Channel) {x : TxEntry} : x ∈ (c.enqueue e).frames ↔ x = e ∨ x ∈ c.frames := by
  unfold Channel.enqueue Channel.frames
  split <;> simp only [List.mem_append, List.mem_singleton] <;> tauto

theorem Channel.frames_offerFrame (e : TxEntry) (c : Channel) {x : TxEntry} : x ∈ (c.offerFrame e).frames ↔ x = e ∨ x ∈ c.frames := by
  unfold Channel.offerFrame
  split
  · simp only [Channel.frames, List.mem_append, List.mem_singleton]
    tauto
  · exact Channel.frames_enqueue e c

/-- Every frame that waits in `s` still waits in `t`. -/
def State.framesStay (s t : State) : Prop := ∀ (c : ChanId) (e : TxEntry), e ∈ s.chans[c].frames → e ∈ t.chans[c].frames

theorem State.framesStay_updChan {s t : State} (h : s.framesStay t) (ch : ChanId) {f : Channel → Channel}
    (hf : ∀ (c : Channel) (e : TxEntry), e ∈ c.frames → e ∈ (f c).frames) : s.framesStay (t.updChan ch f) := fun c e he => by
  rw [State.updChan_get]
  split
  · next same => exact hf _ e (same ▸ h c e he)
  · exact h c e he

theorem State.framesStay_chans {s t u : State} (h : s.framesStay t) (hu : u.chans = t.chans) : s.framesStay u := fun c e he => by
  rw [hu]
  exact h c e he

theorem State.framesStay_joinLine {s t : State} (h : s.framesStay t) (k : CtxId) (need : Nat) : s.framesStay (t.joinLine k need) := by
  have pacer : ∀ (ch : ChanId) (f : Pacer → Pacer) (x : State), s.framesStay x → s.framesStay (x.updPacer ch f) :=
    fun ch f x hx => State.framesStay_updChan hx ch fun _ _ => id
  have placed : ∀ (j : CtxId) (x : State), s.framesStay x → s.framesStay (x.placeGranted j) := fun j x hx => by
    unfold State.placeGranted State.sendFrame
    exact State.framesStay_updChan (t := x.updCtx j _) hx _ fun c e he => (Channel.frames_offerFrame _ c).2 (.inr he)
  unfold State.joinLine
  dsimp only
  have joined := pacer t.ctxs[k].channel (fun p => { p with line := p.line ++ [k] }) (t.updCtx k fun c => { c with creditNeed := need }) h
  split
  · exact State.serveLine_induct s.framesStay _ (fun f x => pacer _ f x) placed _ _ joined
  · exact joined

theorem State.framesStay_startSweep (origin : SweepOrigin) (mask : BitVec 4) (budget : Nat) {s t : State} (h : s.framesStay t) :
    s.framesStay (t.startSweep origin mask budget) := by
  have marked : ∀ x : State, x.chans = t.chans → (forEach allUnits (State.markUnit mask) x).chans = t.chans := fun x hx =>
    (forEach_keeps State.chans _ (by simp) _ x).trans hx
  have woken : ∀ x : State, x.chans = t.chans →
      s.framesStay (forEach allChans State.wakeChannel (forEach allUnits (State.markUnit mask) x)) := fun x hx => by
    refine forEach_invariant s.framesStay _ (fun ch y hy => ?_) _ _ (State.framesStay_chans h (marked x hx))
    unfold State.wakeChannel
    split
    · exact State.framesStay_updChan hy ch fun c e he => (Channel.frames_enqueue _ c).2 (.inr he)
    · exact hy
  unfold State.startSweep
  dsimp only
  split
  · exact State.framesStay_chans (woken _ (by simp)) (State.offer_frame _ _).2.2.2.2.2.2.2.2.1
  · exact woken _ (by simp)

theorem State.framesStay_sweepTest {s t : State} (h : s.framesStay t) : s.framesStay t.sweepTest := by
  unfold State.sweepTest State.finishSweep
  dsimp only
  split
  · split
    · exact State.framesStay_startSweep _ _ _ (State.framesStay_chans h (by simp))
    · exact State.framesStay_chans h (by simp)
  · exact h

/-- Follow-up work withdraws no frame. -/
theorem State.framesStay_settle (s : State) : s.framesStay s.settle := by
  have tested : s.framesStay s.sweepTest.sweepTest.closeTest :=
    State.framesStay_chans (State.framesStay_sweepTest (State.framesStay_sweepTest fun _ _ => id)) (by simp)
  refine State.allocate_induct s.framesStay (fun k u p t _ _ h => ?_) 8 _ tested
  unfold State.assign
  dsimp only
  exact State.framesStay_joinLine (State.framesStay_chans h (by simp)) k _

/-! ### A context sending -/

/-- The fields of a frame the part sends (12.12, R71, R72). -/
theorem txFrame_fields (kind : TxKind) (tag : BitVec 4) (dest src : Byte) (data : List Byte) :
    let f := txFrame kind tag dest src data
    f.kindCode = kind.code ∧ f.tag = tag ∧ f.destination = dest ∧ f.source = src := by
  -- each field lies below the priority and the format bit, and is then split off from its right
  have low : ∀ start len : Nat, start + len ≤ 25 → (txIdent kind tag dest src).extractLsb' start len =
      (kind.code ++ (tag ++ (dest ++ src))).extractLsb' start len := fun start len h => by
    unfold txIdent
    rw [BitVec.extractLsb'_append_eq_of_add_le (by omega), BitVec.extractLsb'_append_eq_of_add_le h]
  refine ⟨?_, ?_, ?_, ?_⟩
  · exact (low 20 5 (by decide)).trans BitVec.extractLsb'_append_eq_left
  · refine (low 16 4 (by decide)).trans ?_
    rw [BitVec.extractLsb'_append_eq_of_add_le (by decide)]
    exact BitVec.extractLsb'_append_eq_left
  · refine (low 8 8 (by decide)).trans ?_
    rw [BitVec.extractLsb'_append_eq_of_add_le (by decide), BitVec.extractLsb'_append_eq_of_add_le (by decide)]
    exact BitVec.extractLsb'_append_eq_left
  · refine (low 0 8 (by decide)).trans ?_
    rw [BitVec.extractLsb'_append_eq_of_add_le (by decide), BitVec.extractLsb'_append_eq_of_add_le (by decide)]
    exact BitVec.extractLsb'_append_eq_right

/-- A context's frame offered to its channel waits there with the context's tag and the two addresses (R72, R73, R122). -/
theorem State.sendFrame_sends (k : CtxId) (kind : TxKind) (s : State) : (s.sendFrame k kind).sends k kind := by
  obtain ⟨t, hT⟩ : ∃ t, t = s.sendFrame k kind := ⟨_, rfl⟩
  have ctx : t.ctxs[k] = { s.ctxs[k] with frameQueued := some kind } := by rw [hT, State.sendFrame_get, if_pos rfl]
  have chan : t.chans[s.ctxs[k].channel] = s.chans[s.ctxs[k].channel].offerFrame (s.ctxEntry k kind) := by
    have chans : t.chans = (s.updChan s.ctxs[k].channel (Channel.offerFrame (s.ctxEntry k kind))).chans := by rw [hT]; rfl
    rw [chans, State.updChan_get, if_pos rfl]
  have dir : t.dir = s.dir := by rw [hT]; simp
  have settings : t.chans[s.ctxs[k].channel].settings = s.chans[s.ctxs[k].channel].settings := by
    rw [chan]
    exact congrArg (·.settings) (Channel.offerFrame_link (s.ctxEntry k kind) _)
  have waits : s.ctxEntry k kind ∈ t.chans[s.ctxs[k].channel].frames := by
    rw [chan]
    exact (Channel.frames_offerFrame _ _).2 (.inl rfl)
  rw [← hT]
  unfold State.sends
  simp only [ctx, dir, settings]
  exact ⟨trivial, s.ctxEntry k kind, waits, rfl, rfl, rfl, txFrame_fields _ _ _ _ _⟩

/-- A context that sends goes on sending while its frame, its unit's address and the part's own stand. -/
theorem State.sends_after {s t : State} {k : CtxId} {kind : TxKind} (h : s.sends k kind) (hc : t.ctxs[k].same s.ctxs[k])
    (hd : t.dir[s.ctxs[k].target].address = s.dir[s.ctxs[k].target].address)
    (hl : t.chans[s.ctxs[k].channel].settings = s.chans[s.ctxs[k].channel].settings) (hf : s.framesStay t) : t.sends k kind := by
  obtain ⟨queued, e, he, own, kindE, live, code, tag, dest, source⟩ := h
  have target : t.ctxs[k].target = s.ctxs[k].target := Context.same_congr hc (·.target) fun _ _ => rfl
  have channel : t.ctxs[k].channel = s.ctxs[k].channel := Context.same_congr hc (·.channel) fun _ _ => rfl
  have parity : t.ctxs[k].parity = s.ctxs[k].parity := Context.same_congr hc (·.parity) fun _ _ => rfl
  have frame : t.ctxs[k].frameQueued = s.ctxs[k].frameQueued := Context.same_congr hc (·.frameQueued) fun _ _ => rfl
  unfold State.sends
  simp only [target, channel, parity, frame, hd, hl]
  exact ⟨queued, e, hf _ e he, own, kindE, live, code, tag, dest, source⟩

/-! ### A context just released -/

theorem Channel.offerFrame_pacer (e : TxEntry) (c : Channel) : (c.offerFrame e).pacer = c.pacer := by
  unfold Channel.offerFrame Channel.enqueue
  split
  · rfl
  · split <;> rfl

theorem State.placeGranted_pacer (k : CtxId) (s : State) (ch : ChanId) : (s.placeGranted k).chans[ch].pacer = s.chans[ch].pacer := by
  unfold State.placeGranted State.sendFrame
  dsimp only
  rw [State.updCtx_chans, State.updChan_get]
  split
  · next h => rw [h]; exact Channel.offerFrame_pacer _ _
  · rfl

/-- What taking credits and placing the frames of those in the line keep, service of the line keeps. -/
theorem State.serveLine_induct_line (P : State → Prop) (ch : ChanId) (l : List CtxId)
    (h1 : ∀ (f : Pacer → Pacer) s, P s → P (s.updPacer ch f)) (h2 : ∀ k ∈ l, ∀ s, P s → P (s.placeGranted k)) (n : Nat) (s : State)
    (hl : ∀ k ∈ s.chans[ch].pacer.line, k ∈ l) (h : P s) : P (s.serveLine ch n) := by
  induction n generalizing s with
  | zero => exact h
  | succ n ih =>
    unfold State.serveLine
    split
    · exact h
    · split
      · exact h
      · next k rest line =>
        rw [line] at hl
        split
        · refine ih _ (fun j hj => hl j ?_) (h2 k (hl k List.mem_cons_self) _ (h1 _ _ h))
          rw [State.placeGranted_pacer, State.updPacer, State.updChan_get, if_pos rfl] at hj
          exact List.mem_cons_of_mem _ hj
        · exact h

/-- Who joins a line that was empty may be granted at once; nobody else is (R138). -/
theorem State.joinLine_induct (P : State → Prop) (k : CtxId) (need : Nat) (s : State)
    (h1 : ∀ (f : Pacer → Pacer) t, P t → P (t.updPacer s.ctxs[k].channel f)) (h2 : ∀ t, P t → P (t.placeGranted k))
    (h : P (s.updCtx k fun c => { c with creditNeed := need })) : P (s.joinLine k need) := by
  unfold State.joinLine
  dsimp only
  have joined := h1 (fun p => { p with line := p.line ++ [k] }) _ h
  split
  · next empty =>
    refine State.serveLine_induct_line P _ [k] h1 (fun j hj t x => List.mem_singleton.1 hj ▸ h2 t x) _ _ (fun j hj => ?_) joined
    rw [State.updPacer, State.updChan_get, if_pos rfl, State.updCtx_chans, List.isEmpty_iff.1 empty] at hj
    exact hj
  · exact joined

/-- The context has begun a new opening, with the other parity than the one given (R98). -/
def Context.reopened (parity : Bool) (c : Context) : Prop :=
  (c.state = .paced ∨ c.state = .opening) ∧ c.parity = !parity ∧ c.attempt = 1 ∧ c.segFirst = 0

/-- The context is FREE with the parity given, or has begun a new opening (R92, R94): what `State.released` says of it. -/
def Context.releasedFrom (parity : Bool) (c : Context) : Prop := c.same (Context.freed 0 parity) ∨ c.reopened parity

theorem State.placeGranted_get (k : CtxId) (s : State) (j : CtxId) : (s.placeGranted k).ctxs[j] =
    if j = k then { s.ctxs[k] with creditNeed := 0, state := if s.ctxs[k].state = .paced then .opening else s.ctxs[k].state
                                   frameQueued := some s.ctxs[k].grantedKind } else s.ctxs[j] := by
  unfold State.placeGranted
  dsimp only
  rw [State.sendFrame_get]
  split
  · rw [State.updCtx_get, if_pos rfl]
  · next h => rw [State.updCtx_get, if_neg h]

theorem State.writeEntry_ctx (u : UnitId) (f : DirEntry → DirEntry) (s : State) (k : CtxId) : (s.writeEntry u f).ctxs[k] = s.ctxs[k] := by
  simp

/-- An assignment of a FREE context leaves every other as it is and begins an opening on its own (R96, R98). -/
theorem State.assign_releasedFrom {k j : CtxId} (u : UnitId) (p : Purpose) {parity : Bool} {s : State} (free : s.ctxs[j].state = .free)
    (h : s.ctxs[k].releasedFrom parity) : (s.assign j u p).ctxs[k].releasedFrom parity := by
  unfold State.assign
  dsimp only
  by_cases same : k = j
  · subst same
    have freed : s.ctxs[k].parity = parity := by
      rcases h with h | ⟨busy, _⟩
      · exact Context.same_congr h (·.parity) fun _ _ => rfl
      · rw [free] at busy
        rcases busy with x | x <;> cases x
    refine .inr (State.joinLine_induct (fun t => t.ctxs[k].reopened parity) k _ _ (fun _ _ x => x) (fun t x => ?_) ?_)
    · obtain ⟨busy, rest⟩ := x
      rw [State.placeGranted_get, if_pos rfl]
      refine ⟨.inr ?_, rest⟩
      rcases busy with paced | opening
      · exact if_pos paced
      · exact (if_neg (by rw [opening]; decide)).trans opening
    · rw [State.updCtx_get, if_pos rfl, State.updCtx_get, if_pos rfl, State.writeEntry_ctx]
      exact ⟨.inl rfl, by rw [← freed]; rfl, rfl, rfl⟩
  · refine State.joinLine_induct (fun t => t.ctxs[k].releasedFrom parity) j _ _ (fun _ _ x => x) (fun t x => ?_) ?_
    · rwa [State.placeGranted_get, if_neg same]
    · rw [State.updCtx_get, if_neg same, State.updCtx_get, if_neg same, State.writeEntry_ctx]
      exact h

/-- What follows its release at most assigns the context anew (R94). -/
theorem State.settle_releasedFrom {k : CtxId} {parity : Bool} {s : State} (h : s.ctxs[k].releasedFrom parity) :
    s.settle.ctxs[k].releasedFrom parity := by
  refine State.allocate_induct (fun t => t.ctxs[k].releasedFrom parity)
    (fun j u p t free _ x => State.assign_releasedFrom u p free x) 8 _ ?_
  simpa using h

end Sys2Proof.Machine
end

section
/-! SUPPORT. A context that is stopped (R81, R108, R109). -/

namespace Sys2Proof.Machine

/-- The stop of a context whose unit answers: it leaves its line, its frame and its window, and sends STOP (R81, R109). -/
def State.stopSent (k : CtxId) (s : State) : State :=
  ((s.detach k).updCtx k fun c => { c with state := .stopping }).sendFrame k .stopFrame

/-- What a stop is, by the context's state (R109). -/
theorem State.stopContext_cases (k : CtxId) (s : State) :
    s.ctxs[k].state = .paced ∧ s.stopContext k = (s.detach k).endContext k .stopped ∨
    (s.ctxs[k].state = .opening ∨ s.ctxs[k].state = .receiving ∨ s.ctxs[k].state = .mending) ∧ s.stopContext k = s.stopSent k ∨
    (s.ctxs[k].state = .stopping ∨ s.ctxs[k].state = .committing ∨ s.ctxs[k].state = .free) ∧ s.stopContext k = s := by
  unfold State.stopContext
  split
  · next h => exact .inl ⟨h, rfl⟩
  · next h => exact .inr (.inl ⟨.inl h, rfl⟩)
  · next h => exact .inr (.inl ⟨.inr (.inl h), rfl⟩)
  · next h => exact .inr (.inl ⟨.inr (.inr h), rfl⟩)
  · next h => exact .inr (.inr ⟨.inl h, rfl⟩)
  · next h => exact .inr (.inr ⟨.inr (.inl h), rfl⟩)
  · next h => exact .inr (.inr ⟨.inr (.inr h), rfl⟩)

theorem State.stopSent_frame (k : CtxId) (s : State) : (s.stopSent k).mem = s.mem ∧ (s.stopSent k).orders = s.orders ∧
    (s.stopSent k).sweep = s.sweep ∧ (s.stopSent k).dir = s.dir ∧ (s.stopSent k).pool = s.pool := by
  unfold State.stopSent
  simp

theorem Rest.stopSent (k : CtxId) (s : State) :
    Rest { ctxs := s.leaving k, chans := (· = s.ctxs[k].channel) } s (s.stopSent k) := by
  refine Rest.trans (t := (s.detach k).updCtx k fun c => { c with state := .stopping }) (Rest.trans (Rest.detach k s) ?_) ?_
  · exact (Rest.updCtx k _ _).mono (fun _ x => .inl x) (fun _ x => x.elim) (fun _ x => x) fun _ x => x
  · exact (Rest.sendFrame k _ _).mono (fun _ x => .inl x) (fun _ x => x.elim) (fun _ x => x) fun _ x => x

/-- A stop touches the context with those that stood in the line with it, its channel, its unit, and the slots of its orders. -/
theorem Rest.stopContext (k : CtxId) (s : State) :
    Rest { ctxs := s.leaving k, chans := (· = s.ctxs[k].channel), units := (· = s.ctxs[k].target)
           slots := fun n => hasSlot s.ctxs[k].attached n = true } s (s.stopContext k) := by
  rcases State.stopContext_cases k s with ⟨_, h⟩ | ⟨_, h⟩ | ⟨_, h⟩ <;> rw [h]
  · have bond := State.bonds_detach k s k
    have channel : (s.detach k).ctxs[k].channel = s.ctxs[k].channel := Context.bond_congr bond (·.channel) fun _ => rfl
    have target : (s.detach k).ctxs[k].target = s.ctxs[k].target := Context.bond_congr bond (·.target) fun _ => rfl
    have attached : (s.detach k).ctxs[k].attached = s.ctxs[k].attached := Context.bond_congr bond (·.attached) fun _ => rfl
    have ended := Rest.endContext k .stopped (s.detach k)
    rw [channel, target, attached] at ended
    exact Rest.trans ((Rest.detach k s).mono (fun _ x => x) (fun _ x => x) (fun _ x => x.elim) fun _ x => x.elim)
      (ended.mono (fun _ x => .inl x) (fun _ x => x) (fun _ x => x) fun _ x => x)
  · exact (Rest.stopSent k s).mono (fun _ x => x) (fun _ x => x) (fun _ x => x.elim) fun _ x => x.elim
  · exact Rest.refl _ _

theorem State.stopContext_completesOnly (k : CtxId) (s : State) : s.completesOnly (s.stopContext k) := by
  rcases State.stopContext_cases k s with ⟨_, h⟩ | ⟨_, h⟩ | ⟨_, h⟩ <;> rw [h]
  · exact State.completesOnly_trans (State.completesOnly_same (by simp) (by simp)) (State.endContext_completesOnly k _ _)
  · obtain ⟨mem, orders, _⟩ := State.stopSent_frame k s
    exact State.completesOnly_same mem orders
  · exact State.completesOnly_same rfl rfl

/-! ### A unit that is being delisted -/

theorem State.writeEntry_delisting {u v : UnitId} {f : DirEntry → DirEntry} {s : State}
    (hf : ∀ e : DirEntry, e.state = .delisting → (f e).state = .delisting) (h : s.dir[v].state = .delisting) :
    (s.writeEntry u f).dir[v].state = .delisting := by
  rw [State.writeEntry_get]
  split
  · next e => exact hf _ (e.1 ▸ h)
  · exact h

theorem endState_delisting {next : UnitState} {e : DirEntry} (h : e.state = .delisting) : endState next e = .delisting := if_pos h

/-- A unit being delisted stays DELISTING when its read or erase ends (R61). -/
theorem State.endedRequest_delisting {v : UnitId} (k : CtxId) (out : UnitOutcome) {s : State} (h : s.dir[v].state = .delisting) :
    (s.endedRequest k out).dir[v].state = .delisting := by
  unfold State.endedRequest
  split
  · have body := State.sweepTake_body s.ctxs[k].target out ((s.endRequestWith id s.ctxs[k].target out).freeContext k) v
    rw [DirEntry.body_congr body (·.state) fun _ => rfl, (State.freeContext_frame k _).2.2.2.2.2.1, State.endRequestWith_dir]
    exact State.writeEntry_delisting (fun e he => endState_delisting he) h
  · rw [(State.freeContext_frame k _).2.2.2.2.2.1]
    exact State.writeEntry_delisting (fun e he => endState_delisting he) h

theorem State.offerDelist_delisting {v : UnitId} (u : UnitId) {s : State} (h : s.dir[v].state = .delisting) :
    (s.offerDelist u).dir[v].state = .delisting :=
  (DirEntry.body_congr (State.offerDelist_body u s v) (·.state) fun _ => rfl).trans h

theorem State.stopContext_delisting {v : UnitId} (k : CtxId) {s : State} (h : s.dir[v].state = .delisting) :
    (s.stopContext k).dir[v].state = .delisting := by
  rcases State.stopContext_cases k s with ⟨_, e⟩ | ⟨_, e⟩ | ⟨_, e⟩ <;> rw [e]
  · have detached : (s.detach k).dir[v].state = .delisting := by simpa using h
    rw [State.endContext_eq]
    refine State.offerDelist_delisting _ ?_
    rw [(State.completeUnitOrders_frame _ _ _).2.2.1]
    exact State.endedRequest_delisting k .stopped detached
  · rw [(State.stopSent_frame k s).2.2.2.1]
    exact h
  · exact h

/-- No assignment takes a unit that is being delisted (R61, R95). -/
theorem State.settle_delisting {v : UnitId} {s : State} (h : s.dir[v].state = .delisting) : s.settle.dir[v].state = .delisting := by
  obtain ⟨_, same | ⟨_, assignable⟩⟩ := State.followed_settle s v
  · exact same.1.trans h
  · rw [DirEntry.assignable, DirEntry.assignable, h] at assignable
    rcases assignable with x | x <;> cases x

/-! ### The STOP of a context -/

theorem State.stopSent_stops (k : CtxId) (s : State) : s.stopsWith (s.stopSent k) k := by
  have bond := State.bonds_detach k s k
  have parity : (s.detach k).ctxs[k].parity = s.ctxs[k].parity := Context.bond_congr bond (·.parity) fun _ => rfl
  have target : (s.detach k).ctxs[k].target = s.ctxs[k].target := Context.bond_congr bond (·.target) fun _ => rfl
  have attached : (s.detach k).ctxs[k].attached = s.ctxs[k].attached := Context.bond_congr bond (·.attached) fun _ => rfl
  have ctx : (s.stopSent k).ctxs[k] = { (s.detach k).ctxs[k] with state := .stopping, frameQueued := some .stopFrame } := by
    unfold State.stopSent
    rw [State.sendFrame_get, if_pos rfl, State.updCtx_get, if_pos rfl]
  unfold State.stopsWith
  simp only [ctx]
  exact ⟨trivial, State.detach_window k s, State.sendFrame_sends k .stopFrame _, parity, target, attached⟩

/-- A stopped context waits for its STOP through all that follows. -/
theorem State.stopsWith_settle {s m : State} {k : CtxId} (s0 : State) (h : s.stopsWith m k) : s.stopsWith (State.stamp s0 m.settle) k := by
  obtain ⟨state, window, sends, parity, target, attached⟩ := h
  have after : Rest {} m (State.stamp s0 m.settle) := (Rest.settle m).stamp s0
  have same := after.ctxs k id (by rw [state]; decide)
  have stays : m.framesStay (State.stamp s0 m.settle) := fun c e he => by
    rw [State.stamp_chan_congr s0 m.settle c Channel.frames fun _ _ => rfl]
    exact State.framesStay_settle m c e he
  have field : ∀ {α : Type} (g : Context → α), (∀ (x : Context) r, g { x with revision := r } = g x) →
      g (State.stamp s0 m.settle).ctxs[k] = g m.ctxs[k] := fun g hg => Context.same_congr same g hg
  exact ⟨(field (·.state) fun _ _ => rfl).trans state, (field (·.window) fun _ _ => rfl).trans window,
    State.sends_after sends same (congrArg (·.address) (after.dir _ id)) (congrArg (·.settings) (after.links _ id)) stays,
    (field (·.parity) fun _ _ => rfl).trans parity, (field (·.target) fun _ _ => rfl).trans target,
    (field (·.attached) fun _ _ => rfl).trans attached⟩

end Sys2Proof.Machine
end

section
/-! SUPPORT. DELIST UNIT taken: the entry DELISTING, the orders that wait on its unit completed, its DELIST-RETIRE offered (R61, R109,
R171). -/

namespace Sys2Proof.Machine

/-! ### The requests that wait on the unit -/

section
variable (u : UnitId) (wasHeld : Bool) (s : State)

/-- A suspended read request ends STOPPED (R61; log entry 16). -/
def State.heldEnded : State := if wasHeld then s.endRequest u .stopped else s

theorem State.heldEnded_frame : (s.heldEnded u wasHeld).clock = s.clock ∧ (s.heldEnded u wasHeld).mem = s.mem ∧
    (s.heldEnded u wasHeld).orders = s.orders ∧ (s.heldEnded u wasHeld).sweep = s.sweep ∧ (s.heldEnded u wasHeld).pool = s.pool ∧
    (s.heldEnded u wasHeld).ctxs = s.ctxs ∧ (s.heldEnded u wasHeld).chans = s.chans := by
  cases wasHeld <;> simp [State.heldEnded]

theorem Rest.heldEnded : Rest { units := (· = u) } s (s.heldEnded u wasHeld) :=
  Rest.ite (fun _ => Rest.endRequestWith id u .stopped s) fun _ => Rest.refl _ _

/-- The end of a suspended request leaves a unit DELISTING and every mark (R61). -/
theorem State.heldEnded_dir (v : UnitId) : (s.heldEnded u wasHeld).dir[v].mark = s.dir[v].mark ∧
    (s.dir[v].state = .delisting → (s.heldEnded u wasHeld).dir[v].state = .delisting) := by
  cases wasHeld with
  | false => exact ⟨rfl, id⟩
  | true =>
    have dir : (s.heldEnded u true).dir = (s.writeEntry u fun e => DirEntry.endRead .stopped s.sweep.openEdition (id e)).dir :=
      State.endRequestWith_dir id u .stopped s
    rw [dir]
    exact ⟨State.writeEntry_mark rfl v, State.writeEntry_delisting fun e he => endState_delisting he⟩

theorem State.heldEnded_outcome : (s.heldEnded u true).dir[u].lastOutcome = .stopped := by
  have dir : (s.heldEnded u true).dir = (s.writeEntry u fun e => DirEntry.endRead .stopped s.sweep.openEdition (id e)).dir :=
    State.endRequestWith_dir id u .stopped s
  rw [dir]
  exact State.writeEntry_congr u _ s (·.lastOutcome) fun _ _ => rfl

/-- A suspended read request and the orders with no context end STOPPED (R61). -/
def State.waitingEnded : State := (s.heldEnded u wasHeld).completeUnitOrders .stopped (s.waitingOrders u)

theorem State.waitingEnded_frame : (s.waitingEnded u wasHeld).clock = s.clock ∧ (s.waitingEnded u wasHeld).sweep = s.sweep ∧
    (s.waitingEnded u wasHeld).pool = s.pool ∧ (s.waitingEnded u wasHeld).ctxs = s.ctxs ∧
    (s.waitingEnded u wasHeld).chans = s.chans ∧ (s.waitingEnded u wasHeld).dir = (s.heldEnded u wasHeld).dir := by
  simp [State.waitingEnded, State.heldEnded_frame]

/-- A PENDING mark is skipped with them only while a context erases the unit (R61). -/
theorem State.endWaiting_cases : s.endWaiting u wasHeld = s.waitingEnded u wasHeld ∨
    s.endWaiting u wasHeld = (s.waitingEnded u wasHeld).skipPending u ∧ ∃ k, s.servedBy u = some k ∧ s.ctxs[k].purpose ≠ .read := by
  have orders : (s.heldEnded u wasHeld).waitingOrders u = s.waitingOrders u := by
    simp [State.waitingOrders, State.waitingSlots, State.attachedAll, State.heldEnded_frame]
  have ctxs := (State.waitingEnded_frame u wasHeld s).2.2.2.1
  have served : (s.waitingEnded u wasHeld).servedBy u = s.servedBy u := by
    unfold State.servedBy
    rw [ctxs]
  unfold State.endWaiting
  dsimp only
  generalize hX : State.completeUnitOrders _ _ _ = X
  have ended : X = s.waitingEnded u wasHeld := by
    rw [← hX, State.waitingEnded, ← orders]
    rfl
  rw [ended, served]
  split
  · next k serves =>
    rw [ctxs]
    split
    · exact .inl rfl
    · next erases => exact .inr ⟨rfl, k, serves, erases⟩
  · exact .inl rfl

theorem Rest.waitingEnded : Rest { units := (· = u), slots := (· ∈ s.waitingOrders u) } s (s.waitingEnded u wasHeld) :=
  Rest.trans ((Rest.heldEnded u wasHeld s).mono (fun _ x => x) (fun _ x => x) (fun _ x => x) fun _ x => x.elim)
    ((Rest.completeUnitOrders _ _ _).mono (fun _ x => x) (fun _ x => x) (fun _ x => x.elim) fun _ x => x)

theorem State.waitingEnded_completesOnly : s.completesOnly (s.waitingEnded u wasHeld) := by
  obtain ⟨_, mem, orders, _⟩ := State.heldEnded_frame u wasHeld s
  exact State.completesOnly_trans (State.completesOnly_same mem orders) (State.completesOnly_orders _ _ _)

theorem State.waitingEnded_done (hm : s.memOk) {j : SlotId} (hj : j ∈ s.waitingOrders u) {x : Taken}
    (hx : s.orders.taken[j] = some x) : (s.waitingEnded u wasHeld).slotDone j 7 x.edition s.clock := by
  obtain ⟨_, y, hy, order⟩ := State.mem_waitingOrders.1 hj
  rw [hx] at hy
  cases hy
  obtain ⟨clock, mem, orders, _⟩ := State.heldEnded_frame u wasHeld s
  have done := State.completeUnitOrders_done (out := .stopped) (s := s.heldEnded u wasHeld) (State.waitingSlots_nodup s _)
    (by rw [State.memOk, mem]; exact hm) hj (by rw [orders]; exact hx) order
  rw [clock] at done
  exact done

end

/-! ### The order taken -/

/-- The order TAKEN and its unit's entry written DELISTING (R61, R166). -/
def State.delistWritten (n : SlotId) (u : UnitId) (s : State) : State :=
  (s.takeSlot n (.delistUnit u)).writeEntry u fun e => { e with state := .delisting, holdRunOut := false }

/-- A DELIST UNIT order taken, but for the stop of its unit's context or the offer of its DELIST-RETIRE. -/
def State.delistBegun (n : SlotId) (u : UnitId) (s : State) : State :=
  (s.delistWritten n u).endWaiting u (decide (s.dir[u].state = .held))

theorem State.takeDelist_served {n : SlotId} {u : UnitId} {k : CtxId} {s : State} (h : s.servedBy u = some k) :
    s.takeDelist n u = (s.delistBegun n u).stopContext k := by
  unfold State.takeDelist
  rw [h]
  rfl

theorem State.takeDelist_unserved {n : SlotId} {u : UnitId} {s : State} (h : s.servedBy u = none) :
    s.takeDelist n u = (s.needEdition.delistBegun n u).offerDelist u := by
  have dir : s.needEdition.dir = s.dir := (State.needEdition_frame s).2.2.2.2.1
  unfold State.takeDelist State.delistBegun
  rw [h, dir]
  rfl

/-- The order in slot `j` waits on the unit with no context while slot `n`'s DELIST UNIT is taken. -/
def State.delistEnds (s : State) (n : SlotId) (u : UnitId) (j : SlotId) : Prop :=
  j ≠ n ∧ (∀ k : CtxId, hasSlot s.ctxs[k].attached j = false) ∧
    ∃ x, s.orders.taken[j] = some x ∧ (x.order = .readUnit u ∨ x.order = .eraseUnit u)

/-- The unit is DELISTING for the order in slot `n`, TAKEN in the edition given, and the orders that waited on it are DONE. -/
def State.delists (s t : State) (n : SlotId) (u : UnitId) (e : Edition) : Prop :=
  t.dir[u].state = .delisting ∧ slotState t.mem n = 2 ∧
    t.orders.taken[n] = some { order := .delistUnit u, edition := e, sweepResult := none } ∧
    (∀ j x, s.delistEnds n u j → s.orders.taken[j] = some x → t.slotDone j 7 x.edition s.clock) ∧ t.clock = s.clock

/-- What leaves the order's slot, those of the orders completed, and the unit's state alone leaves the delisting as it stands. -/
theorem Rest.delists {d : Touch} {s b t : State} {n : SlotId} {u : UnitId} {e : Edition} (r : Rest d b t) (hm : b.memOk)
    (own : ¬ d.slots n) (ended : ∀ j, s.delistEnds n u j → ¬ d.slots j) (state : t.dir[u].state = .delisting)
    (clock : t.clock = b.clock) (h : s.delists b n u e) : s.delists t n u e := by
  obtain ⟨_, shows_, taken, done, clockB⟩ := h
  have other : ¬ b.sweepSlot n := by
    rintro ⟨x, _, _, hx, ho⟩
    rw [taken] at hx
    cases hx
    cases ho
  exact ⟨state, (r.slotWord hm n own other _ (by decide)).trans shows_, (r.taken n own other).trans taken,
    fun j x hj hx => r.slotDone hm (ended j hj) (done j x hj hx), clock.trans clockB⟩

section
variable (n : SlotId) (u : UnitId) (s : State)

theorem State.delistWritten_frame : (s.delistWritten n u).clock = s.clock ∧ (s.delistWritten n u).sweep = s.sweep ∧
    (s.delistWritten n u).pool = s.pool ∧ (s.delistWritten n u).ctxs = s.ctxs ∧ (s.delistWritten n u).chans = s.chans ∧
    (s.delistWritten n u).orders = (s.takeSlot n (.delistUnit u)).orders ∧
    (s.delistWritten n u).mem = (s.takeSlot n (.delistUnit u)).mem := by
  unfold State.delistWritten
  simp

/-- What is read of an entry, but for its revision, from one just written DELISTING. -/
theorem State.delistWritten_entry {α : Sort _} (g : DirEntry → α) (hr : ∀ (x : DirEntry) r, g { x with revision := r } = g x)
    (hs : ∀ x : DirEntry, g { x with state := .delisting, holdRunOut := false } = g x) (v : UnitId) :
    g (s.delistWritten n u).dir[v] = g s.dir[v] := by
  have taken : (s.takeSlot n (.delistUnit u)).dir = s.dir := (State.takeSlot_frame n _ s).2.2.2.1
  unfold State.delistWritten
  rw [State.writeEntry_get, taken]
  split
  · next h => rw [hr, hs, h.1]
  · rfl

theorem State.delistWritten_state : (s.delistWritten n u).dir[u].state = .delisting :=
  State.writeEntry_congr u _ _ (·.state) fun _ _ => rfl

theorem Rest.delistWritten : Rest { slots := (· = n), units := (· = u) } s (s.delistWritten n u) :=
  Rest.trans ((Rest.takeSlot n _ s).mono (fun _ x => x) (fun _ x => x) (fun _ x => x.elim) fun _ x => x)
    ((Rest.writeEntry u _ _).mono (fun _ x => x) (fun _ x => x) (fun _ x => x) fun _ x => x.elim)

theorem State.mem_delistEnds {j : SlotId} : j ∈ (s.delistWritten n u).waitingOrders u ↔ s.delistEnds n u j := by
  obtain ⟨_, _, _, ctxs, _, orders, _⟩ := State.delistWritten_frame n u s
  rw [State.mem_waitingOrders, ctxs, orders, State.takeSlot_get]
  unfold State.delistEnds
  by_cases own : j = n
  · rw [if_pos own]
    refine ⟨fun ⟨_, x, hx, ho⟩ => ?_, fun ⟨other, _⟩ => absurd own other⟩
    cases hx
    rcases ho with h | h <;> cases h
  · rw [if_neg own]
    exact ⟨fun h => ⟨own, h⟩, fun ⟨_, h⟩ => h⟩

theorem State.delistBegun_cases :
    s.delistBegun n u = (s.delistWritten n u).waitingEnded u (decide (s.dir[u].state = .held)) ∨
      s.delistBegun n u = ((s.delistWritten n u).waitingEnded u (decide (s.dir[u].state = .held))).skipPending u ∧
        ∃ k, s.servedBy u = some k ∧ s.ctxs[k].purpose ≠ .read := by
  have ctxs := (State.delistWritten_frame n u s).2.2.2.1
  have served : (s.delistWritten n u).servedBy u = s.servedBy u := by
    unfold State.servedBy
    rw [ctxs]
  have cases_ := State.endWaiting_cases u (decide (s.dir[u].state = .held)) (s.delistWritten n u)
  rw [served, ctxs] at cases_
  exact cases_

theorem State.delistBegun_frame : (s.delistBegun n u).clock = s.clock ∧ (s.delistBegun n u).pool = s.pool ∧
    (s.delistBegun n u).ctxs = s.ctxs ∧ (s.delistBegun n u).chans = s.chans := by
  obtain ⟨clock, _, pool, ctxs, chans, _⟩ := State.delistWritten_frame n u s
  unfold State.delistBegun
  simp [clock, pool, ctxs, chans]

theorem Rest.delistBegun :
    Rest { slots := fun j => j = n ∨ s.delistEnds n u j, units := (· = u) } s (s.delistBegun n u) := by
  have ended : Rest { slots := fun j => j = n ∨ s.delistEnds n u j, units := (· = u) } s
      ((s.delistWritten n u).waitingEnded u (decide (s.dir[u].state = .held))) :=
    Rest.trans ((Rest.delistWritten n u s).mono (fun _ x => x) (fun _ x => x) (fun _ x => x) fun _ x => .inl x)
      ((Rest.waitingEnded u _ _).mono (fun _ x => x) (fun _ x => x) (fun _ x => x) fun _ x => .inr ((State.mem_delistEnds n u s).1 x))
  rcases State.delistBegun_cases n u s with h | ⟨h, _⟩ <;> rw [h]
  · exact ended
  · exact ended.trans (Rest.skipPending u _).widen

theorem State.delistBegun_completesOnly : (s.takeSlot n (.delistUnit u)).completesOnly (s.delistBegun n u) := by
  obtain ⟨_, _, _, _, _, orders, mem⟩ := State.delistWritten_frame n u s
  have ended := State.completesOnly_trans (State.completesOnly_same mem orders)
    (State.waitingEnded_completesOnly u (decide (s.dir[u].state = .held)) (s.delistWritten n u))
  rcases State.delistBegun_cases n u s with h | ⟨h, _⟩ <;> rw [h]
  · exact ended
  · exact State.completesOnly_trans ended (State.completesOnly_same (by simp) (by simp))

variable {s}

/-- The taking of the order leaves its unit DELISTING and the orders that waited on it DONE (R61, R109). -/
theorem State.delistBegun_delists (hm : s.memOk) : s.delists (s.delistBegun n u) n u s.sweep.openEdition := by
  obtain ⟨W, hW⟩ : ∃ W, W = s.delistWritten n u := ⟨_, rfl⟩
  obtain ⟨F, hF⟩ : ∃ F, F = W.waitingEnded u (decide (s.dir[u].state = .held)) := ⟨_, rfl⟩
  obtain ⟨clock, _, _, _, _, orders, mem⟩ := State.delistWritten_frame n u s
  have memW : W.memOk := hW ▸ ((Rest.delistWritten n u s).mem hm).1
  have ended := Rest.waitingEnded u (decide (s.dir[u].state = .held)) W
  rw [← hF] at ended
  have memF : F.memOk := (ended.mem memW).1
  have takenW : W.orders.taken[n] = some { order := .delistUnit u, edition := s.sweep.openEdition, sweepResult := none } := by
    rw [hW, orders, State.takeSlot_get, if_pos rfl]
  have stateW : slotState W.mem n = 2 := by
    rw [hW, mem, State.takeSlot_state hm, if_pos rfl]
    rfl
  have own : n ∉ W.waitingOrders u := by
    rw [hW, State.mem_delistEnds]
    exact fun h => h.1 rfl
  have other : ¬ W.sweepSlot n := by
    rintro ⟨x, _, _, hx, ho⟩
    rw [takenW] at hx
    cases hx
    cases ho
  have delisting : F.dir[u].state = .delisting := by
    have written : W.dir[u].state = .delisting := hW ▸ State.delistWritten_state n u s
    rw [hF, (State.waitingEnded_frame u _ W).2.2.2.2.2]
    exact (State.heldEnded_dir u _ W u).2 written
  have delists : s.delists F n u s.sweep.openEdition := by
    refine ⟨delisting, (ended.slotWord memW n own other _ (by decide)).trans stateW, (ended.taken n own other).trans takenW,
      fun j x hj hx => ?_, ?_⟩
    · have taken : W.orders.taken[j] = some x := by rw [hW, orders, State.takeSlot_get, if_neg hj.1, hx]
      have done := State.waitingEnded_done u (decide (s.dir[u].state = .held)) W memW (hW ▸ (State.mem_delistEnds n u s).2 hj) taken
      rwa [← hF, hW, clock] at done
    · rw [hF, (State.waitingEnded_frame u _ W).1, hW, clock]
  rcases State.delistBegun_cases n u s with h | ⟨h, _⟩ <;> rw [h, ← hW, ← hF]
  · exact delists
  · refine (Rest.skipPending u F).delists memF id (fun _ _ => id) ?_ (by simp) delists
    exact (DirEntry.body_congr (State.skipPending_body u F u) (·.state) fun _ => rfl).trans delisting

/-- Where no context erases the unit, the order's taking leaves the sweep controller and the marks alone (R61). -/
theorem State.delistBegun_calm (h : ∀ k, s.servedBy u = some k → s.ctxs[k].purpose = .read) :
    (s.delistBegun n u).sweep = s.sweep ∧ ∀ v : UnitId, (s.delistBegun n u).dir[v].mark = s.dir[v].mark := by
  have ended : s.delistBegun n u = (s.delistWritten n u).waitingEnded u (decide (s.dir[u].state = .held)) := by
    rcases State.delistBegun_cases n u s with e | ⟨_, k, served, erases⟩
    · exact e
    · exact absurd (h k served) erases
  obtain ⟨_, sweep, _, _, _, dir⟩ := State.waitingEnded_frame u (decide (s.dir[u].state = .held)) (s.delistWritten n u)
  rw [ended]
  refine ⟨sweep.trans (State.delistWritten_frame n u s).2.1, fun v => ?_⟩
  rw [dir, ← State.delistWritten_entry n u s (·.mark) (fun _ _ => rfl) (fun _ => rfl) v]
  exact (State.heldEnded_dir u _ _ v).1

/-- A suspended read request ends STOPPED with the order's taking (R61; log entry 16). -/
theorem State.delistBegun_held (h : s.dir[u].state = .held) : (s.delistBegun n u).dir[u].lastOutcome = .stopped := by
  obtain ⟨F, hF⟩ : ∃ F, F = (s.delistWritten n u).waitingEnded u (decide (s.dir[u].state = .held)) := ⟨_, rfl⟩
  have stopped : F.dir[u].lastOutcome = .stopped := by
    rw [hF, (State.waitingEnded_frame u _ _).2.2.2.2.2, decide_eq_true h]
    exact State.heldEnded_outcome u _
  rcases State.delistBegun_cases n u s with e | ⟨e, _⟩ <;> rw [e, ← hF]
  · exact stopped
  · exact (DirEntry.body_congr (State.skipPending_body u F u) (·.lastOutcome) fun _ => rfl).trans stopped

end

end Sys2Proof.Machine
end

section
/-! SUPPORT. ENLIST UNIT taken: one write of the VACANT entry, and its order complete (R53, R171). -/

namespace Sys2Proof.Machine

/-- The two checks of ENLIST UNIT, passed (R171). -/
theorem State.checkEnlist_none {s : State} {u : UnitId} {ch : ChanId} {a : Byte} (hv : s.dir[u].state = .vacant)
    (own : a ≠ s.chans[ch].settings.address)
    (used : ∀ w : UnitId, w ≠ 0 → s.dir[w].state ≠ .vacant → s.dir[w].channel = ch → s.dir[w].address ≠ a) :
    s.checkEnlist u ch a = none := by
  have free : s.addressUsed ch a = false := by
    unfold State.addressUsed
    rw [List.any_eq_false]
    intro w _ taken
    simp only [Bool.and_eq_true, bne_iff_ne, beq_iff_eq] at taken
    obtain ⟨⟨⟨nonzero, listed⟩, channel⟩, address⟩ := taken
    exact used w nonzero listed channel address
  unfold State.checkEnlist
  rw [if_neg (not_not.2 hv), if_neg]
  rw [free]
  exact fun h => h.elim (by decide) own

theorem parseEnlist_order {m : Memory} {n : SlotId} {u : UnitId} {ch : ChanId} {cls : Fin 4} (h0 : (paramByte m n 0).toNat = u.val)
    (hu : u ≠ 0) (h1 : (paramByte m n 1).toNat = ch.val) (low : 1 ≤ (paramByte m n 2).toNat) (high : (paramByte m n 2).toNat ≤ 253)
    (h6 : (paramByte m n 6).toNat = cls.val) :
    parseEnlist m n = .order (.enlistUnit u ch (paramByte m n 2) (paramWord m n 4) cls) := by
  have ok : addressOk (paramByte m n 2) = true := by
    unfold addressOk
    rw [decide_eq_true low, decide_eq_true high]
    rfl
  unfold parseEnlist
  rw [asFin_some u h0, asFin_some ch h1, asFin_some cls h6, ok]
  exact if_neg hu

/-- An entry that stands as it was, unless an assignment has taken it (R94). -/
def DirEntry.unlessAssigned (e0 e : DirEntry) : Prop := e = e0 ∨ e.state = .reading ∨ e.state = .erasing

theorem DirEntry.assigned_state (p : Purpose) (e : DirEntry) : (e.assigned p).state = .reading ∨ (e.assigned p).state = .erasing := by
  cases p with
  | read =>
    unfold DirEntry.assigned
    dsimp only
    split
    · exact .inl rfl
    · exact .inl rfl
  | erase => exact .inr rfl

theorem State.allocate_unlessAssigned (m : Nat) (s : State) (u : UnitId) : s.dir[u].unlessAssigned (s.allocate m).dir[u] :=
  State.allocate_entry (P := s.dir[u].unlessAssigned) (fun e p _ _ _ _ => .inr (e.assigned_state p)) m (.inl rfl)

/-- With no sweep to start in the event, what follows at most assigns the unit (R94, R160). -/
theorem State.settle_unlessAssigned {s : State} (h : s.sweep.autoDue = false ∨ s.settled) (u : UnitId) :
    s.dir[u].unlessAssigned s.settle.dir[u] := by
  rcases h with calm | settled
  · obtain ⟨X, hX⟩ : ∃ X, X = (if s.sweep.state ≠ .idle ∧ s.anyPending = false then s.finished else s).closeTest := ⟨_, rfl⟩
    have dir : X.dir = s.dir := by
      rw [hX, (State.closeTest_frame _).2.1]
      split
      · exact s.finished_dir
      · rfl
    rw [State.settle_calm calm, ← hX, ← dir]
    exact X.allocate_unlessAssigned 8 u
  · rw [State.settle_of_settled settled]
    exact s.allocate_unlessAssigned 8 u

section
variable (n : SlotId) (u : UnitId) (ch : ChanId) (a : Byte) (label : Word) (cls : Fin 4) (s : State)

/-- ENLIST UNIT taken (R53, R171). -/
def State.enlistTaken : State :=
  (s.writeEntry u (DirEntry.enlisted ch a label cls)).doneNow n (BitVec.ofNat 16 u.val) 0 0 0

theorem Rest.enlistTaken : Rest { slots := (· = n), units := (· = u) } s (s.enlistTaken n u ch a label cls) :=
  Rest.trans ((Rest.writeEntry u _ s).mono (fun _ x => x) (fun _ x => x) (fun _ x => x) fun _ x => x.elim)
    ((Rest.completeSlot n _ _ _ _).mono (fun _ x => x) (fun _ x => x) (fun _ x => x.elim) fun _ x => x)

theorem State.enlistTaken_completesOnly : s.completesOnly (s.enlistTaken n u ch a label cls) :=
  State.completesOnly_trans (State.completesOnly_same (by simp) (by simp)) (State.completesOnly_done n _ _ _)

theorem State.enlistTaken_frame : (s.enlistTaken n u ch a label cls).clock = s.clock ∧
    (s.enlistTaken n u ch a label cls).sweep = s.sweep ∧ (s.enlistTaken n u ch a label cls).self = s.self ∧
    (s.enlistTaken n u ch a label cls).pool = s.pool := by
  unfold State.enlistTaken
  simp

theorem State.enlistTaken_taken (j : SlotId) :
    (s.enlistTaken n u ch a label cls).orders.taken[j] = if j = n then none else s.orders.taken[j] := by
  have orders : (s.writeEntry u (DirEntry.enlisted ch a label cls)).orders = s.orders := by simp
  rw [State.enlistTaken, State.doneNow, State.doneSlot, State.completeSlot_taken, orders]

variable {s}

/-- The write steps the revision once, since the entry was VACANT (R53). -/
theorem State.enlistTaken_get (hv : s.dir[u].state = .vacant) (v : UnitId) : (s.enlistTaken n u ch a label cls).dir[v] =
    if v = u then { s.dir[u].enlisted ch a label cls with revision := s.dir[u].revision + 2 } else s.dir[v] := by
  have changes : s.dir[u].enlisted ch a label cls ≠ s.dir[u] := fun h => by
    have state := congrArg DirEntry.state h
    rw [hv] at state
    cases state
  have dir : (s.enlistTaken n u ch a label cls).dir = (s.writeEntry u (DirEntry.enlisted ch a label cls)).dir := by
    unfold State.enlistTaken
    simp
  rw [dir, State.writeEntry_get]
  simp only [changes, ne_eq, not_false_eq_true, and_true]

/-- No sweep waits for a VACANT entry, and a POSTED slot holds no order: the order leaves nothing undone (R51, R147, R164). -/
theorem State.enlistTaken_settled (hu : u ≠ 0) (hv : s.dir[u].state = .vacant) (posted : slotState s.mem n = Config.stPosted)
    (tidy : s.tidy) (h : s.settled) : (s.enlistTaken n u ch a label cls).settled := by
  obtain ⟨tidySlots, tidyMarks⟩ := tidy
  obtain ⟨waits, opened⟩ := h
  obtain ⟨_, sweep, _, pool⟩ := State.enlistTaken_frame n u ch a label cls s
  have own : s.orders.taken[n] = none := by
    rw [Option.eq_none_iff_forall_ne_some]
    intro x hx
    have state := tidySlots n x hx
    rw [posted] at state
    cases state
  have taken : (s.enlistTaken n u ch a label cls).orders.taken = s.orders.taken := Vector.ext fun i hi => by
    have get := State.enlistTaken_taken n u ch a label cls s ⟨i, hi⟩
    split at get
    · next same => exact get.trans ((congrArg (fun j : SlotId => s.orders.taken[j]) same).trans own).symm
    · exact get
  refine ⟨fun running => ?_, fun x y z => ?_⟩
  · obtain ⟨w, hw⟩ := waits (sweep ▸ running)
    have other : w ≠ u := fun same => tidyMarks u hu hv (same ▸ hw)
    exact ⟨w, by rwa [State.enlistTaken_get n u ch a label cls hv, if_neg other]⟩
  · exact opened (sweep ▸ x) (sweep ▸ y) (State.nothingKeeps_congr taken pool z)

end

/-- Completions alone leave no other slot POSTED. -/
theorem State.completesOnly_unposted {s t : State} (h : s.completesOnly t) (hm : s.memOk) {j : SlotId}
    (hj : slotState s.mem j ≠ Config.stPosted) : slotState t.mem j ≠ Config.stPosted := by
  rcases h.state hm j with same | done
  · rwa [same]
  · rw [done]
    decide

/-- ENLIST UNIT, accepted (R53, R171): the first part of O19. -/
theorem exec_enlist (v : Word) {n : SlotId} {u : UnitId} {ch : ChanId} {a : Byte} {label : Word} {cls : Fin 4} {s : State}
    (h : s.visits n) (hu : u ≠ 0) (hv : s.dir[u].state = .vacant) (hj : s.judge n = .taken (.enlistUnit u ch a label cls)) :
    ∃ t, exec (.signalWrite v) s = .next t ∧
      t.dir[u].record =
        { DirEntry.vacant with channel := ch, address := a, label := label, cls := cls, neverRead := true } ∧
      (t.dir[u].state = .idle ∨ t.dir[u].state = .reading ∨ t.dir[u].state = .erasing) ∧
      t.dir[u].lastOutcome = .none ∧
      (t.dir[u].state = .idle → (s.sweep.autoDue = false ∨ s.settled ∧ s.tidy) →
        t.dir[u].revision = s.dir[u].revision + 2) ∧
      t.self = s.self ∧ t.clock = s.clock ∧ s.still t ∧
      t.slotShows n 3 0 (BitVec.ofNat 16 u.val) 0 0 0 s.sweep.openEdition s.clock ∧ t.hasAttn .orderDone ∧
      Rest { slots := (· = n), units := (· = u) } (s.setHalt none) t := by
  obtain ⟨_, hm, _, posted, only⟩ := id h
  obtain ⟨G, hG⟩ : ∃ G, G = s.enlistTaken n u ch a label cls := ⟨_, rfl⟩
  obtain ⟨clock, sweep, self, _⟩ := State.enlistTaken_frame n u ch a label cls s
  rw [← hG] at clock sweep self
  have completes : s.completesOnly G := hG ▸ State.enlistTaken_completesOnly n u ch a label cls s
  have hexec : exec (.signalWrite v) s = .next ((State.stamp s G.settle).setHalt none) := by
    have take : G = s.take n (.enlistUnit u ch a label cls) := hG
    rw [take] at completes ⊢
    exact execSignalWrite_takes v h hj nofun (completes.mem hm) fun j other => State.completesOnly_unposted completes hm (only j other)
  have entry : G.dir[u] = { s.dir[u].enlisted ch a label cls with revision := s.dir[u].revision + 2 } := by
    rw [hG, State.enlistTaken_get n u ch a label cls hv, if_pos rfl]
  have idle : G.dir[u].state = .idle := by rw [entry]; rfl
  have followed := State.followed_settle G u
  have undone : s.settled → s.tidy → G.settled := fun settled tidy =>
    hG ▸ State.enlistTaken_settled n u ch a label cls hu hv posted tidy settled
  have shows_ : (State.stamp s G.settle).slotShows n 3 0 (BitVec.ofNat 16 u.val) 0 0 0 s.sweep.openEdition s.clock ∧
      (State.stamp s G.settle).orders.taken[n] = none ∧ (State.stamp s G.settle).hasAttn .orderDone := by
    obtain ⟨W, hW⟩ : ∃ W, W = s.writeEntry u (DirEntry.enlisted ch a label cls) := ⟨_, rfl⟩
    have done : G = W.completeSlot n Config.stDone { code := 0, w0 := BitVec.ofNat 16 u.val, w1 := 0, w2 := 0, w3 := 0 }
        W.sweep.openEdition := by
      rw [hG, hW]
      rfl
    have memW : W.memOk := by rw [hW, State.memOk, (State.writeEntry_frame u _ s).2.2.1]; exact hm
    have own := State.completeSlot_shows n Config.stDone { code := 0, w0 := BitVec.ofNat 16 u.val, w1 := 0, w2 := 0, w3 := 0 }
      W.sweep.openEdition W memW
    have sweepW : W.sweep = s.sweep := by rw [hW]; simp
    have clockW : W.clock = s.clock := by rw [hW]; simp
    rw [← done, sweepW, clockW] at own
    refine Rest.shows_after ((Rest.settle G).stamp s) (completes.mem hm) n ?_ own ?_
    · rw [hG, State.enlistTaken_taken, if_pos rfl]
    · rw [done, State.hasAttn, State.completeSlot_attention]
      exact attn_hasOr _ _
  obtain ⟨shows_, _, attention⟩ := shows_
  refine ⟨_, hexec, ?_, DirEntry.followed_idle followed idle, ?_, fun restsIdle quiet => ?_, ?_, ?_, fun settled tidy => ?_, shows_,
    attention, ?_⟩
  · exact (State.settle_record G u).trans (by rw [entry]; rfl)
  · exact (followed.1 (by rw [idle]; decide)).trans (by rw [entry]; rfl)
  · have calm : G.sweep.autoDue = false ∨ G.settled :=
      quiet.imp (fun x => (congrArg SweepCtl.autoDue sweep).trans x) fun x => undone x.1 x.2
    have restsIdle : G.settle.dir[u].state = .idle := restsIdle
    rcases State.settle_unlessAssigned calm u with same | busy
    · exact (congrArg DirEntry.revision same).trans (by rw [entry])
    · rw [restsIdle] at busy
      rcases busy with x | x <;> cases x
  · exact (State.settle_frame G).2.1.trans self
  · exact (State.settle_clock G).trans clock
  · exact State.stamp_settle_sweep sweep (undone settled tidy)
  · exact Rest.setHalt (Rest.settled (hG ▸ Rest.enlistTaken n u ch a label cls s)) none

end Sys2Proof.Machine
end

section
/-! SUPPORT. The open edition, and the offer of a DELIST-RETIRE (R10 to R12, R154, R156, R157). -/

namespace Sys2Proof.Machine

/-! ### The open edition -/

theorem nextEdition_eq (e : Edition) : nextEdition e = if e = 0xFFFFFFFF then 0xFFFFFFFF else e + 1 := by
  unfold nextEdition
  split
  · next full => exact full
  · rfl

theorem nextEdition_ne_zero (e : Edition) : nextEdition e ≠ 0 := by
  unfold nextEdition
  split
  · next full =>
    rw [full]
    decide
  · next room => bv_omega

/-- Work that needs an edition belongs to the open one, or opens the next (R156). -/
theorem State.needEdition_open (s : State) : s.needEdition.sweep.openEdition = s.editionFor := by
  unfold State.needEdition State.editionFor
  by_cases h : s.sweep.openEdition = 0
  · rw [if_pos h, if_neg (not_not.2 h), ← nextEdition_eq]
    rfl
  · rw [if_neg h, if_pos h]

theorem State.editionFor_ne_zero (s : State) : s.editionFor ≠ 0 := by
  unfold State.editionFor
  split
  · next h => exact h
  · rw [← nextEdition_eq]
    exact nextEdition_ne_zero s.sweep.counter

theorem State.needEdition_of_open {s : State} (h : s.sweep.openEdition ≠ 0) : s.needEdition = s := if_neg h

/-- The edition `e` is open. -/
def State.opens (s : State) (e : Edition) : Prop := s.sweep.openEdition = e ∧ e ≠ 0

theorem State.opens_needEdition {s : State} {e : Edition} (h : s.opens e) : s.needEdition.opens e := by
  rw [State.needEdition_of_open (h.1 ▸ h.2)]
  exact h

theorem State.opens_offer {s : State} {e : Edition} (h : s.opens e) (r : PoolRequest) : (s.offer r).opens e := by
  have admitted : ∀ t : State, t.opens e → (t.updPool (Pool.admitOrHold r)).opens e := fun _ x => x
  unfold State.offer
  split
  · exact h
  · split
    · exact admitted _ (State.opens_needEdition h)
    · exact admitted _ h

theorem State.opens_markUnit (mask : BitVec 4) (u : UnitId) {s : State} {e : Edition} (h : s.opens e) :
    (s.markUnit mask u).opens e := by
  obtain ⟨opened, nonzero⟩ := h
  refine ⟨?_, nonzero⟩
  unfold State.markUnit
  dsimp only
  split
  all_goals simpa using opened

theorem State.opens_startSweep (origin : SweepOrigin) (mask : BitVec 4) (budget : Nat) {s : State} {e : Edition} (h : s.opens e) :
    (s.startSweep origin mask budget).opens e := by
  unfold State.startSweep
  dsimp only
  generalize hX : State.updSweep _ s.needEdition = X
  have begun : X.opens e := by
    obtain ⟨opened, nonzero⟩ := State.opens_needEdition h
    exact ⟨by rw [← hX]; exact opened, nonzero⟩
  have marked : (forEach allUnits (State.markUnit mask) X).opens e :=
    forEach_invariant (fun t => t.opens e) _ (fun v _ z => State.opens_markUnit mask v z) _ X begun
  have woken : (forEach allChans State.wakeChannel (forEach allUnits (State.markUnit mask) X)).opens e := by
    rw [State.opens, forEach_keeps State.sweep State.wakeChannel (by simp)]
    exact marked
  split
  · exact State.opens_offer woken _
  · exact woken

theorem State.opens_sweepTest {s : State} {e : Edition} (h : s.opens e) : s.sweepTest.opens e := by
  have returned : s.finished.opens e := by
    rw [State.opens, State.finished_sweep]
    exact h
  unfold State.sweepTest
  split
  · unfold State.finishSweep
    dsimp only
    split
    · exact State.opens_startSweep _ _ _ returned
    · exact returned
  · exact h

/-- A DELIST UNIT order that is TAKEN keeps the edition open through follow-up work (R157). -/
theorem State.opens_settle {s : State} {e : Edition} {n : SlotId} {u : UnitId} {x : Taken} (h : s.opens e)
    (hx : s.orders.taken[n] = some x) (ho : x.order = .delistUnit u) : s.settle.opens e := by
  obtain ⟨W, hW⟩ : ∃ W, W = s.sweepTest.sweepTest := ⟨_, rfl⟩
  have tested : Rest {} s W := hW ▸ (Rest.sweepTest s).trans (Rest.sweepTest _)
  have other : ¬ s.sweepSlot n := by
    rintro ⟨y, _, _, hy, sweep⟩
    rw [hx] at hy
    cases hy
    rw [ho] at sweep
    cases sweep
  have taken : W.orders.taken[n] = some x := (tested.taken n id other).trans hx
  have close : W.closeTest = W := if_neg fun ready =>
    ((State.nothingKeeps_of_closeReady ready).1 n x u taken).2.2 ho
  have opened : W.opens e := hW ▸ State.opens_sweepTest (State.opens_sweepTest h)
  rw [State.settle, ← hW, close, State.opens, (State.allocate_frame 8 W).2.2.2.2.1]
  exact opened

/-! ### The context that serves a unit -/

theorem State.servedBy_none {s : State} {u : UnitId} (h : ∀ k : CtxId, s.ctxs[k].state = .free ∨ s.ctxs[k].target ≠ u) :
    s.servedBy u = none := by
  unfold State.servedBy
  rw [List.find?_eq_none]
  intro k _ serves
  rw [Bool.and_eq_true, bne_iff_ne, beq_iff_eq] at serves
  obtain ⟨busy, target⟩ := serves
  exact (h k).elim busy fun other => other target

theorem State.servedBy_of_only {s : State} {k : CtxId} (busy : s.ctxs[k].state ≠ .free)
    (only : ∀ j : CtxId, s.ctxs[j].state ≠ .free → s.ctxs[j].target = s.ctxs[k].target → j = k) :
    s.servedBy s.ctxs[k].target = some k := by
  have every : ∀ k : CtxId, k ∈ allCtxs := by decide
  unfold State.servedBy
  cases found : allCtxs.find? fun j => s.ctxs[j].state != .free && s.ctxs[j].target == s.ctxs[k].target with
  | none =>
    have idle := List.find?_eq_none.1 found k (every k)
    rw [beq_self_eq_true, Bool.and_true, bne_iff_ne] at idle
    exact absurd busy idle
  | some j =>
    have serves := List.find?_some found
    rw [Bool.and_eq_true, bne_iff_ne, beq_iff_eq] at serves
    rw [only j serves.1 serves.2]

/-! ### The offer of a DELIST-RETIRE -/

/-- The one DELIST UNIT order of the unit waits in slot `n` (R61). -/
theorem State.waitingSlots_delist {s : State} {n : SlotId} {u : UnitId} {x : Taken} (hx : s.orders.taken[n] = some x)
    (ho : x.order = .delistUnit u) (free : ∀ k : CtxId, hasSlot s.ctxs[k].attached n = false)
    (only : ∀ (j : SlotId) (y : Taken), j ≠ n → s.orders.taken[j] = some y → y.order ≠ .delistUnit u) :
    s.waitingSlots (Order.delistsUnit u) = [n] := by
  have names : ∀ o : Order, o.delistsUnit u = true → o = .delistUnit u := fun o ho => by
    cases o with
    | delistUnit w => exact congrArg Order.delistUnit (beq_iff_eq.1 ho).symm
    | _ => cases ho
  refine State.waitingSlots_single fun j => ?_
  rw [State.mem_waitingSlots]
  refine ⟨fun ⟨_, y, hy, order⟩ => ?_, fun same => ?_⟩
  · by_contra other
    exact only j y other hy (names _ order)
  · rw [same]
    exact ⟨free, x, hx, by rw [ho]; exact beq_self_eq_true u⟩

theorem State.offerDelist_eq {s : State} {u : UnitId} {n : SlotId} (delisting : s.dir[u].state = .delisting)
    (slots : s.waitingSlots (Order.delistsUnit u) = [n]) : s.offerDelist u = (s.skipPending u).offer (.delistRetire u n) := by
  unfold State.offerDelist
  rw [if_pos delisting, slots]

theorem State.offer_pool {s : State} (h : s.orders.resetting = none) (r : PoolRequest) : (s.offer r).pool = s.pool.admitOrHold r := by
  have calm : ¬ s.resetting = true := by simp [State.resetting, h]
  unfold State.offer
  rw [if_neg calm]
  split
  · rw [State.updPool_pool, (State.needEdition_frame s).2.2.2.2.2.2.1]
  · rfl

theorem Pool.mem_admitOrHold (r : PoolRequest) (p : Pool) : r ∈ (p.admitOrHold r).queue ++ (p.admitOrHold r).waiting := by
  unfold Pool.admitOrHold
  split <;> simp

/-- With room in the queue an offer joins its tail (R10). -/
theorem Pool.admitOrHold_queue {r : PoolRequest} {p : Pool} (h : p.queue.length < 16) : (p.admitOrHold r).queue = p.queue ++ [r] :=
  congrArg Pool.queue (if_pos h)

theorem State.offerDelist_pool {s : State} {u : UnitId} {n : SlotId} (h : s.orders.resetting = none)
    (delisting : s.dir[u].state = .delisting) (slots : s.waitingSlots (Order.delistsUnit u) = [n]) :
    (s.offerDelist u).pool = s.pool.admitOrHold (.delistRetire u n) := by
  have frame := State.skipPending_frame u s
  rw [State.offerDelist_eq delisting slots, State.offer_pool (by rw [frame.2.2.2.1]; exact h), frame.2.2.2.2.2.1]

theorem State.opens_offerDelist {s : State} {e : Edition} (h : s.opens e) (u : UnitId) : (s.offerDelist u).opens e := by
  have skipped : (s.skipPending u).opens e := by
    unfold State.skipPending
    split
    · exact ⟨by simpa using h.1, h.2⟩
    · exact h
  unfold State.offerDelist
  split
  · split
    · exact State.opens_offer skipped _
    · exact skipped
  · exact h

/-- A PENDING mark turns SKIPPED with the offer, and no other changes (R61, R149). -/
theorem State.offerDelist_mark {s : State} {u : UnitId} (delisting : s.dir[u].state = .delisting) :
    (s.offerDelist u).dir[u].mark = (if s.dir[u].mark = .pending then .skipped else s.dir[u].mark) ∧
      (s.offerDelist u).sweep.autoDue = s.sweep.autoDue := by
  have skipped : (s.skipPending u).dir[u].mark = (if s.dir[u].mark = .pending then .skipped else s.dir[u].mark) ∧
      (s.skipPending u).sweep.autoDue = s.sweep.autoDue := by
    unfold State.skipPending
    split
    · exact ⟨State.writeEntry_congr u _ s (·.mark) fun _ _ => rfl, by simp⟩
    · exact ⟨rfl, rfl⟩
  unfold State.offerDelist
  rw [if_pos delisting]
  split
  · rw [State.offer_autoDue, (State.offer_frame _ _).2.2.2.2.1]
    exact skipped
  · exact skipped

end Sys2Proof.Machine
end

section
/-! SUPPORT. DELIST UNIT taken, with all that follows at once (R61, R108, R109, R167, R171). -/

namespace Sys2Proof.Machine

theorem parseDelist_order {m : Memory} {n : SlotId} {u : UnitId} (h0 : (paramByte m n 0).toNat = u.val) (hu : u ≠ 0) :
    parseDelist m n = .order (.delistUnit u) := by
  unfold parseDelist
  rw [asFin_some u h0]
  exact if_neg hu

/-- The pass comes to a DELIST UNIT order that is accepted, in slot `n`, and no other order delists the unit (R171). -/
structure State.delistComes (s : State) (n : SlotId) (u : UnitId) : Prop where
  visits : s.visits n
  judged : s.judge n = if (s.servedBy u).isNone && decide (16 ≤ s.pool.queue.length) then .halted else .taken (.delistUnit u)
  only : ∀ (j : SlotId) (x : Taken), s.orders.taken[j] = some x → x.order ≠ .delistUnit u
  free : ∀ k : CtxId, hasSlot s.ctxs[k].attached n = false

theorem State.judge_delist {n : SlotId} {u : UnitId} {s : State} (hk : slotKind s.mem n = 9) (hs : s.orders.start = false)
    (h0 : (paramByte s.mem n 0).toNat = u.val) (hu : u ≠ 0) (listed : s.dir[u].state ≠ .vacant) (fresh : s.dir[u].state ≠ .delisting) :
    s.judge n = if (s.servedBy u).isNone && decide (16 ≤ s.pool.queue.length) then .halted else .taken (.delistUnit u) := by
  have kind : (slotKind s.mem n).toNat = 9 := by rw [hk]; rfl
  refine State.judge_order (o := .delistUnit u) kind (by decide) (by decide) hs ?_ ?_
  · unfold parseOrder
    rw [kind]
    exact parseDelist_order h0 hu
  · exact if_neg fun h => h.elim listed fresh

/-- While the queue holds 16 requests the pass halts at the order (R167). -/
theorem exec_delist_halted (v : Word) {n : SlotId} {u : UnitId} {s : State} (h : s.delistComes n u) (idle : s.servedBy u = none)
    (full : 16 ≤ s.pool.queue.length) : exec (.signalWrite v) s = .next (s.setHalt (some n)) := by
  obtain ⟨running, _, calm, posted, only⟩ := h.visits
  have halted : s.judge n = .halted := by rw [h.judged, idle, decide_eq_true full]; rfl
  have visit : s.visit n = .ended (s.setHalt (some n)) := by
    unfold State.visit
    rw [if_pos posted, halted]
  have pass := (State.pass_only n ⟨posted, only⟩ calm).2 _ visit
  exact (execSignalWrite_eq v s running).trans (congrArg Host.Outcome.next pass)

section
variable {n : SlotId} {u : UnitId} {s N t : State} (h : s.delistComes n u) (memN : N.mem = s.mem) (ordersN : N.orders = s.orders)
  (completes : (N.takeSlot n (.delistUnit u)).completesOnly t)

include h memN completes in
/-- The order taken, the pass goes on with nothing else POSTED (R165). -/
theorem State.delistComes.exec (v : Word)
    (room : ¬ ((s.servedBy u).isNone && decide (16 ≤ s.pool.queue.length)) = true) (take : s.takeDelist n u = t) :
    exec (.signalWrite v) s = .next ((State.stamp s t.settle).setHalt none) := by
  obtain ⟨_, hm, _, _, only⟩ := h.visits
  have hmN : N.memOk := by rw [State.memOk, memN]; exact hm
  have memTaken : (N.takeSlot n (.delistUnit u)).memOk := ((Rest.takeSlot n _ N).mem hmN).1
  have taken : s.take n (.delistUnit u) = t := take
  rw [← taken] at completes ⊢
  refine execSignalWrite_takes v h.visits (by rw [h.judged, if_neg room]) nofun (completes.mem memTaken) fun j other => ?_
  refine State.completesOnly_unposted completes memTaken ?_
  rw [State.takeSlot_state hmN, if_neg other, memN]
  exact only j other

include h ordersN completes in
/-- What has completed orders at most since the order was taken finds the order alone to be offered (R61). -/
theorem State.delistComes.slots {x : Taken} (hx : t.orders.taken[n] = some x) (ho : x.order = .delistUnit u)
    (free : ∀ k : CtxId, hasSlot t.ctxs[k].attached n = false) : t.waitingSlots (Order.delistsUnit u) = [n] := by
  refine State.waitingSlots_delist hx ho free fun j y other hy => ?_
  rcases completes.taken j with same | gone
  · rw [same, State.takeSlot_get, if_neg other, ordersN] at hy
    exact h.only j y hy
  · rw [gone] at hy
    cases hy

end

/-- What follows at once leaves the delisting as it stands (R61, R95, R157). -/
theorem State.delists_settled {s F : State} {n : SlotId} {u : UnitId} {e : Edition} (hm : F.memOk) (h : s.delists F n u e) :
    s.delists (State.stamp s F.settle) n u e :=
  ((Rest.settle F).stamp s).delists hm id (fun _ _ => id) (State.settle_delisting h.1) (State.settle_clock F) h

/-! ### A unit no context serves -/

theorem State.delists_needEdition {s t : State} {n : SlotId} {u : UnitId} {e : Edition} (h : s.needEdition.delists t n u e) :
    s.delists t n u e := by
  simpa [State.delists, State.delistEnds] using h

theorem exec_delist_unserved (v : Word) {n : SlotId} {u : UnitId} {s : State} (h : s.delistComes n u) (idle : s.servedBy u = none)
    (room : s.pool.queue.length < 16) :
    ∃ t, exec (.signalWrite v) s = .next t ∧ s.delists t n u s.editionFor ∧
      s.pool.queue ++ [.delistRetire u n] <+: t.pool.queue ∧ t.sweep.openEdition = s.editionFor ∧
      (s.sweep.autoDue = false → t.dir[u].mark = if s.dir[u].mark = .pending then .skipped else s.dir[u].mark) ∧
      (s.dir[u].state = .held → s.sweep.autoDue = false → t.dir[u].lastOutcome = .stopped) ∧
      Rest { slots := fun j => j = n ∨ s.delistEnds n u j, units := (· = u) } (s.setHalt none) t := by
  obtain ⟨N, hN⟩ : ∃ N, N = s.needEdition := ⟨_, rfl⟩
  obtain ⟨b, hb⟩ : ∃ b, b = N.delistBegun n u := ⟨_, rfl⟩
  obtain ⟨F, hF⟩ : ∃ F, F = b.offerDelist u := ⟨_, rfl⟩
  have take : s.takeDelist n u = F := by rw [State.takeDelist_unserved idle, hF, hb, hN]
  obtain ⟨_, _, memN, ordersN, dirN, _, poolN, ctxsN, _⟩ := State.needEdition_frame s
  rw [← hN] at memN ordersN dirN poolN ctxsN
  obtain ⟨_, hm, calm, _⟩ := h.visits
  have hmN : N.memOk := by rw [State.memOk, memN]; exact hm
  have idleN : N.servedBy u = none := by unfold State.servedBy; rw [ctxsN]; exact idle
  obtain ⟨_, poolB, ctxsB, _⟩ := State.delistBegun_frame n u N
  obtain ⟨sweepB, markB⟩ := State.delistBegun_calm n u (s := N) fun k served => nomatch idleN.symm.trans served
  have begun := Rest.delistBegun n u N
  have delistsB := State.delistBegun_delists n u hmN
  have completesB := State.delistBegun_completesOnly n u N
  rw [← hb] at poolB ctxsB sweepB markB begun delistsB completesB
  have hmB : b.memOk := (begun.mem hmN).1
  have opens : b.opens s.editionFor := by
    rw [State.opens, sweepB, hN]
    exact ⟨s.needEdition_open, s.editionFor_ne_zero⟩
  rw [← sweepB, opens.1] at delistsB
  have offered : Rest {} b F := hF ▸ Rest.offerDelist u b
  have hmF : F.memOk := (offered.mem hmB).1
  obtain ⟨delisting, _, takenB, _⟩ := id delistsB
  have ends : ∀ j, N.delistEnds n u j ↔ s.delistEnds n u j := fun j => by rw [hN]; simp [State.delistEnds]
  have slots : b.waitingSlots (Order.delistsUnit u) = [n] :=
    h.slots ordersN completesB takenB rfl fun k => by rw [ctxsB, ctxsN]; exact h.free k
  have calmB : b.orders.resetting = none := (congrArg OrderEngine.resetting (begun.scan)).trans (by rw [ordersN]; exact calm)
  have queue : F.pool.queue = s.pool.queue ++ [.delistRetire u n] := by
    rw [hF, State.offerDelist_pool calmB delisting slots, poolB, poolN, Pool.admitOrHold_queue room]
  have delistsF : s.delists F n u s.editionFor := State.delists_needEdition (hN ▸
    offered.delists hmB id (fun _ _ => id) (hF ▸ State.offerDelist_delisting u delisting) (by rw [hF]; simp) delistsB)
  obtain ⟨mark, autoDue⟩ := State.offerDelist_mark delisting
  rw [← hF, markB, dirN] at mark
  rw [← hF, sweepB, hN, State.needEdition_autoDue] at autoDue
  have completes := State.completesOnly_trans completesB (State.completesOnly_same (t := F) (by rw [hF]; simp) (by rw [hF]; simp))
  have hexec := h.exec memN completes v (by rw [decide_eq_false (by omega), Bool.and_false]; decide) take
  refine ⟨_, hexec, State.delists_settled hmF delistsF, ?_, ?_, fun due => ?_, fun held _ => ?_, ?_⟩
  · exact queue ▸ (Rest.settle F).queue
  · obtain ⟨_, _, takenF, _⟩ := delistsF
    have opened := State.opens_settle (hF ▸ State.opens_offerDelist opens u) takenF rfl
    exact (State.stamp_sweep_congr s F.settle (·.openEdition) fun _ _ => rfl).trans opened.1
  · exact (State.settle_mark (autoDue.trans due) u).trans mark
  · have stopped : F.dir[u].lastOutcome = .stopped := by
      have body := hF ▸ State.offerDelist_body u b u
      rw [DirEntry.body_congr body (·.lastOutcome) fun _ => rfl, hb]
      exact State.delistBegun_held n u (dirN ▸ held)
    exact ((State.followed_settle F u).1 (by rw [delistsF.1]; decide)).trans stopped
  · have own : Rest { slots := fun j => j = n ∨ s.delistEnds n u j, units := (· = u) } s F :=
      Rest.trans (hN ▸ (Rest.needEdition s).widen) (Rest.trans (begun.mono (fun _ x => x) (fun _ x => x) (fun _ x => x)
        fun j x => x.imp id (ends j).1) offered.widen)
    exact own.settled.setHalt none

end Sys2Proof.Machine
end

section
/-! SUPPORT. DELIST UNIT of a unit that a context serves: the context is stopped (R61, R108, R109). -/

namespace Sys2Proof.Machine

/-- The release of a context whose read or erase ends (R92, R113). -/
theorem State.endContext_get (k : CtxId) (out : UnitOutcome) (s : State) (j : CtxId) : (s.endContext k out).ctxs[j] =
    if j = k then Context.freed s.ctxs[k].revision s.ctxs[k].parity else s.ctxs[j] := by
  have ctxs : (s.endContext k out).ctxs = (s.endedRequest k out).ctxs := by
    rw [State.endContext_eq]
    simp
  rw [← State.endedRequest_get k out s j, ctxs]

section
variable {n : SlotId} {k : CtxId} {b : State}

/-- A context FREE at once from PACED offers the DELIST-RETIRE of its unit (R61, R109). -/
theorem State.endContext_offers {s : State} {out : UnitOutcome} (calm : s.orders.resetting = none)
    (delisting : s.dir[s.ctxs[k].target].state = .delisting)
    (slots : (s.endContext k out).waitingSlots (Order.delistsUnit s.ctxs[k].target) = [n]) :
    .delistRetire s.ctxs[k].target n ∈ (s.endContext k out).pool.queue ++ (s.endContext k out).pool.waiting := by
  obtain ⟨Y, hY⟩ : ∃ Y, Y = (s.endedRequest k out).completeUnitOrders out (slotsOf s.ctxs[k].attached) := ⟨_, rfl⟩
  have ended : s.endContext k out = Y.offerDelist s.ctxs[k].target := by rw [State.endContext_eq, hY]
  have same : (Y.offerDelist s.ctxs[k].target).orders = Y.orders ∧ (Y.offerDelist s.ctxs[k].target).ctxs = Y.ctxs := by simp
  have slotsY : Y.waitingSlots (Order.delistsUnit s.ctxs[k].target) = [n] := by
    rw [ended] at slots
    rw [← slots]
    simp only [State.waitingSlots, State.attachedAll, same]
  have calmY : Y.orders.resetting = none := by
    have r : Rest _ s (Y.offerDelist s.ctxs[k].target) := ended ▸ Rest.endContext k out s
    rw [← same.1]
    exact (congrArg OrderEngine.resetting r.scan).trans calm
  have delistingY : Y.dir[s.ctxs[k].target].state = .delisting := by
    rw [hY, (State.completeUnitOrders_frame _ _ _).2.2.1]
    exact State.endedRequest_delisting k out delisting
  rw [ended, State.offerDelist_pool calmY delistingY slotsY]
  exact Pool.mem_admitOrHold _ _

end

section
variable {n : SlotId} {k : CtxId} {s : State}

/-- The stop of the context that serves the unit, with the order taken (R61). -/
def State.delistStopped (n : SlotId) (k : CtxId) (s : State) : State := (s.delistBegun n s.ctxs[k].target).stopContext k

/-- What the stop is, by the context's state (R109). -/
theorem State.delistStopped_cases (n : SlotId) (k : CtxId) (s : State) :
    s.ctxs[k].state = .paced ∧ s.delistStopped n k = ((s.delistBegun n s.ctxs[k].target).detach k).endContext k .stopped ∨
    (s.ctxs[k].state = .opening ∨ s.ctxs[k].state = .receiving ∨ s.ctxs[k].state = .mending) ∧
      s.delistStopped n k = (s.delistBegun n s.ctxs[k].target).stopSent k ∨
    (s.ctxs[k].state = .stopping ∨ s.ctxs[k].state = .committing ∨ s.ctxs[k].state = .free) ∧
      s.delistStopped n k = s.delistBegun n s.ctxs[k].target := by
  have cases_ := State.stopContext_cases k (s.delistBegun n s.ctxs[k].target)
  rw [(State.delistBegun_frame n s.ctxs[k].target s).2.2.1] at cases_
  exact cases_

theorem State.bonds_begun (n : SlotId) (u : UnitId) (k : CtxId) (s : State) : s.bonds ((s.delistBegun n u).detach k) := fun j => by
  rw [← (State.delistBegun_frame n u s).2.2.1]
  exact State.bonds_detach k _ j

theorem Rest.delistStopped (n : SlotId) (k : CtxId) (s : State) :
    Rest { ctxs := s.leaving k, chans := (· = s.ctxs[k].channel), units := (· = s.ctxs[k].target)
           slots := fun j => j = n ∨ s.delistEnds n s.ctxs[k].target j ∨ hasSlot s.ctxs[k].attached j = true }
      s (s.delistStopped n k) := by
  obtain ⟨_, _, ctxs, chans⟩ := State.delistBegun_frame n s.ctxs[k].target s
  have stop := Rest.stopContext k (s.delistBegun n s.ctxs[k].target)
  have leaving : (s.delistBegun n s.ctxs[k].target).leaving k = s.leaving k := by
    funext j
    simp only [State.leaving, ctxs, chans]
  rw [leaving, ctxs] at stop
  exact Rest.trans ((Rest.delistBegun n s.ctxs[k].target s).mono (fun _ x => x.elim) (fun _ x => x.elim) (fun _ x => x)
      fun _ x => x.imp id .inl)
    (stop.mono (fun _ x => x) (fun _ x => x) (fun _ x => x) fun _ x => .inr (.inr x))

theorem State.delistStopped_completesOnly (n : SlotId) (k : CtxId) (s : State) :
    (s.takeSlot n (.delistUnit s.ctxs[k].target)).completesOnly (s.delistStopped n k) :=
  State.completesOnly_trans (State.delistBegun_completesOnly n _ s) (State.stopContext_completesOnly k _)

theorem State.delistStopped_delists (hm : s.memOk) (free : hasSlot s.ctxs[k].attached n = false) :
    s.delists (s.delistStopped n k) n s.ctxs[k].target s.sweep.openEdition := by
  obtain ⟨_, _, ctxs, _⟩ := State.delistBegun_frame n s.ctxs[k].target s
  have begun := State.delistBegun_delists n s.ctxs[k].target hm
  have hmB := ((Rest.delistBegun n s.ctxs[k].target s).mem hm).1
  have stop := Rest.stopContext k (s.delistBegun n s.ctxs[k].target)
  rw [ctxs] at stop
  refine stop.delists hmB (fun attached => ?_) (fun j ends attached => ?_) (State.stopContext_delisting k begun.1)
    (State.stopContext_frame k _).1 begun
  · exact absurd (free.symm.trans attached) (by decide)
  · exact absurd ((ends.2.1 k).symm.trans attached) (by decide)

/-- An order that waits on the context is left by the order's taking as it stands. -/
theorem State.awaits_begun {j : SlotId} {x : Taken} (h : s.awaits k j x) (other : j ≠ n) :
    ((s.delistBegun n s.ctxs[k].target).detach k).awaits k j x := by
  obtain ⟨attached, hx, order⟩ := h
  have bond := State.bonds_begun n s.ctxs[k].target k s k
  have untouched : ¬ (j = n ∨ s.delistEnds n s.ctxs[k].target j) := by
    rintro (same | ⟨_, free, _⟩)
    · exact other same
    · exact absurd ((free k).symm.trans attached) (by decide)
  have unswept : ¬ s.sweepSlot j := by
    rintro ⟨y, _, _, hy, sweep⟩
    rw [hx] at hy
    cases hy
    rw [order] at sweep
    split at sweep <;> cases sweep
  have taken := (Rest.delistBegun n s.ctxs[k].target s).taken j untouched unswept
  refine ⟨?_, ?_, ?_⟩
  · exact (Context.bond_congr bond (fun c => hasSlot c.attached j) fun _ => rfl).trans attached
  · rw [(State.detach_frame k _).2.2.2.1, taken, hx]
  · rw [Context.bond_congr bond (·.purpose) fun _ => rfl, Context.bond_congr bond (·.target) fun _ => rfl]
    exact order

/-- From PACED the context is FREE at once: the DELIST-RETIRE is offered, and the orders that waited on it are STOPPED (R109). -/
theorem State.delistStopped_paced (h : s.delistComes n s.ctxs[k].target) (paced : s.ctxs[k].state = .paced) :
    (s.delistStopped n k).ctxs[k].releasedFrom s.ctxs[k].parity ∧
      .delistRetire s.ctxs[k].target n ∈ (s.delistStopped n k).pool.queue ++ (s.delistStopped n k).pool.waiting ∧
      ∀ j x, s.awaits k j x → j ≠ n → (s.delistStopped n k).slotDone j 7 x.edition s.clock := by
  obtain ⟨_, hm, calm, _⟩ := h.visits
  obtain ⟨B, hB⟩ : ∃ B, B = s.delistBegun n s.ctxs[k].target := ⟨_, rfl⟩
  obtain ⟨D, hD⟩ : ∃ D, D = B.detach k := ⟨_, rfl⟩
  obtain ⟨clockB, _, ctxsB, _⟩ := State.delistBegun_frame n s.ctxs[k].target s
  have begun := Rest.delistBegun n s.ctxs[k].target s
  rw [← hB] at clockB ctxsB begun
  obtain ⟨_, clockD, memD, ordersD, _, dirD, _⟩ := State.detach_frame k B
  rw [← hD] at clockD memD ordersD dirD
  have bonds : s.bonds D := hD ▸ hB ▸ State.bonds_begun n s.ctxs[k].target k s
  have target : D.ctxs[k].target = s.ctxs[k].target := Context.bond_congr (bonds k) (·.target) fun _ => rfl
  have stopped : s.delistStopped n k = D.endContext k .stopped := by
    rcases State.delistStopped_cases n k s with ⟨_, e⟩ | ⟨state, _⟩ | ⟨state, _⟩
    · rw [hD, hB, e]
    · rw [paced] at state
      rcases state with x | x | x <;> cases x
    · rw [paced] at state
      rcases state with x | x | x <;> cases x
  have completes := State.delistStopped_completesOnly n k s
  obtain ⟨delisting, _, taken, _⟩ := State.delistStopped_delists hm (h.free k)
  have delistingD : D.dir[s.ctxs[k].target].state = .delisting := by
    rw [dirD, hB]
    exact (State.delistBegun_delists n s.ctxs[k].target hm).1
  have attached : ∀ j : CtxId, hasSlot D.ctxs[j].attached n = false := fun j =>
    (Context.bond_congr (bonds j) (fun c => hasSlot c.attached n) fun _ => rfl).trans (h.free j)
  have free : ∀ j : CtxId, hasSlot (s.delistStopped n k).ctxs[j].attached n = false := fun j => by
    rw [stopped, State.endContext_get]
    split
    · simp [Context.freed, hasSlot]
    · exact attached j
  have slots := h.slots rfl completes taken rfl free
  rw [stopped, ← target] at slots
  rw [stopped]
  refine ⟨.inl ?_, ?_, fun j x waits other => ?_⟩
  · rw [State.endContext_get, if_pos rfl, Context.bond_congr (bonds k) (·.parity) fun _ => rfl]
    rfl
  · have calmD : D.orders.resetting = none := by
      rw [ordersD]
      exact (congrArg OrderEngine.resetting begun.scan).trans calm
    have delistingT := (congrArg (fun u : UnitId => D.dir[u].state) target).trans delistingD
    have offers := State.endContext_offers (out := .stopped) calmD delistingT slots
    rwa [target] at offers
  · have hmD : D.memOk := by rw [State.memOk, memD]; exact (begun.mem hm).1
    have waitsD : D.awaits k j x := by
      rw [hD, hB]
      exact State.awaits_begun waits other
    have done := State.endContext_done .stopped hmD waitsD
    rwa [clockD, clockB] at done

/-- The stop of a context that reads and is not PACED tells the sweep nothing yet, and leaves nothing undone (R109, R149). -/
theorem State.delistStopped_calm (hm : s.memOk) (free : hasSlot s.ctxs[k].attached n = false)
    (serves : s.servedBy s.ctxs[k].target = some k) (unpaced : s.ctxs[k].state ≠ .paced) (reads : s.ctxs[k].purpose = .read) :
    (s.delistStopped n k).sweep = s.sweep ∧ (s.settled → (s.delistStopped n k).settled) := by
  obtain ⟨sweepB, marks⟩ := State.delistBegun_calm n s.ctxs[k].target (s := s) fun j hj => by
    rw [serves] at hj
    cases hj
    exact reads
  have kept : (s.delistStopped n k).sweep = (s.delistBegun n s.ctxs[k].target).sweep ∧
      (s.delistStopped n k).dir = (s.delistBegun n s.ctxs[k].target).dir := by
    rcases State.delistStopped_cases n k s with ⟨state, _⟩ | ⟨_, e⟩ | ⟨_, e⟩
    · exact absurd state unpaced
    · rw [e]
      obtain ⟨_, _, sweep, dir, _⟩ := State.stopSent_frame k (s.delistBegun n s.ctxs[k].target)
      exact ⟨sweep, dir⟩
    · rw [e]
      exact ⟨rfl, rfl⟩
  obtain ⟨sweepF, dirF⟩ := kept
  obtain ⟨_, _, taken, _⟩ := State.delistStopped_delists hm free
  have sweep := sweepF.trans sweepB
  refine ⟨sweep, fun ⟨waits, _⟩ => ⟨fun running => ?_, fun _ _ keeps => ?_⟩⟩
  · obtain ⟨w, hw⟩ := waits (sweep ▸ running)
    exact ⟨w, by rw [dirF, marks, hw]⟩
  · exact (keeps.1 n _ s.ctxs[k].target taken).2.2 rfl

/-- The STOP sent for the order waits for its sending through all that follows (R81, R109). -/
theorem State.delistStopped_sends (n : SlotId)
    (answers : s.ctxs[k].state = .opening ∨ s.ctxs[k].state = .receiving ∨ s.ctxs[k].state = .mending) :
    s.stopsWith (State.stamp s (s.delistStopped n k).settle) k := by
  have sent : s.delistStopped n k = (s.delistBegun n s.ctxs[k].target).stopSent k := by
    rcases State.delistStopped_cases n k s with ⟨state, _⟩ | ⟨_, e⟩ | ⟨state, _⟩
    · rw [state] at answers
      rcases answers with x | x | x <;> cases x
    · exact e
    · rcases state with state | state | state
      all_goals
        rw [state] at answers
        rcases answers with x | x | x <;> cases x
  have stops := State.stopsWith_settle s (State.stopSent_stops k (s.delistBegun n s.ctxs[k].target))
  unfold State.stopsWith at stops ⊢
  rw [(State.delistBegun_frame n s.ctxs[k].target s).2.2.1] at stops
  rw [sent]
  exact stops

/-- What a stop sends does not depend on the halt, which the pass clears (R165). -/
theorem State.stopsWith_setHalt {t : State} (h : s.stopsWith t k) (x : Option SlotId) : s.stopsWith (t.setHalt x) k := h

/-- A context in STOPPING or COMMITTING goes on (R109). -/
theorem State.delistStopped_goesOn (n : SlotId) (ends : s.ctxs[k].state = .stopping ∨ s.ctxs[k].state = .committing) :
    (s.delistStopped n k).ctxs[k] = s.ctxs[k] := by
  rcases State.delistStopped_cases n k s with ⟨state, _⟩ | ⟨state, _⟩ | ⟨_, e⟩
  · rw [state] at ends
    rcases ends with x | x <;> cases x
  · rcases state with state | state | state
    all_goals
      rw [state] at ends
      rcases ends with x | x <;> cases x
  · rw [e, (State.delistBegun_frame n s.ctxs[k].target s).2.2.1]

theorem exec_delist_served (v : Word) (h : s.delistComes n s.ctxs[k].target) (busy : s.ctxs[k].state ≠ .free) (alone : s.alone k) :
    ∃ t, exec (.signalWrite v) s = .next t ∧ s.delists t n s.ctxs[k].target s.sweep.openEdition ∧
      (s.ctxs[k].state = .paced → s.released t k ∧ .delistRetire s.ctxs[k].target n ∈ t.pool.queue ++ t.pool.waiting ∧
        (∀ j x, s.awaits k j x → j ≠ n → t.slotDone j 7 x.edition s.clock)) ∧
      ((s.ctxs[k].state = .opening ∨ s.ctxs[k].state = .receiving ∨ s.ctxs[k].state = .mending) → s.stopsWith t k) ∧
      ((s.ctxs[k].state = .stopping ∨ s.ctxs[k].state = .committing) → t.ctxs[k].same s.ctxs[k]) ∧
      (s.ctxs[k].state ≠ .paced → s.ctxs[k].purpose = .read → s.still t) ∧
      Rest { ctxs := s.leaving k, chans := (· = s.ctxs[k].channel), units := (· = s.ctxs[k].target)
             slots := fun j => j = n ∨ s.delistEnds n s.ctxs[k].target j ∨ hasSlot s.ctxs[k].attached j = true }
        (s.setHalt none) t := by
  obtain ⟨_, hm, _, _⟩ := h.visits
  have serves : s.servedBy s.ctxs[k].target = some k := State.servedBy_of_only busy alone.2.2
  obtain ⟨F, hF⟩ : ∃ F, F = s.delistStopped n k := ⟨_, rfl⟩
  have own := Rest.delistStopped n k s
  have hexec := h.exec rfl (State.delistStopped_completesOnly n k s) v (by rw [serves]; exact Bool.false_ne_true)
    (State.takeDelist_served serves)
  have delists := State.delistStopped_delists hm (h.free k)
  rw [← hF] at own hexec delists
  have after : Rest {} F (State.stamp s F.settle) := (Rest.settle F).stamp s
  have hmF := (own.mem hm).1
  refine ⟨_, hexec, State.delists_settled hmF delists, fun paced => ?_, fun answers => ?_,
    fun ends => ?_, fun unpaced reads settled _ => ?_, own.settled.setHalt none⟩
  · obtain ⟨released, offered, done⟩ := State.delistStopped_paced h paced
    rw [← hF] at released offered done
    refine ⟨?_, ?_, fun j x waits other => after.slotDone hmF id (done j x waits other)⟩
    · have stamped := State.stamp_ctx_congr s F.settle k (Context.releasedFrom s.ctxs[k].parity) fun _ _ => rfl
      exact stamped.mpr (State.settle_releasedFrom released)
    · exact (List.mem_append.1 offered).elim (fun x => List.mem_append_left _ (after.queue.subset x))
        fun x => List.mem_append_right _ (after.waiting.subset x)
  · rw [hF]
    exact State.stopsWith_setHalt (State.delistStopped_sends n answers) none
  · have goesOn : F.ctxs[k] = s.ctxs[k] := by
      rw [hF]
      exact State.delistStopped_goesOn n ends
    rw [← goesOn]
    exact after.ctxs k id (by rw [goesOn]; exact busy)
  · obtain ⟨sweep, undone⟩ := State.delistStopped_calm hm (h.free k) serves unpaced reads
    rw [← hF] at sweep undone
    exact State.stamp_settle_sweep sweep (undone settled)

end

end Sys2Proof.Machine
end

section
/-! SUPPORT. ENLIST UNIT and DELIST UNIT (R53, R61, R171). -/

namespace Sys2Proof.Machine

/-- Settles O19: each order's checks pass, and its taking is followed by the lemmas for ENLIST UNIT and, by the context that serves
the unit, for DELIST UNIT. -/
theorem enlistWritesTheEntry : Obligations.EnlistWritesTheEntry := by
  unfold Obligations.EnlistWritesTheEntry
  refine ⟨fun v n u ch cls s h kind start h0 hu h1 low high h6 vacant own used => ?_,
    fun v n u s h kind start h0 hu listed fresh only free => ?_⟩
  · have code : (slotKind s.mem n).toNat = 8 := by rw [kind]; rfl
    have parsed : parseOrder s.mem n = .order (.enlistUnit u ch (paramByte s.mem n 2) (paramWord s.mem n 4) cls) := by
      unfold parseOrder
      rw [code]
      exact parseEnlist_order h0 hu h1 low high h6
    exact exec_enlist v h hu vacant
      (State.judge_order code (by decide) (by decide) start parsed (State.checkEnlist_none vacant own used))
  · have comes : s.delistComes n u := ⟨h, State.judge_delist kind start h0 hu listed fresh, only, free⟩
    refine ⟨fun idle => ⟨exec_delist_halted v comes (State.servedBy_none idle),
      exec_delist_unserved v comes (State.servedBy_none idle)⟩, fun k busy target alone => ?_⟩
    subst target
    exact exec_delist_served v comes busy alone

end Sys2Proof.Machine
end


section
/-! SUPPORT. The staging port: the frame at its turn leaves its FIFO and is met by the context it matches, or counted stray (R85,
R125, R126). -/

namespace Sys2Proof.Machine

/-- What a frame of the kind does in a context that looks at its content (R75 to R82). -/
def RxKind.taker : RxKind → CtxId → Frame → State → State
  | .grant => State.takeGrant
  | .hold => State.takeHold
  | .entryA => State.takeHalf setHalfA
  | .entryB => State.takeHalf setHalfB
  | .close => State.takeClose
  | .erased => State.takeErased

/-- The frame before `rest` has left the channel's FIFO, and the port has served the channel (R85, R125). -/
def State.passed (ch : ChanId) (rest : List Frame) (s : State) : State :=
  { s.updChan ch (fun c => { c with fifo := rest }) with portLast := ch }

/-- The frame passed has been met by context `k`. -/
def State.answered (kind : RxKind) (ch : ChanId) (f : Frame) (rest : List Frame) (k : CtxId) (s : State) : State :=
  State.meet kind kind.taker k f (s.passed ch rest)

section
variable (ch : ChanId) (rest : List Frame) (s : State)

@[simp] theorem State.passed_port : (s.passed ch rest).port = s.port := rfl
@[simp] theorem State.passed_clock : (s.passed ch rest).clock = s.clock := rfl
@[simp] theorem State.passed_mem : (s.passed ch rest).mem = s.mem := rfl
@[simp] theorem State.passed_orders : (s.passed ch rest).orders = s.orders := rfl
@[simp] theorem State.passed_sweep : (s.passed ch rest).sweep = s.sweep := rfl
@[simp] theorem State.passed_dir : (s.passed ch rest).dir = s.dir := rfl
@[simp] theorem State.passed_self : (s.passed ch rest).self = s.self := rfl
@[simp] theorem State.passed_pool : (s.passed ch rest).pool = s.pool := rfl
@[simp] theorem State.passed_ctxs : (s.passed ch rest).ctxs = s.ctxs := rfl
@[simp] theorem State.passed_timing : (s.passed ch rest).timing = s.timing := rfl
@[simp] theorem State.passed_portLast : (s.passed ch rest).portLast = ch := rfl

theorem State.passed_chan (c : ChanId) :
    (s.passed ch rest).chans[c] = if c = ch then { s.chans[ch] with fifo := rest } else s.chans[c] :=
  State.updChan_get ch (fun c => { c with fifo := rest }) s c

theorem State.passed_link : (s.passed ch rest).chans[ch].link = { s.chans[ch].link with fifo := rest } := by
  rw [State.passed_chan, if_pos rfl]
  rfl

theorem State.passed_pacer (c : ChanId) : (s.passed ch rest).chans[c].pacer = s.chans[c].pacer := by
  rw [State.passed_chan]
  split
  · next h => rw [h]
  · rfl

theorem Rest.passed : Rest { chans := (· = ch) } s (s.passed ch rest) := { Rest.updChan ch (fun c => { c with fifo := rest }) s with }

end

theorem CtxState.takesFrames_iff (x : CtxState) :
    x.takesFrames = true ↔ x = .opening ∨ x = .receiving ∨ x = .mending ∨ x = .stopping := by
  cases x <;> simp [CtxState.takesFrames]

theorem exec_command (kind : RxKind) (s : State) :
    exec kind.command s = .next (portTake kind (State.meet kind kind.taker) s) := by
  cases kind <;> rfl

section
variable {kind : RxKind} {ch : ChanId} {f : Frame} {rest : List Frame} {k : CtxId} {s : State}

/-- The routing test, as R85 and R115 say it. -/
theorem State.matchesCtx_passed : (s.passed ch rest).matchesCtx ch f = true ↔ s.reaches ch f f.tagCtx := by
  unfold State.matchesCtx State.reaches State.resetting
  simp only [Bool.and_eq_true, beq_iff_eq, CtxState.takesFrames_iff, Bool.not_eq_true', Option.isSome_eq_false_iff,
    Option.isNone_iff_eq_none, true_and, and_assoc, State.passed_ctxs, State.passed_dir, State.passed_orders]

/-- The frame at the port's turn is passed, with all that follows (R14, R125). -/
theorem exec_nextFrame (h : s.nextFrame kind ch f rest) :
    exec kind.command s = .next (State.stamp s (State.portPass ch f rest (State.meet kind kind.taker) s).settle) := by
  obtain ⟨run, idle, turn, fifo, ofKind⟩ := h
  have takes : portTake kind (State.meet kind kind.taker) s =
      settledEvent (State.portPass ch f rest (State.meet kind kind.taker)) s := by
    unfold portTake
    rw [idle, turn]
    dsimp only
    rw [fifo]
    exact if_pos ofKind
  rw [exec_command, takes, settledEvent_eq _ s run]

theorem exec_reaches (h : s.nextFrame kind ch f rest) (r : s.reaches ch f k) :
    exec kind.command s = .next (State.stamp s (s.answered kind ch f rest k).settle) := by
  obtain rfl := r.1
  have met : State.portPass ch f rest (State.meet kind kind.taker) s = s.answered kind ch f rest f.tagCtx :=
    if_pos (State.matchesCtx_passed.2 r)
  rw [exec_nextFrame h, met]

theorem exec_stray (h : s.nextFrame kind ch f rest) (r : ¬ s.reaches ch f f.tagCtx) :
    exec kind.command s = .next (State.stamp s ((s.passed ch rest).updChan ch Channel.countStray).settle) := by
  have stray : State.portPass ch f rest (State.meet kind kind.taker) s = (s.passed ch rest).updChan ch Channel.countStray :=
    if_neg fun x => r (State.matchesCtx_passed.1 x)
  rw [exec_nextFrame h, stray]

/-- A context that a frame reaches is not FREE. -/
theorem State.reaches_busy (r : s.reaches ch f k) : s.ctxs[k].state ≠ .free := by
  obtain ⟨_, _, state, _⟩ := r
  rcases state with x | x | x | x <;> rw [x] <;> decide

/-- Outside STOPPING a frame long enough for its kind is looked at (R81, R86). -/
theorem State.answered_taken (going : s.ctxs[k].state ≠ .stopping) (long : kind.leastDlc ≤ f.dlc.toNat) :
    s.answered kind ch f rest k = kind.taker k f (s.passed ch rest) := by
  have enough : ¬ f.short kind = true := by
    rw [Frame.short, decide_eq_true_iff]
    omega
  exact (if_neg going).trans (if_neg enough)

theorem State.answered_short (going : s.ctxs[k].state ≠ .stopping) (short : f.dlc.toNat < kind.leastDlc) :
    s.answered kind ch f rest k = (s.passed ch rest).markMalformed k :=
  (if_neg going).trans (if_pos (decide_eq_true short))

theorem State.answered_stopping (state : s.ctxs[k].state = .stopping) :
    s.answered kind ch f rest k = if kind = .close then (s.passed ch rest).endContext k .stopped else s.passed ch rest := if_pos state

end

end Sys2Proof.Machine
end


section
/-! SUPPORT. What an answer leaves of the port and of the channels: the clock, the channel served last, and of each channel all but
its transmit queue, its credits and its line (R99, R122, R138). -/

namespace Sys2Proof.Machine

/-- From `s` to `t` time and the port stand still, and no channel has changed but in its sending and its waiting line. -/
structure State.portStays (s t : State) : Prop where
  clock : t.clock = s.clock
  portLast : t.portLast = s.portLast
  links : ∀ c : ChanId, t.chans[c].link = s.chans[c].link

theorem State.portStays_refl (s : State) : s.portStays s := ⟨rfl, rfl, fun _ => rfl⟩

theorem Channel.admitOutside_link (c : Channel) : c.admitOutside.link = c.link := by
  unfold Channel.admitOutside
  split
  · rfl
  · split <;> rfl

theorem Channel.withdraw_link (k : CtxId) (c : Channel) : (c.withdraw k).link = c.link := by
  unfold Channel.withdraw
  split
  · rfl
  · split
    · rfl
    · split
      · exact Channel.admitOutside_link _
      · rfl

section
variable {s t : State} (h : s.portStays t)
include h

theorem State.portStays.of_chans {u : State} (clock : u.clock = t.clock) (portLast : u.portLast = t.portLast) (chans : u.chans = t.chans) :
    s.portStays u :=
  ⟨clock.trans h.clock, portLast.trans h.portLast, fun c => by rw [chans]; exact h.links c⟩

theorem State.portStays.updChan (ch : ChanId) {f : Channel → Channel} (hf : (f t.chans[ch]).link = t.chans[ch].link) :
    s.portStays (t.updChan ch f) := by
  refine ⟨h.clock, h.portLast, fun c => ?_⟩
  rw [State.updChan_get]
  split
  · next same => rw [hf, same]; exact h.links ch
  · exact h.links c

theorem State.portStays.updPacer (ch : ChanId) {f : Pacer → Pacer}
    (hf : ∀ p : Pacer, { f p with credits := 0, line := [] } = { p with credits := 0, line := [] }) : s.portStays (t.updPacer ch f) :=
  h.updChan ch (by simp only [Channel.link, hf])

theorem State.portStays.updCtx (k : CtxId) (f : Context → Context) : s.portStays (t.updCtx k f) := h.of_chans rfl rfl rfl

theorem State.portStays.writeEntry (u : UnitId) (f : DirEntry → DirEntry) : s.portStays (t.writeEntry u f) :=
  h.of_chans (by simp) (by simp) (by simp)

theorem State.portStays.sendFrame (k : CtxId) (kind : TxKind) : s.portStays (t.sendFrame k kind) :=
  (h.updChan _ (Channel.offerFrame_link _ _)).updCtx k _

theorem State.portStays.placeGranted (k : CtxId) : s.portStays (t.placeGranted k) := (h.updCtx k _).sendFrame k _

theorem State.portStays.serveLine (ch : ChanId) (n : Nat) : s.portStays (t.serveLine ch n) := by
  induction n generalizing t with
  | zero => exact h
  | succ n ih =>
    unfold State.serveLine
    split
    · exact h
    · split
      · exact h
      · next k rest _ =>
        have spent := h.updPacer ch (f := fun p => { p with credits := p.credits - t.ctxs[k].creditNeed, line := rest }) fun _ => rfl
        split
        · exact ih (spent.placeGranted k)
        · exact h

theorem State.portStays.serve (ch : ChanId) : s.portStays (t.serve ch) := h.serveLine ch _

theorem State.portStays.joinLine (k : CtxId) (need : Nat) : s.portStays (t.joinLine k need) := by
  have joined : s.portStays ((t.updCtx k fun c => { c with creditNeed := need }).updPacer t.ctxs[k].channel
      fun p => { p with line := p.line ++ [k] }) := (h.updCtx k _).updPacer _ fun _ => rfl
  unfold State.joinLine
  dsimp only
  split
  · exact joined.serve _
  · exact joined

theorem State.portStays.quitLine (k : CtxId) : s.portStays (t.quitLine k) := by
  unfold State.quitLine
  dsimp only
  split
  · exact (h.updCtx k _).updPacer _ fun _ => rfl
  · exact h

theorem State.portStays.detach (k : CtxId) : s.portStays (t.detach k) := by
  have withdrawn : s.portStays (t.withdrawFrame k) := (h.updChan _ (Channel.withdraw_link k _)).updCtx k _
  have left : s.portStays ((t.withdrawFrame k).leaveLine k) := by
    unfold State.leaveLine
    dsimp only
    split
    · exact (withdrawn.quitLine k).serve _
    · exact withdrawn.quitLine k
  exact left.updCtx k _

theorem State.portStays.freeContext (k : CtxId) : s.portStays (t.freeContext k) :=
  (h.updChan _ (Channel.orphan_link k _)).updCtx k _

theorem State.portStays.endReadAs (g : DirEntry → DirEntry) (k : CtxId) (out told : UnitOutcome) :
    s.portStays (t.endReadAs g k out told) := by
  have written : s.portStays (t.endRequestWith g t.ctxs[k].target out) := h.of_chans (by simp) (by simp) (by simp)
  exact (written.freeContext k).of_chans (by simp [State.endReadAs]) (by simp [State.endReadAs]) (by simp [State.endReadAs])

theorem State.portStays.endErase (k : CtxId) (out : UnitOutcome) : s.portStays (t.endErase k out) :=
  ((h.writeEntry t.ctxs[k].target (DirEntry.endErase out)).freeContext k).of_chans (by simp [State.endErase])
    (by simp [State.endErase]) (by simp [State.endErase])

theorem State.portStays.endContext (k : CtxId) (out : UnitOutcome) : s.portStays (t.endContext k out) := by
  unfold State.endContext
  split
  · exact h.endReadAs id k out out
  · exact h.endErase k out

omit h in
theorem State.portStays.ite {u v : State} {p : Prop} [Decidable p] (hu : s.portStays u) (hv : s.portStays v) :
    s.portStays (if p then u else v) := by
  split
  · exact hu
  · exact hv

theorem State.portStays.restart (k : CtxId) : s.portStays (t.restart k) := by
  have counted := (h.detach k).writeEntry t.ctxs[k].target fun e => { e with restartCount := satSucc 7 e.restartCount }
  exact State.portStays.ite ((counted.updCtx k _).joinLine k _) (counted.endReadAs id k .unitFaulty .unitFaulty)

theorem State.portStays.startMending (k : CtxId) (round : Nat) : s.portStays (t.startMending k round) := by
  have begun := h.updCtx k fun c => { c with state := .mending, mendRound := round, pickList := t.ctxs[k].formPick, window := none }
  exact State.portStays.ite (begun.sendFrame k _) (begun.joinLine k _)

theorem State.portStays.offer (r : PoolRequest) : s.portStays (t.offer r) := h.of_chans (by simp) (by simp) (by simp)

theorem State.portStays.completionTest (k : CtxId) : s.portStays (t.completionTest k) := by
  have stopped := h.updCtx k Context.stopTimer
  exact State.portStays.ite (State.portStays.ite ((stopped.updCtx k _).joinLine k _) ((stopped.updCtx k _).offer _))
    (State.portStays.ite (stopped.startMending k _) (stopped.restart k))

theorem State.portStays.markMalformed (k : CtxId) : s.portStays (t.markMalformed k) := h.writeEntry _ _

/-! ### The six answers -/

theorem State.portStays.takeGrant (k : CtxId) (f : Frame) : s.portStays (t.takeGrant k f) := by
  have compared : s.portStays (t.grantCompared k f) := State.portStays.ite (h.restart k) (State.portStays.ite h (h.markMalformed k))
  unfold State.takeGrant
  split
  · exact h.markMalformed k
  · exact State.portStays.ite (h.restart k) (State.portStays.ite (h.markMalformed k)
      (State.portStays.ite ((h.detach k).updCtx k _) (h.markMalformed k)))
  · exact compared
  · exact compared
  all_goals exact h

theorem State.portStays.takeHold (k : CtxId) (f : Frame) : s.portStays (t.takeHold k f) := by
  have left := h.detach k
  have suspended : s.portStays (t.holdRead k f) :=
    State.portStays.ite ((left.writeEntry _ _).freeContext k) (left.endReadAs DirEntry.countHold k .heldOut .heldOut)
  unfold State.takeHold
  split
  · have counted := left.writeEntry t.ctxs[k].target DirEntry.countHold
    exact State.portStays.ite (State.portStays.ite (counted.updCtx k _) (counted.endErase k _)) (h.markMalformed k)
  · exact State.portStays.ite suspended (h.markMalformed k)
  · exact State.portStays.ite suspended (h.markMalformed k)
  all_goals exact h

theorem State.portStays.takeHalf (g : Frame → Place → Place) (k : CtxId) (f : Frame) : s.portStays (State.takeHalf g k f t) := by
  have stored : s.portStays (t.storeHalf k f (g f)) := State.portStays.ite h (State.portStays.ite (h.updCtx k _) (h.markMalformed k))
  unfold State.takeHalf
  split
  · exact h.markMalformed k
  · exact stored
  · exact stored
  all_goals exact h

theorem State.portStays.takeClose (k : CtxId) (f : Frame) : s.portStays (t.takeClose k f) := by
  have closed : s.portStays (t.closeSegment k f) :=
    State.portStays.ite (h.restart k) (State.portStays.ite (h.markMalformed k) (State.portStays.ite h (h.completionTest k)))
  unfold State.takeClose
  split
  · exact h.markMalformed k
  · exact closed
  · exact closed
  all_goals exact h

theorem State.portStays.takeErased (k : CtxId) (f : Frame) : s.portStays (t.takeErased k f) := by
  unfold State.takeErased
  split
  · exact h.markMalformed k
  · exact ((h.detach k).updCtx k _).offer _

theorem State.portStays.meet (kind : RxKind) (k : CtxId) (f : Frame) : s.portStays (State.meet kind kind.taker k f t) := by
  have taken : s.portStays (kind.taker k f t) := by
    cases kind with
    | grant => exact h.takeGrant k f
    | hold => exact h.takeHold k f
    | entryA => exact h.takeHalf setHalfA k f
    | entryB => exact h.takeHalf setHalfB k f
    | close => exact h.takeClose k f
    | erased => exact h.takeErased k f
  exact State.portStays.ite (State.portStays.ite (h.endContext k _) h) (State.portStays.ite (h.markMalformed k) taken)

end

/-! ### The end of the event -/

theorem State.portStays_settled (s0 s : State) : s.portStays (State.stamp s0 s.settle) := by
  have after : Rest {} s (State.stamp s0 s.settle) := (Rest.settle s).stamp s0
  exact ⟨by simp, by simp, fun c => after.links c id⟩

theorem State.portStays.trans {s t u : State} (h : s.portStays t) (k : t.portStays u) : s.portStays u :=
  ⟨k.clock.trans h.clock, k.portLast.trans h.portLast, fun c => (k.links c).trans (h.links c)⟩

/-- Whatever the frame does, it has left its FIFO, and the port has served its channel (R85, R125). -/
theorem State.answered_port (kind : RxKind) (ch : ChanId) (f : Frame) (rest : List Frame) (k : CtxId) (s : State) :
    let t := State.stamp s (s.answered kind ch f rest k).settle
    t.chans[ch].link = { s.chans[ch].link with fifo := rest } ∧ t.portLast = ch ∧ t.clock = s.clock := by
  have stays : (s.passed ch rest).portStays (State.stamp s (s.answered kind ch f rest k).settle) :=
    ((State.portStays_refl _).meet kind k f).trans (State.portStays_settled s _)
  exact ⟨(stays.links ch).trans (State.passed_link ch rest s), stays.portLast, stays.clock⟩

end Sys2Proof.Machine
end


section
/-! SUPPORT. The waiting line: who leaves it, and what follow-up work leaves of it, of a context that serves and of the unit it serves
(R94, R95, R99, R138, R139). -/

namespace Sys2Proof.Machine

/-! ### Leaving the line -/

/-- What the grant to the head of a line keeps, service of the line keeps (R138). -/
theorem State.serveLine_steps (P : State → Prop) (ch : ChanId)
    (step : ∀ k rest (t : State), t.chans[ch].pacer.line = k :: rest → P t →
      P ((t.updPacer ch fun p => { p with credits := p.credits - t.ctxs[k].creditNeed, line := rest }).placeGranted k))
    (n : Nat) (s : State) (h : P s) : P (s.serveLine ch n) := by
  induction n generalizing s with
  | zero => exact h
  | succ n ih =>
    unfold State.serveLine
    split
    · exact h
    · split
      · exact h
      · next k rest line =>
        split
        · exact ih _ (step k rest s line h)
        · exact h

/-- Service of a line lets nobody into one. -/
theorem State.serve_line {j : CtxId} {ch c : ChanId} {s : State} (h : j ∈ (s.serve ch).chans[c].pacer.line) :
    j ∈ s.chans[c].pacer.line := by
  refine State.serveLine_steps (fun t => j ∈ t.chans[c].pacer.line → j ∈ s.chans[c].pacer.line) ch (fun k rest t line x left => x ?_)
    _ s id h
  rw [State.placeGranted_pacer, State.updPacer, State.updChan_get] at left
  split at left
  · next same => rw [same, line]; exact List.mem_cons_of_mem _ left
  · exact left

/-- Service of one channel's line leaves the pacers of the others. -/
theorem State.serve_pacer_other {ch c : ChanId} (other : c ≠ ch) (s : State) : (s.serve ch).chans[c].pacer = s.chans[c].pacer := by
  refine State.serveLine_steps (fun t => t.chans[c].pacer = s.chans[c].pacer) ch (fun k rest t _ x => ?_) _ s rfl
  rw [State.placeGranted_pacer, State.updPacer, State.updChan_get, if_neg other]
  exact x

theorem State.withdrawFrame_get (k : CtxId) (s : State) : (s.withdrawFrame k).ctxs[k] = { s.ctxs[k] with frameQueued := none } := by
  unfold State.withdrawFrame
  rw [State.updCtx_get, if_pos rfl]
  rfl

theorem State.withdrawFrame_pacer (k : CtxId) (s : State) (c : ChanId) :
    (s.withdrawFrame k).chans[c].pacer = s.chans[c].pacer := by
  have chans : (s.withdrawFrame k).chans = (s.updChan s.ctxs[k].channel (Channel.withdraw k)).chans := rfl
  rw [chans, State.updChan_get]
  split
  · next same => rw [same, Channel.withdraw_pacer]
  · rfl

/-- Who quits its line waits for no credits. -/
theorem State.quitLine_get (k : CtxId) (s : State) : (s.quitLine k).ctxs[k] =
    { s.ctxs[k] with creditNeed := if k ∈ s.chans[s.ctxs[k].channel].pacer.line then 0 else s.ctxs[k].creditNeed } := by
  unfold State.quitLine
  dsimp only
  split
  · next waits =>
    rw [if_pos (List.contains_iff_mem.1 waits)]
    show (s.updCtx k fun c => { c with creditNeed := 0 }).ctxs[k] = _
    rw [State.updCtx_get, if_pos rfl]
  · next waits => rw [if_neg fun x => waits (List.contains_iff_mem.2 x)]

/-- Who stands in its line once at most stands in it no more. -/
theorem State.quitLine_unlined {k : CtxId} {s : State} (once : s.chans[s.ctxs[k].channel].pacer.line.count k ≤ 1) :
    k ∉ (s.quitLine k).chans[s.ctxs[k].channel].pacer.line := by
  unfold State.quitLine
  dsimp only
  split
  · rw [State.updPacer, State.updChan_get, if_pos rfl]
    refine List.count_eq_zero.1 ?_
    show (s.chans[s.ctxs[k].channel].pacer.line.erase k).count k = 0
    rw [List.count_erase_self]
    omega
  · next waits => exact fun x => waits (List.contains_iff_mem.2 x)

/-- Service of a line leaves a context that does not stand in it. -/
theorem State.serve_get {k : CtxId} {ch : ChanId} {s : State} (h : k ∉ s.chans[ch].pacer.line) : (s.serve ch).ctxs[k] = s.ctxs[k] := by
  refine State.serveLine_induct_line (fun t => t.ctxs[k] = s.ctxs[k]) ch s.chans[ch].pacer.line (fun _ _ x => x) (fun j hj t x => ?_) _ s
    (fun _ => id) rfl
  have other : k ≠ j := fun same => h (by rw [same]; exact hj)
  rw [State.placeGranted_get, if_neg other]
  exact x

theorem State.leaveLine_get {k : CtxId} {s : State} (once : s.chans[s.ctxs[k].channel].pacer.line.count k ≤ 1) :
    (s.leaveLine k).ctxs[k] = (s.quitLine k).ctxs[k] ∧ k ∉ (s.leaveLine k).chans[s.ctxs[k].channel].pacer.line := by
  have out := State.quitLine_unlined once
  unfold State.leaveLine
  dsimp only
  split
  · exact ⟨State.serve_get out, fun x => out (State.serve_line x)⟩
  · exact ⟨rfl, out⟩

section
variable {k : CtxId} {s : State} (once : s.chans[s.ctxs[k].channel].pacer.line.count k ≤ 1)
include once

/-- A context that has left line, frame and window, as far as it stood in its line once at most (R99, R122, R139). -/
theorem State.detach_get : (s.detach k).ctxs[k] =
    { s.ctxs[k] with frameQueued := none, window := none
                     creditNeed := if k ∈ s.chans[s.ctxs[k].channel].pacer.line then 0 else s.ctxs[k].creditNeed } := by
  have channel : (s.withdrawFrame k).ctxs[k].channel = s.ctxs[k].channel := by rw [State.withdrawFrame_get]
  have left := State.leaveLine_get (k := k) (s := s.withdrawFrame k) (by simpa only [channel, State.withdrawFrame_pacer] using once)
  unfold State.detach
  rw [State.updCtx_get, if_pos rfl, left.1, State.quitLine_get]
  simp only [State.withdrawFrame_get, State.withdrawFrame_pacer]
  rfl

theorem State.detach_unlined : k ∉ (s.detach k).chans[s.ctxs[k].channel].pacer.line := by
  have channel : (s.withdrawFrame k).ctxs[k].channel = s.ctxs[k].channel := by rw [State.withdrawFrame_get]
  have left := State.leaveLine_get (k := k) (s := s.withdrawFrame k) (by simpa only [channel, State.withdrawFrame_pacer] using once)
  simp only [channel] at left
  exact left.2

end

/-! ### What follow-up work leaves of a context that serves -/

/-- Another's joining moves a context into no line and out of none (R138). -/
theorem State.joinLine_other {j k : CtxId} (other : j ≠ k) (need : Nat) (s : State) (c : ChanId) :
    k ∈ (s.joinLine j need).chans[c].pacer.line ↔ k ∈ s.chans[c].pacer.line := by
  obtain ⟨J, hJ⟩ : ∃ J, J = (s.updCtx j fun c => { c with creditNeed := need }).updPacer s.ctxs[j].channel
    fun p => { p with line := p.line ++ [j] } := ⟨_, rfl⟩
  have joined : ∀ c : ChanId, k ∈ J.chans[c].pacer.line ↔ k ∈ s.chans[c].pacer.line := fun c => by
    rw [hJ, State.updPacer, State.updChan_get]
    split
    · next same =>
      rw [same]
      simp [other.symm]
    · rfl
  unfold State.joinLine
  dsimp only
  rw [← hJ]
  split
  · next empty =>
    by_cases same : c = s.ctxs[j].channel
    · have none : k ∉ s.chans[c].pacer.line := by
        rw [same, List.isEmpty_iff.1 empty]
        exact List.not_mem_nil
      exact ⟨fun x => (joined c).1 (State.serve_line x), fun x => absurd x none⟩
    · rw [← joined c]
      rw [State.serve_pacer_other same]
  · exact joined c

/-- An assignment leaves every other context as it is. -/
theorem State.assign_other {j k : CtxId} (other : k ≠ j) (u : UnitId) (p : Purpose) (s : State) :
    (s.assign j u p).ctxs[k] = s.ctxs[k] := by
  unfold State.assign
  refine State.joinLine_induct (fun t => t.ctxs[k] = s.ctxs[k]) j _ _ (fun _ _ x => x) (fun t x => ?_) ?_
  · rwa [State.placeGranted_get, if_neg other]
  · rw [State.updCtx_get, if_neg other, State.updCtx_get, if_neg other, State.writeEntry_ctx]

theorem State.assign_line {j k : CtxId} (other : j ≠ k) (u : UnitId) (p : Purpose) (s : State) (c : ChanId) :
    k ∈ (s.assign j u p).chans[c].pacer.line ↔ k ∈ s.chans[c].pacer.line := by
  unfold State.assign
  rw [State.joinLine_other other, State.updCtx_chans, (State.writeEntry_frame u _ s).2.2.2.2.2.2.2.2.2.1]

/-- A sweep that starts wakes channels at most: no pacer changes (R127). -/
theorem State.sweepTest_pacer (s : State) (c : ChanId) : s.sweepTest.chans[c].pacer = s.chans[c].pacer := by
  have woken : ∀ ch (t : State), (t.wakeChannel ch).chans[c].pacer = t.chans[c].pacer := fun ch t => by
    unfold State.wakeChannel
    split
    · rw [State.updChan_get]
      split
      · next same =>
        rw [same, Channel.wake, Channel.enqueue]
        split <;> rfl
      · rfl
    · rfl
  have started : ∀ origin mask budget (t : State), t.chans = s.chans →
      (t.startSweep origin mask budget).chans[c].pacer = s.chans[c].pacer := fun origin mask budget t same => by
    unfold State.startSweep
    dsimp only
    generalize hX : State.updSweep _ t.needEdition = X
    have begun : X.chans = s.chans := by
      rw [← hX]
      simpa using same
    have marked : (forEach allChans State.wakeChannel (forEach allUnits (State.markUnit mask) X)).chans[c].pacer = s.chans[c].pacer := by
      rw [forEach_keeps (fun x : State => x.chans[c].pacer) _ woken, forEach_keeps State.chans _ (by simp), begun]
    split
    · simpa using marked
    · exact marked
  unfold State.sweepTest State.finishSweep
  dsimp only
  split
  · split
    · exact started _ _ _ _ (by simp)
    · simp
  · rfl

/-- What follow-up work does to contexts that are FREE, it does to the state as its sweep's tests leave it. -/
theorem State.settle_induct_busy {k : CtxId} (P : State → Prop) {s : State} (busy : s.ctxs[k].state ≠ .free)
    (h : P s.sweepTest.sweepTest.closeTest)
    (step : ∀ j u p (t : State), j ≠ k → t.ctxs[k] = s.ctxs[k] → t.nextUnit = some (u, p) → P t → P (t.assign j u p)) : P s.settle := by
  have all : s.settle.ctxs[k] = s.ctxs[k] ∧ P s.settle := by
    refine State.allocate_induct (fun t => t.ctxs[k] = s.ctxs[k] ∧ P t) (fun j u p t free next ⟨same, x⟩ => ?_) 8 _ ⟨by simp, h⟩
    have other : j ≠ k := fun e => busy (by rw [← same, ← e]; exact free)
    exact ⟨(State.assign_other other.symm u p t).trans same, step j u p t other same next x⟩
  exact all.2

section
variable {k : CtxId} {s : State} (busy : s.ctxs[k].state ≠ .free)
include busy

/-- A context that serves a unit joins no line and leaves none by follow-up work. -/
theorem State.settle_line (c : ChanId) : k ∈ s.settle.chans[c].pacer.line ↔ k ∈ s.chans[c].pacer.line := by
  refine State.settle_induct_busy (fun t => k ∈ t.chans[c].pacer.line ↔ k ∈ s.chans[c].pacer.line) busy ?_
    fun j u p t other _ _ x => (State.assign_line other u p t c).trans x
  rw [(State.closeTest_frame _).2.2.2.2.2.2.1, State.sweepTest_pacer, State.sweepTest_pacer]

end

/-! ### What follow-up work leaves of a unit that a context serves -/

/-- An entry but for its revision, its sweep mark and its last outcome. -/
def DirEntry.request (e : DirEntry) : DirEntry := { e with revision := 0, mark := .none, lastOutcome := .none }

theorem DirEntry.request_congr {α : Sort _} {e f : DirEntry} (h : e.request = f.request) (g : DirEntry → α)
    (hg : ∀ x, g (DirEntry.request x) = g x) : g e = g f := by
  rw [← hg e, h, hg]

/-- The allocator takes no unit that a context serves (R95). -/
theorem State.nextUnit_unserved {s : State} {v : UnitId} {p : Purpose} (h : s.nextUnit = some (v, p)) {k : CtxId}
    (busy : s.ctxs[k].state ≠ .free) : v ≠ s.ctxs[k].target := by
  have unserved : ∀ {w : UnitId} {q : Purpose}, s.eligible w q = true → w ≠ s.ctxs[k].target := fun {w q} eligible same => by
    have every : ∀ k : CtxId, k ∈ allCtxs := by decide
    unfold State.eligible at eligible
    simp only [Bool.and_eq_true, Option.isNone_iff_eq_none] at eligible
    have none := List.find?_eq_none.1 eligible.1.1.1.2 k (every k)
    rw [Bool.and_eq_true, bne_iff_ne, beq_iff_eq] at none
    exact none ⟨busy, same.symm⟩
  unfold State.nextUnit at h
  split at h
  · next w hw =>
    cases h
    have eligible := List.find?_some hw
    exact unserved eligible
  · obtain ⟨w, hw, e⟩ := Option.map_eq_some_iff.1 h
    cases e
    have eligible := List.find?_some hw
    exact unserved eligible

/-- Follow-up work writes of the entry of a unit that a context serves the mark and the last outcome at most (R95, R147). -/
theorem State.settle_request {k : CtxId} {s : State} (busy : s.ctxs[k].state ≠ .free) {u : UnitId} (hU : s.ctxs[k].target = u) :
    s.settle.dir[u].request = s.dir[u].request := by
  refine State.settle_induct_busy (fun t => t.dir[u].request = s.dir[u].request) busy ?_ fun j v p t _ same next x => ?_
  · have marks : ∀ (mask : BitVec 4) (t : State), t.dir[u].request = s.dir[u].request →
        (t.markUnit mask u).dir[u].request = s.dir[u].request := fun mask t x => by
      rw [State.markUnit_dir]
      exact (State.writeEntry_congr u _ t DirEntry.request fun _ _ => rfl).trans x
    rw [(State.closeTest_frame _).2.1]
    exact State.sweepTest_entry (P := fun e => e.request = s.dir[u].request) marks
      (State.sweepTest_entry (P := fun e => e.request = s.dir[u].request) marks rfl)
  · have other : v ≠ u := by
      rw [← hU, ← same]
      exact State.nextUnit_unserved next (by rw [same]; exact busy)
    rw [State.assign_dir, State.writeEntry_get, if_neg fun e => other e.1.symm]
    exact x

end Sys2Proof.Machine
end


section
/-! SUPPORT. Answers that end no request: the sweep controller and the self history stand, and nothing is left undone (R85 to R87). -/

namespace Sys2Proof.Machine

/-- What stands still is so in every event that leaves the sweep, the marks and what keeps an edition open. -/
theorem State.still_settled {s m : State} (sweep : m.sweep = s.sweep) (marks : ∀ v : UnitId, m.dir[v].mark = s.dir[v].mark)
    (keeps : m.nothingKeeps → s.nothingKeeps) : s.still (State.stamp s m.settle) := fun settled _ =>
  State.stamp_settle_sweep sweep (State.settled_congr (by rw [sweep]) (by rw [sweep]) marks keeps settled)

/-- From `s` to `m` no request has ended and no work of an edition has begun. -/
structure State.calmly (s m : State) : Prop where
  self : m.self = s.self
  sweep : m.sweep = s.sweep
  marks : ∀ v : UnitId, m.dir[v].mark = s.dir[v].mark
  orders : m.orders = s.orders
  pool : m.pool = s.pool

theorem State.calmly_of_dir {s m : State} (self : m.self = s.self) (sweep : m.sweep = s.sweep) (dir : m.dir = s.dir)
    (orders : m.orders = s.orders) (pool : m.pool = s.pool) : s.calmly m := ⟨self, sweep, fun _ => by rw [dir], orders, pool⟩

theorem State.calmly.writeEntry {s m : State} (h : s.calmly m) (u : UnitId) {f : DirEntry → DirEntry}
    (hf : (f m.dir[u]).mark = m.dir[u].mark) : s.calmly (m.writeEntry u f) :=
  ⟨by simpa using h.self, by simpa using h.sweep, fun v => (State.writeEntry_mark hf v).trans (h.marks v), by simpa using h.orders,
    by simpa using h.pool⟩

theorem State.calmly.trans {s m n : State} (h : s.calmly m) (k : m.calmly n) : s.calmly n :=
  ⟨k.self.trans h.self, k.sweep.trans h.sweep, fun v => (k.marks v).trans (h.marks v), k.orders.trans h.orders, k.pool.trans h.pool⟩

theorem State.calmly.settled {s m : State} (h : s.calmly m) :
    (State.stamp s m.settle).self = s.self ∧ s.still (State.stamp s m.settle) := by
  refine ⟨?_, State.still_settled h.sweep h.marks (State.nothingKeeps_congr (congrArg OrderEngine.taken h.orders) h.pool)⟩
  rw [State.stamp_self, (State.settle_frame m).2.1, h.self]

section
variable (ch : ChanId) (rest : List Frame) {k : CtxId} {s : State} (busy : s.ctxs[k].state ≠ .free)
include busy

/-- A frame discarded does nothing (R81, R87). -/
theorem State.discarded : let t := State.stamp s (s.passed ch rest).settle
    t.ctxs[k].same s.ctxs[k] ∧ t.self = s.self ∧ s.still t ∧ Rest { chans := (· = ch) } s t := by
  have calm : s.calmly (s.passed ch rest) := State.calmly_of_dir rfl rfl rfl rfl rfl
  have after : Rest {} (s.passed ch rest) (State.stamp s (s.passed ch rest).settle) := (Rest.settle _).stamp s
  exact ⟨after.ctxs k id busy, calm.settled.1, calm.settled.2, (Rest.passed ch rest s).settled⟩

/-- A frame that cannot be used marks its unit MALFORMED and does nothing else (R86). -/
theorem State.malformed_marked : let t := State.stamp s ((s.passed ch rest).markMalformed k).settle
    t.dir[s.ctxs[k].target].malformed = true ∧ t.ctxs[k].same s.ctxs[k] ∧ t.self = s.self ∧ s.still t ∧
      Rest { chans := (· = ch) } s t := by
  obtain ⟨m, hM⟩ : ∃ m, m = (s.passed ch rest).markMalformed k := ⟨_, rfl⟩
  rw [← hM]
  have ctxs : m.ctxs = s.ctxs := by rw [hM]; simp
  have calm : s.calmly m := by
    have passed : s.calmly (s.passed ch rest) := State.calmly_of_dir rfl rfl rfl rfl rfl
    rw [hM]
    exact passed.writeEntry _ rfl
  have own : Rest { chans := (· = ch) } s m := by
    rw [hM]
    exact (Rest.passed ch rest s).trans (Rest.writeEntry_record _ _ _ rfl).widen
  have after : Rest {} m (State.stamp s m.settle) := (Rest.settle m).stamp s
  have marked : m.dir[s.ctxs[k].target].malformed = true := by
    rw [hM]
    exact State.writeEntry_congr _ _ (s.passed ch rest) (·.malformed) fun _ _ => rfl
  have same := after.ctxs k id (by rw [ctxs]; exact busy)
  rw [ctxs] at same
  refine ⟨?_, same, calm.settled.1, calm.settled.2, own.settled⟩
  have request := State.settle_request (k := k) (s := m) (u := s.ctxs[k].target) (by rw [ctxs]; exact busy) (by rw [ctxs])
  rw [State.stamp_dir]
  exact (DirEntry.request_congr request (·.malformed) fun _ => rfl).trans marked

end

/-- Settles O42: the frame is passed and counted, and nothing that follows depends on it. -/
theorem strayFrameIsCounted : Obligations.StrayFrameIsCounted := by
  unfold Obligations.StrayFrameIsCounted
  intro kind ch f rest s h stray
  obtain ⟨m, hM⟩ : ∃ m, m = (s.passed ch rest).updChan ch Channel.countStray := ⟨_, rfl⟩
  have calm : s.calmly m := by rw [hM]; exact State.calmly_of_dir rfl rfl rfl rfl rfl
  have stays := State.portStays_settled s m
  have counted : m.chans[ch].link = { s.chans[ch].link with fifo := rest, strayTally := min 65535 (s.chans[ch].strayTally + 1) } := by
    rw [hM, State.updChan_get, if_pos rfl, State.passed_chan, if_pos rfl]
    rfl
  have own : Rest { chans := (· = ch) } s m := by
    rw [hM]
    exact (Rest.passed ch rest s).trans (Rest.updChan ch _ _)
  rw [exec_stray h stray, ← hM]
  exact ⟨_, rfl, by rw [stays.portLast, hM]; rfl, by rw [stays.clock, hM]; rfl, calm.settled.1, (stays.links ch).trans counted,
    calm.settled.2, own.settled⟩

/-- Settles O43: outside STOPPING a short frame marks the unit, and no assignment takes a unit that a context serves. -/
theorem shortFrameIsMalformed : Obligations.ShortFrameIsMalformed := by
  unfold Obligations.ShortFrameIsMalformed
  intro kind ch f rest k s h reaches going short _
  have short : f.dlc.toNat < kind.leastDlc := by
    cases kind
    all_goals exact short
  obtain ⟨link, portLast, clock⟩ := State.answered_port kind ch f rest k s
  rw [State.answered_short going short] at link portLast clock
  obtain ⟨malformed, same, self, still, own⟩ := State.malformed_marked ch rest (State.reaches_busy reaches)
  rw [exec_reaches h reaches, State.answered_short going short]
  exact ⟨_, rfl, malformed, same, link, portLast, clock, self, still, own⟩

end Sys2Proof.Machine
end


section
/-! SUPPORT. Entry halves (R77, R86, R89). -/

namespace Sys2Proof.Machine

theorem State.takeHalf_reads {k : CtxId} {f : Frame} {s : State} (g : Frame → Place → Place) (reads : s.ctxs[k].purpose = .read)
    (state : s.ctxs[k].state = .receiving ∨ s.ctxs[k].state = .mending) : State.takeHalf g k f s = s.storeHalf k f (g f) := by
  unfold State.takeHalf
  rcases state with state | state <;> rw [reads, state]

/-- A half stored in its place, with the gap window restarted if a window runs (R77, R89, R104). -/
theorem Context.stored_eq (c : Context) (now : Clock) (i : Fin 64) (g : Place → Place) :
    (c.setPlace i.val g).restartGap now =
      { c with staging := c.staging.set i (g c.staging[i])
               window := if c.window = none then none else some (.gap, now + BitVec.ofNat 32 c.useGap) } := by
  have placed : c.setPlace i.val g = { c with staging := c.staging.set i (g c.staging[i]) } := dif_pos i.isLt
  rw [placed, Context.restartGap]
  cases window : c.window with
  | none => simp
  | some w => rfl

section
variable {ch : ChanId} {f : Frame} {rest : List Frame} {k : CtxId} {s : State}

/-- What a half does, by its index (R77). -/
theorem State.storeHalf_cases (k : CtxId) (f : Frame) (g : Place → Place) (s : State) :
    f.entryIndex < s.ctxs[k].segFirst ∧ s.storeHalf k f g = s ∨
    (s.ctxs[k].segFirst ≤ f.entryIndex ∧ f.entryIndex < s.ctxs[k].segFirst + s.ctxs[k].granted) ∧
      s.storeHalf k f g = s.updCtx k (fun c => (c.setPlace f.entryIndex g).restartGap s.clock) ∨
    s.ctxs[k].segFirst + s.ctxs[k].granted ≤ f.entryIndex ∧ s.storeHalf k f g = s.markMalformed k := by
  unfold State.storeHalf
  dsimp only
  split
  · next below => exact .inl ⟨below, rfl⟩
  · next above =>
    split
    · next within => exact .inr (.inl ⟨⟨Nat.le_of_not_lt above, within⟩, rfl⟩)
    · next beyond => exact .inr (.inr ⟨Nat.le_of_not_lt beyond, rfl⟩)

/-- A half in the granted range changes its context alone. -/
theorem State.half_stored (ch : ChanId) (rest : List Frame) (F : Context → Context) (busy : (F s.ctxs[k]).state ≠ .free) :
    let t := State.stamp s ((s.passed ch rest).updCtx k F).settle
    t.ctxs[k].same (F s.ctxs[k]) ∧ t.self = s.self ∧ s.still t ∧ Rest { ctxs := (· = k), chans := (· = ch) } s t := by
  obtain ⟨m, hM⟩ : ∃ m, m = (s.passed ch rest).updCtx k F := ⟨_, rfl⟩
  rw [← hM]
  have calm : s.calmly m := by rw [hM]; exact State.calmly_of_dir rfl rfl rfl rfl rfl
  have ctx : m.ctxs[k] = F s.ctxs[k] := by rw [hM, State.updCtx_get, if_pos rfl, State.passed_ctxs]
  have after : Rest {} m (State.stamp s m.settle) := (Rest.settle m).stamp s
  have same := after.ctxs k id (by rw [ctx]; exact busy)
  rw [ctx] at same
  have own : Rest { ctxs := (· = k), chans := (· = ch) } s m := by
    rw [hM]
    exact Rest.trans ((Rest.passed ch rest s).mono (fun _ x => x.elim) (fun _ x => x) (fun _ x => x) fun _ x => x)
      ((Rest.updCtx k F _).mono (fun _ x => x) (fun _ x => x.elim) (fun _ x => x) fun _ x => x)
  exact ⟨same, calm.settled.1, calm.settled.2, own.settled⟩

/-- An entry half of either kind, with what it writes into its place given. -/
theorem exec_half {kind : RxKind} {g : Frame → Place → Place} (taker : kind.taker = State.takeHalf g) (h : s.nextFrame kind ch f rest)
    (reaches : s.reaches ch f k) (state : s.ctxs[k].state = .receiving ∨ s.ctxs[k].state = .mending)
    (reads : s.ctxs[k].purpose = .read) (long : kind.leastDlc ≤ f.dlc.toNat) :
    let c := s.ctxs[k]
    let index := (f.byte 0).toNat
    ∃ t, exec kind.command s = .next t ∧
      (∀ i : Fin 64, i.val = index → c.segFirst ≤ index → index < c.segFirst + c.granted →
        t.ctxs[k].same
          { c with
            staging := c.staging.set i (g f c.staging[i])
            window := if c.window = none then none else some (.gap, s.clock + BitVec.ofNat 32 c.useGap) } ∧
        Rest { ctxs := (· = k), chans := (· = ch) } s t) ∧
      (index < c.segFirst → t.ctxs[k].same c ∧ Rest { chans := (· = ch) } s t) ∧
      (c.segFirst + c.granted ≤ index →
        t.dir[c.target].malformed = true ∧ t.ctxs[k].same c ∧ Rest { chans := (· = ch) } s t) ∧
      t.chans[ch].link = { s.chans[ch].link with fifo := rest } ∧ t.portLast = ch ∧ t.clock = s.clock ∧
      t.self = s.self ∧ s.still t := by
  have busy := State.reaches_busy reaches
  have going : s.ctxs[k].state ≠ .stopping := by rcases state with x | x <;> rw [x] <;> decide
  have answer : s.answered kind ch f rest k = (s.passed ch rest).storeHalf k f (g f) := by
    rw [State.answered_taken going long, taker]
    exact State.takeHalf_reads g reads state
  obtain ⟨link, portLast, clock⟩ := State.answered_port kind ch f rest k s
  rw [answer] at link portLast clock
  refine ⟨_, (exec_reaches h reaches).trans (by rw [answer]), ?_⟩
  rcases State.storeHalf_cases k f (g f) (s.passed ch rest) with ⟨below, stored⟩ | ⟨⟨low, high⟩, stored⟩ | ⟨beyond, stored⟩ <;>
    rw [stored] at link portLast clock ⊢
  · obtain ⟨same, self, still, own⟩ := State.discarded ch rest busy
    exact ⟨fun i _ low _ => absurd below (Nat.not_lt.2 low), fun _ => ⟨same, own⟩,
      fun beyond => absurd (Nat.lt_of_lt_of_le below (Nat.le_add_right _ _)) (Nat.not_lt.2 beyond), link, portLast, clock, self, still⟩
  · have kept : ((s.ctxs[k].setPlace f.entryIndex (g f)).restartGap s.clock).state = s.ctxs[k].state := by
      unfold Context.restartGap Context.setPlace
      split <;> split <;> rfl
    obtain ⟨same, self, still, own⟩ := State.half_stored ch rest (fun c => (c.setPlace f.entryIndex (g f)).restartGap s.clock)
      (by rw [kept]; exact busy)
    refine ⟨fun i index _ _ => ⟨?_, own⟩, fun below => absurd below (Nat.not_lt.2 low), fun beyond => absurd high (Nat.not_lt.2 beyond),
      link, portLast, clock, self, still⟩
    rw [← Context.stored_eq, index]
    exact same
  · obtain ⟨malformed, same, self, still, own⟩ := State.malformed_marked ch rest busy
    exact ⟨fun i _ _ high => absurd high (Nat.not_lt.2 beyond),
      fun below => absurd (Nat.lt_of_lt_of_le below (Nat.le_add_right _ _)) (Nat.not_lt.2 beyond), fun _ => ⟨malformed, same, own⟩,
      link, portLast, clock, self, still⟩

end

/-- Settles O47: both kinds of half are one case, but for what they write into the place. -/
theorem entryHalfTakesItsPlace : Obligations.EntryHalfTakesItsPlace := by
  unfold Obligations.EntryHalfTakesItsPlace
  intro kind ch f rest k s half h reaches state reads long
  rcases half with rfl | rfl
  · exact exec_half (g := setHalfA) rfl h reaches state reads long
  · exact exec_half (g := setHalfB) rfl h reaches state reads long

end Sys2Proof.Machine
end


section
/-! SUPPORT. An answer that takes its context out of its line, and what is offered to the pool with it (R10, R75, R82, R100, R110,
R139). -/

namespace Sys2Proof.Machine

/-! ### A context that leaves its line -/

/-- From `s` to `b` the part stands as it did but for frames and the window of context `k`. -/
structure State.standsFor (s b : State) (k : CtxId) : Prop where
  ctx : { b.ctxs[k] with window := none } = { s.ctxs[k] with window := none }
  pacer : b.chans[s.ctxs[k].channel].pacer = s.chans[s.ctxs[k].channel].pacer
  dir : b.dir = s.dir
  sweep : b.sweep = s.sweep
  orders : b.orders = s.orders
  self : b.self = s.self
  pool : b.pool = s.pool
  timing : b.timing = s.timing
  rest : Rest { ctxs := (· = k), chans := (· = s.ctxs[k].channel) } s b

section
variable {s b : State} {k : CtxId} (h : s.standsFor b k)
include h

theorem State.standsFor.congr {α : Sort _} (g : Context → α) (hg : ∀ c : Context, g { c with window := none } = g c) :
    g b.ctxs[k] = g s.ctxs[k] := by
  rw [← hg b.ctxs[k], h.ctx, hg]

theorem State.standsFor.leaving : b.leaving k = s.leaving k := by
  have channel := h.congr (·.channel) fun _ => rfl
  funext j
  simp only [State.leaving, channel, h.pacer]

/-- The context detached from its line, its frame and its window (R99, R139). -/
theorem State.standsFor.detach_get (once : s.chans[s.ctxs[k].channel].pacer.line.count k ≤ 1) : (b.detach k).ctxs[k] =
    { s.ctxs[k] with frameQueued := none, window := none
                     creditNeed := if k ∈ s.chans[s.ctxs[k].channel].pacer.line then 0 else s.ctxs[k].creditNeed } := by
  have channel := h.congr (·.channel) fun _ => rfl
  have line : b.chans[b.ctxs[k].channel].pacer.line = s.chans[s.ctxs[k].channel].pacer.line := by simp only [channel, h.pacer]
  rw [State.detach_get (by rw [line]; exact once), line]
  exact h.congr (fun c => { c with frameQueued := none, window := none
                                   creditNeed := if k ∈ s.chans[s.ctxs[k].channel].pacer.line then 0 else c.creditNeed }) fun _ => rfl

theorem State.standsFor.calmly : s.calmly b := State.calmly_of_dir h.self h.sweep h.dir h.orders h.pool

theorem State.standsFor.detach_dir : (b.detach k).dir = s.dir := by
  rw [← h.dir]
  simp

theorem State.standsFor.detach_calmly : s.calmly (b.detach k) :=
  h.calmly.trans (State.calmly_of_dir (by simp) (by simp) (by simp) (by simp) (by simp))

theorem State.standsFor.detach_unlined (once : s.chans[s.ctxs[k].channel].pacer.line.count k ≤ 1) :
    k ∉ (b.detach k).chans[s.ctxs[k].channel].pacer.line := by
  have channel := h.congr (·.channel) fun _ => rfl
  have out := State.detach_unlined (k := k) (s := b) (by simpa only [channel, h.pacer] using once)
  simpa only [channel] using out

theorem Rest.standsFor_detach : Rest { ctxs := s.leaving k, chans := (· = s.ctxs[k].channel) } s (b.detach k) := by
  have left := Rest.detach k b
  rw [h.leaving, h.congr (·.channel) fun _ => rfl] at left
  exact Rest.trans (h.rest.mono (fun _ x => .inl x) (fun _ x => x) (fun _ x => x) fun _ x => x) left

end

theorem State.standsFor_passed {ch : ChanId} {k : CtxId} {s : State} (channel : s.ctxs[k].channel = ch) (rest : List Frame) :
    s.standsFor (s.passed ch rest) k where
  ctx := rfl
  pacer := State.passed_pacer ch rest s _
  dir := rfl
  sweep := rfl
  orders := rfl
  self := rfl
  pool := rfl
  timing := rfl
  rest := (Rest.passed ch rest s).mono (fun _ x => x.elim) (fun _ x => x.trans channel.symm) (fun _ x => x) fun _ x => x

/-- Who serves and stands in no line at the end of an answer's work stands in none at its end. -/
theorem State.settled_unlined {s m : State} {k : CtxId} {c : ChanId} (busy : m.ctxs[k].state ≠ .free) (out : k ∉ m.chans[c].pacer.line) :
    k ∉ (State.stamp s m.settle).chans[c].pacer.line := by
  rw [State.stamp_chan_congr s m.settle c (·.pacer) fun _ _ => rfl, State.settle_line busy]
  exact out

/-- A context that serves on outside its line, in work that ends no request (R75, R111, R139). -/
theorem State.calmly.reworks {s m : State} {d : Touch} {k : CtxId} {ch : ChanId} {g : Context → Context} {c : Context}
    (calm : s.calmly m) (own : Rest d s m) (mine : d.ctxs k) (ctx : g m.ctxs[k] = c) (busy : c.state ≠ .free)
    (out : k ∉ m.chans[ch].pacer.line) : let t := State.stamp s (m.updCtx k g).settle
    t.ctxs[k].same c ∧ k ∉ t.chans[ch].pacer.line ∧ t.dir[c.target].request = m.dir[c.target].request ∧ t.self = s.self ∧
      s.still t ∧ Rest d s t := by
  obtain ⟨n, hN⟩ : ∃ n, n = m.updCtx k g := ⟨_, rfl⟩
  have begun : n.ctxs[k] = c := by rw [hN, State.updCtx_get, if_pos rfl, ctx]
  have serves : n.ctxs[k].state ≠ .free := by
    rw [begun]
    exact busy
  have worked : s.calmly n := hN ▸ calm.trans (State.calmly_of_dir rfl rfl rfl rfl rfl)
  have touched : Rest d s n := by
    rw [hN]
    exact own.trans ((Rest.updCtx k g m).mono (fun j x => by rw [show j = k from x]; exact mine) (fun _ x => x.elim) (fun _ x => x.elim)
      fun _ x => x.elim)
  have same := ((Rest.settle n).stamp s).ctxs k id serves
  rw [begun] at same
  have target : n.ctxs[k].target = c.target := by rw [begun]
  rw [← hN]
  refine ⟨same, State.settled_unlined serves (by rw [hN]; exact out), ?_, worked.settled.1, worked.settled.2, touched.settled⟩
  rw [State.stamp_dir, State.settle_request serves target, hN]
  rfl

/-! ### Offers -/

/-- What was offered still waits for the pool manager. -/
theorem Rest.offered {d : Touch} {m t : State} {r : PoolRequest} (after : Rest d m t) (h : r ∈ m.pool.queue ++ m.pool.waiting) :
    r ∈ t.pool.queue ++ t.pool.waiting :=
  (List.mem_append.1 h).elim (fun x => List.mem_append_left _ (after.queue.subset x))
    fun x => List.mem_append_right _ (after.waiting.subset x)

/-- While an edition is open an offer leaves the sweep controller (R12, R156). -/
theorem State.offer_sweep {r : PoolRequest} {s : State} (h : r.opensEdition = true → s.sweep.openEdition ≠ 0) :
    (s.offer r).sweep = s.sweep := by
  unfold State.offer
  split
  · rfl
  · split
    · next opens => rw [State.needEdition_of_open (h opens)]; rfl
    · rfl

/-- A request of an edition offered with one open leaves nothing undone (R12, R157). -/
theorem State.still_offered {s m : State} {r : PoolRequest} (calm : s.calmly m) (running : s.orders.resetting = none)
    (ofEdition : r.ofEdition = true) (opened : r.opensEdition = true → s.sweep.openEdition ≠ 0) :
    s.still (State.stamp s (m.offer r).settle) := by
  refine State.still_settled ((State.offer_sweep (by rw [calm.sweep]; exact opened)).trans calm.sweep) (fun v => ?_) fun keeps => ?_
  · rw [(State.offer_frame r m).2.2.2.2.1]
    exact calm.marks v
  · have pool := State.offer_pool (s := m) (by rw [calm.orders]; exact running) r
    obtain ⟨e, n, release⟩ := keeps.2.1 r (by rw [pool]; exact Pool.mem_admitOrHold r _)
    rw [release] at ofEdition
    cases ofEdition

theorem State.offer_self (r : PoolRequest) (s m : State) (calm : s.calmly m) :
    (State.stamp s (m.offer r).settle).self = s.self := by
  rw [State.stamp_self, (State.settle_frame _).2.1, (State.offer_frame r m).2.2.2.2.2.1, calm.self]

end Sys2Proof.Machine
end

section
/-! SUPPORT. GRANT and ERASED accepted (R75, R82, R83, R100, R101, R110). -/

namespace Sys2Proof.Machine

/-! ### GRANT -/

theorem Context.agrees_iff {f : Frame} {c : Context} :
    c.agrees f = true ↔ f.byte 1 ++ f.byte 0 = c.generation ∧ f.byte 2 = c.epoch := by
  unfold Context.agrees
  rw [Bool.and_eq_true, beq_iff_eq, beq_iff_eq, eq_comm (a := c.generation), eq_comm (a := c.epoch)]
  rfl

theorem State.takeGrant_opening {k : CtxId} {f : Frame} {s : State} (reads : s.ctxs[k].purpose = .read)
    (state : s.ctxs[k].state = .opening) : s.takeGrant k f = s.grantOpening k f := by
  unfold State.takeGrant
  rw [reads, state]

/-- The first GRANT of an opening, or a later one that agrees with it, is accepted if its count is right (R75). -/
theorem State.grantOpening_accepted {k : CtxId} {f : Frame} {s : State} (count : s.ctxs[k].countOk f = true)
    (agree : s.ctxs[k].laterSegment = true → s.ctxs[k].agrees f = true ∧ Frame.clampedTotal f = s.ctxs[k].total) :
    s.grantOpening k f = (s.detach k).updCtx k (Context.grant s.clock f) := by
  unfold State.grantOpening
  dsimp only
  rw [if_neg, if_neg, if_pos count]
  · intro other
    rw [Bool.and_eq_true, bne_iff_ne] at other
    exact other.2 (agree other.1).2
  · intro other
    rw [Bool.and_eq_true, Bool.not_eq_true'] at other
    rw [(agree other.1).1] at other
    cases other.2

/-- What an accepted GRANT records (R75, R83, R101). -/
theorem Context.grant_eq (now : Clock) {f : Frame} {c : Context}
    (agree : c.segFirst ≠ 0 → c.generation = f.byte 1 ++ f.byte 0 ∧ c.epoch = f.byte 2 ∧ c.total = min 64 (f.byte 3).toNat) :
    c.grant now f =
      { c with
        state := .receiving, granted := (f.byte 4).toNat, mendRound := 0
        window := some (.gap, now + BitVec.ofNat 32 c.useGap), generation := f.byte 1 ++ f.byte 0, epoch := f.byte 2
        total := min 64 (f.byte 3).toNat
        truncMark := if c.segFirst = 0 then decide (64 < (f.byte 3).toNat) else c.truncMark } := by
  by_cases first : c.segFirst = 0
  · have segment : c.laterSegment = false := by rw [Context.laterSegment, first]; rfl
    unfold Context.grant
    rw [segment, if_pos first]
    rfl
  · obtain ⟨generation, epoch, total⟩ := agree first
    have segment : c.laterSegment = true := decide_eq_true first
    unfold Context.grant
    rw [segment, if_neg first, ← generation, ← epoch, ← total]
    rfl

theorem Context.countOk_of {f : Frame} {c : Context} (agree : c.segFirst ≠ 0 → c.total = min 64 (f.byte 3).toNat)
    (asked : (1 ≤ (f.byte 4).toNat ∧ (f.byte 4).toNat ≤ c.countAsked ∧ c.segFirst + (f.byte 4).toNat ≤ min 64 (f.byte 3).toNat) ∨
      ((f.byte 4).toNat = 0 ∧ min 64 (f.byte 3).toNat ≤ c.segFirst)) : c.countOk f = true := by
  have total : c.totalFor f = min 64 (f.byte 3).toNat := by
    unfold Context.totalFor Context.laterSegment
    split
    · next later => exact agree (of_decide_eq_true later)
    · rfl
  unfold Context.countOk
  rw [total]
  simp only [Bool.or_eq_true, Bool.and_eq_true, decide_eq_true_iff, and_assoc]
  exact asked

/-- Settles O44: the context leaves its line, frame and window, and takes what the GRANT says. -/
theorem grantOpensTheSegment : Obligations.GrantOpensTheSegment := by
  unfold Obligations.GrantOpensTheSegment
  intro ch f rest k s h reaches state reads long once c gen epoch total count asked asked' agree
  obtain ⟨_, _, _, rfl, _⟩ := id reaches
  have going : s.ctxs[k].state ≠ .stopping := by rw [state]; decide
  have stands := State.standsFor_passed (s := s) (k := k) rfl rest
  have answer : s.answered .grant s.ctxs[k].channel f rest k =
      ((s.passed s.ctxs[k].channel rest).detach k).updCtx k (Context.grant s.clock f) := by
    rw [State.answered_taken (kind := .grant) going long]
    refine (State.takeGrant_opening (s := s.passed _ rest) (f := f) reads state).trans (State.grantOpening_accepted ?_ fun later => ?_)
    · exact Context.countOk_of (fun later => (agree later).2.2) asked'
    · obtain ⟨generation, epoch, total⟩ := agree (of_decide_eq_true later)
      exact ⟨Context.agrees_iff.2 ⟨generation.symm, epoch.symm⟩, total.symm⟩
  have granted := (congrArg (Context.grant s.clock f) (stands.detach_get once)).trans (Context.grant_eq s.clock agree)
  obtain ⟨same, out, _, self, still, own⟩ := stands.detach_calmly.reworks (Rest.standsFor_detach stands) (.inl rfl) granted nofun
    (stands.detach_unlined once)
  obtain ⟨link, portLast, clock⟩ := State.answered_port .grant s.ctxs[k].channel f rest k s
  have hexec : exec .grant s = .next (State.stamp s (s.answered .grant s.ctxs[k].channel f rest k).settle) := exec_reaches h reaches
  rw [answer] at link portLast clock hexec
  exact ⟨_, hexec, same, out, link, portLast, clock, self, still, own⟩

/-! ### ERASED -/

theorem Context.eraseSlot_single {c : Context} {n : SlotId} (h : c.attached = BitVec.ofNat 16 (2 ^ n.val)) : c.eraseSlot = n := by
  have single : ∀ n : SlotId, slotsOf (BitVec.ofNat 16 (2 ^ n.val)) = [n] := by decide
  unfold Context.eraseSlot
  rw [h, single]

/-- Settles O50: the context leaves its line, frame and window, and the ERASE-CLEAR is offered for its one order. -/
theorem erasedOffersTheClear : Obligations.ErasedOffersTheClear := by
  unfold Obligations.ErasedOffersTheClear
  intro ch f rest k n s h reaches state erases long once attached c gen epoch
  obtain ⟨_, running, _, rfl, _⟩ := id reaches
  have going : s.ctxs[k].state ≠ .stopping := by rw [state]; decide
  have stands := State.standsFor_passed (s := s) (k := k) rfl rest
  obtain ⟨b, hB⟩ : ∃ b, b = ((s.passed s.ctxs[k].channel rest).detach k).updCtx k fun c =>
    { c with state := .committing, generation := gen, epoch := epoch } := ⟨_, rfl⟩
  have ctx : b.ctxs[k] =
      { s.ctxs[k] with
        state := .committing, generation := gen, epoch := epoch, window := none, frameQueued := none
        creditNeed := if k ∈ s.chans[s.ctxs[k].channel].pacer.line then 0 else s.ctxs[k].creditNeed } := by
    rw [hB, State.updCtx_get, if_pos rfl, stands.detach_get once]
  have slot : b.ctxs[k].eraseSlot = n := Context.eraseSlot_single (by rw [ctx]; exact attached)
  have target : b.ctxs[k].target = s.ctxs[k].target := by rw [ctx]
  obtain ⟨m, hM⟩ : ∃ m, m = b.offer (.eraseClear s.ctxs[k].target gen epoch n (some k)) := ⟨_, rfl⟩
  have answer : s.answered .erased s.ctxs[k].channel f rest k = m := by
    have taken : (s.passed s.ctxs[k].channel rest).takeErased k f = (s.passed s.ctxs[k].channel rest).acceptErased k f := by
      unfold State.takeErased
      rw [State.passed_ctxs, erases]
    have accepted : (s.passed s.ctxs[k].channel rest).acceptErased k f =
        b.offer (.eraseClear b.ctxs[k].target gen epoch b.ctxs[k].eraseSlot (some k)) := by
      rw [hB]
      rfl
    rw [State.answered_taken (kind := .erased) going long, hM, ← slot, ← target]
    exact taken.trans accepted
  have calm : s.calmly b := by
    rw [hB]
    exact stands.detach_calmly.trans (State.calmly_of_dir rfl rfl rfl rfl rfl)
  have ctxs : m.ctxs = b.ctxs := by rw [hM]; simp
  have busy : m.ctxs[k].state ≠ .free := by rw [ctxs, ctx]; nofun
  have own : Rest { ctxs := s.leaving k, chans := (· = s.ctxs[k].channel) } s m := by
    rw [hM, hB]
    refine Rest.trans ?_ (Rest.offer _ _).widen
    exact (Rest.standsFor_detach stands).trans
      ((Rest.updCtx k _ _).mono (fun _ x => .inl x) (fun _ x => x.elim) (fun _ x => x) fun _ x => x)
  have after : Rest {} m (State.stamp s m.settle) := (Rest.settle m).stamp s
  have same := after.ctxs k id busy
  rw [ctxs, ctx] at same
  have offered : .eraseClear s.ctxs[k].target gen epoch n (some k) ∈ m.pool.queue ++ m.pool.waiting := by
    rw [hM, State.offer_pool (by rw [calm.orders]; exact running)]
    exact Pool.mem_admitOrHold _ _
  have out : k ∉ m.chans[s.ctxs[k].channel].pacer.line := by
    have chans : m.chans = ((s.passed s.ctxs[k].channel rest).detach k).chans := by rw [hM, hB]; simp
    rw [chans]
    exact stands.detach_unlined once
  obtain ⟨link, portLast, clock⟩ := State.answered_port .erased s.ctxs[k].channel f rest k s
  have hexec : exec .erased s = .next (State.stamp s (s.answered .erased s.ctxs[k].channel f rest k).settle) := exec_reaches h reaches
  rw [answer] at link portLast clock hexec
  refine ⟨_, hexec, same, State.settled_unlined busy out, after.offered offered, link, portLast, clock, ?_, fun opened => ?_, own.settled⟩
  · rw [hM]
    exact State.offer_self _ s b calm
  · rw [hM]
    exact State.still_offered calm running rfl fun _ => opened

end Sys2Proof.Machine
end


section
/-! SUPPORT. A context that asks for credits: it waits in its line, or is granted at once and sends (R99, R137, R138). -/

namespace Sys2Proof.Machine

/-- A line of one is served by granting its head, or not at all (R138). -/
theorem State.serve_single {ch : ChanId} {k : CtxId} {s : State} (line : s.chans[ch].pacer.line = [k]) :
    s.serve ch = s ∨ s.serve ch =
      (s.updPacer ch fun p => { p with credits := p.credits - s.ctxs[k].creditNeed, line := [] }).placeGranted k := by
  unfold State.serve
  rw [line]
  simp only [List.length_singleton, State.serveLine]
  split
  · exact .inl rfl
  · rw [line]
    dsimp only
    split
    · exact .inr rfl
    · exact .inl rfl

theorem State.placeGranted_asks {k : CtxId} {kind : TxKind} {waits : CtxState} {s : State} (state : s.ctxs[k].state = waits)
    (granted : s.ctxs[k].grantedKind = kind) (need : Nat) : (s.placeGranted k).asksFor k need kind waits := by
  have sends := State.sendFrame_sends k s.ctxs[k].grantedKind
    (s.updCtx k fun c => { c with creditNeed := 0, state := if c.state = .paced then .opening else c.state })
  have ctx := (State.placeGranted_get k s k).trans (if_pos rfl)
  refine .inr ⟨?_, ?_, granted ▸ sends⟩
  · rw [ctx, ← state]
  · rw [ctx]

/-- Who joins its line asks for the need, to send the kind that its state and purpose call for (R99, R138). -/
theorem State.joinLine_asks {k : CtxId} {need : Nat} {kind : TxKind} {waits : CtxState} {s : State} (state : s.ctxs[k].state = waits)
    (granted : s.ctxs[k].grantedKind = kind) : (s.joinLine k need).asksFor k need kind waits := by
  obtain ⟨J, hJ⟩ : ∃ J, J = (s.updCtx k fun c => { c with creditNeed := need }).updPacer s.ctxs[k].channel
    fun p => { p with line := p.line ++ [k] } := ⟨_, rfl⟩
  have ctx : J.ctxs[k] = { s.ctxs[k] with creditNeed := need } := by
    rw [hJ]
    exact (State.updCtx_get k (fun c => { c with creditNeed := need }) s k).trans (if_pos rfl)
  have line : J.chans[s.ctxs[k].channel].pacer.line = s.chans[s.ctxs[k].channel].pacer.line ++ [k] := by
    rw [hJ, State.updPacer, State.updChan_get, if_pos rfl, State.updCtx_chans]
  have waiting : J.asksFor k need kind waits := by
    refine .inl ⟨by rw [ctx]; exact state, by rw [ctx], ?_⟩
    simp only [ctx, line]
    exact List.mem_append_right _ List.mem_cons_self
  have joined : s.joinLine k need = if s.chans[s.ctxs[k].channel].pacer.line.isEmpty then J.serve s.ctxs[k].channel else J := by
    rw [hJ]
    rfl
  rw [joined]
  split
  · next empty =>
    rw [List.isEmpty_iff.1 empty] at line
    rcases State.serve_single line with served | served
    · rwa [served]
    · rw [served]
      have same : ∀ f : Pacer → Pacer, (J.updPacer s.ctxs[k].channel f).ctxs[k] = { s.ctxs[k] with creditNeed := need } := fun _ => ctx
      exact State.placeGranted_asks (by rw [same]; exact state) (by rw [same]; exact granted) need
  · exact waiting

/-- What a context that joins its line does keeps its plan (R99). -/
theorem State.joinLine_plan (k : CtxId) (need : Nat) (s : State) : (s.joinLine k need).ctxs[k].plan = s.ctxs[k].plan := by
  refine State.joinLine_induct (fun t => t.ctxs[k].plan = s.ctxs[k].plan) k need s (fun _ _ x => x) (fun t x => ?_) ?_
  · rw [State.placeGranted_get, if_pos rfl]
    exact x
  · rw [State.updCtx_get, if_pos rfl]
    rfl

/-- A context that asks goes on asking through all that follows in the event. -/
theorem State.asksFor_settled {m : State} {k : CtxId} {need : Nat} {kind : TxKind} {waits : CtxState} (s0 : State)
    (busy : m.ctxs[k].state ≠ .free) (h : m.asksFor k need kind waits) : (State.stamp s0 m.settle).asksFor k need kind waits := by
  have after : Rest {} m (State.stamp s0 m.settle) := (Rest.settle m).stamp s0
  have same := after.ctxs k id busy
  have field : ∀ {α : Type} (g : Context → α), (∀ (x : Context) r, g { x with revision := r } = g x) →
      g (State.stamp s0 m.settle).ctxs[k] = g m.ctxs[k] := fun g hg => Context.same_congr same g hg
  have state := field (·.state) fun _ _ => rfl
  have need := field (·.creditNeed) fun _ _ => rfl
  have channel := field (·.channel) fun _ _ => rfl
  have stays : m.framesStay (State.stamp s0 m.settle) := fun c e he => by
    rw [State.stamp_chan_congr s0 m.settle c Channel.frames fun _ _ => rfl]
    exact State.framesStay_settle m c e he
  rcases h with ⟨waiting, needs, line⟩ | ⟨granted, needs, sends⟩
  · refine .inl ⟨state.trans waiting, need.trans needs, ?_⟩
    simp only [channel]
    rw [State.stamp_chan_congr s0 m.settle m.ctxs[k].channel (·.pacer) fun _ _ => rfl, State.settle_line busy]
    exact line
  · exact .inr ⟨state.trans granted, need.trans needs,
      State.sends_after sends same (congrArg (·.address) (after.dir _ id)) (congrArg (·.settings) (after.links _ id)) stays⟩

theorem State.asksFor_state {m : State} {k : CtxId} {need : Nat} {kind : TxKind} {waits : CtxState} (h : m.asksFor k need kind waits) :
    m.ctxs[k].state = waits ∨ m.ctxs[k].state = (if waits = .paced then .opening else waits) :=
  h.imp And.left And.left

/-- A context that joins its line in work that ends no request asks for its need with its plan as it was given (R99, R138). -/
theorem State.calmly.joins {s m : State} {d : Touch} {k : CtxId} {F : Context → Context} {c : Context} {need : Nat} {kind : TxKind}
    {waits : CtxState} (calm : s.calmly m) (own : Rest d s m) (mine : d.ctxs k) (ctx : F m.ctxs[k] = c) (state : c.state = waits)
    (granted : c.grantedKind = kind) (busy : waits ≠ .free) :
    let t := State.stamp s ((m.updCtx k F).joinLine k need).settle
    t.asksFor k need kind waits ∧ t.ctxs[k].plan = c.plan ∧ t.dir[c.target].request = m.dir[c.target].request ∧ t.self = s.self ∧
      s.still t ∧ Rest d s t := by
  obtain ⟨n, hN⟩ : ∃ n, n = (m.updCtx k F).joinLine k need := ⟨_, rfl⟩
  have begun : (m.updCtx k F).ctxs[k] = c := by rw [State.updCtx_get, if_pos rfl, ctx]
  have asks : n.asksFor k need kind waits := hN ▸ State.joinLine_asks (by rw [begun]; exact state) (by rw [begun]; exact granted)
  have plan : n.ctxs[k].plan = c.plan := by rw [hN, State.joinLine_plan, begun]
  have serves : n.ctxs[k].state ≠ .free := by
    rcases State.asksFor_state asks with x | x
    · rw [x]
      exact busy
    · rw [x]
      split
      · nofun
      · exact busy
  have dir : n.dir = m.dir := by
    rw [hN]
    simp
  have joined : s.calmly n := by
    rw [hN]
    exact calm.trans (State.calmly_of_dir (by simp) (by simp) (by simp) (by simp) (by simp))
  have touched : Rest d s n := by
    rw [hN]
    have mono : ∀ {a b : State}, Rest { ctxs := (· = k) } a b → Rest d a b := fun r =>
      r.mono (fun j x => by rw [show j = k from x]; exact mine) (fun _ x => x.elim) (fun _ x => x.elim) fun _ x => x.elim
    exact (own.trans (mono (Rest.updCtx k F m))).trans (mono (Rest.joinLine k need _))
  have target : n.ctxs[k].target = c.target := congrArg (·.target) plan
  rw [← hN]
  refine ⟨State.asksFor_settled s serves asks, ?_, ?_, joined.settled.1, joined.settled.2, touched.settled⟩
  · exact (Context.same_congr (((Rest.settle n).stamp s).ctxs k id serves) Context.plan fun _ _ => rfl).trans plan
  · rw [State.stamp_dir, State.settle_request serves target, dir]

end Sys2Proof.Machine
end


section
/-! SUPPORT. The end of a request with its context: the unit's entry, the log, the sweep's count, the release and the orders (R55 to
R58, R61, R63, R64, R92, R94, R113, R148, R149). -/

namespace Sys2Proof.Machine

/-! ### What the log holds -/

/-- The log is full, or has an entry of the identity (R64). -/
def State.logHolds (s : State) (code : SelfCode) (mode : Byte) : Prop :=
  64 ≤ s.self.entries.length ∨ ∃ e ∈ s.self.entries, e.code = code ∧ e.mode = mode

theorem SelfEntry.counted_ident (code : SelfCode) (mode : Byte) (odo : Triple) (active : Bool) (e : SelfEntry) :
    (e.counted code mode odo active).code = e.code ∧ (e.counted code mode odo active).mode = e.mode := by
  unfold SelfEntry.counted
  split
  · exact ⟨rfl, rfl⟩
  · exact ⟨rfl, rfl⟩

theorem State.logHolds_logSelf (code : SelfCode) (mode : Byte) (active : Bool) (s : State) :
    (s.logSelf code mode active).logHolds code mode := by
  rcases State.logSelf_cases code mode active s with ⟨entries, _, present⟩ | ⟨entries, _⟩ | ⟨same, full, _⟩
  · obtain ⟨e, he⟩ := Option.isSome_iff_exists.1 present
    obtain ⟨hc, hm⟩ := SelfEntry.hasIdent_iff.1 (List.find?_some he)
    obtain ⟨hc', hm'⟩ := e.counted_ident code mode s.odometer active
    refine .inr ⟨e.counted code mode s.odometer active, ?_, hc'.trans hc, hm'.trans hm⟩
    rw [entries]
    exact List.mem_map_of_mem (List.mem_of_find?_eq_some he)
  · refine .inr ⟨s.firstEntry code mode active, ?_, rfl, rfl⟩
    rw [entries]
    exact List.mem_append_right _ List.mem_cons_self
  · rw [same]
    exact .inl full

/-- A further occurrence, of whatever identity, takes nothing from the log (R64). -/
theorem State.logHolds.logSelf {s : State} {code : SelfCode} {mode : Byte} (h : s.logHolds code mode) (c : SelfCode) (m : Byte)
    (active : Bool) : (s.logSelf c m active).logHolds code mode := by
  rcases State.logSelf_cases c m active s with ⟨entries, _⟩ | ⟨entries, _⟩ | ⟨same, _⟩
  · refine h.imp (fun full => by rw [entries, List.length_map]; exact full) fun ⟨e, he, hc, hm⟩ => ?_
    obtain ⟨hc', hm'⟩ := e.counted_ident c m s.odometer active
    refine ⟨e.counted c m s.odometer active, ?_, hc'.trans hc, hm'.trans hm⟩
    rw [entries]
    exact List.mem_map_of_mem he
  · refine h.imp (fun full => ?_) fun ⟨e, he, ident⟩ => ⟨e, ?_, ident⟩
    · rw [entries, List.length_append]
      exact Nat.le_add_right_of_le full
    · rw [entries]
      exact List.mem_append_left _ he
  · rw [same]
    exact h

/-- A read that ends UNIT_FAULTY is logged (R57, R63). -/
theorem State.endRequestWith_logHolds (g : DirEntry → DirEntry) (u : UnitId) (s : State) :
    (s.endRequestWith g u .unitFaulty).logHolds .unitFaulty (BitVec.ofNat 8 u.val) := by
  have logged : ∀ t : State, (t.logSelfNat .unitFaulty u.val).logHolds .unitFaulty (BitVec.ofNat 8 u.val) :=
    fun t => State.logHolds_logSelf _ _ _ t
  unfold State.endRequestWith
  dsimp only
  rw [if_pos rfl]
  split
  · exact (logged _).logSelf _ _ _
  · exact logged _

/-! ### The request ended -/

/-- The unit's entry written for the end of the context's request, and for a read the log (R56 to R58). -/
def State.requestEnded (g : DirEntry → DirEntry) (k : CtxId) (out : UnitOutcome) (s : State) : State :=
  match s.ctxs[k].purpose with
  | .read => s.endRequestWith g s.ctxs[k].target out
  | .erase => s.writeEntry s.ctxs[k].target fun e => DirEntry.endErase out (g e)

/-- A request ends with its context: the entry, then the context and all that hangs on it (R113). -/
def State.endWith (g : DirEntry → DirEntry) (k : CtxId) (out : UnitOutcome) (s : State) : State :=
  (s.requestEnded g k out).endCommitting k out

theorem State.endReadWith_eq_endWith (g : DirEntry → DirEntry) {k : CtxId} (out : UnitOutcome) {s : State}
    (reads : s.ctxs[k].purpose = .read) : s.endReadWith g k out = s.endWith g k out := by
  have ctxs : (s.endRequestWith g s.ctxs[k].target out).ctxs = s.ctxs := by simp
  unfold State.endWith State.requestEnded State.endCommitting State.endReadWith State.endReadAs
  rw [reads]
  dsimp only
  rw [ctxs, reads]

theorem State.endErase_eq_endWith {k : CtxId} (out : UnitOutcome) {s : State} (erases : s.ctxs[k].purpose = .erase) :
    s.endErase k out = s.endWith id k out := by
  have ctxs : (s.writeEntry s.ctxs[k].target (DirEntry.endErase out)).ctxs = s.ctxs := by simp
  unfold State.endWith State.requestEnded State.endCommitting State.endErase
  rw [erases]
  dsimp only [id]
  rw [ctxs, erases]

theorem State.endContext_eq_endWith (k : CtxId) (out : UnitOutcome) (s : State) : s.endContext k out = s.endWith id k out := by
  unfold State.endContext
  split
  · next reads => exact State.endReadWith_eq_endWith id out reads
  · next erases => exact State.endErase_eq_endWith out erases

section
variable (g : DirEntry → DirEntry) (k : CtxId) (out : UnitOutcome) (s : State)

theorem State.requestEnded_frame : (s.requestEnded g k out).clock = s.clock ∧ (s.requestEnded g k out).mem = s.mem ∧
    (s.requestEnded g k out).orders = s.orders ∧ (s.requestEnded g k out).sweep = s.sweep ∧
    (s.requestEnded g k out).ctxs = s.ctxs ∧ (s.requestEnded g k out).chans = s.chans := by
  unfold State.requestEnded
  split <;> simp

theorem Rest.requestEnded : Rest { units := (· = s.ctxs[k].target) } s (s.requestEnded g k out) := by
  unfold State.requestEnded
  split
  · exact Rest.endRequestWith g _ out s
  · exact Rest.writeEntry _ _ s

/-- A request's end touches the context with its channel, its unit, and the slots of its orders (R113). -/
theorem Rest.endWith :
    Rest { ctxs := (· = k), chans := (· = s.ctxs[k].channel), units := (· = s.ctxs[k].target)
           slots := fun n => hasSlot s.ctxs[k].attached n = true } s (s.endWith g k out) := by
  obtain ⟨_, _, _, _, ctxs, _⟩ := State.requestEnded_frame g k out s
  have ended := Rest.endCommitting k out (s.requestEnded g k out)
  rw [ctxs] at ended
  exact Rest.trans ((Rest.requestEnded g k out s).mono (fun _ x => x.elim) (fun _ x => x.elim) (fun _ x => x) fun _ x => x.elim)
    (ended.mono (fun _ x => x) (fun _ x => x) (fun _ x => x.elim) fun _ x => mem_slotsOf.1 x)

/-- A request's end leaves its context FREE with its parity (R92). -/
theorem State.endWith_get : (s.endWith g k out).ctxs[k] = Context.freed s.ctxs[k].revision s.ctxs[k].parity := by
  obtain ⟨_, _, _, _, ctxs, _⟩ := State.requestEnded_frame g k out s
  have released : (s.endWith g k out).ctxs = ((s.requestEnded g k out).freeContext k).ctxs := by
    unfold State.endWith
    rw [State.endCommitting_eq]
    unfold State.toldSweep
    split <;> simp
  have freed : ((s.requestEnded g k out).freeContext k).ctxs[k] = Context.freed s.ctxs[k].revision s.ctxs[k].parity := by
    unfold State.freeContext
    rw [State.updCtx_get, if_pos rfl, State.updChan_ctxs, ctxs]
  simp only [released, freed]

end

/-! ### What the sweep record keeps -/

theorem State.offerDelist_autoDue (u : UnitId) (s : State) : (s.offerDelist u).sweep.autoDue = s.sweep.autoDue := by
  have skipped : (s.skipPending u).sweep.autoDue = s.sweep.autoDue := by
    unfold State.skipPending
    split <;> simp
  unfold State.offerDelist
  split
  · split
    · exact (State.offer_autoDue _ _).trans skipped
    · exact skipped
  · rfl

theorem State.endCommitting_autoDue (k : CtxId) (out : UnitOutcome) (s : State) :
    (s.endCommitting k out).sweep.autoDue = s.sweep.autoDue := by
  have told : (s.toldSweep k out).sweep.autoDue = s.sweep.autoDue := by
    unfold State.toldSweep State.sweepTake
    split
    · split <;> simp
    · simp
  rw [State.endCommitting_eq, State.offerDelist_autoDue, (State.completeUnitOrders_frame _ _ _).2.1, told]

/-- With no auto-due set follow-up work leaves the outcome that a unit's last request had (R54, R60). -/
theorem State.settle_outcome {s : State} (calm : s.sweep.autoDue = false) (v : UnitId) :
    s.settle.dir[v].lastOutcome = s.dir[v].lastOutcome := by
  have dir : ((if s.sweep.state ≠ .idle ∧ s.anyPending = false then s.finished else s).closeTest).dir = s.dir := by
    rw [(State.closeTest_frame _).2.1]
    split
    · exact s.finished_dir
    · rfl
  rw [State.settle_calm calm]
  refine State.allocate_entry (P := fun e => e.lastOutcome = s.dir[v].lastOutcome) (fun e p r _ _ x => ?_) 8 (by rw [dir])
  refine Eq.trans ?_ x
  cases p with
  | read =>
    unfold DirEntry.assigned
    dsimp only
    split
    · rfl
    · rfl
  | erase => rfl

end Sys2Proof.Machine
end


section
/-! SUPPORT. What a request that has ended with its context shows once all that follows is done (R54 to R58, R94, R113, R148, R149). -/

namespace Sys2Proof.Machine

/-! ### The unit's entry -/

/-- The state that a request's end leaves its unit in, unless the unit is being delisted (R57, R58). -/
def endNext (p : Purpose) (out : UnitOutcome) : UnitState :=
  match p with
  | .read =>
    match out with
    | .absent => .absent
    | .unitFaulty => .faulty
    | _ => .idle
  | .erase => .idle

/-- The entry that the end of a request writes (R56 to R58). -/
def DirEntry.requestEnded (g : DirEntry → DirEntry) (p : Purpose) (out : UnitOutcome) (ed : Edition) (e : DirEntry) : DirEntry :=
  match p with
  | .read => DirEntry.endRead out ed (g e)
  | .erase => DirEntry.endErase out (g e)

theorem State.requestEnded_dir (g : DirEntry → DirEntry) (k : CtxId) (out : UnitOutcome) (s : State) :
    (s.requestEnded g k out).dir =
      (s.writeEntry s.ctxs[k].target (DirEntry.requestEnded g s.ctxs[k].purpose out s.sweep.openEdition)).dir := by
  unfold State.requestEnded
  cases s.ctxs[k].purpose with
  | read => exact State.endRequestWith_dir g _ out s
  | erase => rfl

section
variable (g : DirEntry → DirEntry) (p : Purpose) (out : UnitOutcome) (ed : Edition) (e : DirEntry)

theorem DirEntry.requestEnded_state : (DirEntry.requestEnded g p out ed e).state = endState (endNext p out) (g e) := by
  cases p with
  | read => cases out <;> rfl
  | erase => rfl

theorem DirEntry.requestEnded_outcome : (DirEntry.requestEnded g p out ed e).lastOutcome = out := by
  cases p <;> rfl

theorem DirEntry.requestEnded_mark : (DirEntry.requestEnded g p out ed e).mark = (g e).mark := by
  cases p <;> rfl

/-- A read that has ended otherwise than by silence leaves its edition, an erase nothing (R55 to R58). -/
theorem DirEntry.requestEnded_record (answered : out ≠ .absent) : (DirEntry.requestEnded g p out ed e).record =
    if p = .read then { (g e).record with lastRead := ed } else (g e).record := by
  cases p with
  | read =>
    rw [if_pos rfl]
    unfold DirEntry.requestEnded DirEntry.endRead
    simp only [if_neg answered]
    rfl
  | erase =>
    rw [if_neg nofun]
    unfold DirEntry.requestEnded DirEntry.endErase
    simp only [if_neg answered]
    rfl

end

/-! ### The request ended, before what follows -/

section
variable {g : DirEntry → DirEntry} (hg : ∀ e, (g e).state = e.state ∧ (g e).mark = e.mark ∧ (g e).record = e.record)
  {k : CtxId} {u : UnitId} {out : UnitOutcome} {s : State} (target : s.ctxs[k].target = u)
include target

theorem State.requestEnded_get {α : Type} (h : DirEntry → α) (hh : ∀ (x : DirEntry) r, h { x with revision := r } = h x) :
    h (s.requestEnded g k out).dir[u] = h (DirEntry.requestEnded g s.ctxs[k].purpose out s.sweep.openEdition s.dir[u]) := by
  rw [State.requestEnded_dir, target]
  exact State.writeEntry_congr u _ s h hh

theorem State.endWith_entry {α : Type} (h : DirEntry → α) (hh : ∀ x : DirEntry, h x.body = h x) :
    h (s.endWith g k out).dir[u] = h (DirEntry.requestEnded g s.ctxs[k].purpose out s.sweep.openEdition s.dir[u]) :=
  (DirEntry.body_congr (State.endCommitting_body k out (s.requestEnded g k out) u) h hh).trans
    (State.requestEnded_get target h fun x _ => (hh _).symm.trans (hh x))

omit target in
theorem State.endWith_autoDue : (s.endWith g k out).sweep.autoDue = s.sweep.autoDue := by
  rw [State.endWith, State.endCommitting_autoDue, (State.requestEnded_frame g k out s).2.2.2.1]

include hg

/-- A sweep that waits for the unit takes the outcome of its read (R148, R149). -/
theorem State.endWith_pending (reads : s.ctxs[k].purpose = .read) (pending : s.dir[u].mark = .pending) :
    (s.endWith g k out).dir[u].mark = outcomeMark out ∧ (s.endWith g k out).sweep.tallies = s.sweep.tallies.count out := by
  obtain ⟨_, _, _, sweep, ctxs, _⟩ := State.requestEnded_frame g k out s
  have mark : (s.requestEnded g k out).dir[u].mark = .pending := by
    rw [State.requestEnded_get target (·.mark) fun _ _ => rfl, DirEntry.requestEnded_mark, (hg _).2.1, pending]
  obtain ⟨marks, course⟩ := State.endCommitting_pending (out := out) (s := s.requestEnded g k out) (k := k) (u := u)
    (by rw [ctxs]; exact reads) (by rw [ctxs]; exact target) mark
  refine ⟨(marks u).trans (if_pos rfl), (SweepCtl.course_congr course (·.tallies) fun _ => rfl).trans ?_⟩
  rw [sweep]

end

end Sys2Proof.Machine
end


section
/-! SUPPORT. A request that has ended with its context, after all that follows, and seen from before its last event (R54 to R58, R94,
R113, R148, R149). -/

namespace Sys2Proof.Machine

/-- The request of context `k` in `s` has ended with the outcome at the time given, its unit left in the state `next`; no silence has
ended it. -/
structure State.endsWith (s t : State) (k : CtxId) (u : UnitId) (next : UnitState) (out : UnitOutcome) (at_ : Clock) : Prop where
  record : t.dir[u].record =
    if s.ctxs[k].purpose = .read then { s.dir[u].record with lastRead := s.sweep.openEdition } else s.dir[u].record
  released : s.released t k
  unit : s.unitEnds t u next out
  counts : s.ctxs[k].purpose = .read → s.counts t u (outcomeMark out) (Tallies.count out)
  done : ∀ n x, s.awaits k n x → t.slotDone n (BitVec.ofNat 16 out.code) x.edition at_

section
variable {g : DirEntry → DirEntry} (hg : ∀ e, (g e).state = e.state ∧ (g e).mark = e.mark ∧ (g e).record = e.record)
  {k : CtxId} {u : UnitId} {out : UnitOutcome} {b : State}

/-- What follows at once leaves a context just released free, or assigns it anew (R94). -/
theorem State.endWith_released (s0 : State) : b.released (State.stamp s0 (b.endWith g k out).settle) k := by
  have freed : (b.endWith g k out).ctxs[k].releasedFrom b.ctxs[k].parity := .inl (by rw [State.endWith_get]; rfl)
  exact (State.stamp_ctx_congr s0 _ k (Context.releasedFrom b.ctxs[k].parity) fun _ _ => rfl).mpr (State.settle_releasedFrom freed)

/-- The orders that wait on a context complete with the outcome of its request (R113, R168). -/
theorem State.endWith_done (s0 : State) (hm : b.memOk) (n : SlotId) (x : Taken) (h : b.awaits k n x) :
    (State.stamp s0 (b.endWith g k out).settle).slotDone n (BitVec.ofNat 16 out.code) x.edition b.clock := by
  obtain ⟨attached, taken, order⟩ := h
  obtain ⟨clock, mem, orders, _, ctxs, _⟩ := State.requestEnded_frame g k out b
  obtain ⟨mem', orders', clock', _⟩ := State.toldSweep_frame k out (b.requestEnded g k out)
  have order : x.order = .readUnit b.ctxs[k].target ∨ x.order = .eraseUnit b.ctxs[k].target := by
    split at order
    · exact .inl order
    · exact .inr order
  have hm' : ((b.requestEnded g k out).toldSweep k out).memOk := by
    rw [State.memOk, mem', mem]
    exact hm
  have done := State.completeUnitOrders_done (out := out) (slotsOf_nodup b.ctxs[k].attached) hm' (mem_slotsOf.2 attached)
    (by rw [orders', orders]; exact taken) order
  rw [clock', clock] at done
  have ended : b.endWith g k out = ((((b.requestEnded g k out).toldSweep k out).completeUnitOrders out
      (slotsOf b.ctxs[k].attached)).offerDelist b.ctxs[k].target) := by
    rw [State.endWith, State.endCommitting_eq, ctxs]
  rw [ended]
  exact (Rest.trans (Rest.offerDelist b.ctxs[k].target _) ((Rest.settle _).stamp s0)).slotDone
    ((State.completesOnly_orders out _ _).mem hm') id done

variable (target : b.ctxs[k].target = u)
include hg target

/-- The unit is left as its request's end leaves it, or an assignment has taken it (R57, R58, R61, R94). -/
theorem State.endWith_unit (s0 : State) :
    b.unitEnds (State.stamp s0 (b.endWith g k out).settle) u (endNext b.ctxs[k].purpose out) out := by
  have state : (b.endWith g k out).dir[u].state = endState (endNext b.ctxs[k].purpose out) b.dir[u] := by
    rw [State.endWith_entry target (·.state) fun _ => rfl, DirEntry.requestEnded_state, endState, endState, (hg _).1]
  refine ⟨?_, fun calm => ?_⟩
  · rw [State.stamp_dir]
    split
    · next delisting => exact State.settle_delisting (state.trans (endState_delisting delisting))
    · next other =>
      obtain ⟨_, same | ⟨busy, _⟩⟩ := State.followed_settle (b.endWith g k out) u
      · exact .inl (same.1.trans (state.trans (if_neg other)))
      · exact .inr busy
  · rw [State.stamp_dir, State.settle_outcome (State.endWith_autoDue.trans calm), State.endWith_entry target (·.lastOutcome) fun _ => rfl,
      DirEntry.requestEnded_outcome]

/-- A request has ended with its context, its orders, its unit's entry and the sweep's count (R113). -/
theorem State.endWith_endsWith (s0 : State) (hm : b.memOk) (answered : out ≠ .absent) :
    b.endsWith (State.stamp s0 (b.endWith g k out).settle) k u (endNext b.ctxs[k].purpose out) out b.clock := by
  refine ⟨?_, State.endWith_released s0, State.endWith_unit hg target s0, fun reads pending calm => ?_, State.endWith_done s0 hm⟩
  · rw [State.stamp_dir, State.settle_record, State.endWith_entry target DirEntry.record fun _ => rfl,
      DirEntry.requestEnded_record (answered := answered), (hg _).2.2]
  · have calm' : (b.endWith g k out).sweep.autoDue = false := State.endWith_autoDue.trans calm
    obtain ⟨mark, tallies⟩ := State.endWith_pending hg target (out := out) reads pending
    refine ⟨?_, ?_⟩
    · rw [State.stamp_dir, State.settle_mark calm', mark]
    · rw [State.stamp_sweep_congr s0 _ (·.tallies) fun _ _ => rfl, State.settle_tallies calm', tallies]

end

/-! ### Seen from before the event's first steps -/

/-- Before the request of context `k` ends in `b`, nothing of it has changed since `s` but its wait and its counts. -/
structure State.leadsTo (s b : State) (k : CtxId) (u : UnitId) : Prop where
  bond : b.ctxs[k].bond = s.ctxs[k].bond
  state : b.dir[u].state = s.dir[u].state
  mark : b.dir[u].mark = s.dir[u].mark
  record : b.dir[u].record = s.dir[u].record
  sweep : b.sweep = s.sweep
  orders : b.orders = s.orders

theorem State.leadsTo.endsWith {s b t : State} {k : CtxId} {u : UnitId} {next : UnitState} {out : UnitOutcome} {at_ : Clock}
    (h : s.leadsTo b k u) (e : b.endsWith t k u next out at_) : s.endsWith t k u next out at_ := by
  have purpose : b.ctxs[k].purpose = s.ctxs[k].purpose := Context.bond_congr h.bond (·.purpose) fun _ => rfl
  have target : b.ctxs[k].target = s.ctxs[k].target := Context.bond_congr h.bond (·.target) fun _ => rfl
  have attached : b.ctxs[k].attached = s.ctxs[k].attached := Context.bond_congr h.bond (·.attached) fun _ => rfl
  have parity : b.ctxs[k].parity = s.ctxs[k].parity := Context.bond_congr h.bond (·.parity) fun _ => rfl
  refine ⟨?_, ?_, ?_, fun reads => ?_, fun n x waits => e.done n x ?_⟩
  · simpa only [purpose, h.record, h.sweep] using e.record
  · simpa only [State.released, parity] using e.released
  · simpa only [State.unitEnds, h.state, h.sweep] using e.unit
  · simpa only [State.counts, h.mark, h.sweep] using e.counts (purpose.trans reads)
  · simpa only [State.awaits, attached, h.orders, purpose, target] using waits

section
variable {s b : State} {k : CtxId} {u : UnitId} {out : UnitOutcome} {g : DirEntry → DirEntry} (h : s.leadsTo b k u)
  (target : s.ctxs[k].target = u)
include h target

/-- A request that ends in the event that began in `s` (R113). -/
theorem State.leadsTo.ended (hg : ∀ e, (g e).state = e.state ∧ (g e).mark = e.mark ∧ (g e).record = e.record) (s0 : State)
    (hm : b.memOk) (answered : out ≠ .absent) :
    s.endsWith (State.stamp s0 (b.endWith g k out).settle) k u (endNext s.ctxs[k].purpose out) out b.clock := by
  have purpose : b.ctxs[k].purpose = s.ctxs[k].purpose := Context.bond_congr h.bond (·.purpose) fun _ => rfl
  have ended := State.endWith_endsWith hg ((Context.bond_congr h.bond (·.target) fun _ => rfl).trans target) s0 hm answered
  rw [purpose] at ended
  exact h.endsWith ended

/-- Beside what it took to come to its end, a request's end touches its context, channel, unit and orders (R113). -/
theorem Rest.leadsTo_ended {C : CtxId → Prop} (own : Rest { ctxs := C, chans := (· = s.ctxs[k].channel) } s b) (hC : C k)
    (g : DirEntry → DirEntry) (out : UnitOutcome) :
    Rest { ctxs := C, chans := (· = s.ctxs[k].channel), units := (· = u), slots := fun n => hasSlot s.ctxs[k].attached n = true } s
      (b.endWith g k out) := by
  have ended := Rest.endWith g k out b
  have attached : b.ctxs[k].attached = s.ctxs[k].attached := Context.bond_congr h.bond (·.attached) fun _ => rfl
  have channel : b.ctxs[k].channel = s.ctxs[k].channel := Context.bond_congr h.bond (·.channel) fun _ => rfl
  rw [channel, attached, (Context.bond_congr h.bond (·.target) fun _ => rfl : b.ctxs[k].target = _).trans target] at ended
  exact Rest.trans (own.mono (fun _ x => x) (fun _ x => x) (fun _ x => x.elim) fun _ x => x.elim)
    (ended.mono (fun j x => by rw [show j = k from x]; exact hC) (fun _ x => x) (fun _ x => x) fun _ x => x)

end

end Sys2Proof.Machine
end


section
/-! SUPPORT. A context detached for a restart or a hold, with what is counted of it in its unit's entry (R54, R105, R107, R111). -/

namespace Sys2Proof.Machine

/-- The context detached, its request may end (R113). -/
theorem State.standsFor.detach_leadsTo {s b : State} {k : CtxId} (h : s.standsFor b k) (u : UnitId) : s.leadsTo (b.detach k) k u := by
  have dir := h.detach_dir
  refine ⟨?_, by rw [dir], by rw [dir], by rw [dir], by simp [h.sweep], by simp [h.orders]⟩
  exact (State.bonds_detach k b k).trans (h.congr Context.bond fun _ => rfl)

/-! ### The context detached and its unit's entry written -/

/-- The context detached, and its unit's entry written (R105, R107, R111). -/
def State.detachedWith (f : DirEntry → DirEntry) (k : CtxId) (s : State) : State := (s.detach k).writeEntry s.ctxs[k].target f

theorem State.detachedWith_frame (f : DirEntry → DirEntry) (k : CtxId) (s : State) : (s.detachedWith f k).mem = s.mem ∧
    (s.detachedWith f k).clock = s.clock ∧ (s.detachedWith f k).timing = s.timing ∧ (s.detachedWith f k).ctxs = (s.detach k).ctxs ∧
    (s.detachedWith f k).chans = (s.detach k).chans := by
  unfold State.detachedWith
  simp

section
variable {s b : State} {k : CtxId} (h : s.standsFor b k)
include h

theorem State.detachedWith_entry {u : UnitId} (target : s.ctxs[k].target = u) (f : DirEntry → DirEntry) {α : Sort _} (g : DirEntry → α)
    (hg : ∀ (x : DirEntry) r, g { x with revision := r } = g x) : g (b.detachedWith f k).dir[u] = g (f s.dir[u]) := by
  rw [State.detachedWith, h.congr (·.target) fun _ => rfl, target]
  refine (State.writeEntry_congr u f (b.detach k) g hg).trans ?_
  rw [h.detach_dir]

theorem Rest.detachedWith {f : DirEntry → DirEntry} (hf : ∀ e, (f e).record = e.record) :
    Rest { ctxs := s.leaving k, chans := (· = s.ctxs[k].channel) } s (b.detachedWith f k) :=
  (Rest.standsFor_detach h).trans (Rest.writeEntry_record _ _ _ (hf _)).widen

theorem State.detachedWith_calmly {f : DirEntry → DirEntry} (hf : ∀ e, (f e).mark = e.mark) : s.calmly (b.detachedWith f k) :=
  h.detach_calmly.writeEntry _ (hf _)

theorem State.detachedWith_bond (f : DirEntry → DirEntry) : (b.detachedWith f k).ctxs[k].bond = s.ctxs[k].bond := by
  rw [(State.detachedWith_frame f k b).2.2.2.1]
  exact (h.detach_leadsTo s.ctxs[k].target).bond

/-- A count written in the unit's entry is no part of what a request's end looks at (R54, R113). -/
theorem State.detachedWith_leadsTo {u : UnitId} (target : s.ctxs[k].target = u) {f : DirEntry → DirEntry}
    (hf : ∀ e, (f e).state = e.state ∧ (f e).mark = e.mark ∧ (f e).record = e.record) : s.leadsTo (b.detachedWith f k) k u := by
  obtain ⟨state, mark, record⟩ := hf s.dir[u]
  have calm := State.detachedWith_calmly h fun e => (hf e).2.1
  exact ⟨State.detachedWith_bond h f, (State.detachedWith_entry h target f (·.state) fun _ _ => rfl).trans state,
    (State.detachedWith_entry h target f (·.mark) fun _ _ => rfl).trans mark,
    (State.detachedWith_entry h target f DirEntry.record fun _ _ => rfl).trans record, calm.sweep, calm.orders⟩

end

end Sys2Proof.Machine
end


section
/-! SUPPORT. A torn read begins again, or ends UNIT_FAULTY at its restart limit (R55, R57, R75, R76, R78, R83, R98, R105, R113, R114). -/

namespace Sys2Proof.Machine

/-- Outside MENDING a read asks with an OPEN (R99). -/
theorem Context.grantedKind_opening {c : Context} (state : c.state ≠ .mending) (reads : c.purpose = .read) : c.grantedKind = .openFrame := by
  unfold Context.grantedKind
  rw [reads]
  split
  · next mending => exact absurd mending state
  · next erases _ => cases erases
  · rfl

/-- The restart counted in the unit's entry (R105). -/
def DirEntry.countRestart (e : DirEntry) : DirEntry := { e with restartCount := satSucc 7 e.restartCount }

theorem State.restart_eq {k : CtxId} {u : UnitId} {s : State} (hU : s.ctxs[k].target = u) : s.restart k =
    let x := s.detachedWith DirEntry.countRestart k
    if x.dir[u].restartCount < s.ctxs[k].useLimit then (x.updCtx k (Context.beginOpening x.timing false)).joinLine k 16
    else x.endRead k .unitFaulty := by
  subst hU
  rfl

section
variable {s b : State} {k : CtxId} (h : s.standsFor b k) (reads : s.ctxs[k].purpose = .read)
include h

/-- The restarts counted, capped at what the entry holds (R105). -/
theorem State.detachedWith_restartCount {u : UnitId} (target : s.ctxs[k].target = u) :
    (b.detachedWith DirEntry.countRestart k).dir[u].restartCount = min 7 (s.dir[u].restartCount + 1) :=
  State.detachedWith_entry h target DirEntry.countRestart (·.restartCount) fun _ _ => rfl

include reads

/-- Below the restart limit a new opening begins with the other parity and an empty staging (R98, R105). -/
theorem State.restart_reopens (once : s.chans[s.ctxs[k].channel].pacer.line.count k ≤ 1)
    (below : min 7 (s.dir[s.ctxs[k].target].restartCount + 1) < s.ctxs[k].useLimit) :
    let t := State.stamp s (b.restart k).settle
    t.dir[s.ctxs[k].target].restartCount = min 7 (s.dir[s.ctxs[k].target].restartCount + 1) ∧ t.asksFor k 16 .openFrame .paced ∧
      t.self = s.self ∧ s.still t ∧ t.ctxs[k].plan = (s.ctxs[k].beginOpening s.timing false).plan ∧
      Rest { ctxs := s.leaving k, chans := (· = s.ctxs[k].channel) } s t := by
  obtain ⟨X, hX⟩ : ∃ X, X = b.detachedWith DirEntry.countRestart k := ⟨_, rfl⟩
  obtain ⟨_, _, timing, ctxs, _⟩ := State.detachedWith_frame DirEntry.countRestart k b
  rw [← hX, h.timing] at timing
  rw [← hX] at ctxs
  have count : X.dir[s.ctxs[k].target].restartCount = min 7 (s.dir[s.ctxs[k].target].restartCount + 1) := by
    rw [hX]
    exact State.detachedWith_restartCount h rfl
  have calm : s.calmly X := by
    rw [hX]
    exact State.detachedWith_calmly h fun _ => rfl
  have own : Rest { ctxs := s.leaving k, chans := (· = s.ctxs[k].channel) } s X := by
    rw [hX]
    exact Rest.detachedWith h fun _ => rfl
  have restarts : b.restart k = (X.updCtx k (Context.beginOpening s.timing false)).joinLine k 16 := by
    rw [State.restart_eq (h.congr (·.target) fun _ => rfl), h.congr (·.useLimit) fun _ => rfl, ← hX]
    dsimp only
    rw [count, if_pos below, timing]
  have begins : Context.beginOpening s.timing false X.ctxs[k] = ({ s.ctxs[k] with
      frameQueued := none, window := none
      creditNeed := if k ∈ s.chans[s.ctxs[k].channel].pacer.line then 0 else s.ctxs[k].creditNeed }).beginOpening s.timing false := by
    rw [ctxs, h.detach_get once]
  obtain ⟨asks, plan, request, self, still, rest⟩ := calm.joins (need := 16) own (.inl rfl) begins rfl (Context.grantedKind_opening nofun reads)
    nofun
  rw [restarts]
  exact ⟨(DirEntry.request_congr request (·.restartCount) fun _ => rfl).trans count, asks, self, still, plan, rest⟩

/-- At the restart limit the read ends UNIT_FAULTY (R55, R57, R105). -/
theorem State.restart_faulty (hm : b.memOk) (limit : s.ctxs[k].useLimit ≤ min 7 (s.dir[s.ctxs[k].target].restartCount + 1)) :
    let t := State.stamp s (b.restart k).settle
    s.endsWith t k s.ctxs[k].target .faulty .unitFaulty b.clock ∧
      t.logHolds .unitFaulty (BitVec.ofNat 8 s.ctxs[k].target.val) ∧
      Rest { ctxs := s.leaving k, chans := (· = s.ctxs[k].channel), units := (· = s.ctxs[k].target)
             slots := fun n => hasSlot s.ctxs[k].attached n = true } s t := by
  obtain ⟨X, hX⟩ : ∃ X, X = b.detachedWith DirEntry.countRestart k := ⟨_, rfl⟩
  have leads : s.leadsTo X k s.ctxs[k].target := by
    rw [hX]
    exact State.detachedWith_leadsTo h rfl fun _ => ⟨rfl, rfl, rfl⟩
  have count : X.dir[s.ctxs[k].target].restartCount = min 7 (s.dir[s.ctxs[k].target].restartCount + 1) := by
    rw [hX]
    exact State.detachedWith_restartCount h rfl
  have purpose : X.ctxs[k].purpose = .read := (Context.bond_congr leads.bond (·.purpose) fun _ => rfl : X.ctxs[k].purpose = _).trans reads
  have target : X.ctxs[k].target = s.ctxs[k].target := Context.bond_congr leads.bond (·.target) fun _ => rfl
  have ends : b.restart k = X.endWith id k .unitFaulty := by
    rw [State.restart_eq (h.congr (·.target) fun _ => rfl), h.congr (·.useLimit) fun _ => rfl, ← hX]
    dsimp only
    rw [count, if_neg (Nat.not_lt.2 limit)]
    exact State.endReadWith_eq_endWith id .unitFaulty purpose
  obtain ⟨mem, clock, _⟩ := State.detachedWith_frame DirEntry.countRestart k b
  rw [← hX] at mem clock
  have next : endNext s.ctxs[k].purpose .unitFaulty = .faulty := by rw [reads]; rfl
  have ended := leads.ended rfl (g := id) (fun _ => ⟨rfl, rfl, rfl⟩) s (out := .unitFaulty) (by rw [State.memOk, mem]; exact hm) nofun
  rw [clock, next] at ended
  have detached : Rest { ctxs := s.leaving k, chans := (· = s.ctxs[k].channel) } s X := hX ▸ Rest.detachedWith h fun _ => rfl
  have own := Rest.leadsTo_ended leads rfl detached (.inl rfl) id .unitFaulty
  have self : (X.endWith id k .unitFaulty).settle.self =
      (X.endRequestWith id s.ctxs[k].target .unitFaulty).self := by
    rw [(State.settle_frame _).2.1, State.endWith, (State.endCommitting_frame _ _ _).2.1]
    unfold State.requestEnded
    rw [purpose, target]
  rw [ends]
  refine ⟨ended, ?_, own.settled⟩
  rw [State.logHolds, State.stamp_self, self]
  exact State.endRequestWith_logHolds id _ _

/-- The read begins again, or ends UNIT_FAULTY (R105). -/
theorem State.restart_beginsAgain (hm : b.memOk) (once : s.chans[s.ctxs[k].channel].pacer.line.count k ≤ 1) :
    s.beginsAgain (State.stamp s (b.restart k).settle) k b.clock := by
  refine ⟨fun below => ?_, fun limit => ?_⟩
  · obtain ⟨count, asks, self, still, plan, rest⟩ := State.restart_reopens h reads once below
    have asked : (s.ctxs[k].beginOpening s.timing false).countAsked = 16 := if_pos reads
    refine ⟨count, asks, self, still, plan.trans ?_, rest⟩
    unfold Context.plan
    rw [asked]
    rfl
  · obtain ⟨ended, log, rest⟩ := State.restart_faulty h reads hm limit
    exact ⟨ended.record.trans (if_pos reads), ended.released, ended.unit, ended.counts reads, log, ended.done, rest⟩

end

section
variable {k : CtxId} {f : Frame} {s : State} (reads : s.ctxs[k].purpose = .read)
  (state : s.ctxs[k].state = .receiving ∨ s.ctxs[k].state = .mending)
include reads state

theorem State.takeGrant_compares : s.takeGrant k f = s.grantCompared k f := by
  unfold State.takeGrant
  rcases state with state | state <;> rw [reads, state]

theorem State.takeClose_closes : s.takeClose k f = s.closeSegment k f := by
  unfold State.takeClose
  rcases state with state | state <;> rw [reads, state]

end

/-- A GRANT, or a CLOSE, of another generation or epoch tears the read (R75, R76, R78, R83). -/
theorem State.torn_restarts {kind : RxKind} {f : Frame} {k : CtxId} {s : State} (reads : s.ctxs[k].purpose = .read)
    (phase : (kind = .grant ∨ kind = .close) ∧ (s.ctxs[k].state = .receiving ∨ s.ctxs[k].state = .mending) ∨
      kind = .grant ∧ s.ctxs[k].state = .opening ∧ s.ctxs[k].segFirst ≠ 0) (torn : s.ctxs[k].agrees f = false) :
    kind.taker k f s = s.restart k := by
  have compared : s.grantCompared k f = s.restart k := if_pos (by rw [torn]; rfl)
  have closed : s.closeSegment k f = s.restart k := if_pos (by rw [torn]; rfl)
  rcases phase with ⟨rfl | rfl, state⟩ | ⟨rfl, opening, later⟩
  · exact (State.takeGrant_compares reads state).trans compared
  · exact (State.takeClose_closes reads state).trans closed
  · have segment : s.ctxs[k].laterSegment = true := decide_eq_true later
    exact (State.takeGrant_opening reads opening).trans (if_pos (by rw [torn, segment]; rfl))

/-- Settles O45: every tear is one restart of the read, from the state behind the frame's passing. -/
theorem tornReadRestarts : Obligations.TornReadRestarts := by
  unfold Obligations.TornReadRestarts
  intro kind ch f rest k s h reaches hm reads phase long once other
  obtain ⟨_, _, _, channel, _⟩ := id reaches
  have going : s.ctxs[k].state ≠ .stopping := by
    rcases phase with ⟨_, x | x⟩ | ⟨_, x, _⟩ <;> rw [x] <;> decide
  have least : kind.leastDlc ≤ f.dlc.toNat := by
    rcases phase with ⟨rfl | rfl, _⟩ | ⟨rfl, _⟩ <;> exact long
  have torn : s.ctxs[k].agrees f = false := Bool.eq_false_iff.2 fun x => other (Context.agrees_iff.1 x)
  have answer : s.answered kind ch f rest k = (s.passed ch rest).restart k :=
    (State.answered_taken going least).trans (State.torn_restarts (s := s.passed ch rest) reads phase torn)
  obtain ⟨link, portLast, clock⟩ := State.answered_port kind ch f rest k s
  refine ⟨_, exec_reaches h reaches, portLast, clock, link, ?_⟩
  rw [answer]
  exact State.restart_beginsAgain (State.standsFor_passed channel rest) reads hm (by simpa only [channel] using once)

end Sys2Proof.Machine
end


section
/-! SUPPORT. A context in STOPPING (R81, R90, R113, R149). -/

namespace Sys2Proof.Machine

/-- A window that runs out is met at its time, or at once if that has passed (R88, R115). -/
theorem windowExpiry_expires {s : State} {k : CtxId} {kind : WindowKind} {at_ : Clock} (h : s.expires k kind at_)
    (f : CtxId → State → State) : windowExpiry k kind f s = State.stamp s (f k (s.advanceTo at_)).settle := by
  obtain ⟨run, unfrozen, window⟩ := h
  have calm : s.resetting = false := by rw [State.resetting, unfrozen]; rfl
  unfold windowExpiry
  rw [window]
  exact (if_pos ⟨rfl, calm⟩).trans (settledEvent_eq _ s run)

theorem endNext_stopped (p : Purpose) : endNext p .stopped = .idle := by
  cases p <;> rfl

theorem State.released_state {s t : State} {k : CtxId} (h : s.released t k) : t.ctxs[k].state = .free ∨ t.ctxs[k].state = .paced ∨
    t.ctxs[k].state = .opening :=
  h.imp (fun freed => Context.same_congr freed (·.state) fun _ _ => rfl) fun ⟨state, _⟩ => state

/-- Time that passes leaves of an entry all that a request's end looks at (R182). -/
theorem State.leadsTo_advanceTo (at_ : Clock) (s : State) (k : CtxId) (u : UnitId) : s.leadsTo (s.advanceTo at_) k u := by
  obtain ⟨b, entry⟩ := State.advanceTo_entry at_ s u
  refine ⟨by simp, ?_, ?_, ?_, by simp, by simp⟩
  · rw [entry]
  · rw [entry]
  · rw [entry]
    rfl

theorem State.leadsTo_passed (ch : ChanId) (rest : List Frame) (s : State) (k : CtxId) (u : UnitId) : s.leadsTo (s.passed ch rest) k u :=
  ⟨rfl, rfl, rfl, rfl, rfl, rfl⟩

/-- A context in STOPPING whose request ends STOPPED (R81, R90, R113, R149). -/
theorem State.leadsTo.stopped {s b : State} {k : CtxId} (h : s.leadsTo b k s.ctxs[k].target) (hm : b.memOk) :
    let t := State.stamp s (b.endContext k .stopped).settle
    t.clock = b.clock ∧ t.ctxs[k].state ≠ .stopping ∧
      s.endsWith t k s.ctxs[k].target .idle .stopped b.clock := by
  rw [State.endContext_eq_endWith]
  have ended := h.ended rfl (g := id) (fun _ => ⟨rfl, rfl, rfl⟩) s (out := .stopped) hm nofun
  rw [endNext_stopped] at ended
  have clock : (State.stamp s (b.endWith id k .stopped).settle).clock = b.clock := by
    rw [State.stamp_clock, (State.settle_frame _).1, State.endWith, (State.endCommitting_frame _ _ _).1, (State.requestEnded_frame _ _ _ _).1]
  refine ⟨clock, ?_, ended⟩
  rcases State.released_state ended.released with x | x | x <;> rw [x] <;> nofun

/-- Settles O49: both endings are one request's end, from the state behind the frame's passing or the passing of time. -/
theorem stoppingEndsStopped : Obligations.StoppingEndsStopped := by
  unfold Obligations.StoppingEndsStopped
  intro k s hm stopping c u ended
  have busy : s.ctxs[k].state ≠ .free := by rw [stopping]; nofun
  have shows_ : ∀ {b : State}, s.leadsTo b k s.ctxs[k].target → b.memOk →
      ended b.clock (State.stamp s (b.endContext k .stopped).settle) := fun lead hb => by
    obtain ⟨clock, left, e⟩ := lead.stopped hb
    exact ⟨clock, left, e.done, e.record, e.unit, e.counts⟩
  refine ⟨fun ch f rest h reaches => ?_, fun at_ h => ?_, fun kind ch f rest other h reaches => ?_⟩
  · obtain ⟨_, _, _, channel, _⟩ := id reaches
    have lead := State.leadsTo_passed ch rest s k s.ctxs[k].target
    refine ⟨_, exec_reaches h reaches, ?_, ?_⟩
    · rw [State.answered_stopping stopping, if_pos rfl]
      exact shows_ lead hm
    · rw [State.answered_stopping stopping, if_pos rfl, State.endContext_eq_endWith]
      have passed := (State.standsFor_passed channel rest).rest
      rw [channel] at passed
      have own := Rest.leadsTo_ended (C := (· = k)) lead rfl (by rw [channel]; exact passed) rfl id .stopped
      rw [channel] at own
      exact own.settled
  · have exec_ : exec (.stopWindowExpiry k) s = .next (State.stamp s (State.stopExpired k (s.advanceTo at_)).settle) :=
      congrArg Host.Outcome.next (windowExpiry_expires h _)
    have state : (s.advanceTo at_).ctxs[k].state = .stopping := by simpa using stopping
    have ends : State.stopExpired k (s.advanceTo at_) = (s.advanceTo at_).endContext k .stopped := if_pos state
    have lead := State.leadsTo_advanceTo at_ s k s.ctxs[k].target
    rw [ends] at exec_
    refine ⟨_, exec_, ?_, ?_⟩
    · rw [← State.advanceTo_clock]
      exact shows_ lead ((Rest.advanceTo at_ s).mem hm).1
    · rw [State.endContext_eq_endWith]
      exact (Rest.leadsTo_ended (C := (· = k)) lead rfl (Rest.advanceTo at_ s).widen rfl id .stopped).settled
  · obtain ⟨link, _⟩ := State.answered_port kind ch f rest k s
    have exec_ := exec_reaches h reaches
    rw [State.answered_stopping stopping, if_neg other] at exec_ link
    obtain ⟨same, _, still, own⟩ := State.discarded (ch := ch) (rest := rest) busy
    exact ⟨_, exec_, same, still, link, own⟩

end Sys2Proof.Machine
end


section
/-! SUPPORT. A HOLD (R56, R58, R80, R107, R111). -/

namespace Sys2Proof.Machine

theorem endNext_heldOut (p : Purpose) : endNext p .heldOut = .idle := by
  cases p <;> rfl

theorem DirEntry.countHold_keeps (e : DirEntry) :
    (DirEntry.countHold e).state = e.state ∧ (DirEntry.countHold e).mark = e.mark ∧ (DirEntry.countHold e).record = e.record :=
  ⟨rfl, rfl, rfl⟩

/-- A unit whose hold has not run out stays HELD: no assignment takes it (R56, R95). -/
theorem State.settle_held {u : UnitId} {m : State} (held : m.dir[u].state = .held) (runs : m.dir[u].holdRunOut = false) :
    m.settle.dir[u].state = .held ∧ m.settle.dir[u].holdUntil = m.dir[u].holdUntil ∧ m.settle.dir[u].holdRunOut = false ∧
      m.settle.dir[u].holdCount = m.dir[u].holdCount := by
  obtain ⟨_, ⟨state, _, until_, out, count, _⟩ | ⟨_, assignable⟩⟩ := State.followed_settle m u
  · exact ⟨state.trans held, until_, out.trans runs, count⟩
  · unfold DirEntry.assignable at assignable
    rw [held, runs] at assignable
    rcases assignable with x | x <;> cases x

theorem State.holdRead_eq {k : CtxId} {u : UnitId} {s : State} (hU : s.ctxs[k].target = u) (f : Frame) : s.holdRead k f =
    if (s.detach k).dir[u].holdCount + 1 < 8 then
      (s.detachedWith (DirEntry.heldFor (clockAfter (s.detach k).clock f.holdMs)) k).freeContext k
    else (s.detach k).endReadWith DirEntry.countHold k .heldOut := by
  subst hU
  rfl

theorem State.holdErase_eq {k : CtxId} {u : UnitId} {s : State} (hU : s.ctxs[k].target = u) (f : Frame) : s.holdErase k f =
    let x := s.detachedWith DirEntry.countHold k
    if x.dir[u].holdCount < 8 then x.updCtx k (Context.startTimer x.clock .hold f.holdMs) else x.endErase k .heldOut := by
  subst hU
  rfl

section
variable {s b : State} {k : CtxId} {f : Frame} (h : s.standsFor b k) {u : UnitId} (target : s.ctxs[k].target = u)
include h target

/-- Below the limit a read's context is released and its unit HELD until the time it named (R56, R107). -/
theorem State.holdRead_suspends (below : s.dir[u].holdCount + 1 < 8) : let t := State.stamp s (b.holdRead k f).settle
    t.dir[u].state = .held ∧ t.dir[u].holdCount = s.dir[u].holdCount + 1 ∧ t.dir[u].holdUntil = clockAfter b.clock f.holdMs ∧
      t.dir[u].holdRunOut = false ∧ s.released t k ∧ t.self = s.self ∧ s.still t ∧
      Rest { ctxs := s.leaving k, chans := (· = s.ctxs[k].channel) } s t := by
  obtain ⟨X, hX⟩ : ∃ X, X = b.detachedWith (DirEntry.heldFor (clockAfter b.clock f.holdMs)) k := ⟨_, rfl⟩
  obtain ⟨m, hM⟩ : ∃ m, m = X.freeContext k := ⟨_, rfl⟩
  have dir := h.detach_dir
  have suspends : b.holdRead k f = m := by
    have clock : (b.detach k).clock = b.clock := by simp
    rw [State.holdRead_eq ((h.congr (·.target) fun _ => rfl).trans target), dir, if_pos below, clock, hM, hX]
  have bond : X.ctxs[k].bond = s.ctxs[k].bond := hX ▸ State.detachedWith_bond h _
  have parity : X.ctxs[k].parity = s.ctxs[k].parity := Context.bond_congr bond (·.parity) fun _ => rfl
  have channel : X.ctxs[k].channel = s.ctxs[k].channel := Context.bond_congr bond (·.channel) fun _ => rfl
  have entry : ∀ {α : Type} (g : DirEntry → α), (∀ (x : DirEntry) r, g { x with revision := r } = g x) →
      g m.dir[u] = g (DirEntry.heldFor (clockAfter b.clock f.holdMs) s.dir[u]) := fun g hg => by
    rw [hM, (State.freeContext_frame k X).2.2.2.2.2.1, hX]
    exact State.detachedWith_entry h target _ g hg
  have calm : s.calmly m := by
    have held : s.calmly X := by
      rw [hX]
      exact State.detachedWith_calmly h fun _ => rfl
    rw [hM]
    exact held.trans (State.calmly_of_dir (by simp) (by simp) (by simp) (by simp) (by simp))
  have own : Rest { ctxs := s.leaving k, chans := (· = s.ctxs[k].channel) } s m := by
    have held : Rest { ctxs := s.leaving k, chans := (· = s.ctxs[k].channel) } s X := by
      rw [hX]
      exact Rest.detachedWith h fun _ => rfl
    have freed := Rest.freeContext k X
    rw [channel, ← hM] at freed
    exact held.trans (freed.mono (fun _ x => .inl x) (fun _ x => x) (fun _ x => x) fun _ x => x)
  have free : m.ctxs[k].releasedFrom s.ctxs[k].parity := by
    rw [hM, State.freeContext, State.updCtx_get, if_pos rfl, State.updChan_ctxs, parity]
    exact .inl rfl
  obtain ⟨state, until_, runs, count⟩ := State.settle_held (entry (·.state) fun _ _ => rfl) (entry (·.holdRunOut) fun _ _ => rfl)
  rw [suspends]
  refine ⟨state, count.trans (entry (·.holdCount) fun _ _ => rfl), until_.trans (entry (·.holdUntil) fun _ _ => rfl), runs, ?_,
    calm.settled.1, calm.settled.2, own.settled⟩
  exact (State.stamp_ctx_congr s _ k (Context.releasedFrom s.ctxs[k].parity) fun _ _ => rfl).mpr (State.settle_releasedFrom free)

/-- The holds counted, capped at the limit (R58). -/
theorem State.detachedWith_holdCount :
    (b.detachedWith DirEntry.countHold k).dir[u].holdCount = min 8 (s.dir[u].holdCount + 1) :=
  State.detachedWith_entry h target DirEntry.countHold (·.holdCount) fun _ _ => rfl

/-- Below the limit an erase's context waits out its hold window (R58, R111). -/
theorem State.holdErase_waits (once : s.chans[s.ctxs[k].channel].pacer.line.count k ≤ 1) (busy : s.ctxs[k].state ≠ .free)
    (below : s.dir[u].holdCount + 1 < 8) : let t := State.stamp s (b.holdErase k f).settle
    t.dir[u].holdCount = s.dir[u].holdCount + 1 ∧
      t.ctxs[k].same { s.ctxs[k] with
        window := some (.hold, clockAfter b.clock f.holdMs), frameQueued := none
        creditNeed := if k ∈ s.chans[s.ctxs[k].channel].pacer.line then 0 else s.ctxs[k].creditNeed } ∧
      k ∉ t.chans[s.ctxs[k].channel].pacer.line ∧ t.self = s.self ∧ s.still t ∧
      Rest { ctxs := s.leaving k, chans := (· = s.ctxs[k].channel) } s t := by
  obtain ⟨X, hX⟩ : ∃ X, X = b.detachedWith DirEntry.countHold k := ⟨_, rfl⟩
  obtain ⟨_, clock, _, ctxs, chans⟩ := State.detachedWith_frame DirEntry.countHold k b
  have count : X.dir[u].holdCount = s.dir[u].holdCount + 1 := by
    rw [hX, State.detachedWith_holdCount h target, Nat.min_eq_right (Nat.le_of_lt below)]
  have waits : b.holdErase k f = X.updCtx k (Context.startTimer b.clock .hold f.holdMs) := by
    rw [State.holdErase_eq ((h.congr (·.target) fun _ => rfl).trans target), ← hX]
    dsimp only
    rw [count, if_pos below, ← clock, hX]
  have ctx := congrArg (Context.startTimer b.clock .hold f.holdMs) (h.detach_get once)
  have calm : s.calmly X := by
    rw [hX]
    exact State.detachedWith_calmly h fun _ => rfl
  have own : Rest { ctxs := s.leaving k, chans := (· = s.ctxs[k].channel) } s X := by
    rw [hX]
    exact Rest.detachedWith h fun _ => rfl
  rw [← ctxs, ← hX] at ctx
  obtain ⟨same, out, request, self, still, rest⟩ := calm.reworks (ch := s.ctxs[k].channel) own (.inl rfl) ctx busy
    (by rw [hX, chans]; exact h.detach_unlined once)
  rw [waits]
  refine ⟨?_, same, out, self, still, rest⟩
  subst target
  exact (DirEntry.request_congr request (·.holdCount) fun _ => rfl).trans count

/-! ### The limit -/

omit h in
/-- A request that ends HELD_OUT with its context (R56, R58, R113). -/
theorem State.leadsTo.heldOut {X : State} (lead : s.leadsTo X k u)
    (own : Rest { ctxs := s.leaving k, chans := (· = s.ctxs[k].channel) } s X) (hm : X.memOk) {g : DirEntry → DirEntry}
    (hg : ∀ e, (g e).state = e.state ∧ (g e).mark = e.mark ∧ (g e).record = e.record) :
    let t := State.stamp s (X.endWith g k .heldOut).settle
    s.endsWith t k u .idle .heldOut X.clock ∧
      Rest { ctxs := s.leaving k, chans := (· = s.ctxs[k].channel), units := (· = u)
             slots := fun n => hasSlot s.ctxs[k].attached n = true } s t := by
  have ended := lead.ended target hg s (out := .heldOut) hm nofun
  rw [endNext_heldOut] at ended
  exact ⟨ended, (Rest.leadsTo_ended lead target own (.inl rfl) g .heldOut).settled⟩

/-- At the limit a read ends HELD_OUT (R56). -/
theorem State.holdRead_ends (hm : b.memOk) (reads : s.ctxs[k].purpose = .read) (limit : 8 ≤ s.dir[u].holdCount + 1) :
    let t := State.stamp s (b.holdRead k f).settle
    s.endsWith t k u .idle .heldOut b.clock ∧
      Rest { ctxs := s.leaving k, chans := (· = s.ctxs[k].channel), units := (· = u)
             slots := fun n => hasSlot s.ctxs[k].attached n = true } s t := by
  have dir := h.detach_dir
  have lead := h.detach_leadsTo u
  have purpose : (b.detach k).ctxs[k].purpose = .read := (Context.bond_congr lead.bond (·.purpose) fun _ => rfl).trans reads
  have clock : (b.detach k).clock = b.clock := by simp
  have mem : (b.detach k).memOk := by
    rw [State.memOk, (State.detach_frame k b).2.2.1]
    exact hm
  rw [State.holdRead_eq ((h.congr (·.target) fun _ => rfl).trans target), dir, if_neg (Nat.not_lt.2 limit),
    State.endReadWith_eq_endWith DirEntry.countHold .heldOut purpose, ← clock]
  exact lead.heldOut target (Rest.standsFor_detach h) mem DirEntry.countHold_keeps

/-- At the limit an erase ends HELD_OUT (R58). -/
theorem State.holdErase_ends (hm : b.memOk) (erases : s.ctxs[k].purpose = .erase) (limit : 8 ≤ s.dir[u].holdCount + 1) :
    let t := State.stamp s (b.holdErase k f).settle
    s.endsWith t k u .idle .heldOut b.clock ∧
      Rest { ctxs := s.leaving k, chans := (· = s.ctxs[k].channel), units := (· = u)
             slots := fun n => hasSlot s.ctxs[k].attached n = true } s t := by
  obtain ⟨mem, clock, _⟩ := State.detachedWith_frame DirEntry.countHold k b
  have count := State.detachedWith_holdCount h target
  have lead : s.leadsTo (b.detachedWith DirEntry.countHold k) k u := State.detachedWith_leadsTo h target DirEntry.countHold_keeps
  have purpose : (b.detachedWith DirEntry.countHold k).ctxs[k].purpose = .erase :=
    (Context.bond_congr lead.bond (·.purpose) fun _ => rfl).trans erases
  have full : ¬ min 8 (s.dir[u].holdCount + 1) < 8 := by omega
  have ends : b.holdErase k f = (b.detachedWith DirEntry.countHold k).endWith id k .heldOut := by
    rw [State.holdErase_eq ((h.congr (·.target) fun _ => rfl).trans target)]
    dsimp only
    rw [count, if_neg full, State.endErase_eq_endWith .heldOut purpose]
  rw [ends, ← clock]
  exact lead.heldOut target (Rest.detachedWith h fun e => (DirEntry.countHold_keeps e).2.2) (by rw [State.memOk, mem]; exact hm)
    fun _ => ⟨rfl, rfl, rfl⟩

end

/-! ### The frame taken -/

/-- A HOLD accepted is met by what its context is there for (R80, R87). -/
theorem State.takeHold_accepted {k : CtxId} {f : Frame} {s : State} (reason : f.holdReasonOk = true)
    (state : s.ctxs[k].state = .opening ∨ s.ctxs[k].state = .mending ∧ s.ctxs[k].purpose = .read) :
    s.takeHold k f = match s.ctxs[k].purpose with | .read => s.holdRead k f | .erase => s.holdErase k f := by
  unfold State.takeHold
  rcases state with opening | ⟨mending, reads⟩
  · rw [opening]
    cases s.ctxs[k].purpose with
    | read => exact if_pos reason
    | erase => exact if_pos reason
  · rw [mending, reads]
    exact if_pos reason

/-- Settles O46: by the purpose of the context and the holds counted, from the state behind the frame's passing. -/
theorem holdSuspendsTheRequest : Obligations.HoldSuspendsTheRequest := by
  unfold Obligations.HoldSuspendsTheRequest
  intro ch f rest k s h reaches hm state long least most once c u until_
  obtain ⟨_, _, _, rfl, _⟩ := id reaches
  have going : s.ctxs[k].state ≠ .stopping := by
    rcases state with x | ⟨x, _⟩ <;> rw [x] <;> decide
  have reason : f.holdReasonOk = true := by
    unfold Frame.holdReasonOk
    rw [decide_eq_true least, decide_eq_true most]
    rfl
  have stands := State.standsFor_passed (s := s) (k := k) rfl rest
  have answer : s.answered .hold s.ctxs[k].channel f rest k = match s.ctxs[k].purpose with
      | .read => (s.passed s.ctxs[k].channel rest).holdRead k f
      | .erase => (s.passed s.ctxs[k].channel rest).holdErase k f :=
    (State.answered_taken (kind := .hold) going long).trans (State.takeHold_accepted (s := s.passed _ rest) reason state)
  obtain ⟨link, portLast, clock⟩ := State.answered_port .hold s.ctxs[k].channel f rest k s
  have exec_ : exec .hold s = .next (State.stamp s (s.answered .hold s.ctxs[k].channel f rest k).settle) := exec_reaches h reaches
  refine ⟨_, exec_, portLast, clock, link, fun below reads => ?_, fun below erases => ?_, fun limit => ?_⟩
  · rw [reads] at answer
    rw [answer]
    exact State.holdRead_suspends stands rfl below
  · rw [erases] at answer
    rw [answer]
    obtain ⟨count, same, rest⟩ := State.holdErase_waits (f := f) stands rfl once (State.reaches_busy reaches) below
    exact ⟨fun _ => count, same, rest⟩
  · have ends : s.endsWith (State.stamp s (s.answered .hold s.ctxs[k].channel f rest k).settle) k u .idle .heldOut s.clock ∧
        Rest { ctxs := s.leaving k, chans := (· = s.ctxs[k].channel), units := (· = u)
               slots := fun n => hasSlot s.ctxs[k].attached n = true } s
          (State.stamp s (s.answered .hold s.ctxs[k].channel f rest k).settle) := by
      cases purpose : s.ctxs[k].purpose with
      | read =>
        rw [purpose] at answer
        rw [answer]
        exact State.holdRead_ends stands rfl hm purpose limit
      | erase =>
        rw [purpose] at answer
        rw [answer]
        exact State.holdErase_ends stands rfl hm purpose limit
    obtain ⟨ended, own⟩ := ends
    exact ⟨ended.done, ended.record, ended.released, ended.unit, ended.counts, own⟩

end Sys2Proof.Machine
end


section
/-! SUPPORT. A CLOSE accepted: the completion test (R78, R102, R104, R105, R106). -/

namespace Sys2Proof.Machine

theorem Context.grantedKind_mending {c : Context} (state : c.state = .mending) : c.grantedKind = .pickFrame := by
  unfold Context.grantedKind
  rw [state]

/-- The context in a mending round with its PICK list (R79, R103). -/
def Context.mends (round : Nat) (list : List Nat) (c : Context) : Context :=
  { c with state := .mending, mendRound := round, pickList := list, window := none }

/-- The context asking for the segment from `next` on (R78, R96). -/
def Context.asksNext (next : Nat) (c : Context) : Context :=
  { c with
    state := .paced, segFirst := next, countAsked := min 16 (c.total - next), granted := 0, mendRound := 0, pickList := [], attempt := 1 }

section
variable {s b : State} {k : CtxId} (h : s.standsFor b k)
include h

/-- The test stops the window (R102). -/
theorem State.standsFor.stopped : s.standsFor (b.updCtx k Context.stopTimer) k where
  ctx := by
    rw [State.updCtx_get, if_pos rfl]
    exact h.ctx
  pacer := h.pacer
  dir := h.dir
  sweep := h.sweep
  orders := h.orders
  self := h.self
  pool := h.pool
  timing := h.timing
  rest := h.rest.trans ((Rest.updCtx k _ b).mono (fun _ x => x) (fun _ x => x.elim) (fun _ x => x) fun _ x => x)

/-- A mending round of a segment with places missing asks for the PICK of the lowest of them (R79, R102, R103). -/
theorem State.startMending_mends (round : Nat) (missing : s.ctxs[k].missing ≠ []) :
    let t := State.stamp s (b.startMending k round).settle
    t.ctxs[k].state = .mending ∧ t.asksFor k (min 7 s.ctxs[k].missing.length) .pickFrame .mending ∧
      t.ctxs[k].plan =
        { s.ctxs[k].plan with mendRound := round, pickList := s.ctxs[k].missing.take 7, window := none } ∧
      t.self = s.self ∧ s.still t ∧ Rest { ctxs := (· = k), chans := (· = s.ctxs[k].channel) } s t := by
  have list : b.ctxs[k].formPick = s.ctxs[k].missing.take 7 := h.congr Context.formPick fun _ => rfl
  have length : (s.ctxs[k].missing.take 7).length = min 7 s.ctxs[k].missing.length := List.length_take
  have some_ : (s.ctxs[k].missing.take 7).isEmpty = false := by
    rw [List.isEmpty_eq_false_iff, ← List.length_pos_iff, length]
    have := List.length_pos_iff.2 missing
    omega
  have begins : b.startMending k round = (b.updCtx k (Context.mends round (s.ctxs[k].missing.take 7))).joinLine k
      (min 7 s.ctxs[k].missing.length) := by
    unfold State.startMending
    rw [list]
    dsimp only
    rw [some_, length]
    rfl
  have ctx := h.congr (Context.mends round (s.ctxs[k].missing.take 7)) fun _ => rfl
  obtain ⟨asks, plan, _, self, still, rest⟩ := h.calmly.joins (need := min 7 s.ctxs[k].missing.length) h.rest rfl ctx rfl
    (Context.grantedKind_mending rfl) nofun
  rw [begins]
  exact ⟨(State.asksFor_state asks).elim id id, asks, plan, self, still, rest⟩

/-- With nothing missing and places left, the next segment is asked for (R78, R96, R102; log entry 15). -/
theorem State.nextSegment_asks (reads : s.ctxs[k].purpose = .read) (next : Nat) :
    let need := min 16 (s.ctxs[k].total - next)
    let t := State.stamp s (((b.updCtx k Context.stopTimer).updCtx k (Context.asksNext next)).joinLine k need).settle
    (t.ctxs[k].state = .paced ∨ t.ctxs[k].state = .opening) ∧ t.asksFor k need .openFrame .paced ∧
      t.ctxs[k].plan =
        { s.ctxs[k].plan with segFirst := next, countAsked := need, granted := 0, mendRound := 0, pickList := [], attempt := 1
                              window := none } ∧
      t.self = s.self ∧ s.still t ∧ Rest { ctxs := (· = k), chans := (· = s.ctxs[k].channel) } s t := by
  have ctx : Context.asksNext next (b.updCtx k Context.stopTimer).ctxs[k] = Context.asksNext next { s.ctxs[k] with window := none } := by
    rw [State.updCtx_get, if_pos rfl]
    exact h.congr (fun c => Context.asksNext next { c with window := none }) fun _ => rfl
  obtain ⟨asks, plan, _, self, still, rest⟩ := h.stopped.calmly.joins (need := min 16 (s.ctxs[k].total - next)) h.stopped.rest rfl ctx rfl
    (Context.grantedKind_opening nofun reads) nofun
  exact ⟨State.asksFor_state asks, asks, plan, self, still, rest⟩

/-- With nothing missing and no places left, the COMMIT is offered (R10, R102, R106). -/
theorem State.offerCommit_offers (running : s.orders.resetting = none) : let t := State.stamp s (b.offerCommit k).settle
    let c := s.ctxs[k]
    t.ctxs[k].same { c with state := .committing, window := none } ∧
      .commit k c.target c.generation c.epoch c.total c.truncMark ∈ t.pool.queue ++ t.pool.waiting ∧
      t.self = s.self ∧ (s.sweep.openEdition ≠ 0 → s.still t) ∧
      Rest { ctxs := (· = k), chans := (· = s.ctxs[k].channel) } s t := by
  obtain ⟨x, hX⟩ : ∃ x, x = b.updCtx k fun c => { c with state := .committing, window := none } := ⟨_, rfl⟩
  obtain ⟨r, hR⟩ : ∃ r, r = PoolRequest.commit k s.ctxs[k].target s.ctxs[k].generation s.ctxs[k].epoch s.ctxs[k].total
    s.ctxs[k].truncMark := ⟨_, rfl⟩
  obtain ⟨m, hM⟩ : ∃ m, m = x.offer r := ⟨_, rfl⟩
  have ctx : x.ctxs[k] = { s.ctxs[k] with state := .committing, window := none } := by
    rw [hX, State.updCtx_get, if_pos rfl]
    exact h.congr (fun c => { c with state := CtxState.committing, window := none }) fun _ => rfl
  have offers : b.offerCommit k = m := by
    have offered : b.offerCommit k =
        x.offer (.commit k x.ctxs[k].target x.ctxs[k].generation x.ctxs[k].epoch x.ctxs[k].total x.ctxs[k].truncMark) := by
      rw [hX]
      rfl
    rw [offered, ctx, hM, hR]
  have calm : s.calmly x := by
    rw [hX]
    exact h.calmly.trans (State.calmly_of_dir rfl rfl rfl rfl rfl)
  have ctxs : m.ctxs = x.ctxs := by rw [hM]; simp
  have busy : m.ctxs[k].state ≠ .free := by rw [ctxs, ctx]; nofun
  have own : Rest { ctxs := (· = k), chans := (· = s.ctxs[k].channel) } s m := by
    rw [hM, hX]
    refine Rest.trans ?_ (Rest.offer _ _).widen
    exact h.rest.trans ((Rest.updCtx k _ _).mono (fun _ x => x) (fun _ x => x.elim) (fun _ x => x) fun _ x => x)
  have after : Rest {} m (State.stamp s m.settle) := (Rest.settle m).stamp s
  have same := after.ctxs k id busy
  rw [ctxs, ctx] at same
  have offered : r ∈ m.pool.queue ++ m.pool.waiting := by
    rw [hM, State.offer_pool (by rw [calm.orders]; exact running)]
    exact Pool.mem_admitOrHold _ _
  rw [offers]
  refine ⟨same, hR ▸ after.offered offered, ?_, fun opened => ?_, own.settled⟩
  · rw [hM]
    exact State.offer_self _ s x calm
  · rw [hM]
    exact State.still_offered calm running (by rw [hR]; rfl) fun _ => opened

end

/-! ### The test -/

theorem State.completionTest_eq (k : CtxId) (s : State) : s.completionTest k =
    let x := s.updCtx k Context.stopTimer
    let c := s.ctxs[k]
    let next := c.segFirst + c.granted
    if c.missing.isEmpty then
      if next < c.total then (x.updCtx k (Context.asksNext next)).joinLine k (min 16 (c.total - next))
      else x.offerCommit k
    else if c.mendRound < 2 then x.startMending k (c.mendRound + 1)
    else x.restart k := by
  have ctx : (s.updCtx k Context.stopTimer).ctxs[k] = { s.ctxs[k] with window := none } := by
    rw [State.updCtx_get, if_pos rfl]
    rfl
  unfold State.completionTest
  simp only [ctx]
  rfl

/-- A CLOSE that agrees with the opening and the segment is put to the test, unless the round's PICK is unsent (R78, R104). -/
theorem State.closeSegment_accepted {k : CtxId} {f : Frame} {s : State} (agrees : s.ctxs[k].agrees f = true)
    (total : Frame.clampedTotal f = s.ctxs[k].total) (count : f.grantCount ≤ s.ctxs[k].granted) :
    s.closeSegment k f = if s.ctxs[k].pickUnsent then s else s.completionTest k := by
  have sound : ¬ (Frame.clampedTotal f ≠ s.ctxs[k].total ∨ s.ctxs[k].granted < f.grantCount) := fun x =>
    x.elim (fun other => other total) (Nat.not_lt.2 count)
  unfold State.closeSegment
  dsimp only
  rw [agrees, if_neg sound]
  rfl

theorem Context.pickUnsent_iff {c : Context} : c.pickUnsent = true ↔ c.state = .mending ∧ c.window = none := by
  unfold Context.pickUnsent
  rw [Bool.and_eq_true, beq_iff_eq, Option.isNone_iff_eq_none]

/-- Settles O48: by the five outcomes of the test, from the state behind the frame's passing. -/
theorem closeTestsTheSegment : Obligations.CloseTestsTheSegment := by
  unfold Obligations.CloseTestsTheSegment
  intro ch f rest k s h reaches state reads long generation epoch total count c next unsent
  obtain ⟨_, running, _, rfl, _⟩ := id reaches
  have going : s.ctxs[k].state ≠ .stopping := by
    rcases state with x | x <;> rw [x] <;> decide
  obtain ⟨b, hB⟩ : ∃ b, b = s.passed s.ctxs[k].channel rest := ⟨_, rfl⟩
  have stands : s.standsFor b k := hB ▸ State.standsFor_passed rfl rest
  have ctxs : b.ctxs = s.ctxs := by rw [hB]; rfl
  have answer : s.answered .close s.ctxs[k].channel f rest k = if s.ctxs[k].pickUnsent then b else b.completionTest k := by
    rw [hB]
    exact ((State.answered_taken (kind := .close) going long).trans (State.takeClose_closes (s := s.passed _ rest) reads state)).trans
      (State.closeSegment_accepted (s := s.passed _ rest) (Context.agrees_iff.2 ⟨generation, epoch⟩) total count)
  obtain ⟨link, portLast, clock⟩ := State.answered_port .close s.ctxs[k].channel f rest k s
  have exec_ : exec .close s = .next (State.stamp s (s.answered .close s.ctxs[k].channel f rest k).settle) := exec_reaches h reaches
  have tested : ¬ unsent → s.answered .close s.ctxs[k].channel f rest k = b.completionTest k := fun sent =>
    answer.trans (if_neg fun x => sent (Context.pickUnsent_iff.1 x))
  have test := State.completionTest_eq k b
  rw [ctxs] at test
  dsimp only at test
  refine ⟨_, exec_, fun waits => ?_, fun sent whole more => ?_, fun sent whole last => ?_, fun sent missing round => ?_,
    fun sent missing round hm once => ?_, link, portLast, clock⟩
  · rw [answer, if_pos (Context.pickUnsent_iff.2 waits), hB]
    exact State.discarded (ch := s.ctxs[k].channel) (rest := rest) (State.reaches_busy reaches)
  · rw [tested sent, test, if_pos (List.isEmpty_iff.2 whole), if_pos more]
    exact State.nextSegment_asks stands reads _
  · rw [tested sent, test, if_pos (List.isEmpty_iff.2 whole), if_neg (Nat.not_lt.2 last)]
    exact State.offerCommit_offers stands.stopped running
  · rw [tested sent, test, if_neg fun x => missing (List.isEmpty_iff.1 x), if_pos round]
    exact State.startMending_mends stands.stopped _ missing
  · rw [tested sent, test, if_neg fun x => missing (List.isEmpty_iff.1 x), if_neg (Nat.not_lt.2 round)]
    have again := State.restart_beginsAgain stands.stopped reads (by rw [hB]; exact hm) once
    rw [hB] at again ⊢
    exact again

end Sys2Proof.Machine
end


section
/-! SUPPORT. The passing of time up to a window's expiry: what an expiry command makes of the part (R88, R182; the clock at the expiry
is log entry 3). -/

namespace Sys2Proof.Machine

/-! ### Time that passes before an event -/

section
variable (at_ : Clock) (s : State)

/-- Time that passes ends no request and begins no work of an edition. -/
theorem State.advanceTo_calmly : s.calmly (s.advanceTo at_) where
  self := by simp
  sweep := by simp
  marks v := by
    obtain ⟨b, entry⟩ := State.advanceTo_entry at_ s v
    rw [entry]
  orders := by simp
  pool := by simp

theorem State.advanceTo_restartCount (u : UnitId) : (s.advanceTo at_).dir[u].restartCount = s.dir[u].restartCount := by
  obtain ⟨b, entry⟩ := State.advanceTo_entry at_ s u
  rw [entry]

theorem State.advanceTo_memOk (hm : s.memOk) : (s.advanceTo at_).memOk := ((Rest.advanceTo at_ s).mem hm).1

/-- No view shows the latch of a hold that has run out (R56, R92). -/
theorem State.advanceTo_ctxView (k : CtxId) : (s.advanceTo at_).ctxView k = s.ctxView k := by
  obtain ⟨b, entry⟩ := State.advanceTo_entry at_ s s.ctxs[k].target
  have ctxs : (s.advanceTo at_).ctxs = s.ctxs := by simp
  unfold State.ctxView
  simp only [ctxs, entry]

/-- The revisions an event steps do not depend on the time that passed before it. -/
theorem State.stamp_advanceTo (m : State) : State.stamp (s.advanceTo at_) m = State.stamp s m := by
  have chans : (s.advanceTo at_).chans = s.chans := by simp
  have sweep : (s.advanceTo at_).sweep = s.sweep := by simp
  unfold State.stamp State.stampCtx
  simp only [State.advanceTo_ctxView, chans, sweep]

end

section
variable {at_ : Clock} {s t : State}

theorem State.still_of_advanceTo (h : (s.advanceTo at_).still t) : s.still t := fun settled tidy => by
  have calm := State.advanceTo_calmly at_ s
  have settled' : (s.advanceTo at_).settled := State.settled_congr (by rw [calm.sweep]) (by rw [calm.sweep]) calm.marks
    (State.nothingKeeps_congr (congrArg OrderEngine.taken calm.orders) calm.pool) settled
  have mem : (s.advanceTo at_).mem = s.mem := by simp
  obtain ⟨taken, vacant⟩ := tidy
  have tidy' : (s.advanceTo at_).tidy := by
    refine ⟨fun n x hx => ?_, fun u hu hv => ?_⟩
    · rw [mem]
      exact taken n x (by rw [← calm.orders]; exact hx)
    · obtain ⟨b, entry⟩ := State.advanceTo_entry at_ s u
      rw [entry] at hv ⊢
      exact vacant u hu hv
  exact (h settled' tidy').trans calm.sweep

/-- A read that begins again in an event does so from where the event found it. -/
theorem State.beginsAgain_of_advanceTo {k : CtxId} {c : Clock} (h : (s.advanceTo at_).beginsAgain t k c) : s.beginsAgain t k c := by
  obtain ⟨b, hB⟩ : ∃ b, b = s.advanceTo at_ := ⟨_, rfl⟩
  have ctxs : b.ctxs = s.ctxs := by simp [hB]
  have chans : b.chans = s.chans := by simp [hB]
  have sweep : b.sweep = s.sweep := by simp [hB]
  have orders : b.orders = s.orders := by simp [hB]
  have self : b.self = s.self := by simp [hB]
  have timing : b.timing = s.timing := by simp [hB]
  have restarts : b.dir[s.ctxs[k].target].restartCount = s.dir[s.ctxs[k].target].restartCount := by
    rw [hB, State.advanceTo_restartCount]
  obtain ⟨_, state, mark, record, _, _⟩ : s.leadsTo b k s.ctxs[k].target := hB ▸ State.leadsTo_advanceTo at_ s k _
  have leaving : b.leaving k = s.leaving k := by
    funext j
    simp only [State.leaving, ctxs, chans]
  have passed : ∀ d : Touch, Rest d s b := fun d => hB ▸ (Rest.advanceTo at_ s).widen
  have still : b.still t → s.still t := hB ▸ State.still_of_advanceTo
  rw [← hB] at h
  obtain ⟨below, limit⟩ := h
  simp only [ctxs, restarts, self, timing, leaving] at below
  simp only [ctxs, restarts, record, sweep, leaving, State.released, State.unitEnds, State.counts, state, mark, State.awaits,
    orders] at limit
  refine ⟨fun hb => ?_, fun hl => ?_⟩
  · obtain ⟨count, asks, self, quiet, plan, rest⟩ := below hb
    exact ⟨count, asks, self, still quiet, plan, (passed _).trans rest⟩
  · obtain ⟨record, released, unit, counts, log, done, rest⟩ := limit hl
    exact ⟨record, released, unit, counts, log, done, (passed _).trans rest⟩

end

/-! ### The expiry commands -/

section
variable {s : State} {k : CtxId} {at_ : Clock}

theorem exec_answerWindowExpiry (h : s.expires k .answer at_) :
    exec (.answerWindowExpiry k) s = .next (State.stamp s ((s.advanceTo at_).answerExpired k).settle) :=
  congrArg Host.Outcome.next (windowExpiry_expires h State.answerExpired)

theorem exec_gapWindowExpiry (h : s.expires k .gap at_) :
    exec (.gapWindowExpiry k) s = .next (State.stamp s ((s.advanceTo at_).gapExpired k).settle) :=
  congrArg Host.Outcome.next (windowExpiry_expires h State.gapExpired)

theorem exec_holdWindowExpiry (h : s.expires k .hold at_) :
    exec (.holdWindowExpiry k) s = .next (State.stamp s ((s.advanceTo at_).holdExpired k).settle) :=
  congrArg Host.Outcome.next (windowExpiry_expires h State.holdExpired)

/-- Work at an expiry that ends no request: the clock is the expiry's, and what is touched is what the work touched. -/
theorem State.expiry_ends {m : State} {d : Touch} (clock : m.clock = (s.advanceTo at_).clock)
    (portLast : m.portLast = (s.advanceTo at_).portLast) (calm : (s.advanceTo at_).calmly m) (own : Rest d (s.advanceTo at_) m) :
    let t := State.stamp s m.settle
    t.clock = s.meetsAt at_ ∧ t.self = s.self ∧ t.portLast = s.portLast ∧ s.still t ∧ Rest d s t := by
  obtain ⟨self, still⟩ := ((State.advanceTo_calmly at_ s).trans calm).settled
  refine ⟨?_, self, ?_, still, ((Rest.advanceTo at_ s).widen.trans own).settled⟩
  · rw [State.stamp_clock, State.settle_clock, clock, State.advanceTo_clock]
  · rw [State.stamp_portLast, (State.settle_frame m).2.2.2.1, portLast]
    simp

end

/-! ### A context that asks, or begins again, when its window has run out -/

theorem State.standsFor_refl (s : State) (k : CtxId) : s.standsFor s k where
  ctx := rfl
  pacer := rfl
  dir := rfl
  sweep := rfl
  orders := rfl
  self := rfl
  pool := rfl
  timing := rfl
  rest := Rest.refl _ s

section
variable {at_ : Clock} {s : State} {k : CtxId} {F : Context → Context}

/-- A context that joins its line at an expiry asks for its need with its plan as it was given (R99, R138). -/
theorem State.expiry_asks {need : Nat} {kind : TxKind} {waits : CtxState} (state : (F s.ctxs[k]).state = waits)
    (granted : (F s.ctxs[k]).grantedKind = kind) (busy : waits ≠ .free) :
    let t := State.stamp s (((s.advanceTo at_).updCtx k F).joinLine k need).settle
    t.asksFor k need kind waits ∧ t.ctxs[k].plan = (F s.ctxs[k]).plan := by
  have ctx : F (s.advanceTo at_).ctxs[k] = F s.ctxs[k] := by simp
  obtain ⟨asks, plan, _⟩ := (State.advanceTo_calmly at_ s).joins (d := { ctxs := (· = k) }) (need := need)
    (Rest.advanceTo at_ s).widen rfl ctx state granted busy
  exact ⟨asks, plan⟩

/-- Whatever a context asks for at an expiry, the event touches that context alone. -/
theorem State.expiry_joins (at_ : Clock) (s : State) (k : CtxId) (F : Context → Context) (need : Nat) :
    let t := State.stamp s (((s.advanceTo at_).updCtx k F).joinLine k need).settle
    t.clock = s.meetsAt at_ ∧ t.self = s.self ∧ t.portLast = s.portLast ∧ s.still t ∧ Rest { ctxs := (· = k) } s t :=
  State.expiry_ends (by simp) (by simp) (State.calmly_of_dir (by simp) (by simp) (by simp) (by simp) (by simp))
    ((Rest.updCtx k F _).trans (Rest.joinLine k need _))

/-- A frame that a context has placed still waits after all that follows in the event (R122). -/
theorem State.sends_settled {m : State} {kind : TxKind} (s0 : State) (busy : m.ctxs[k].state ≠ .free) (h : m.sends k kind) :
    (State.stamp s0 m.settle).sends k kind := by
  have after : Rest {} m (State.stamp s0 m.settle) := (Rest.settle m).stamp s0
  have address : (State.stamp s0 m.settle).dir[m.ctxs[k].target].address = m.dir[m.ctxs[k].target].address :=
    congrArg (·.address) (after.dir m.ctxs[k].target id)
  have settings : (State.stamp s0 m.settle).chans[m.ctxs[k].channel].settings = m.chans[m.ctxs[k].channel].settings :=
    congrArg (·.settings) (after.links m.ctxs[k].channel id)
  have stays : m.framesStay (State.stamp s0 m.settle) := fun c e he => by
    rw [State.stamp_chan_congr s0 m.settle c Channel.frames fun _ _ => rfl]
    exact State.framesStay_settle m c e he
  have same := after.ctxs k id busy
  exact State.sends_after h same address settings stays

/-- A context that sends at an expiry without asking, its plan as it was given: the event touches it alone (R79, R99). -/
theorem State.expiry_sends (kind : TxKind) (busy : (F s.ctxs[k]).state ≠ .free) :
    let t := State.stamp s (((s.advanceTo at_).updCtx k F).sendFrame k kind).settle
    t.sends k kind ∧ t.ctxs[k].state = (F s.ctxs[k]).state ∧ t.ctxs[k].plan = (F s.ctxs[k]).plan ∧
      t.clock = s.meetsAt at_ ∧ t.self = s.self ∧ t.portLast = s.portLast ∧ s.still t ∧ Rest { ctxs := (· = k) } s t := by
  obtain ⟨m, hM⟩ : ∃ m, m = ((s.advanceTo at_).updCtx k F).sendFrame k kind := ⟨_, rfl⟩
  have ctx : m.ctxs[k] = { F s.ctxs[k] with frameQueued := some kind } := by
    rw [hM, State.sendFrame_get, if_pos rfl, State.updCtx_get, if_pos rfl]
    simp
  have serves : m.ctxs[k].state ≠ .free := by
    rw [ctx]
    exact busy
  have same := ((Rest.settle m).stamp s).ctxs k id serves
  rw [ctx] at same
  have placed : m.sends k kind := hM ▸ State.sendFrame_sends k kind _
  have ends := State.expiry_ends (s := s) (at_ := at_) (m := m) (by simp [hM]) (by simp [hM])
    (State.calmly_of_dir (by simp [hM]) (by simp [hM]) (by simp [hM]) (by simp [hM]) (by simp [hM]))
    (hM ▸ (Rest.updCtx k F _).trans (Rest.sendFrame k kind _))
  rw [← hM]
  exact ⟨State.sends_settled s serves placed, Context.same_congr same (·.state) fun _ _ => rfl,
    Context.same_congr same Context.plan fun _ _ => rfl, ends⟩

end

/-- A read restarted at an expiry begins again, or ends UNIT_FAULTY (R105). -/
theorem State.expiry_restarts {s : State} {k : CtxId} (at_ : Clock) (hm : s.memOk) (reads : s.ctxs[k].purpose = .read)
    (once : s.chans[s.ctxs[k].channel].pacer.line.count k ≤ 1) :
    let t := State.stamp s ((s.advanceTo at_).restart k).settle
    t.clock = s.meetsAt at_ ∧ s.beginsAgain t k (s.meetsAt at_) := by
  have again := State.restart_beginsAgain (State.standsFor_refl (s.advanceTo at_) k) (by simpa using reads)
    (State.advanceTo_memOk at_ s hm) (by simpa using once)
  rw [State.stamp_advanceTo, State.advanceTo_clock] at again
  refine ⟨?_, State.beginsAgain_of_advanceTo again⟩
  rw [State.stamp_clock, State.settle_clock, (State.restart_frame k _).1, State.advanceTo_clock]

end Sys2Proof.Machine
end


section
/-! SUPPORT. Silence in OPENING, and the end of a hold window (R55, R57, R58, R100, R105, R110, R111, R149). -/

namespace Sys2Proof.Machine

/-! ### What silence in OPENING does -/

/-- In OPENING a context asks with the frame of its purpose (R99). -/
theorem Context.grantedKind_asking {c : Context} (opening : c.state = .opening) :
    c.grantedKind = match c.purpose with | .read => .openFrame | .erase => .eraseFrame := by
  unfold Context.grantedKind
  rw [opening]
  cases c.purpose with
  | read => rfl
  | erase => rfl

section
variable {s : State} {k : CtxId} (opening : s.ctxs[k].state = .opening)
include opening

theorem State.answerExpired_opening :
    s.answerExpired k = match s.ctxs[k].purpose with | .read => s.openSilence k | .erase => s.eraseSilence k := by
  unfold State.answerExpired
  rw [opening]
  cases s.ctxs[k].purpose with
  | read => rfl
  | erase => rfl

/-- Below three attempts the same frame is asked for again (R100, R110). -/
theorem State.answerExpired_asks (below : s.ctxs[k].attempt < 3) :
    s.answerExpired k = s.resend k (match s.ctxs[k].purpose with | .read => s.ctxs[k].countAsked | .erase => 1) := by
  rw [State.answerExpired_opening opening]
  cases s.ctxs[k].purpose with
  | read => exact if_pos below
  | erase => exact if_pos below

/-- After three silences a read's first opening, or an erase, ends ABSENT (R100, R110). -/
theorem State.answerExpired_absent (limit : 3 ≤ s.ctxs[k].attempt)
    (first : s.ctxs[k].purpose = .read → s.ctxs[k].segFirst = 0 ∧ s.ctxs[k].firstOpening = true) :
    s.answerExpired k = s.endWith id k .absent := by
  have silent : ¬ s.ctxs[k].attempt < 3 := Nat.not_lt.2 limit
  rw [State.answerExpired_opening opening, ← State.endContext_eq_endWith]
  unfold State.endContext
  cases purpose : s.ctxs[k].purpose with
  | read => exact (if_neg silent).trans (if_pos (first purpose))
  | erase => exact if_neg silent

/-- After three silences any other opening of a read begins again (R100, R105). -/
theorem State.answerExpired_restarts (limit : 3 ≤ s.ctxs[k].attempt) (reads : s.ctxs[k].purpose = .read)
    (later : ¬ (s.ctxs[k].segFirst = 0 ∧ s.ctxs[k].firstOpening = true)) : s.answerExpired k = s.restart k := by
  rw [State.answerExpired_opening opening, reads]
  exact (if_neg (Nat.not_lt.2 limit)).trans (if_neg later)

end

/-! ### The frame asked for again -/

/-- The context at the attempt given, its window at an end (R100, R110, R111). -/
def Context.attempts (n : Nat) (c : Context) : Context := { c with attempt := n, window := none }

theorem State.resend_eq (k : CtxId) (need : Nat) (s : State) :
    s.resend k need = (s.updCtx k (Context.attempts (s.ctxs[k].attempt + 1))).joinLine k need := rfl

theorem State.holdExpired_eq (k : CtxId) (s : State) : s.holdExpired k = (s.updCtx k (Context.attempts 1)).joinLine k 1 := rfl

/-- In OPENING a context asks at an expiry with the frame of its purpose, its attempt counted (R99, R100, R110, R111). -/
theorem State.expiry_attempts {at_ : Clock} {s : State} {k : CtxId} (opening : s.ctxs[k].state = .opening) (n need : Nat) :
    let t := State.stamp s (((s.advanceTo at_).updCtx k (Context.attempts n)).joinLine k need).settle
    t.ctxs[k].state = .opening ∧ t.ctxs[k].plan = { s.ctxs[k].plan with attempt := n, window := none } ∧
      t.asksFor k need (match s.ctxs[k].purpose with | .read => .openFrame | .erase => .eraseFrame) .opening := by
  obtain ⟨asks, plan⟩ := State.expiry_asks (at_ := at_) (F := Context.attempts n) (need := need) opening
    (Context.grantedKind_asking opening) nofun
  exact ⟨(State.asksFor_state asks).elim id id, plan, asks⟩

/-! ### The request that silence ends -/

/-- The entry of a unit that did not answer (R55, R58). -/
theorem DirEntry.requestEnded_absent (p : Purpose) (ed : Edition) (e : DirEntry) :
    (DirEntry.requestEnded id p .absent ed e).record =
      if p = .read then { e.record with absentStreak := min 255 (e.absentStreak + 1), lastRead := ed }
      else { e.record with absentStreak := min 255 (e.absentStreak + 1) } := by
  cases p with
  | read => rfl
  | erase => rfl

theorem endNext_absent (p : Purpose) : endNext p .absent = match p with | .read => .absent | .erase => .idle := by
  cases p with
  | read => rfl
  | erase => rfl

/-- A request that silence ends: its unit ABSENT, or at rest after an erase, its context released and its orders completed (R55, R58,
R100, R110, R113, R149). -/
theorem State.expiry_absent {s : State} (k : CtxId) (at_ : Clock) (hm : s.memOk) :
    let t := State.stamp s ((s.advanceTo at_).endWith id k .absent).settle
    let c := s.ctxs[k]
    let u := c.target
    t.clock = s.meetsAt at_ ∧
      t.dir[u].record =
        (if c.purpose = .read then
          { s.dir[u].record with absentStreak := min 255 (s.dir[u].absentStreak + 1), lastRead := s.sweep.openEdition }
        else { s.dir[u].record with absentStreak := min 255 (s.dir[u].absentStreak + 1) }) ∧
      (∀ n x, s.awaits k n x → t.slotDone n 3 x.edition (s.meetsAt at_)) ∧
      s.released t k ∧ s.unitEnds t u (endNext c.purpose .absent) .absent ∧
      (c.purpose = .read → s.counts t u .done fun x => { x with absent := x.absent + 1 }) ∧
      Rest { ctxs := (· = k), chans := (· = c.channel), units := (· = u), slots := fun n => hasSlot c.attached n = true } s t := by
  obtain ⟨b, hB⟩ : ∃ b, b = s.advanceTo at_ := ⟨_, rfl⟩
  have ctxs : b.ctxs = s.ctxs := by simp [hB]
  have sweep : b.sweep = s.sweep := by simp [hB]
  have orders : b.orders = s.orders := by simp [hB]
  have clock : b.clock = s.meetsAt at_ := by rw [hB, State.advanceTo_clock]
  have leads : s.leadsTo b k s.ctxs[k].target := hB ▸ State.leadsTo_advanceTo at_ s k _
  have streak : b.dir[s.ctxs[k].target].absentStreak = s.dir[s.ctxs[k].target].absentStreak := by
    obtain ⟨_, entry⟩ := State.advanceTo_entry at_ s s.ctxs[k].target
    rw [hB, entry]
  have target : b.ctxs[k].target = s.ctxs[k].target := by rw [ctxs]
  have unchanged : ∀ e : DirEntry, (id e).state = e.state ∧ (id e).mark = e.mark ∧ (id e).record = e.record :=
    fun _ => ⟨rfl, rfl, rfl⟩
  have own : Rest { ctxs := (· = k), chans := (· = s.ctxs[k].channel) } s b := hB ▸ (Rest.advanceTo at_ s).widen
  have released := State.endWith_released (g := id) (k := k) (out := .absent) (b := b) s
  have unit := State.endWith_unit unchanged target (out := .absent) s
  have done := State.endWith_done (g := id) (k := k) (out := .absent) s (hB ▸ State.advanceTo_memOk at_ s hm)
  rw [← hB]
  refine ⟨?_, ?_, fun n x waits => ?_, ?_, ?_, fun reads pending calm => ?_, (Rest.leadsTo_ended leads rfl own rfl id .absent).settled⟩
  · rw [State.stamp_clock, State.settle_clock, State.endWith, (State.endCommitting_frame _ _ _).1, (State.requestEnded_frame _ _ _ _).1,
      clock]
  · rw [State.stamp_dir, State.settle_record, State.endWith_entry target DirEntry.record fun _ => rfl, DirEntry.requestEnded_absent,
      leads.record, streak, ctxs, sweep]
  · rw [← clock]
    exact done n x (by simpa only [State.awaits, ctxs, orders] using waits)
  · simpa only [State.released, ctxs] using released
  · simpa only [State.unitEnds, ctxs, leads.state, sweep] using unit
  · obtain ⟨mark, tallies⟩ := State.endWith_pending unchanged target (out := .absent) (by rw [ctxs]; exact reads)
      (leads.mark.trans pending)
    have calm' : (b.endWith id k .absent).sweep.autoDue = false := State.endWith_autoDue.trans (by rw [sweep]; exact calm)
    refine ⟨?_, ?_⟩
    · rw [State.stamp_dir, State.settle_mark calm', mark]
      rfl
    · rw [State.stamp_sweep_congr s _ (·.tallies) fun _ _ => rfl, State.settle_tallies calm', tallies, sweep]
      rfl

/-- Settles O51: by the attempts made and the opening met, from the state that time has come to. -/
theorem silenceAsksAgainOrEndsAbsent : Obligations.SilenceAsksAgainOrEndsAbsent := by
  unfold Obligations.SilenceAsksAgainOrEndsAbsent
  intro k at_ s hm c u frame
  have ctxs : (s.advanceTo at_).ctxs = s.ctxs := by simp
  have met : ∀ st, c.state = st → (s.advanceTo at_).ctxs[k].state = st := fun _ x => by rw [ctxs]; exact x
  refine ⟨fun h opening below => ?_, fun h opening limit first => ?_, fun h opening limit reads later once => ?_, fun h => ?_⟩
  · have again := State.answerExpired_asks (met _ opening) (by rw [ctxs]; exact below)
    rw [State.resend_eq, ctxs] at again
    rw [exec_answerWindowExpiry h, again]
    obtain ⟨clock, self, portLast, still, own⟩ := State.expiry_joins at_ s k (Context.attempts (c.attempt + 1))
      (match c.purpose with | .read => c.countAsked | .erase => 1)
    obtain ⟨state, plan, asks⟩ := State.expiry_attempts opening (c.attempt + 1)
      (match c.purpose with | .read => c.countAsked | .erase => 1)
    exact ⟨_, rfl, clock, self, portLast, state, plan, asks, still, own⟩
  · rw [exec_answerWindowExpiry h, State.answerExpired_absent (met _ opening) (by rw [ctxs]; exact limit) (by rw [ctxs]; exact first)]
    obtain ⟨clock, record, done, released, unit, counts, own⟩ := State.expiry_absent k at_ hm
    rw [endNext_absent] at unit
    exact ⟨_, rfl, clock, record, done, released, unit, counts, own⟩
  · rw [exec_answerWindowExpiry h,
      State.answerExpired_restarts (met _ opening) (by rw [ctxs]; exact limit) (by rw [ctxs]; exact reads) (by rw [ctxs]; exact later)]
    exact ⟨_, rfl, State.expiry_restarts at_ hm reads once⟩
  · rw [exec_holdWindowExpiry h, State.holdExpired_eq]
    obtain ⟨clock, self, portLast, still, own⟩ := State.expiry_joins at_ s k (Context.attempts 1) 1
    refine ⟨_, rfl, clock, self, portLast, fun opening => ?_, fun opening erases => ?_, still, own⟩
    · obtain ⟨state, plan, _⟩ := State.expiry_attempts opening 1 1
      exact ⟨state, plan⟩
    · obtain ⟨_, _, asks⟩ := State.expiry_attempts opening 1 1
      rw [erases] at asks
      exact asks

end Sys2Proof.Machine
end


section
/-! SUPPORT. Silence in RECEIVING and MENDING (R79, R103, R104, R105). -/

namespace Sys2Proof.Machine

/-! ### A mending round at an expiry -/

theorem State.startMending_eq (k : CtxId) (round : Nat) (s : State) : s.startMending k round =
    let list := s.ctxs[k].missing.take 7
    let x := s.updCtx k (Context.mends round list)
    if list.isEmpty then x.sendFrame k .pickFrame else x.joinLine k list.length := rfl

/-- A mending round asks for the PICK of the lowest missing places, or with none missing sends an empty one at once (R79, R103, R104). -/
theorem State.expiry_mends (at_ : Clock) (s : State) (k : CtxId) (round : Nat) :
    let x := s.ctxs[k]
    let t := State.stamp s ((s.advanceTo at_).startMending k round).settle
    t.clock = s.meetsAt at_ ∧ t.self = s.self ∧ t.portLast = s.portLast ∧ t.ctxs[k].state = .mending ∧
      t.ctxs[k].plan = { x.plan with mendRound := round, pickList := x.missing.take 7, window := none } ∧
      (x.missing ≠ [] → t.asksFor k (min 7 x.missing.length) .pickFrame .mending) ∧
      (x.missing = [] → t.ctxs[k].frameQueued = some .pickFrame ∧ t.sends k .pickFrame) ∧
      s.still t ∧ Rest { ctxs := (· = k) } s t := by
  have begins := State.startMending_eq k round (s.advanceTo at_)
  have ctxs : (s.advanceTo at_).ctxs = s.ctxs := by simp
  rw [ctxs] at begins
  by_cases missing : s.ctxs[k].missing = []
  · have none_ : (s.ctxs[k].missing.take 7).isEmpty = true := by rw [missing]; rfl
    obtain ⟨sends, state, plan, clock, self, portLast, still, own⟩ := State.expiry_sends (at_ := at_) (s := s) (k := k)
      (F := Context.mends round (s.ctxs[k].missing.take 7)) .pickFrame nofun
    rw [begins.trans (if_pos none_)]
    exact ⟨clock, self, portLast, state, plan, fun some_ => absurd missing some_, fun _ => ⟨sends.1, sends⟩, still, own⟩
  · have some_ : ¬ (s.ctxs[k].missing.take 7).isEmpty = true := by simpa using missing
    obtain ⟨clock, self, portLast, still, own⟩ := State.expiry_joins at_ s k (Context.mends round (s.ctxs[k].missing.take 7))
      (min 7 s.ctxs[k].missing.length)
    obtain ⟨asks, plan⟩ := State.expiry_asks (at_ := at_) (s := s) (k := k) (F := Context.mends round (s.ctxs[k].missing.take 7))
      (need := min 7 s.ctxs[k].missing.length) rfl (Context.grantedKind_mending rfl) nofun
    rw [begins.trans (if_neg some_), List.length_take]
    exact ⟨clock, self, portLast, (State.asksFor_state asks).elim id id, plan, fun _ => asks,
      fun none_ => absurd none_ missing, still, own⟩

/-! ### Which silence does what -/

section
variable {k : CtxId} {s : State}

theorem State.gapExpired_receiving (receiving : s.ctxs[k].state = .receiving) :
    s.gapExpired k = s.startMending k (s.ctxs[k].mendRound + 1) := by
  unfold State.gapExpired
  rw [receiving]

theorem State.gapExpired_mending (mending : s.ctxs[k].state = .mending) : s.gapExpired k = s.mendSilence k := by
  unfold State.gapExpired
  rw [mending]

theorem State.answerExpired_mending (mending : s.ctxs[k].state = .mending) : s.answerExpired k = s.mendSilence k := by
  unfold State.answerExpired
  rw [mending]

theorem State.mendSilence_eq (k : CtxId) (s : State) : s.mendSilence k =
    if s.ctxs[k].mendRound < 2 then s.startMending k (s.ctxs[k].mendRound + 1) else s.restart k := rfl

/-- In MENDING both windows end in the same silence (R104). -/
theorem exec_mendSilence {at_ : Clock} {c : Instr} (mending : s.ctxs[k].state = .mending)
    (expiry : s.expires k .gap at_ ∧ c = .gapWindowExpiry k ∨ s.expires k .answer at_ ∧ c = .answerWindowExpiry k) :
    exec c s = .next (State.stamp s ((s.advanceTo at_).mendSilence k).settle) := by
  have mending' : (s.advanceTo at_).ctxs[k].state = .mending := by simpa using mending
  rcases expiry with ⟨h, rfl⟩ | ⟨h, rfl⟩
  · rw [exec_gapWindowExpiry h, State.gapExpired_mending mending']
  · rw [exec_answerWindowExpiry h, State.answerExpired_mending mending']

end

/-- Settles O52: each silence starts a round or restarts the read, from the state that time has come to. -/
theorem gapSilenceMends : Obligations.GapSilenceMends := by
  unfold Obligations.GapSilenceMends
  constructor
  · intro k at_ c s silence x
    have ctxs : (s.advanceTo at_).ctxs = s.ctxs := by simp
    have mends : exec c s = .next (State.stamp s ((s.advanceTo at_).startMending k (x.mendRound + 1)).settle) := by
      rcases silence with ⟨h, rfl, receiving⟩ | ⟨mending, below, expiry⟩
      · rw [exec_gapWindowExpiry h, State.gapExpired_receiving (by rw [ctxs]; exact receiving), ctxs]
      · rw [exec_mendSilence mending expiry, State.mendSilence_eq, ctxs, if_pos below]
    exact ⟨_, mends, State.expiry_mends at_ s k _⟩
  · intro k at_ c s hm mending reads limit once expiry
    have ctxs : (s.advanceTo at_).ctxs = s.ctxs := by simp
    have restarts : (s.advanceTo at_).mendSilence k = (s.advanceTo at_).restart k := by
      rw [State.mendSilence_eq, ctxs, if_neg (Nat.not_lt.2 limit)]
    rw [exec_mendSilence mending expiry, restarts]
    exact ⟨_, rfl, State.expiry_restarts at_ hm reads once⟩

end Sys2Proof.Machine
end


section
/-! SUPPORT. What the contexts and the directory hold after a full reset (R51, R67, R114, R116). -/

namespace Sys2Proof.Machine

/-- The bytes from 0x600 to 0x7FF are those of the context views (12.1). -/
theorem State.exchangeByte_ctx (s : State) {a : Nat} (low : 0x600 ≤ a) (high : a < 0x800) :
    ∃ (k : CtxId) (i : Nat), s.exchangeByte a = ((s.ctxView k).bytes s.ctxs[k].revision).getD i 0 := by
  have host : Config.hostAreaEnd ≤ 0x600 := by decide
  refine ⟨blockIndex 8 (by decide) 0x600 64 a, (a - 0x600) % 64, ?_⟩
  unfold State.exchangeByte
  rw [if_neg (by omega), if_neg (by omega), if_neg (by omega), if_pos high]

/-- What a FREE context with parity 0 shows: 0 in every field (R92, R116). -/
def CtxView.zero : CtxView :=
  { state := .free, target := 0, channel := 0, purpose := .read, parity := false, firstOpening := false, truncMark := false, tag := 0
    origin := 0, attached := 0, generation := 0, epoch := 0, total := 0, segFirst := 0, countAsked := 0, granted := 0, mendRound := 0
    attempt := 0, restartCount := 0, holdCount := 0, creditNeed := 0, frameQueued := none, window := none, complete := 0, missing := 0
    pickList := [], useAnswer := 0, useGap := 0, useStop := 0, useLimit := 0 }

theorem CtxView.zero_bytes (i : Nat) : (CtxView.zero.bytes 0).getD i 0 = 0 := by
  have zeros : ∀ b ∈ CtxView.zero.bytes 0, b = 0 := by decide
  by_cases h : i < (CtxView.zero.bytes 0).length
  · rw [List.getD_eq_getElem _ _ h]
    exact zeros _ (List.getElem_mem h)
  · exact List.getD_eq_default _ _ (Nat.le_of_not_lt h)

theorem State.ctxView_freed {s : State} {k : CtxId} (h : s.ctxs[k] = Context.freed 0 false) : s.ctxView k = CtxView.zero := by
  have complete : (Context.freed 0 false).completeCount = 0 := by decide
  unfold State.ctxView
  simp only [h, complete]
  rfl

/-- After a full reset every byte of the context views reads 0 (R116). -/
theorem State.reset_exchangeByte_ctx {a : Nat} (low : 0x600 ≤ a) (high : a < 0x800) : State.reset.exchangeByte a = 0 := by
  obtain ⟨k, i, byte⟩ := State.exchangeByte_ctx State.reset low high
  have revision : State.reset.ctxs[k].revision = 0 := by
    rw [State.reset_ctx]
    rfl
  rw [byte, State.ctxView_freed (State.reset_ctx k), revision, CtxView.zero_bytes]

/-- Settles O7: the end of initialisation leaves the reset values, read field by field. -/
theorem fullResetContextsAndDirectory : Obligations.FullResetContextsAndDirectory := by
  unfold Obligations.FullResetContextsAndDirectory
  intro s t u ht hu
  obtain rfl : { State.initialisation with pending := s.pending } = t := Host.Outcome.next.inj ht
  obtain rfl : { State.reset with pending := s.pending } = u := Host.Outcome.next.inj hu
  refine ⟨fun k => ?_, rfl, fun c => ?_, fun v => ?_, rfl⟩
  · have shows_ : ∀ i : Fin 64, State.reset.exchangeByte (0x600 + 64 * k.val + i.val) = 0 := fun i =>
      State.reset_exchangeByte_ctx (by omega) (by omega)
    have staging : ∀ i : Fin 64, State.reset.ctxs[k].staging[i] = { halfA := none, halfB := none } := fun i => by
      rw [State.reset_ctx]
      simp [Context.freed, emptyStaging]
    have ctx := State.reset_ctx k
    exact ⟨congrArg (·.state) ctx, congrArg (·.parity) ctx, congrArg (·.window) ctx, congrArg (·.frameQueued) ctx,
      congrArg (·.attached) ctx, congrArg (·.useAnswer) ctx, staging, shows_⟩
  · have chan := State.reset_chan c
    exact ⟨congrArg (·.txQueue) chan, congrArg (·.txOutside) chan, congrArg (·.txDeferred) chan⟩
  · refine (State.reset_dir v).trans ?_
    by_cases collector : v = 0
    · rw [if_pos collector, if_pos collector, decide_eq_true collector]
      rfl
    · rw [if_neg collector, if_neg collector, decide_eq_false collector]
      rfl

end Sys2Proof.Machine
end

section
/-! SUPPORT. Events on one channel's own block: what they leave of the block and of the rest of the part (R119, R122, R127, R129). -/

namespace Sys2Proof.Machine

/-! ### The error counters -/

theorem ChanState.joined_iff (x : ChanState) : x.joined = true ↔ x = .active ∨ x = .passive := by
  cases x <;> simp [ChanState.joined]

/-- On a joined channel the two counters decide between ACTIVE and PASSIVE (R119). -/
theorem Channel.compareErrors_joined {c : Channel} (joined : c.state.joined = true) :
    c.compareErrors = { c with state := if 128 ≤ c.txErrors ∨ 128 ≤ c.rxErrors then .passive else .active } := by
  unfold Channel.compareErrors
  rcases (ChanState.joined_iff _).1 joined with active | passive
  · rw [active]
    dsimp only
    split
    · rfl
    · rw [← active]
  · rw [passive]
    dsimp only
    by_cases low : c.txErrors < 128 ∧ c.rxErrors < 128
    · rw [if_pos low, if_neg (by omega)]
    · rw [if_neg low, if_pos (by omega), ← passive]

/-! ### Events that nothing follows -/

/-- An event that leaves contexts, directory and sweep alone steps no revision but the channels'. -/
theorem State.stamp_of_quiet {s m : State} (ctxs : m.ctxs = s.ctxs) (dir : m.dir = s.dir) (sweep : m.sweep = s.sweep) :
    let t := State.stamp s m
    t = { m with chans := t.chans, port := { m.port with attnLow := t.port.attnLow } } := by
  have kept := State.stamp_ctxs_of_eq ctxs dir
  have still := State.stamp_sweep_of_eq sweep
  unfold State.stamp at kept still ⊢
  dsimp only at kept still ⊢
  rw [kept, still]

/-- Two updates of one channel are one. -/
theorem State.updChan_updChan (ch : ChanId) (f g : Channel → Channel) (s : State) :
    (s.updChan ch f).updChan ch g = s.updChan ch fun c => g (f c) := by
  unfold State.updChan
  simp

/-- Of an update of a channel only what it makes of that channel's block counts. -/
theorem State.updChan_congr {ch : ChanId} {f g : Channel → Channel} {s : State} (same : f s.chans[ch] = g s.chans[ch]) :
    s.updChan ch f = s.updChan ch g := by
  unfold State.updChan
  rw [same]

/-- A channel that an event leaves alone keeps its block, revision included. -/
theorem State.stamp_chan_other {s m : State} {j : ChanId} (same : m.chans[j] = s.chans[j]) :
    (State.stamp s m).chans[j] = s.chans[j] := by
  rw [State.stamp_chan, same, stampChan, if_pos rfl]

/-- An event on one channel's block that nothing follows writes that block and the line ATTN_N alone. -/
theorem State.stamp_updChan (ch : ChanId) (f : Channel → Channel) (s : State) :
    let t := State.stamp s (s.updChan ch f)
    t.chans[ch] = stampChan s.chans[ch] (f s.chans[ch]) ∧ (∀ j, j ≠ ch → t.chans[j] = s.chans[j]) ∧
      t = { s with chans := t.chans, port := { s.port with attnLow := t.port.attnLow } } := by
  refine ⟨?_, fun j other => State.stamp_chan_other ?_, State.stamp_of_quiet (m := s.updChan ch f) rfl rfl rfl⟩
  · rw [State.stamp_chan, State.updChan_get, if_pos rfl]
  · rw [State.updChan_get, if_neg other]

theorem partEvent_eq (f : State → State) {s : State} (run : s.running) : partEvent f s = State.stamp s (f s) := by
  have run : s.port.initialising = false := run
  unfold partEvent
  rw [if_neg (by rw [run]; exact Bool.false_ne_true)]
  rfl

end Sys2Proof.Machine
end

section
/-! SUPPORT. Receive errors and the beginning of a transmission (R119, R122). -/

namespace Sys2Proof.Machine

/-- A beginning marks the head, which no view shows (R122, R131). -/
theorem Channel.beginHead_head {c : Channel} {h : TxEntry} {rest : List TxEntry} (queue : c.txQueue = h :: rest) :
    c.beginHead = { c with txQueue := { h with transmitting := true } :: rest } := by
  unfold Channel.beginHead
  rw [queue]

/-- An error while receiving on a joined channel (R119). -/
theorem Channel.receiveError_joined {c : Channel} (joined : c.state.joined = true) :
    c.receiveError = { c with rxErrors := min 255 (c.rxErrors + 1)
                              state := if 128 ≤ c.txErrors ∨ 128 ≤ min 255 (c.rxErrors + 1) then .passive else .active } :=
  Channel.compareErrors_joined (c := { c with rxErrors := satSucc 255 c.rxErrors }) joined

/-- Settles O34: both are events on the channel's own block that nothing follows. -/
theorem receiveErrorsAndBeginningsCount : Obligations.ReceiveErrorsAndBeginningsCount := by
  unfold Obligations.ReceiveErrorsAndBeginningsCount
  intro ch s run joined
  refine ⟨?_, fun h rest queue => ?_⟩
  · obtain ⟨block, others, frame⟩ := State.stamp_updChan ch Channel.receiveError s
    have same := stampChan_same s.chans[ch] s.chans[ch].receiveError
    rw [← block, Channel.receiveError_joined joined] at same
    refine ⟨_, congrArg Host.Outcome.next ((if_pos joined).trans (partEvent_eq _ run)), ?_, ?_, ?_, others, frame⟩
    · exact Channel.same_congr same (·.rxErrors) fun _ _ => rfl
    · exact Channel.same_congr same (·.state) fun _ _ => rfl
    · obtain ⟨c, hC⟩ : ∃ c, c = s.chans[ch] := ⟨_, rfl⟩
      rw [← hC] at same ⊢
      exact Channel.same_congr same (fun x : Channel => { x with revision := c.revision, rxErrors := c.rxErrors, state := c.state })
        fun _ _ => rfl
  · obtain ⟨block, others, frame⟩ := State.stamp_updChan ch Channel.beginHead s
    refine ⟨_, congrArg Host.Outcome.next ((if_pos joined).trans (partEvent_eq _ run)), ?_, others, frame⟩
    rw [block, Channel.beginHead_head queue]
    exact if_pos rfl

end Sys2Proof.Machine
end

section
/-! SUPPORT. A frame received without error (R119, R123, R124, R129). -/

namespace Sys2Proof.Machine

/-- The kinds a unit sends are those with codes 0x11 to 0x16 (R71). -/
theorem RxKind.ofCode_isSome (code : BitVec 5) : (RxKind.ofCode code).isSome = true ↔ 0x11 ≤ code.toNat ∧ code.toNat ≤ 0x16 := by
  revert code
  decide

/-- The filter, bit by bit of the identifier (R71, R123). -/
theorem Channel.passes_iff (f : Frame) (c : Channel) : c.passes f = true ↔
    f.extended = true ∧ f.remote = false ∧ f.ident.getLsbD 25 = false ∧ 0x11 ≤ (f.ident.extractLsb' 20 5).toNat ∧
      (f.ident.extractLsb' 20 5).toNat ≤ 0x16 ∧ f.ident.extractLsb' 8 8 = c.settings.address := by
  have format : f.formatBit = 0 ↔ f.ident.getLsbD 25 = false := by
    unfold Frame.formatBit
    constructor
    · intro zero
      simpa using congrArg (·.getLsbD 0) zero
    · intro clear
      refine BitVec.eq_of_getLsbD_eq fun i hi => ?_
      obtain rfl : i = 0 := by omega
      simpa using clear
  have kind : f.rxKind.isSome = true ↔ (f.extended = true ∧ f.remote = false ∧ f.formatBit = 0) ∧
      0x11 ≤ f.kindCode.toNat ∧ f.kindCode.toNat ≤ 0x16 := by
    rw [← RxKind.ofCode_isSome]
    unfold Frame.rxKind
    simp only [Bool.and_eq_true, Bool.not_eq_true', beq_iff_eq]
    split
    · next readOut => exact ⟨fun some => ⟨⟨readOut.1.1, readOut.1.2, readOut.2⟩, some⟩, fun h => h.2⟩
    · next other => exact ⟨nofun, fun h => absurd ⟨⟨h.1.1, h.1.2.1⟩, h.1.2.2⟩ other⟩
  unfold Channel.passes
  rw [Bool.and_eq_true, kind, format, beq_iff_eq]
  unfold Frame.kindCode Frame.destination
  tauto

/-- A frame received, before the filter: the counters and the load monitor (R119, R129). -/
def Channel.taking (f : Frame) (c : Channel) : Channel := (c.receivedOk).countFrame f

theorem Channel.taking_joined {f : Frame} {c : Channel} (joined : c.state.joined = true) :
    c.taking f = { c with
      rxErrors := c.rxErrors - 1
      state := if 128 ≤ c.txErrors ∨ 128 ≤ c.rxErrors - 1 then .passive else .active
      accumulator := c.accumulator + ((if f.extended then 67 else 47) + if f.remote then 0 else 8 * min 8 f.dlc.toNat)
      windowFrames := min 65535 (c.windowFrames + 1) } := by
  unfold Channel.taking Channel.receivedOk
  rw [Channel.compareErrors_joined (c := { c with rxErrors := c.rxErrors - 1 }) joined]
  rfl

/-- The filter and the overflow policy see what the counters leave alone. -/
theorem Channel.taking_settings {f : Frame} {c : Channel} (joined : c.state.joined = true) :
    (c.taking f).fifo = c.fifo ∧ (c.taking f).settings = c.settings ∧ (c.taking f).passes f = c.passes f := by
  rw [Channel.taking_joined joined]
  exact ⟨rfl, rfl, rfl⟩

/-- What the channel holds once the frame has met the filter and the FIFO (R123, R124). -/
def Channel.received (f : Frame) (c : Channel) : Channel := if c.passes f then (c.taking f).pushFifo f else c.taking f

/-- A passed frame meets a full FIFO (R124). -/
def Channel.overflows (f : Frame) (c : Channel) : Bool := c.passes f && decide (32 ≤ c.fifo.length)

/-- The FIFO and the tally after a frame: it stays outside, joins, or meets the overflow policy (R123, R124, R126). -/
theorem Channel.received_joined {f : Frame} {c : Channel} (joined : c.state.joined = true) :
    c.received f = { c.taking f with
      fifo := if c.passes f = false then c.fifo else if c.fifo.length < 32 then c.fifo ++ [f]
        else if c.settings.policy = .keepNewest then c.fifo.tail ++ [f] else c.fifo
      overflowTally := if c.overflows f then min 65535 (c.overflowTally + 1) else c.overflowTally } := by
  obtain ⟨fifo, settings, -⟩ := Channel.taking_settings (f := f) joined
  have tally : (c.taking f).overflowTally = c.overflowTally := by rw [Channel.taking_joined joined]
  unfold Channel.received Channel.overflows
  cases c.passes f with
  | false =>
    simp only [Bool.false_eq_true, if_false, if_true, Bool.false_and]
    rw [← fifo, ← tally]
  | true =>
    simp only [if_true, Bool.true_and, Bool.true_eq_false, if_false]
    unfold Channel.pushFifo Config.fifoDepth
    rw [fifo]
    by_cases room : c.fifo.length < 32
    · rw [if_pos room, if_pos room, if_neg (by simpa using room), ← tally]
    · have full : decide (32 ≤ c.fifo.length) = true := by simpa using room
      rw [if_neg room, if_neg room, if_pos full]
      dsimp only
      rw [settings, tally]
      cases c.settings.policy <;> rfl

/-- A frame received writes its channel, and logs RESPONSE_OVERFLOW for the frame a full FIFO loses (R124). -/
theorem State.receiveFrame_eq {ch : ChanId} {f : Frame} {s : State} (joined : s.chans[ch].state.joined = true) :
    s.receiveFrame ch f = if s.chans[ch].overflows f
      then (s.updChan ch (Channel.received f)).logSelf .responseOverflow (BitVec.ofNat 8 ch.val) false
      else s.updChan ch (Channel.received f) := by
  obtain ⟨fifo, -, passes⟩ := Channel.taking_settings (f := f) joined
  obtain ⟨b, hB⟩ : ∃ b, b = s.updChan ch (Channel.taking f) := ⟨_, rfl⟩
  have chan : b.chans[ch] = s.chans[ch].taking f := by rw [hB, State.updChan_get, if_pos rfl]
  have steps : s.receiveFrame ch f = if b.chans[ch].passes f then
      if decide (32 ≤ b.chans[ch].fifo.length) then
        (b.updChan ch (Channel.pushFifo f)).logSelf .responseOverflow (BitVec.ofNat 8 ch.val) false
      else b.updChan ch (Channel.pushFifo f)
    else b := hB ▸ rfl
  rw [steps, chan, passes, fifo]
  unfold Channel.overflows
  cases pass : s.chans[ch].passes f with
  | false =>
    simp only [Bool.false_eq_true, if_false, Bool.false_and]
    rw [hB]
    exact State.updChan_congr (by rw [Channel.received, pass]; rfl)
  | true =>
    have pushed : b.updChan ch (Channel.pushFifo f) = s.updChan ch (Channel.received f) := by
      rw [hB, State.updChan_updChan]
      exact State.updChan_congr (by rw [Channel.received, pass]; rfl)
    simp only [if_true, Bool.true_and]
    rw [pushed]

/-- A logging request leaves the history as it was, or changes it in one write (R64, R69). -/
theorem State.logSelf_steps (code : SelfCode) (mode : Byte) (active : Bool) (s : State) :
    let t := s.logSelf code mode active
    (t.self = s.self ∨
        t.self.revision = s.self.revision + 2 ∧ t.self.generation = s.self.generation + 1 ∧ t.hasAttn .selfGrew) ∧
      t = { s with self := t.self, port := { s.port with attention := t.port.attention } } := by
  unfold State.logSelf
  split
  · exact ⟨.inr ⟨rfl, rfl, attn_hasOr _ _⟩, rfl⟩
  · split
    · exact ⟨.inr ⟨rfl, rfl, attn_hasOr _ _⟩, rfl⟩
    · exact ⟨.inl rfl, rfl⟩

/-- A request logged shows its identity, unless the history was full of others (R64). -/
theorem State.logSelf_entry (code : SelfCode) (mode : Byte) (active : Bool) (s : State) :
    let t := s.logSelf code mode active
    64 ≤ s.self.entries.length ∨ t.hasAttn .selfGrew ∧ ∃ e ∈ t.self.entries, e.code = code ∧ e.mode = mode := by
  rcases State.logSelf_cases code mode active s with ⟨entries, grew, present⟩ | ⟨entries, grew, _⟩ | ⟨_, full, _⟩
  · obtain ⟨e, found⟩ := Option.isSome_iff_exists.1 present
    obtain ⟨sameCode, sameMode⟩ := SelfEntry.hasIdent_iff.1 (List.find?_some found)
    obtain ⟨keptCode, keptMode⟩ := SelfEntry.counted_ident code mode s.odometer active e
    refine .inr ⟨grew, e.counted code mode s.odometer active, ?_, keptCode.trans sameCode, keptMode.trans sameMode⟩
    rw [entries]
    exact List.mem_map_of_mem (List.mem_of_find?_eq_some found)
  · refine .inr ⟨grew, s.firstEntry code mode active, ?_, rfl, rfl⟩
    rw [entries]
    exact List.mem_append_right _ (List.mem_singleton.2 rfl)
  · exact .inl full

/-- What a frame received leaves of the part: its channel's block, and the history where a full FIFO lost a frame. -/
theorem State.receiveFrame_parts {ch : ChanId} {f : Frame} {s : State} (joined : s.chans[ch].state.joined = true) :
    let m := s.receiveFrame ch f
    m = { s with chans := (s.updChan ch (Channel.received f)).chans, self := m.self,
                 port := { s.port with attention := m.port.attention } } ∧
      (s.chans[ch].overflows f = false → m.self = s.self) ∧
      (s.chans[ch].overflows f = true → 64 ≤ s.self.entries.length ∨ m.hasAttn .selfGrew ∧
        ∃ e ∈ m.self.entries, e.code = .responseOverflow ∧ e.mode = BitVec.ofNat 8 ch.val) ∧
      (m.self = s.self ∨
        m.self.revision = s.self.revision + 2 ∧ m.self.generation = s.self.generation + 1 ∧ m.hasAttn .selfGrew) := by
  dsimp only
  rw [State.receiveFrame_eq joined]
  cases s.chans[ch].overflows f with
  | false => exact ⟨rfl, fun _ => rfl, nofun, .inl rfl⟩
  | true =>
    obtain ⟨x, hX⟩ : ∃ x, x = s.updChan ch (Channel.received f) := ⟨_, rfl⟩
    have entry := State.logSelf_entry .responseOverflow (BitVec.ofNat 8 ch.val) false x
    obtain ⟨steps, frame⟩ := State.logSelf_steps .responseOverflow (BitVec.ofNat 8 ch.val) false x
    have self : x.self = s.self := by rw [hX]; rfl
    rw [self] at entry steps
    rw [if_pos rfl, ← hX]
    refine ⟨frame.trans ?_, nofun, fun _ => entry, steps⟩
    rw [hX]
    rfl

/-- Settles O33: the channel's block by what it holds after the filter and the FIFO, the history by the one request logged. -/
theorem frameReceivedIsCountedAndFiltered : Obligations.FrameReceivedIsCountedAndFiltered := by
  unfold Obligations.FrameReceivedIsCountedAndFiltered
  intro ch f s run joined
  obtain ⟨m, hM⟩ : ∃ m, m = s.receiveFrame ch f := ⟨_, rfl⟩
  obtain ⟨frame, quiet, lost, steps⟩ := State.receiveFrame_parts (f := f) joined
  rw [← hM] at frame quiet lost steps
  have chan : ∀ j : ChanId, m.chans[j] = if j = ch then s.chans[ch].received f else s.chans[j] := fun j => by
    rw [frame]
    exact State.updChan_get ch _ s j
  have same : (State.stamp s m).chans[ch].same (s.chans[ch].received f) := by
    have block := State.stamp_chan_same s m ch
    rwa [chan ch, if_pos rfl] at block
  have whole := State.stamp_of_quiet (s := s) (m := m) (by rw [frame]) (by rw [frame]) (by rw [frame])
  have filter := Channel.passes_iff f s.chans[ch]
  obtain ⟨c, hC⟩ : ∃ c, c = s.chans[ch] := ⟨_, rfl⟩
  rw [← hC] at same quiet lost filter joined
  rw [Channel.received_joined joined, Channel.taking_joined joined] at same
  have fifo := Channel.same_congr same (·.fifo) fun _ _ => rfl
  have tally := Channel.same_congr same (·.overflowTally) fun _ _ => rfl
  refine ⟨State.stamp s m, ?_, ?_, ?_, ?_, ?_, fun outside => ?_, fun pass room => ?_, fun pass full => ?_, ?_, ?_, fun j other => ?_, ?_⟩
  · rw [hM]
    exact congrArg Host.Outcome.next ((if_pos (hC ▸ joined)).trans (partEvent_eq _ run))
  · rw [← hC]
    exact Channel.same_congr same (·.rxErrors) fun _ _ => rfl
  · rw [← hC]
    exact Channel.same_congr same (·.state) fun _ _ => rfl
  · rw [← hC]
    exact Channel.same_congr same (·.accumulator) fun _ _ => rfl
  · rw [← hC]
    exact Channel.same_congr same (·.windowFrames) fun _ _ => rfl
  · rw [← hC] at outside ⊢
    have stopped : c.passes f = false := Bool.eq_false_iff.2 fun x => outside (filter.1 x)
    have fits : c.overflows f = false := by unfold Channel.overflows; rw [stopped]; rfl
    exact ⟨fifo.trans (if_pos stopped), tally.trans (if_neg (by rw [fits]; nofun)), quiet fits⟩
  · rw [← hC] at pass room ⊢
    have passed : c.passes f = true := filter.2 pass
    have fits : c.overflows f = false := by unfold Channel.overflows; rw [passed]; simpa using room
    exact ⟨fifo.trans ((if_neg (by rw [passed]; nofun)).trans (if_pos room)), tally.trans (if_neg (by rw [fits]; nofun)), quiet fits⟩
  · rw [← hC] at pass full ⊢
    have passed : c.passes f = true := filter.2 pass
    have lossy : c.overflows f = true := by unfold Channel.overflows; rw [passed]; simpa using full
    exact ⟨tally.trans (if_pos lossy), fifo.trans ((if_neg (by rw [passed]; nofun)).trans (if_neg (Nat.not_lt.2 full))), lost lossy⟩
  · exact steps
  · rw [← hC]
    exact Channel.same_congr same (fun x : Channel => { x with
      revision := c.revision, rxErrors := c.rxErrors, state := c.state, accumulator := c.accumulator
      windowFrames := c.windowFrames, fifo := c.fifo, overflowTally := c.overflowTally }) fun _ _ => rfl
  · exact State.stamp_chan_other (by rw [chan j, if_neg other])
  · let t := State.stamp s m
    exact Eq.trans whole
      (congrArg (fun x : State => { x with chans := t.chans, port := { x.port with attnLow := t.port.attnLow } }) frame)

end Sys2Proof.Machine
end

section
/-! SUPPORT. Events on one channel's block with all that follows at once, and what follow-up work leaves of a channel's settling
(R94, R127, R146). -/

namespace Sys2Proof.Machine

/-! ### The block and the rest of the part -/

theorem State.calmly_refl (s : State) : s.calmly s := State.calmly_of_dir rfl rfl rfl rfl rfl

/-- What has passed before an event's work on a channel's block: nothing but time. -/
structure State.passesTo (s b : State) : Prop where
  calm : s.calmly b
  chans : b.chans = s.chans
  portLast : b.portLast = s.portLast
  rest : Rest {} s b

theorem State.passesTo_refl (s : State) : s.passesTo s := ⟨s.calmly_refl, rfl, rfl, Rest.refl _ s⟩

theorem State.passesTo_advanceTo (at_ : Clock) (s : State) : s.passesTo (s.advanceTo at_) :=
  ⟨State.advanceTo_calmly at_ s, by simp, by simp, Rest.advanceTo at_ s⟩

/-- Work that ends no request: follow-up work keeps a channel's link and only adds to its queue, and the sweep stands. -/
theorem State.calmly.event {s m : State} {d : Touch} (calm : s.calmly m) (own : Rest d s m) (portLast : m.portLast = s.portLast)
    (ch : ChanId) :
    let t := State.stamp s m.settle
    t.chans[ch].link = m.chans[ch].link ∧ m.chans[ch].txQueue <+: t.chans[ch].txQueue ∧
      t.clock = m.clock ∧ t.self = s.self ∧ t.portLast = s.portLast ∧ s.still t ∧ Rest d s t := by
  have after : Rest {} m (State.stamp s m.settle) := (Rest.settle m).stamp s
  obtain ⟨self, still⟩ := calm.settled
  refine ⟨after.links ch id, after.sending ch id, ?_, self, ?_, still, own.settled⟩
  · rw [State.stamp_clock, State.settle_clock]
  · rw [State.stamp_portLast, (State.settle_frame m).2.2.2.1, portLast]

/-- An event on one channel's block, after time has passed. -/
theorem State.passesTo.event {s b : State} (h : s.passesTo b) (ch : ChanId) (f : Channel → Channel) :
    let t := State.stamp s (b.updChan ch f).settle
    t.chans[ch].link = (f s.chans[ch]).link ∧ (f s.chans[ch]).txQueue <+: t.chans[ch].txQueue ∧
      t.clock = b.clock ∧ t.self = s.self ∧ t.portLast = s.portLast ∧ s.still t ∧ Rest { chans := (· = ch) } s t := by
  have calm : s.calmly (b.updChan ch f) := h.calm.trans (State.calmly_of_dir rfl rfl rfl rfl rfl)
  have block : (b.updChan ch f).chans[ch] = f s.chans[ch] := by rw [State.updChan_get, if_pos rfl, h.chans]
  have event := calm.event (h.rest.widen.trans (Rest.updChan ch f b)) h.portLast ch
  rwa [block] at event

/-! ### Settling -/

/-- The settling flag and its timer (R127). -/
def Channel.settlement (c : Channel) : Bool × Option Clock := (c.settling, c.settleTimer)

theorem State.placeGranted_settlement (k : CtxId) (s : State) (c : ChanId) :
    (s.placeGranted k).chans[c].settlement = s.chans[c].settlement := by
  unfold State.placeGranted State.sendFrame Channel.offerFrame Channel.enqueue
  dsimp only
  rw [State.updCtx_chans, State.updChan_get]
  split
  · next h =>
    subst h
    split
    · rfl
    · split <;> rfl
  · rfl

theorem State.assign_settlement (k : CtxId) (u : UnitId) (p : Purpose) (s : State) (c : ChanId) :
    (s.assign k u p).chans[c].settlement = s.chans[c].settlement := by
  unfold State.assign
  dsimp only
  refine State.joinLine_induct (fun t => t.chans[c].settlement = s.chans[c].settlement) k _ _ (fun f t x => ?_) (fun t x => ?_) ?_
  · rw [State.updPacer, State.updChan_get]
    split
    · next h => exact h ▸ x
    · exact x
  · exact (State.placeGranted_settlement k t c).trans x
  · simp

/-- What follows an event wakes no segment unless a sweep ends in it (R127, R146, R160). -/
theorem State.settle_settlement {s : State} (ok : s.sweepOk) (c : ChanId) : s.settle.chans[c].settlement = s.chans[c].settlement := by
  unfold State.settle
  rw [State.sweepTest_of_sweepOk ok, State.sweepTest_of_sweepOk ok]
  refine State.allocate_induct (fun t => t.chans[c].settlement = s.chans[c].settlement)
    (fun k u p t _ _ x => (State.assign_settlement k u p t c).trans x) 8 _ ?_
  rw [(State.closeTest_frame s).2.2.2.2.2.2.1]

theorem State.stamp_settlement (s m : State) (c : ChanId) : (State.stamp s m).chans[c].settlement = m.chans[c].settlement :=
  State.stamp_chan_congr s m c (·.settlement) fun _ _ => rfl

/-- A sweep that is IDLE or waits for a unit is due for nothing, and calm work leaves it so (R150). -/
theorem State.calmly.sweepOk {s m : State} (h : s.calmly m) (due : s.sweep.state = .idle ∨ s.anyPending = true) : m.sweepOk := by
  intro running
  rw [h.sweep] at running
  obtain ⟨u, pending⟩ := s.anyPending_iff.1 (due.resolve_left running)
  exact m.anyPending_iff.2 ⟨u, (h.marks u).trans pending⟩

/-- The settling of the channel after an event on its block alone. -/
theorem State.passesTo.settlement {s b : State} (h : s.passesTo b) (due : s.sweep.state = .idle ∨ s.anyPending = true) (ch : ChanId)
    (f : Channel → Channel) :
    (State.stamp s (b.updChan ch f).settle).chans[ch].settlement = (f s.chans[ch]).settlement := by
  have calm : s.calmly (b.updChan ch f) := h.calm.trans (State.calmly_of_dir rfl rfl rfl rfl rfl)
  rw [State.stamp_settlement, State.settle_settlement (calm.sweepOk due), State.updChan_get, if_pos rfl, h.chans]

/-! ### The load window and the settle timer (R127, R129, R130) -/

/-- The bit rate in bit/s (R117). -/
theorem BitRate.bitsPerSecond_eq (r : BitRate) :
    r.bitsPerSecond = match r with | .off => 0 | .r125 => 125000 | .r250 => 250000 | .r500 => 500000 := by
  cases r <;> rfl

/-- The window measured: its load and its frames are shown, the target pace follows, and the next window begins (R130, R134). -/
theorem Channel.measure_link (at_ : Clock) {c : Channel} {load : Nat}
    (formed : loadOf c.accumulator c.settings.bitRate.bitsPerSecond c.windowLength = load) :
    let p := c.pacer.settings
    (c.measure at_).link =
      { c.link with
        lastLoad := load, lastFrames := c.windowFrames, accumulator := 0, windowFrames := 0, windowLength := p.loadWindow
        loadTimer := some (at_ + BitVec.ofNat 32 p.loadWindow)
        pacer := { c.link.pacer with target := targetPace p load } } := by
  rw [Channel.measure, formed]
  rfl

/-- Settles O39: the window measured is the channel's own block, and the next begins at the expiry. -/
theorem loadWindowMeasures : Obligations.LoadWindowMeasures := by
  unfold Obligations.LoadWindowMeasures
  intro ch at_ s run timer
  obtain ⟨link, _, clock, self, _, still, rest⟩ := (State.passesTo_advanceTo at_ s).event ch (Channel.measure at_)
  refine ⟨_, ?_, clock.trans (State.advanceTo_clock s at_), self, link.trans ?_, still, rest⟩
  · have command : execLoadWindowExpiry ch s = .next (settledEvent (fun s => (s.advanceTo at_).updChan ch (Channel.measure at_)) s) := by
      unfold execLoadWindowExpiry
      rw [timer]
    exact command.trans (congrArg Host.Outcome.next (settledEvent_eq _ s run))
  · refine Channel.measure_link at_ ?_
    exact congrArg (fun rate => min 1000 (s.chans[ch].accumulator * 1000000 / (rate * s.chans[ch].windowLength)))
      (BitRate.bitsPerSecond_eq _)

/-- Settles O41: the flag and the timer are no part of the link, and no sweep ends in the event to wake the segment again. -/
theorem settleTimerEndsSettling : Obligations.SettleTimerEndsSettling := by
  unfold Obligations.SettleTimerEndsSettling
  intro ch at_ s run timer due
  have passes := State.passesTo_advanceTo at_ s
  obtain ⟨_, _, clock, self, portLast, still, _⟩ := passes.event ch Channel.settled
  have settlement := passes.settlement due ch Channel.settled
  refine ⟨_, ?_, congrArg Prod.fst settlement, congrArg Prod.snd settlement, clock.trans (State.advanceTo_clock s at_), self,
    portLast, still, ?_⟩
  · have command : execSettleTimerExpiry ch s = .next (settledEvent (fun s => (s.advanceTo at_).updChan ch Channel.settled) s) := by
      unfold execSettleTimerExpiry
      rw [timer]
    exact command.trans (congrArg Host.Outcome.next (settledEvent_eq _ s run))
  · have own : Rest {} s ((s.advanceTo at_).updChan ch Channel.settled) :=
      passes.rest.trans (Rest.updChan_link ch _ _ rfl List.prefix_rfl)
    exact own.settled

end Sys2Proof.Machine
end

section
/-! SUPPORT. The head of the transmit queue after an error or a sending, and whom it tells (R89, R90, R119, R122, R127). -/

namespace Sys2Proof.Machine

/-! ### The head leaves -/

/-- Admission from outside moves a frame, and loses none (R122). -/
theorem Channel.admitOutside_keeps (c : Channel) :
    c.txQueue <+: c.admitOutside.txQueue ∧ c.admitOutside.settlement = c.settlement ∧
      ∀ x, x ∈ c.admitOutside.frames ↔ x ∈ c.frames := by
  unfold Channel.admitOutside
  split
  · exact ⟨List.prefix_rfl, rfl, fun _ => Iff.rfl⟩
  · next e rest outside =>
    split
    · refine ⟨List.prefix_append _ _, rfl, fun x => ?_⟩
      simp only [Channel.frames, outside, List.mem_append, List.mem_cons, List.not_mem_nil, or_false]
      tauto
    · exact ⟨List.prefix_rfl, rfl, fun _ => Iff.rfl⟩

theorem Channel.enqueue_settlement (e : TxEntry) (c : Channel) : (c.enqueue e).settlement = c.settlement := by
  unfold Channel.enqueue
  split <;> rfl

/-- Frames offered one after the other join the queue or wait outside it (R122). -/
theorem Channel.enqueueAll_keeps (l : List TxEntry) (c : Channel) :
    let d := forEach l Channel.enqueue c
    d.link = c.link ∧ c.txQueue <+: d.txQueue ∧ d.settlement = c.settlement ∧ ∀ x, x ∈ d.frames ↔ x ∈ l ∨ x ∈ c.frames := by
  induction l generalizing c with
  | nil => exact ⟨rfl, List.prefix_rfl, rfl, fun _ => by simp [forEach]⟩
  | cons e l ih =>
    obtain ⟨link, queue, settlement, frames⟩ := ih (c.enqueue e)
    refine ⟨link.trans (Channel.enqueue_link e c), (Channel.enqueue_prefix e c).trans queue,
      settlement.trans (Channel.enqueue_settlement e c), fun x => (frames x).trans ?_⟩
    rw [Channel.frames_enqueue, List.mem_cons]
    tauto

/-- The head leaves: the frames behind it move up, and none is lost (R122). -/
theorem Channel.headLeaves_keeps {c : Channel} {h : TxEntry} {rest : List TxEntry} (queue : c.txQueue = h :: rest) :
    c.headLeaves.link = c.link ∧ rest <+: c.headLeaves.txQueue ∧ c.headLeaves.settlement = c.settlement ∧
      ∀ x, x ∈ c.headLeaves.frames ↔ x ∈ rest ++ c.txOutside ++ c.txDeferred := by
  obtain ⟨d, hD⟩ : ∃ d : Channel, d = { c with txQueue := rest, txDeferred := [] } := ⟨_, rfl⟩
  have left : c.headLeaves = forEach c.txDeferred Channel.enqueue d.admitOutside := by
    rw [Channel.headLeaves, queue, hD]
  obtain ⟨moved, kept, admitted⟩ := Channel.admitOutside_keeps d
  obtain ⟨link, behind, settlement, frames⟩ := Channel.enqueueAll_keeps c.txDeferred d.admitOutside
  rw [left]
  refine ⟨?_, ?_, ?_, fun x => ?_⟩
  · rw [link, Channel.admitOutside_link, hD]
    rfl
  · have first : d.txQueue = rest := by rw [hD]
    rw [← first]
    exact moved.trans behind
  · rw [settlement, kept, hD]
    rfl
  · rw [frames, admitted, hD]
    simp only [Channel.frames, List.mem_append, List.append_nil]
    tauto

/-! ### A transmit error (R119, R122) -/

/-- After an error the head is tried again, unless its withdrawal was asked (R122). -/
theorem Channel.headFails_keeps (c : Channel) :
    c.headFails.link = c.link ∧ ∀ h rest, c.txQueue = h :: rest →
      (h.withdrawn = false → { h with transmitting := false } :: rest <+: c.headFails.txQueue) ∧
        (h.withdrawn = true → rest <+: c.headFails.txQueue) := by
  unfold Channel.headFails
  split
  · next empty => exact ⟨rfl, fun h rest queue => by rw [empty] at queue; cases queue⟩
  · next h rest queue =>
    obtain ⟨link, behind, -, -⟩ := Channel.headLeaves_keeps queue
    split
    · next asked =>
      refine ⟨link, fun h' rest' queue' => ?_⟩
      obtain ⟨rfl, rfl⟩ := List.cons.inj (queue.symm.trans queue')
      exact ⟨fun unasked => absurd asked (by rw [unasked]; exact Bool.false_ne_true), fun _ => behind⟩
    · next unasked =>
      refine ⟨rfl, fun h' rest' queue' => ?_⟩
      obtain ⟨rfl, rfl⟩ := List.cons.inj (queue.symm.trans queue')
      exact ⟨fun _ => List.prefix_rfl, fun asked => absurd asked unasked⟩

/-- What a transmit error short of bus-off makes of the block: nothing is counted for an acknowledgement error while PASSIVE
(R119). -/
def Channel.failed (kind : TxErrorKind) (c : Channel) : Channel :=
  (if c.state = .passive ∧ kind = .acknowledgement then c else c.sendError).headFails

theorem State.transmitError_failed {ch : ChanId} {kind : TxErrorKind} {s : State}
    (stays : s.chans[ch].state = .passive ∧ kind = .acknowledgement ∨ s.chans[ch].txErrors + 8 ≤ 255) :
    s.transmitError ch kind = s.updChan ch (Channel.failed kind) := by
  unfold State.transmitError
  dsimp only
  split
  · next still => exact State.updChan_congr (by rw [Channel.failed, if_pos still])
  · next counted =>
    rw [if_neg (Nat.not_lt.2 (stays.resolve_left counted))]
    exact State.updChan_congr (by rw [Channel.failed, if_neg counted])

theorem Channel.sendError_joined {c : Channel} (joined : c.state.joined = true) :
    c.sendError = { c with txErrors := c.txErrors + 8
                           state := if 128 ≤ c.txErrors + 8 ∨ 128 ≤ c.rxErrors then .passive else .active } :=
  Channel.compareErrors_joined (c := { c with txErrors := c.txErrors + 8 }) joined

/-- Settles O35: the error is an event on the channel's block, whose counters and whose head it moves. -/
theorem transmitErrorCounts : Obligations.TransmitErrorCounts := by
  unfold Obligations.TransmitErrorCounts
  intro ch kind s run joined c still stays
  obtain ⟨link, queue, clock, self, portLast, calm, rest⟩ := s.passesTo_refl.event ch (Channel.failed kind)
  rw [← State.transmitError_failed stays] at link queue clock self portLast calm rest
  obtain ⟨kept, head⟩ := Channel.headFails_keeps (if s.chans[ch].state = .passive ∧ kind = .acknowledgement then s.chans[ch]
    else s.chans[ch].sendError)
  refine ⟨_, congrArg Host.Outcome.next ((if_pos joined).trans (settledEvent_eq _ s run)), (link.trans kept).trans ?_,
    fun h rest front => ?_, clock, self, portLast, calm, rest⟩
  · rw [Channel.sendError_joined joined]
    by_cases passive : still
    · rw [if_pos passive, if_pos passive, if_pos passive]
      rfl
    · rw [if_neg passive, if_neg passive, if_neg passive]
      rfl
  · have front' : (if s.chans[ch].state = .passive ∧ kind = .acknowledgement then s.chans[ch] else s.chans[ch].sendError).txQueue =
        h :: rest := by
      rw [Channel.sendError_joined joined]
      split <;> exact front
    obtain ⟨again, gone⟩ := head h rest front'
    exact ⟨fun x => (again x).trans queue, fun x => (gone x).trans queue⟩

end Sys2Proof.Machine
end

section
/-! SUPPORT. A frame sent (R89, R90, R119, R122, R127, R129). -/

namespace Sys2Proof.Machine

/-- What a frame sent makes of the block before anyone is told: the counter, the load monitor, the queue. -/
def Channel.sent (f : Frame) (c : Channel) : Channel := ((c.sentOk).countFrame f).headLeaves

theorem Channel.sent_keeps {c : Channel} {h : TxEntry} {rest : List TxEntry} (joined : c.state.joined = true)
    (queue : c.txQueue = h :: rest) :
    (c.sent h.frame).link = { c.link with
      txErrors := c.txErrors - 1
      state := if 128 ≤ c.txErrors - 1 ∨ 128 ≤ c.rxErrors then .passive else .active
      accumulator := c.accumulator + ((if h.frame.extended then 67 else 47) +
        if h.frame.remote then 0 else 8 * min 8 h.frame.dlc.toNat)
      windowFrames := min 65535 (c.windowFrames + 1) } ∧
    rest <+: (c.sent h.frame).txQueue ∧ (c.sent h.frame).settlement = c.settlement ∧
      ∀ x, x ∈ (c.sent h.frame).frames ↔ x ∈ rest ++ c.txOutside ++ c.txDeferred := by
  have counted : c.sentOk = { c with txErrors := c.txErrors - 1
                                     state := if 128 ≤ c.txErrors - 1 ∨ 128 ≤ c.rxErrors then .passive else .active } :=
    Channel.compareErrors_joined (c := { c with txErrors := c.txErrors - 1 }) joined
  have front : ((c.sentOk).countFrame h.frame).txQueue = h :: rest := by
    rw [counted]
    exact queue
  obtain ⟨link, behind, settlement, frames⟩ := Channel.headLeaves_keeps front
  rw [Channel.sent]
  refine ⟨link.trans ?_, behind, settlement.trans ?_, fun x => (frames x).trans ?_⟩
  · rw [counted]
    rfl
  · rw [counted]
    rfl
  · rw [counted]
    exact Iff.rfl

/-- A WAKE still waits (R127). -/
theorem Channel.wakeWaits_iff (c : Channel) : c.wakeWaits = true ↔ ∃ e ∈ c.frames, e.kind = .wakeFrame := by
  unfold Channel.wakeWaits Channel.frames
  simp only [List.any_eq_true, beq_iff_eq]

/-- A WAKE sent starts the settle timer or ends settling, unless a later one waits (R127). -/
theorem Channel.wakeSent_settlement {c : Channel} {later : Prop} [Decidable later] (waits : c.wakeWaits = true ↔ later) (now : Clock)
    (settle : Nat) :
    (c.wakeSent now settle).settling = (if later ∨ settle ≠ 0 then c.settling else false) ∧
      (c.wakeSent now settle).settleTimer = (if later then c.settleTimer
        else if settle = 0 then none else some (now + BitVec.ofNat 32 settle)) := by
  unfold Channel.wakeSent
  by_cases another : later
  · rw [if_pos (waits.2 another), if_pos (.inl another), if_pos another]
    exact ⟨rfl, rfl⟩
  · rw [if_neg (fun x => another (waits.1 x)), if_neg another]
    by_cases none : settle = 0
    · rw [if_pos none, if_pos none, if_neg (by tauto)]
      exact ⟨rfl, rfl⟩
    · rw [if_neg none, if_neg none, if_pos (.inr none)]
      exact ⟨rfl, rfl⟩

theorem Channel.wakeSent_link (now : Clock) (settle : Nat) (c : Channel) :
    (c.wakeSent now settle).link = c.link ∧ (c.wakeSent now settle).txQueue = c.txQueue := by
  unfold Channel.wakeSent
  split
  · exact ⟨rfl, rfl⟩
  · split <;> exact ⟨rfl, rfl⟩

/-- The block of the channel that has sent its head, and the contexts: a WAKE is told to the channel, another frame to the context
that still waits for it (R122, R127). -/
structure State.hasSent (s m : State) (ch : ChanId) (h : TxEntry) : Prop where
  calm : s.calmly m
  portLast : m.portLast = s.portLast
  clock : m.clock = s.clock
  rest : Rest { ctxs := fun k => h.ctx = some k ∧ h.live = true, chans := (· = ch) } s m
  block : m.chans[ch] =
    if h.ctx = none then (s.chans[ch].sent h.frame).wakeSent s.clock s.timing.settle else s.chans[ch].sent h.frame
  told : ∀ k, h.ctx = some k → h.live = true → s.orders.resetting = none →
    m.ctxs[k] = ({ s.ctxs[k] with frameQueued := none }).windowFor s.clock h.kind

theorem State.frameSent_hasSent {ch : ChanId} {h : TxEntry} {rest : List TxEntry} {s : State} (queue : s.chans[ch].txQueue = h :: rest) :
    s.hasSent (s.frameSent ch) ch h := by
  have sent : s.frameSent ch = (s.updChan ch (Channel.sent h.frame)).afterSent ch h := by
    unfold State.frameSent
    rw [queue]
    rfl
  have calm : s.calmly (s.updChan ch (Channel.sent h.frame)) := State.calmly_of_dir rfl rfl rfl rfl rfl
  have own : Rest { ctxs := fun k => h.ctx = some k ∧ h.live = true, chans := (· = ch) } s (s.updChan ch (Channel.sent h.frame)) :=
    (Rest.updChan ch _ s).mono (fun _ x => x.elim) (fun _ x => x) (fun _ x => x.elim) fun _ x => x.elim
  rw [sent]
  unfold State.afterSent
  split
  · next k sender =>
    have block : (s.updChan ch (Channel.sent h.frame)).chans[ch] = if h.ctx = none then
        (s.chans[ch].sent h.frame).wakeSent s.clock s.timing.settle else s.chans[ch].sent h.frame := by
      rw [State.updChan_get, if_pos rfl, if_neg (by rw [sender]; nofun)]
    split
    · next live =>
      refine ⟨calm.trans (State.calmly_of_dir rfl rfl rfl rfl rfl), rfl, rfl, own.trans ?_, block, fun j sender' _ run => ?_⟩
      · unfold State.tellSender
        refine (Rest.updCtx k _ _).mono (fun j x => ?_) (fun _ x => x.elim) (fun _ x => x.elim) fun _ x => x.elim
        obtain rfl : j = k := x
        exact ⟨sender, live⟩
      · obtain rfl : k = j := Option.some.inj (sender.symm.trans sender')
        unfold State.tellSender
        dsimp only
        rw [State.updCtx_get, if_pos rfl, if_neg (by unfold State.resetting; rw [State.updChan_orders, run]; exact Bool.false_ne_true)]
        rfl
    · next left => exact ⟨calm, rfl, rfl, own, block, fun _ _ live => absurd live left⟩
  · next nobody =>
    refine ⟨calm.trans (State.calmly_of_dir rfl rfl rfl rfl rfl), rfl, rfl, own.trans ?_, ?_, fun k sender => ?_⟩
    · exact (Rest.updChan ch _ _).mono (fun _ x => x.elim) (fun _ x => x) (fun _ x => x.elim) fun _ x => x.elim
    · rw [State.updChan_get, if_pos rfl, State.updChan_get, if_pos rfl, if_pos nobody]
      rfl
    · rw [nobody] at sender
      cases sender

/-- Settles O38: the block and the sender are as the head leaves them, and no sweep ends in the event to wake the segment. -/
theorem frameSentTellsItsSender : Obligations.FrameSentTellsItsSender := by
  unfold Obligations.FrameSentTellsItsSender
  intro ch h rest s run joined queue c
  obtain ⟨m, hM⟩ : ∃ m, m = s.frameSent ch := ⟨_, rfl⟩
  obtain ⟨calm, portLast, clock, own, block, told⟩ : s.hasSent m ch h := hM ▸ State.frameSent_hasSent queue
  obtain ⟨link, behind, settlement, frames⟩ := Channel.sent_keeps joined queue
  obtain ⟨wakeLink, wakeQueue⟩ := Channel.wakeSent_link s.clock s.timing.settle (s.chans[ch].sent h.frame)
  have blockLink : m.chans[ch].link = (s.chans[ch].sent h.frame).link := by
    rw [block]
    split
    · exact wakeLink
    · rfl
  have blockQueue : m.chans[ch].txQueue = (s.chans[ch].sent h.frame).txQueue := by
    rw [block]
    split
    · exact wakeQueue
    · rfl
  obtain ⟨links, sending, clock', self, portLast', still, touched⟩ := calm.event own portLast ch
  have after : Rest {} m (State.stamp s m.settle) := (Rest.settle m).stamp s
  have settles : (s.sweep.state = .idle ∨ s.anyPending = true) →
      (State.stamp s m.settle).chans[ch].settlement = m.chans[ch].settlement := fun due => by
    rw [State.stamp_settlement, State.settle_settlement (calm.sweepOk due)]
  refine ⟨State.stamp s m.settle, ?_, links.trans (blockLink.trans link), ?_, fun k sender live busy running => ?_,
    fun k left busy => ?_, fun wake due => ?_, fun sender due => ?_, clock'.trans clock, self, portLast', still, touched⟩
  · rw [hM]
    exact congrArg Host.Outcome.next ((if_pos joined).trans (settledEvent_eq _ s run))
  · rw [← blockQueue] at behind
    exact behind.trans sending
  · have ctx := told k sender live running
    have state : m.ctxs[k].state = s.ctxs[k].state := by
      rw [ctx]
      cases h.kind <;> rfl
    have same := after.ctxs k id (by rw [state]; exact busy)
    refine ⟨?_, (Context.same_state same).trans state, ?_⟩
    · refine (Context.same_congr same (·.frameQueued) fun _ _ => rfl).trans ?_
      rw [ctx]
      cases h.kind <;> rfl
    · refine (Context.same_congr same (·.window) fun _ _ => rfl).trans ?_
      rw [ctx]
      cases h.kind <;> rfl
  · exact touched.ctxs k (fun x => by rw [left] at x; exact Bool.false_ne_true x.2) busy
  · intro later
    have waits : (s.chans[ch].sent h.frame).wakeWaits = true ↔ later := by
      rw [Channel.wakeWaits_iff]
      simp only [frames]
      exact Iff.rfl
    obtain ⟨flag, timer⟩ := Channel.wakeSent_settlement waits s.clock s.timing.settle
    have shown := settles due
    rw [block, if_pos wake] at shown
    refine ⟨(congrArg Prod.fst shown).trans (flag.trans ?_), (congrArg Prod.snd shown).trans (timer.trans ?_)⟩
    · rw [show (s.chans[ch].sent h.frame).settling = c.settling from congrArg Prod.fst settlement]
    · rw [show (s.chans[ch].sent h.frame).settleTimer = c.settleTimer from congrArg Prod.snd settlement]
  · have shown := settles due
    rw [block, if_neg sender, settlement] at shown
    exact ⟨congrArg Prod.fst shown, congrArg Prod.snd shown⟩

end Sys2Proof.Machine
end


section
/-! SUPPORT. The visit of the one POSTED slot that completes its order at once: refused, or applied where it only sets (R165, R166, R168). -/

namespace Sys2Proof.Machine

/-- From `s` to `m` nothing has changed but settings and what they set: no order, request, mark or sweep, and no time. -/
structure State.setsOnly (s m : State) : Prop where
  mem : m.mem = s.mem
  clock : m.clock = s.clock
  orders : m.orders = s.orders
  sweep : m.sweep = s.sweep
  pool : m.pool = s.pool
  marks : ∀ v : UnitId, m.dir[v].mark = s.dir[v].mark

theorem State.setsOnly_refl (s : State) : s.setsOnly s := ⟨rfl, rfl, rfl, rfl, rfl, fun _ => rfl⟩

/-- A POSTED slot holds no order, so that its completion keeps what is not undone (R164). -/
theorem State.setsOnly.still_completed {s m : State} (b : s.setsOnly m) {n : SlotId} (posted : slotState s.mem n = Config.stPosted)
    (final : Word) (r : OrderResult) (e : Edition) : s.still (State.stamp s (m.completeSlot n final r e).settle) := fun settled tidy => by
  obtain ⟨tidySlots, _⟩ := id tidy
  have own : s.orders.taken[n] = none := by
    rw [Option.eq_none_iff_forall_ne_some]
    intro x hx
    have state := tidySlots n x hx
    rw [posted] at state
    cases state
  have taken : (m.completeSlot n final r e).orders.taken = s.orders.taken := Vector.ext fun i hi => by
    have get := State.completeSlot_taken n final r e m ⟨i, hi⟩
    rw [b.orders] at get
    split at get
    · next same => exact get.trans ((congrArg (fun j : SlotId => s.orders.taken[j]) same).trans own).symm
    · exact get
  refine State.still_settled ?_ (fun v => ?_) (State.nothingKeeps_congr taken ?_) settled tidy
  · exact (show _ = m.sweep by simp).trans b.sweep
  · rw [show (m.completeSlot n final r e).dir = m.dir by simp]
    exact b.marks v
  · exact (show _ = m.pool by simp).trans b.pool

/-- The state in which the pass ends whose one visit completes its order from `m`. -/
def State.completedIn (s m : State) (n : SlotId) (final : Word) (r : OrderResult) : State :=
  (State.stamp s (m.completeSlot n final r s.sweep.openEdition).settle).setHalt none

/-- The one visit completes its order in the open edition and the pass ends (R165, R168). -/
theorem State.setsOnly.exec_completed {s m : State} (b : s.setsOnly m) (v : Word) {n : SlotId} (h : s.visits n) {final : Word}
    (hf : final ≠ Config.stPosted) (r : OrderResult) (f : State → State) (hfm : f s = m.completeSlot n final r s.sweep.openEdition)
    (hv : s.visit n = .goOn (event (fun s => (f s).settle) s)) {d : Touch} (hd : d.slots n) (own : Rest d s m) :
    let t := s.completedIn m n final r
    exec (.signalWrite v) s = .next t ∧ t.slotShows n final r.code r.w0 r.w1 r.w2 r.w3 s.sweep.openEdition s.clock ∧
      t.hasAttn .orderDone ∧ t.clock = s.clock ∧ t.self = m.self ∧ s.still t ∧ Rest d (s.setHalt none) t := by
  obtain ⟨_, hm, _, posted, only⟩ := id h
  obtain ⟨G, hG⟩ : ∃ G, G = m.completeSlot n final r s.sweep.openEdition := ⟨_, rfl⟩
  have memM : m.memOk := by rw [State.memOk, b.mem]; exact hm
  have memG : G.memOk := hG ▸ State.completeSlot_memOk n final r _ m memM
  have others : ∀ j, j ≠ n → slotState (f s).mem j ≠ Config.stPosted := fun j other => by
    have unposted : m.nonePosted [j] := fun i hi => by
      rw [List.mem_singleton.1 hi, b.mem]
      exact only j other
    rw [hfm]
    exact State.nonePosted_complete unposted memM n final hf r _ j (List.mem_singleton_self j)
  have shown : G.slotShows n final r.code r.w0 r.w1 r.w2 r.w3 s.sweep.openEdition s.clock := by
    rw [hG, ← b.clock]
    exact State.completeSlot_shows n final r _ m memM
  have gone : G.orders.taken[n] = none := by rw [hG, State.completeSlot_taken, if_pos rfl]
  have attention : G.hasAttn .orderDone := by
    rw [hG, State.hasAttn, State.completeSlot_attention]
    exact attn_hasOr _ _
  obtain ⟨shows_, _, raised⟩ := Rest.shows_after ((Rest.settle G).stamp s) memG n gone shown attention
  have completed : Rest d s G := hG ▸ own.trans ((Rest.completeSlot n final r _ m).mono (fun _ x => x.elim) (fun _ x => x.elim)
    (fun _ x => x.elim) fun j x => by obtain rfl : j = n := x; exact hd)
  have still : s.still (State.stamp s G.settle) := hG ▸ b.still_completed posted final r s.sweep.openEdition
  have command : execSignalWrite v s = .next ((State.stamp s G.settle).setHalt none) := by
    have passed := execSignalWrite_goOn v n s h f hv (by rw [hfm, ← hG]; exact memG) others
    rwa [show event (fun s => (f s).settle) s = State.stamp s (f s).settle from rfl, hfm, ← hG] at passed
  unfold State.completedIn
  rw [← hG]
  refine ⟨?_, shows_, raised, ?_, ?_, ?_, completed.settled.setHalt none⟩
  · exact command
  · rw [State.setHalt, State.updOrders_clock, State.stamp_clock, State.settle_clock, hG, ← b.clock]
    simp
  · rw [State.setHalt, State.updOrders_self, State.stamp_self, (State.settle_frame G).2.1, hG]
    simp
  · intro settled tidy
    rw [State.setHalt, State.updOrders_sweep]
    exact still settled tidy

end Sys2Proof.Machine
end

section
/-! SUPPORT. The value checks of the orders that set a channel, its pacing, the pool and the directory (R118, R140, R166, R170 to
R173). -/

namespace Sys2Proof.Machine

/-! ### Codes and numbers in bytes -/

theorem byte_eq_ofNat {b : Byte} {k : Nat} (h : b.toNat = k) : b = BitVec.ofNat 8 k := by
  rw [← h, BitVec.ofNat_toNat, BitVec.setWidth_eq]

theorem byte_ne {b c : Byte} {k : Nat} (h : k < b.toNat) (hc : c.toNat ≤ k) : b ≠ c := fun same => by
  rw [same] at h
  exact Nat.not_lt.2 hc h

theorem asFin_none {m x : Nat} (h : m ≤ x) : asFin m x = none := dif_neg (Nat.not_lt.2 h)

theorem BitRate.ofCode_some {b : Byte} {rate : BitRate} (h : b.toNat = rate.code) : BitRate.ofCode b = some rate := by
  rw [byte_eq_ofNat h]
  cases rate <;> rfl

theorem BitRate.ofCode_none {b : Byte} (h : 3 < b.toNat) : BitRate.ofCode b = none := by
  unfold BitRate.ofCode
  rw [if_neg (byte_ne (c := 0) h (by decide)), if_neg (byte_ne (c := 1) h (by decide)), if_neg (byte_ne (c := 2) h (by decide)), if_neg (byte_ne (c := 3) h (by decide))]

theorem BitRate.exists_code {x : Nat} (h : x ≤ 3) : ∃ rate : BitRate, x = rate.code :=
  match x, h with
  | 0, _ => ⟨.off, rfl⟩
  | 1, _ => ⟨.r125, rfl⟩
  | 2, _ => ⟨.r250, rfl⟩
  | 3, _ => ⟨.r500, rfl⟩

theorem BitRate.code_eq_zero {rate : BitRate} : rate.code = 0 ↔ rate = .off := by
  cases rate <;> decide

theorem OverflowPolicy.ofCode_some {b : Byte} {policy : OverflowPolicy} (h : b.toNat = policy.code) :
    OverflowPolicy.ofCode b = some policy := by
  rw [byte_eq_ofNat h]
  cases policy <;> rfl

theorem OverflowPolicy.ofCode_none {b : Byte} (h : 1 < b.toNat) : OverflowPolicy.ofCode b = none := by
  unfold OverflowPolicy.ofCode
  rw [if_neg (byte_ne (c := 0) h (by decide)), if_neg (byte_ne (c := 1) h (by decide))]

theorem OverflowPolicy.exists_code {x : Nat} (h : x ≤ 1) : ∃ policy : OverflowPolicy, x = policy.code :=
  match x, h with
  | 0, _ => ⟨.keepOldest, rfl⟩
  | 1, _ => ⟨.keepNewest, rfl⟩

theorem PoolPolicy.ofCode_none {b : Byte} (h : 1 < b.toNat) : PoolPolicy.ofCode b = none := by
  unfold PoolPolicy.ofCode
  rw [if_neg (byte_ne (c := 0) h (by decide)), if_neg (byte_ne (c := 1) h (by decide))]

theorem addressOk_iff {b : Byte} : addressOk b = true ↔ 1 ≤ b.toNat ∧ b.toNat ≤ 253 := by
  unfold addressOk
  rw [Bool.and_eq_true, decide_eq_true_iff, decide_eq_true_iff]

/-! ### SET CHANNEL and SET PACING -/

section
variable {m : Memory} {n : SlotId}

/-- The settings a SET CHANNEL order gives its channel, its rate and policy read (R118). -/
def channelSettings (m : Memory) (n : SlotId) (rate : BitRate) (policy : OverflowPolicy) : ChanSettings :=
  { bitRate := rate, address := paramByte m n 2, policy := policy, wake := paramByte m n 4 != 0,
    limit := clampNat 1 4 (paramByte m n 5).toNat, recoveryHold := clampNat 100 6500 (paramWord m n 6).toNat }

theorem parseSetChannel_order {ch : ChanId} {rate : BitRate} {policy : OverflowPolicy} (h0 : (paramByte m n 0).toNat = ch.val)
    (h1 : (paramByte m n 1).toNat = rate.code) (low : 1 ≤ (paramByte m n 2).toNat) (high : (paramByte m n 2).toNat ≤ 253)
    (h3 : (paramByte m n 3).toNat = policy.code) :
    parseSetChannel m n = .order (.setChannel ch (channelSettings m n rate policy)) := by
  unfold parseSetChannel
  rw [asFin_some ch h0, BitRate.ofCode_some h1, OverflowPolicy.ofCode_some h3, addressOk_iff.2 ⟨low, high⟩]
  rfl

theorem parseSetChannel_refused (h : ¬ ((paramByte m n 0).toNat ≤ 3 ∧ (paramByte m n 1).toNat ≤ 3 ∧ 1 ≤ (paramByte m n 2).toNat ∧
      (paramByte m n 2).toNat ≤ 253 ∧ (paramByte m n 3).toNat ≤ 1)) :
    parseSetChannel m n = .refused .badValue (if 3 < (paramByte m n 0).toNat then 1 else if 3 < (paramByte m n 1).toNat then 2
      else if (paramByte m n 2).toNat = 0 ∨ 253 < (paramByte m n 2).toNat then 3 else 4) := by
  unfold parseSetChannel
  by_cases h0 : 3 < (paramByte m n 0).toNat
  · rw [asFin_none h0, if_pos h0]
    rfl
  by_cases h1 : 3 < (paramByte m n 1).toNat
  · rw [asFin_some ⟨(paramByte m n 0).toNat, by omega⟩ rfl, BitRate.ofCode_none h1, if_neg h0, if_pos h1]
    rfl
  obtain ⟨rate, hrate⟩ := BitRate.exists_code (Nat.not_lt.1 h1)
  rw [asFin_some ⟨(paramByte m n 0).toNat, by omega⟩ rfl, BitRate.ofCode_some hrate, if_neg h0, if_neg h1]
  by_cases h2 : (paramByte m n 2).toNat = 0 ∨ 253 < (paramByte m n 2).toNat
  · rw [if_pos h2]
    exact if_neg fun ok => by
      have range := addressOk_iff.1 ok
      omega
  · rw [if_neg h2, OverflowPolicy.ofCode_none (by omega)]
    exact if_pos (addressOk_iff.2 (by omega))

theorem parseSetPacing_channel (h : 3 < (paramByte m n 0).toNat) : parseSetPacing m n = .refused .badValue 1 := by
  unfold parseSetPacing
  rw [asFin_none h]
  rfl

theorem parseSetPacing_pace (h : (paramByte m n 0).toNat ≤ 3)
    (span : ¬ (max 1 (min 600 (paramWord m n 2).toNat) + 10 ≤ min 600 (paramWord m n 4).toNat)) :
    parseSetPacing m n = .refused .limitSpan 1 := by
  unfold parseSetPacing
  rw [asFin_some ⟨(paramByte m n 0).toNat, by omega⟩ rfl]
  exact if_pos (Nat.not_le.1 span)

theorem parseSetPacing_marks (h : (paramByte m n 0).toNat ≤ 3)
    (pace : max 1 (min 600 (paramWord m n 2).toNat) + 10 ≤ min 600 (paramWord m n 4).toNat)
    (span : ¬ (min 1000 (paramWord m n 6).toNat + 50 ≤ min 1000 (paramWord m n 8).toNat)) :
    parseSetPacing m n = .refused .limitSpan 2 := by
  unfold parseSetPacing
  rw [asFin_some ⟨(paramByte m n 0).toNat, by omega⟩ rfl]
  exact (if_neg (Nat.not_lt.2 pace)).trans (if_pos (Nat.not_le.1 span))

/-! ### SET POOL and the orders on units -/

theorem parseSetPool_refused (h : 1 < (paramByte m n 0).toNat) : parseSetPool m n = .refused .badValue 1 := by
  unfold parseSetPool
  rw [PoolPolicy.ofCode_none h]
  rfl

theorem parseEnlist_refused (h : ¬ (1 ≤ (paramByte m n 0).toNat ∧ (paramByte m n 0).toNat ≤ 63 ∧ (paramByte m n 1).toNat ≤ 3 ∧
      1 ≤ (paramByte m n 2).toNat ∧ (paramByte m n 2).toNat ≤ 253 ∧ (paramByte m n 6).toNat ≤ 3)) :
    parseEnlist m n = .refused .badValue (if (paramByte m n 0).toNat = 0 ∨ 63 < (paramByte m n 0).toNat then 1
      else if 3 < (paramByte m n 1).toNat then 2
      else if (paramByte m n 2).toNat = 0 ∨ 253 < (paramByte m n 2).toNat then 3 else 5) := by
  unfold parseEnlist
  by_cases h0 : (paramByte m n 0).toNat = 0 ∨ 63 < (paramByte m n 0).toNat
  · rw [if_pos h0]
    rcases h0 with zero | high
    · rw [asFin_some (0 : UnitId) zero]
      rfl
    · rw [asFin_none high]
      rfl
  obtain ⟨u, hu⟩ : ∃ u : UnitId, (paramByte m n 0).toNat = u.val := ⟨⟨(paramByte m n 0).toNat, by omega⟩, rfl⟩
  have nonzero : u ≠ 0 := fun zero => h0 (.inl (by rw [hu, zero]; rfl))
  rw [asFin_some u hu, if_neg h0]
  dsimp only
  rw [if_neg nonzero]
  by_cases h1 : 3 < (paramByte m n 1).toNat
  · rw [asFin_none h1, if_pos h1]
    rfl
  rw [asFin_some ⟨(paramByte m n 1).toNat, by omega⟩ rfl, if_neg h1]
  by_cases h2 : (paramByte m n 2).toNat = 0 ∨ 253 < (paramByte m n 2).toNat
  · rw [if_pos h2]
    exact if_neg fun ok => by
      have range := addressOk_iff.1 ok
      omega
  · rw [if_neg h2, asFin_none (by omega)]
    exact if_pos (addressOk_iff.2 (by omega))

theorem parseDelist_refused (h : 63 < (paramByte m n 0).toNat ∨ (paramByte m n 0).toNat = 0) :
    parseDelist m n = .refused .badValue 1 := by
  unfold parseDelist
  rcases h with high | zero
  · rw [asFin_none high]
    rfl
  · rw [asFin_some (0 : UnitId) zero]
    rfl

theorem parseUnit_refused (f : UnitId → Order) (h : 63 < (paramByte m n 0).toNat) : parseUnit m n f = .refused .badValue 1 := by
  unfold parseUnit
  rw [asFin_none h]
  rfl

theorem parseUnit_order (f : UnitId → Order) {u : UnitId} (h : (paramByte m n 0).toNat = u.val) : parseUnit m n f = .order (f u) := by
  unfold parseUnit
  rw [asFin_some u h]

end

end Sys2Proof.Machine
end


section
/-! SUPPORT. Orders refused in their visit (R166, R168, R169). -/

namespace Sys2Proof.Machine

/-! ### What the checks of an order see of the part -/

theorem State.addressUsed_of {s : State} {ch : ChanId} {a : Byte} {x : UnitId} (nonzero : x ≠ 0) (listed : s.dir[x].state ≠ .vacant)
    (channel : s.dir[x].channel = ch) (address : s.dir[x].address = a) : s.addressUsed ch a = true :=
  List.any_eq_true.2 ⟨x, List.mem_finRange x, by
    simp only [Bool.and_eq_true, bne_iff_ne, beq_iff_eq]
    exact ⟨⟨⟨nonzero, listed⟩, channel⟩, address⟩⟩

theorem State.addressUsed_false {s : State} {ch : ChanId} {a : Byte}
    (unused : ∀ x : UnitId, x ≠ 0 → s.dir[x].state ≠ .vacant → s.dir[x].channel = ch → s.dir[x].address ≠ a) :
    s.addressUsed ch a = false :=
  List.any_eq_false.2 fun x _ taken => by
    simp only [Bool.and_eq_true, bne_iff_ne, beq_iff_eq] at taken
    obtain ⟨⟨⟨nonzero, listed⟩, channel⟩, address⟩ := taken
    exact unused x nonzero listed channel address

theorem State.busyOn_eq_zero {s : State} {ch : ChanId} :
    s.busyOn ch = 0 ↔ ∀ k : CtxId, ¬ (s.ctxs[k].channel = ch ∧ s.ctxs[k].state.busy = true) := by
  unfold State.busyOn
  rw [List.countP_eq_zero]
  simp only [Bool.and_eq_true, beq_iff_eq, and_comm]
  exact ⟨fun h k => h k (List.mem_finRange k), fun h k _ => h k⟩

section
variable {s : State} {ch : ChanId} {v : ChanSettings}

theorem State.checkSetChannel_busy (h : s.sweep.state ≠ .idle ∨ v.bitRate ≠ .off ∧ s.busyOn ch ≠ 0) :
    s.checkSetChannel ch v = some .channelBusy := if_pos h

theorem State.checkSetChannel_used (idle : s.sweep.state = .idle) (quiet : v.bitRate = .off ∨ s.busyOn ch = 0)
    (used : s.addressUsed ch v.address = true) : s.checkSetChannel ch v = some .duplicateAddress := by
  unfold State.checkSetChannel
  rw [if_neg (not_or.2 ⟨not_not.2 idle, fun h => quiet.elim h.1 h.2⟩), if_pos used]

theorem State.checkSetChannel_none (idle : s.sweep.state = .idle) (quiet : v.bitRate = .off ∨ s.busyOn ch = 0)
    (unused : s.addressUsed ch v.address = false) : s.checkSetChannel ch v = none := by
  unfold State.checkSetChannel
  rw [if_neg (not_or.2 ⟨not_not.2 idle, fun h => quiet.elim h.1 h.2⟩), if_neg (Bool.not_eq_true _ ▸ unused)]

theorem State.checkEnlist_occupied {u : UnitId} {a : Byte} (h : s.dir[u].state ≠ .vacant) :
    s.checkEnlist u ch a = some .unitOccupied := if_pos h

theorem State.checkEnlist_used {u : UnitId} {a : Byte} (vacant : s.dir[u].state = .vacant)
    (used : s.addressUsed ch a = true ∨ a = s.chans[ch].settings.address) : s.checkEnlist u ch a = some .duplicateAddress := by
  unfold State.checkEnlist
  rw [if_neg (not_not.2 vacant)]
  exact if_pos used

theorem State.checkUnit_vacant {u : UnitId} (nonzero : u ≠ 0) (h : s.dir[u].state = .vacant ∨ s.dir[u].state = .delisting) :
    s.checkUnit u = some .unitVacant := (if_neg nonzero).trans (if_pos h)

theorem State.checkUnit_off {u : UnitId} (nonzero : u ≠ 0) (listed : s.dir[u].state ≠ .vacant) (stays : s.dir[u].state ≠ .delisting)
    (off : s.chans[s.dir[u].channel].state = .off) : s.checkUnit u = some .channelOff :=
  (if_neg nonzero).trans ((if_neg (not_or.2 ⟨listed, stays⟩)).trans (if_pos off))

end

/-! ### The verdict -/

section
variable {s : State} {n : SlotId}

theorem State.judge_unknown (h : (slotKind s.mem n).toNat = 0 ∨ 16 < (slotKind s.mem n).toNat) :
    s.judge n = .refused .unknownKind 0 := by
  have unknown : kindKnown (slotKind s.mem n) = false := by
    unfold kindKnown
    rw [Bool.and_eq_false_iff, decide_eq_false_iff_not, decide_eq_false_iff_not]
    omega
  exact if_pos (congrArg not unknown)

theorem State.judge_startPending (start : s.orders.start = true) (low : 3 ≤ (slotKind s.mem n).toNat)
    (high : (slotKind s.mem n).toNat ≤ 16) : s.judge n = .refused .startPending 0 := by
  have known : kindKnown (slotKind s.mem n) = true := by
    unfold kindKnown
    rw [Bool.and_eq_true, decide_eq_true_iff, decide_eq_true_iff]
    omega
  have other : ∀ k : Word, k.toNat < 3 → slotKind s.mem n ≠ k := fun k hk same => by
    rw [same] at low
    omega
  have waits : kindTakenAtStart (slotKind s.mem n) = false := by
    unfold kindTakenAtStart
    rw [beq_false_of_ne (other 1 (by decide)), beq_false_of_ne (other 2 (by decide))]
    rfl
  unfold State.judge
  rw [known, waits, start]
  rfl

variable {k : Nat} (kind : (slotKind s.mem n).toNat = k) (low : 1 ≤ k) (high : k ≤ 16) (started : s.orders.start = false)
include kind low high started

theorem State.judge_value {r : OrderRefusal} {w : Word} (parsed : parseOrder s.mem n = .refused r w) : s.judge n = .refused r w := by
  rw [State.judge_started kind low high started, parsed]

theorem State.judge_check {o : Order} {r : OrderRefusal} (parsed : parseOrder s.mem n = .order o) (checked : s.checkOrder o = some r) :
    s.judge n = .refused r 0 := by
  rw [State.judge_started kind low high started, parsed]
  dsimp only
  rw [checked]

end

/-! ### The value checks of the slot's kind -/

section
variable {m : Memory} {n : SlotId}

theorem parseOrder_setChannel (kind : (slotKind m n).toNat = 3) : parseOrder m n = parseSetChannel m n := by
  unfold parseOrder
  rw [kind]
  rfl

theorem parseOrder_setPacing (kind : (slotKind m n).toNat = 4) : parseOrder m n = parseSetPacing m n := by
  unfold parseOrder
  rw [kind]
  rfl

theorem parseOrder_setPool (kind : (slotKind m n).toNat = 7) : parseOrder m n = parseSetPool m n := by
  unfold parseOrder
  rw [kind]
  rfl

theorem parseOrder_enlist (kind : (slotKind m n).toNat = 8) : parseOrder m n = parseEnlist m n := by
  unfold parseOrder
  rw [kind]
  rfl

theorem parseOrder_delist (kind : (slotKind m n).toNat = 9) : parseOrder m n = parseDelist m n := by
  unfold parseOrder
  rw [kind]
  rfl

theorem parseOrder_readUnit (kind : (slotKind m n).toNat = 11) : parseOrder m n = parseUnit m n .readUnit := by
  unfold parseOrder
  rw [kind]
  rfl

theorem parseOrder_eraseUnit (kind : (slotKind m n).toNat = 12) : parseOrder m n = parseUnit m n .eraseUnit := by
  unfold parseOrder
  rw [kind]
  rfl

/-- The orders on the sweep have no value checks (R174). -/
theorem parseOrder_sweepOrder : ((slotKind m n).toNat = 10 → ∃ mask budget, parseOrder m n = .order (.sweep mask budget)) ∧
    ((slotKind m n).toNat = 13 → parseOrder m n = .order .pauseSweep) ∧
    ((slotKind m n).toNat = 14 → parseOrder m n = .order .resumeSweep) ∧
    ((slotKind m n).toNat = 15 → parseOrder m n = .order .abortSweep) := by
  unfold parseOrder
  refine ⟨fun kind => ?_, fun kind => ?_, fun kind => ?_, fun kind => ?_⟩ <;> rw [kind]
  · exact ⟨_, _, rfl⟩
  all_goals rfl

end

/-- The pass that begins with the command refuses the order of slot `n` and ends (R165, R168). -/
def State.refusesAt (s : State) (v : Word) (n : SlotId) (code w0 : Word) : Prop :=
  ∃ t, exec (.signalWrite v) s = .next t ∧ t.slotShows n 4 code w0 0 0 0 s.sweep.openEdition s.clock ∧ t.hasAttn .orderDone ∧
    t.clock = s.clock ∧ t.self = s.self ∧ t.orders.start = s.orders.start ∧ s.still t ∧
    Rest { slots := (· = n) } (s.setHalt none) t

/-- A refused order is completed REFUSED in its visit with nothing applied (R166, R168). -/
theorem exec_refused (v : Word) {n : SlotId} {s : State} (h : s.visits n) {r : OrderRefusal} {w : Word}
    (judged : s.judge n = .refused r w) : s.refusesAt v n r.code w := by
  obtain ⟨_, _, _, posted, _⟩ := id h
  have visit : s.visit n = .goOn (event (fun s => (s.refuseSlot n r w s.sweep.openEdition).settle) s) := by
    unfold State.visit
    rw [if_pos posted, judged]
  obtain ⟨hexec, shows_, attention, clock, self, still, rest⟩ := s.setsOnly_refl.exec_completed v h (final := Config.stRefused)
    (by decide) { code := r.code, w0 := w } (fun s => s.refuseSlot n r w s.sweep.openEdition) rfl visit (d := { slots := (· = n) }) rfl
    (Rest.refl _ s)
  exact ⟨_, hexec, shows_, attention, clock, self, (congrArg OrderEngine.start rest.scan :), still, rest⟩

/-- Settles O17: each case of the statement is one refusal of `judge`. -/
theorem refusedAtTheVisit : Obligations.RefusedAtTheVisit := by
  unfold Obligations.RefusedAtTheVisit
  intro v n s visits k b w u inChannel busyOn used span floorSpan inUnit code w0 cases
  show s.refusesAt v n code w0
  have by_judge : ∀ r : OrderRefusal, s.judge n = .refused r w0 → code = r.code → s.refusesAt v n code w0 :=
    fun r judged same => same ▸ exec_refused v visits judged
  rcases cases with ⟨kind, rfl, rfl⟩ | ⟨start, low, high, rfl, rfl⟩ | ⟨started, cases⟩
  · exact by_judge .unknownKind (State.judge_unknown kind) rfl
  · exact by_judge .startPending (State.judge_startPending start low high) rfl
  have value : ∀ {j : Nat} (r : OrderRefusal), k = j → 1 ≤ j → j ≤ 16 → parseOrder s.mem n = .refused r w0 → code = r.code →
      s.refusesAt v n code w0 :=
    fun r kind low high parsed => by_judge r (State.judge_value kind low high started parsed)
  have check : ∀ {j : Nat} {o : Order} (r : OrderRefusal), k = j → 1 ≤ j → j ≤ 16 → parseOrder s.mem n = .order o →
      s.checkOrder o = some r → w0 = 0 → code = r.code →
      s.refusesAt v n code w0 :=
    fun r kind low high parsed checked zero => by_judge r (zero ▸ State.judge_check kind low high started parsed checked)
  have setChannel : ∀ {ch : ChanId}, k = 3 → inChannel → b 0 = ch.val → ∃ (rate : BitRate) (policy : OverflowPolicy),
      b 1 = rate.code ∧ parseOrder s.mem n = .order (.setChannel ch (channelSettings s.mem n rate policy)) := by
    rintro ch kind ⟨_, h1, low, high, h3⟩ channel
    obtain ⟨rate, hrate⟩ := BitRate.exists_code h1
    obtain ⟨policy, hpolicy⟩ := OverflowPolicy.exists_code h3
    exact ⟨rate, policy, hrate, (parseOrder_setChannel kind).trans (parseSetChannel_order channel hrate low high hpolicy)⟩
  have busy_iff : ∀ ch : ChanId, busyOn ch ↔ s.busyOn ch ≠ 0 := fun ch => by
    rw [Ne, State.busyOn_eq_zero, not_forall_not]
  have isUsed : ∀ {ch : ChanId} {a : Byte}, used ch a → s.addressUsed ch a = true := fun ⟨_, nonzero, listed, channel, address⟩ =>
    State.addressUsed_of nonzero listed channel address
  have ofUnit : ∀ {x : UnitId} (r : OrderRefusal), (k = 11 ∨ k = 12) → u = x.val → s.checkUnit x = some r → w0 = 0 → code = r.code →
      s.refusesAt v n code w0 := by
    rintro x r (kind | kind) unit
    · exact check r kind (by decide) (by decide) ((parseOrder_readUnit kind).trans (parseUnit_order _ unit))
    · exact check r kind (by decide) (by decide) ((parseOrder_eraseUnit kind).trans (parseUnit_order _ unit))
  have enlist : ∀ {x : UnitId} {ch : ChanId} (r : OrderRefusal), k = 8 → inUnit → u = x.val → b 1 = ch.val →
      s.checkEnlist x ch (paramByte s.mem n 2) = some r → w0 = 0 → code = r.code →
      s.refusesAt v n code w0 := by
    rintro x ch r kind ⟨least, _, _, low, high, cls⟩ unit channel
    have nonzero : x ≠ 0 := fun zero => by
      rw [unit, zero] at least
      exact absurd least (by decide)
    exact check r kind (by decide) (by decide)
      ((parseOrder_enlist kind).trans (parseEnlist_order (cls := ⟨b 6, by omega⟩) unit nonzero channel low high rfl))
  rcases cases with ⟨kind, bad, hcode, word⟩ | ⟨ch, kind, inRange, channel, busy, hcode, word⟩ |
    ⟨ch, kind, inRange, channel, idle, quiet, inUse, hcode, word⟩ | ⟨kind, bad, hcode, word⟩ | ⟨kind, channel, bad, hcode, word⟩ |
    ⟨kind, channel, pace, bad, hcode, word⟩ | ⟨kind, bad, hcode, word⟩ | ⟨kind, bad, hcode, word⟩ |
    ⟨x, kind, inRange, unit, occupied, hcode, word⟩ | ⟨x, ch, kind, inRange, unit, channel, vacant, inUse, hcode, word⟩ |
    ⟨kind, busy, hcode, word⟩ | ⟨kind, idle, hcode, word⟩ | ⟨kind, idle, hcode, word⟩ | ⟨kind, moves, paused, hcode, word⟩ |
    ⟨kind, bad, hcode, word⟩ | ⟨x, kind, nonzero, unit, gone, hcode, word⟩ |
    ⟨x, kind, nonzero, unit, listed, stays, off, hcode, word⟩
  · exact value .badValue kind (by decide) (by decide) ((parseOrder_setChannel kind).trans (word ▸ parseSetChannel_refused bad)) hcode
  · obtain ⟨rate, policy, hrate, parsed⟩ := setChannel kind inRange channel
    refine check .channelBusy kind (by decide) (by decide) parsed (State.checkSetChannel_busy (busy.imp id fun x => ?_)) word hcode
    exact ⟨fun off => x.1 (hrate.trans (BitRate.code_eq_zero.2 off)), (busy_iff ch).1 x.2⟩
  · obtain ⟨rate, policy, hrate, parsed⟩ := setChannel kind inRange channel
    refine check .duplicateAddress kind (by decide) (by decide) parsed (State.checkSetChannel_used idle ?_ (isUsed inUse)) word hcode
    exact quiet.imp (fun zero => BitRate.code_eq_zero.1 (hrate.symm.trans zero)) fun free =>
      not_not.1 fun some => free ((busy_iff ch).2 some)
  · exact value .badValue kind (by decide) (by decide) ((parseOrder_setPacing kind).trans (word ▸ parseSetPacing_channel bad)) hcode
  · exact value .limitSpan kind (by decide) (by decide) ((parseOrder_setPacing kind).trans (word ▸ parseSetPacing_pace channel bad)) hcode
  · exact value .limitSpan kind (by decide) (by decide)
      ((parseOrder_setPacing kind).trans (word ▸ parseSetPacing_marks channel (not_not.1 pace) bad)) hcode
  · exact value .badValue kind (by decide) (by decide) ((parseOrder_setPool kind).trans (word ▸ parseSetPool_refused bad)) hcode
  · exact value .badValue kind (by decide) (by decide) ((parseOrder_enlist kind).trans (word ▸ parseEnlist_refused bad)) hcode
  · obtain ⟨_, _, channel, _⟩ := id inRange
    exact enlist (ch := ⟨b 1, by omega⟩) .unitOccupied kind inRange unit rfl (State.checkEnlist_occupied occupied) word hcode
  · exact enlist .duplicateAddress kind inRange unit channel (State.checkEnlist_used vacant (inUse.imp isUsed id)) word hcode
  · obtain ⟨mask, budget, parsed⟩ := parseOrder_sweepOrder.1 kind
    exact check .sweepBusy kind (by decide) (by decide) parsed (if_neg busy) word hcode
  · exact check .noSweep kind (by decide) (by decide) (parseOrder_sweepOrder.2.1 kind) (if_neg idle) word hcode
  · exact check .noSweep kind (by decide) (by decide) (parseOrder_sweepOrder.2.2.1 kind) (if_neg idle) word hcode
  · exact check .noSweep kind (by decide) (by decide) (parseOrder_sweepOrder.2.2.2 kind) (if_neg (not_or.2 ⟨moves, paused⟩)) word hcode
  · rcases kind with kind | kind | kind
    · refine value .badValue kind (by decide) (by decide) ((parseOrder_delist kind).trans (word ▸ parseDelist_refused ?_)) hcode
      exact bad.imp id And.right
    · refine value .badValue kind (by decide) (by decide) ((parseOrder_readUnit kind).trans (word ▸ parseUnit_refused _ ?_)) hcode
      exact bad.elim id fun x => by omega
    · refine value .badValue kind (by decide) (by decide) ((parseOrder_eraseUnit kind).trans (word ▸ parseUnit_refused _ ?_)) hcode
      exact bad.elim id fun x => by omega
  · rcases kind with kind | kind
    · exact check .unitVacant kind (by decide) (by decide) ((parseOrder_delist kind).trans (parseDelist_order unit nonzero)) (if_pos gone)
        word hcode
    · exact ofUnit .unitVacant kind unit (State.checkUnit_vacant nonzero gone) word hcode
  · exact ofUnit .channelOff kind unit (State.checkUnit_off nonzero listed stays off) word hcode

end Sys2Proof.Machine
end


section
/-! SUPPORT. What follow-up work leaves of a channel that is off its bus, and of one with no credits and an empty queue (R94, R95, R122,
R127, R138). -/

namespace Sys2Proof.Machine

theorem State.placeGranted_chan_other {k : CtxId} {c : ChanId} {s : State} (other : c ≠ s.ctxs[k].channel) :
    (s.placeGranted k).chans[c] = s.chans[c] := by
  unfold State.placeGranted State.sendFrame
  dsimp only
  rw [State.updCtx_chans, State.updChan_get, State.updCtx_get, if_pos rfl, if_neg other, State.updCtx_chans]

/-- A context that joins its line concerns its own channel alone (R138). -/
theorem State.joinLine_chan_other {k : CtxId} {need : Nat} {c : ChanId} {s : State} (other : c ≠ s.ctxs[k].channel) :
    (s.joinLine k need).chans[c] = s.chans[c] := by
  refine (State.joinLine_induct (fun t => t.ctxs[k].channel = s.ctxs[k].channel ∧ t.chans[c] = s.chans[c]) k need s
    (fun f t ⟨same, x⟩ => ⟨same, ?_⟩) (fun t ⟨same, x⟩ => ⟨?_, ?_⟩) ⟨?_, rfl⟩).2
  · rw [State.updCtx_get, if_pos rfl]
  · rw [State.updPacer, State.updChan_get, if_neg other, x]
  · rw [State.placeGranted_get, if_pos rfl]
    exact same
  · rw [State.placeGranted_chan_other (by rw [same]; exact other), x]

theorem State.assign_chan_other {k : CtxId} {u : UnitId} {p : Purpose} {c : ChanId} {s : State} (other : c ≠ s.dir[u].channel) :
    (s.assign k u p).chans[c] = s.chans[c] := by
  unfold State.assign
  dsimp only
  rw [State.joinLine_chan_other]
  · rw [State.updCtx_chans, (State.writeEntry_frame u _ s).2.2.2.2.2.2.2.2.2.1]
  · rw [State.updCtx_get, if_pos rfl]
    exact other

/-! ### A channel off its bus -/

/-- The allocator takes no unit of a channel off its bus (R95). -/
theorem State.nextUnit_joined {s : State} {u : UnitId} {p : Purpose} (h : s.nextUnit = some (u, p)) :
    s.chans[s.dir[u].channel].state.joined = true := by
  have joined : ∀ {q : Purpose}, s.eligible u q = true → s.chans[s.dir[u].channel].state.joined = true := fun {q} eligible => by
    unfold State.eligible at eligible
    simp only [Bool.and_eq_true] at eligible
    exact eligible.1.1.2
  unfold State.nextUnit at h
  split at h
  · next w hw =>
    cases h
    exact joined (List.find?_some (p := fun u => s.eligible u (s.purposeFor u)) hw)
  · obtain ⟨w, hw, same⟩ := Option.map_eq_some_iff.1 h
    cases same
    exact joined (List.find?_some (p := fun u => s.eligible u .read) hw)

theorem State.wakeChannel_off {ch c : ChanId} {s : State} (off : s.chans[c].state.joined = false) :
    (s.wakeChannel ch).chans[c] = s.chans[c] := by
  unfold State.wakeChannel
  split
  · next wakes =>
    rw [State.updChan_get, if_neg]
    rintro rfl
    rw [off, Bool.and_false, Bool.false_and] at wakes
    cases wakes
  · rfl

theorem State.sweepTest_off {c : ChanId} {s : State} (off : s.chans[c].state.joined = false) : s.sweepTest.chans[c] = s.chans[c] := by
  have started : ∀ origin mask budget (t : State), t.chans = s.chans →
      (t.startSweep origin mask budget).chans[c] = s.chans[c] := fun origin mask budget t same => by
    unfold State.startSweep
    dsimp only
    generalize hX : State.updSweep _ t.needEdition = X
    have begun : X.chans = s.chans := by
      rw [← hX]
      simpa using same
    have woken : (forEach allChans State.wakeChannel (forEach allUnits (State.markUnit mask) X)).chans[c] = s.chans[c] := by
      refine forEach_invariant (fun x : State => x.chans[c] = s.chans[c]) _ (fun ch t x => ?_) _ _ ?_
      · rw [State.wakeChannel_off (by rw [x]; exact off), x]
      · rw [forEach_keeps State.chans _ (by simp), begun]
    split
    · simpa using woken
    · exact woken
  unfold State.sweepTest State.finishSweep
  dsimp only
  split
  · split
    · exact started _ _ _ _ (by simp)
    · simp
  · rfl

/-- What follows an event leaves a channel off its bus as it is (R95, R127). -/
theorem State.settle_off {c : ChanId} {s : State} (off : s.chans[c].state.joined = false) : s.settle.chans[c] = s.chans[c] := by
  unfold State.settle
  have tested : s.sweepTest.sweepTest.closeTest.chans[c] = s.chans[c] := by
    have once := State.sweepTest_off off
    rw [(State.closeTest_frame _).2.2.2.2.2.2.1, State.sweepTest_off (by rw [once]; exact off), once]
  refine State.allocate_induct (fun t => t.chans[c] = s.chans[c]) (fun k u p t _ next x => ?_) 8 _ tested
  rw [State.assign_chan_other, x]
  rintro rfl
  rw [← x, State.nextUnit_joined next] at off
  cases off

/-! ### A channel with no credits and an empty queue -/

/-- The channel has no credits to grant and nothing to send. -/
def Channel.spent (c : Channel) : Prop := c.txQueue = [] ∧ c.pacer.credits = 0

/-- A head that asks for more than there is waits (R138). -/
theorem State.serve_short {ch : ChanId} {k : CtxId} {s : State} (line : s.chans[ch].pacer.line = [k])
    (short : s.chans[ch].pacer.credits < s.ctxs[k].creditNeed) : s.serve ch = s := by
  unfold State.serve
  rw [line]
  show s.serveLine ch 1 = s
  unfold State.serveLine
  rw [line]
  split
  · rfl
  · exact if_neg (Nat.not_le.2 short)

/-- No context is granted anything at a channel without credits (R99, R138). -/
theorem State.joinLine_spent {k : CtxId} {need : Nat} (asks : 0 < need) {c : ChanId} {s : State} (h : s.chans[c].spent) :
    (s.joinLine k need).chans[c].spent := by
  by_cases other : c ≠ s.ctxs[k].channel
  · rwa [State.joinLine_chan_other other]
  obtain rfl := not_not.1 other
  obtain ⟨queue, credits⟩ := h
  obtain ⟨J, hJ⟩ : ∃ J, J = (s.updCtx k fun c => { c with creditNeed := need }).updPacer s.ctxs[k].channel
    fun p => { p with line := p.line ++ [k] } := ⟨_, rfl⟩
  have block : J.chans[s.ctxs[k].channel] = { s.chans[s.ctxs[k].channel] with
      pacer := { s.chans[s.ctxs[k].channel].pacer with line := s.chans[s.ctxs[k].channel].pacer.line ++ [k] } } := by
    rw [hJ, State.updPacer, State.updChan_get, if_pos rfl, State.updCtx_chans]
  have needs : J.ctxs[k].creditNeed = need := by
    have ctx : J.ctxs[k] = (s.updCtx k fun c => { c with creditNeed := need }).ctxs[k] := by
      rw [hJ]
      rfl
    rw [ctx, State.updCtx_get, if_pos rfl]
  have waits : s.joinLine k need = J := by
    unfold State.joinLine
    dsimp only
    rw [← hJ]
    split
    · next empty =>
      refine State.serve_short (k := k) ?_ ?_
      · rw [block, List.isEmpty_iff.1 empty]
        rfl
      · rw [block, needs]
        exact Nat.lt_of_le_of_lt (Nat.le_of_eq credits) asks
    · rfl
  rw [waits, block]
  exact ⟨queue, credits⟩

theorem State.settle_spent {c : ChanId} {s : State} (ok : s.sweepOk) (h : s.chans[c].spent) : s.settle.chans[c].spent := by
  unfold State.settle
  rw [State.sweepTest_of_sweepOk ok, State.sweepTest_of_sweepOk ok]
  refine State.allocate_induct (fun t => t.chans[c].spent) (fun k u p t _ _ x => ?_) 8 _ ?_
  · unfold State.assign
    dsimp only
    refine State.joinLine_spent (by cases p <;> decide) ?_
    rwa [State.updCtx_chans, (State.writeEntry_frame u _ t).2.2.2.2.2.2.2.2.2.1]
  · rwa [(State.closeTest_frame s).2.2.2.2.2.2.1]

theorem State.stamp_spent {s m : State} {c : ChanId} (h : m.chans[c].spent) : (State.stamp s m).chans[c].spent := by
  unfold Channel.spent
  rw [State.stamp_chan_congr s m c (·.txQueue) fun _ _ => rfl, State.stamp_chan_congr s m c (·.pacer) fun _ _ => rfl]
  exact h

end Sys2Proof.Machine
end

section
/-! SUPPORT. The return of a channel: from BUS_OFF, and by SET CHANNEL with a rate (R66, R118, R121, R129, R134, R142). -/

namespace Sys2Proof.Machine

/-- The BUS_OFF entry of the channel, if there is one, is not ACTIVE_NOW (R66). -/
def SelfHistory.silentOn (h : SelfHistory) (ch : ChanId) : Prop :=
  ∀ e ∈ h.entries, e.code = .busOff → e.mode = BitVec.ofNat 8 ch.val → e.activeNow = false

theorem State.clearBusOffActive_silent (ch : ChanId) (s : State) : (s.clearBusOffActive ch).self.silentOn ch := by
  intro e he code mode
  have named : e.hasIdent .busOff (BitVec.ofNat 8 ch.val) = true := SelfEntry.hasIdent_iff.2 ⟨code, mode⟩
  unfold State.clearBusOffActive at he
  split at he
  · obtain ⟨e0, _, he0⟩ := List.mem_map.1 he
    split at he0
    · rw [← he0]
    · next other =>
      rw [he0] at other
      exact absurd named other
  · next none =>
    rw [Bool.not_eq_true, List.any_eq_false] at none
    have off := none e he
    rw [named, Bool.true_and, Bool.not_eq_true] at off
    exact off

/-- RECOVERY_HOLD_EXPIRY in BUS_OFF (R121). -/
theorem exec_recoveryHoldExpiry {ch : ChanId} {s : State} (run : s.running) {at_ : Clock} (state : s.chans[ch].state = .busOff)
    (timer : s.chans[ch].recoveryTimer = some at_) :
    exec (.recoveryHoldExpiry ch) s = .next (State.stamp s ((s.advanceTo at_).updChan ch Channel.startRecovery).settle) := by
  have command : execRecoveryHoldExpiry ch s = .next (settledEvent (fun s => (s.advanceTo at_).updChan ch Channel.startRecovery) s) := by
    unfold execRecoveryHoldExpiry
    rw [state, timer]
  exact command.trans (congrArg Host.Outcome.next (settledEvent_eq _ s run))

/-- RECOVERY_COMPLETE in RECOVERING (R66, R121). -/
theorem recoveryComplete_returns {ch : ChanId} {s : State} (run : s.running) (state : s.chans[ch].state = .recovering) :
    ∃ t, exec (.recoveryComplete ch) s = .next t ∧ t.clock = s.clock ∧
      t.chans[ch].link = { s.chans[ch].link with state := .active, txErrors := 0, rxErrors := 0, idleRuns := 128 } ∧
      t.self.silentOn ch ∧ s.still t ∧ Rest { chans := (· = ch) } s t := by
  obtain ⟨m, hM⟩ : ∃ m, m = (s.updChan ch Channel.recovered).clearBusOffActive ch := ⟨_, rfl⟩
  have own : Rest { chans := (· = ch) } s m := hM ▸ (Rest.updChan ch _ s).trans (Rest.clearBusOffActive ch _).widen
  have after : Rest {} m (State.stamp s m.settle) := (Rest.settle m).stamp s
  have block : m.chans[ch] = s.chans[ch].recovered := by
    rw [hM, (State.clearBusOffActive_frame ch _).2.2.2.2.2.2.2.2.2.1, State.updChan_get, if_pos rfl]
  have silent : m.self.silentOn ch := hM ▸ State.clearBusOffActive_silent ch _
  refine ⟨State.stamp s m.settle, ?_, ?_, ?_, ?_, ?_, own.settled⟩
  · rw [hM]
    exact congrArg Host.Outcome.next ((if_pos state).trans (settledEvent_eq _ s run))
  · exact (State.settle_clock m).trans (by rw [hM]; simp)
  · rw [after.links ch id, block]
    rfl
  · rw [State.stamp_self, (State.settle_frame m).2.1]
    exact silent
  · refine State.still_settled ?_ (fun v => ?_) (State.nothingKeeps_congr ?_ ?_) <;> rw [hM] <;> simp

/-! ### SET CHANNEL -/

section
variable {s : State} {n : SlotId} {ch : ChanId} {rate : BitRate} {policy : OverflowPolicy}

/-- SET CHANNEL, its checks passed, is taken (R118, R166). -/
theorem State.judge_setChannel (kind : slotKind s.mem n = 3) (started : s.orders.start = false)
    (h0 : (paramByte s.mem n 0).toNat = ch.val) (h1 : (paramByte s.mem n 1).toNat = rate.code)
    (low : 1 ≤ (paramByte s.mem n 2).toNat) (high : (paramByte s.mem n 2).toNat ≤ 253)
    (h3 : (paramByte s.mem n 3).toNat = policy.code) (idle : s.sweep.state = .idle) (quiet : rate = .off ∨ s.busyOn ch = 0)
    (unused : ∀ w : UnitId, w ≠ 0 → s.dir[w].state ≠ .vacant → s.dir[w].channel = ch → s.dir[w].address ≠ paramByte s.mem n 2) :
    s.judge n = .taken (.setChannel ch (channelSettings s.mem n rate policy)) := by
  have number : (slotKind s.mem n).toNat = 3 := by rw [kind]; rfl
  rw [State.judge_order number (by decide) (by decide) started
    ((parseOrder_setChannel number).trans (parseSetChannel_order h0 h1 low high h3))
    (State.checkSetChannel_none idle quiet (State.addressUsed_false unused))]
  rfl

/-- SET CHANNEL's result words: the settings as applied (R118). -/
def ChanSettings.result (v : ChanSettings) : OrderResult where
  code := 0
  w0 := BitVec.ofNat 16 v.bitRate.code
  w1 := v.address.setWidth 16
  w2 := BitVec.ofNat 16 v.limit
  w3 := BitVec.ofNat 16 v.recoveryHold

/-- SET CHANNEL with a rate sets the channel and the BUS_OFF entry of one that was silent (R66, R118). -/
def State.rateSet (ch : ChanId) (v : ChanSettings) (s : State) : State :=
  if s.chans[ch].state.silent then (s.setChannelRate ch v).clearBusOffActive ch else s.setChannelRate ch v

theorem State.rateSet_frame (ch : ChanId) (v : ChanSettings) (s : State) : s.setsOnly (s.rateSet ch v) ∧
    (s.rateSet ch v).chans[ch] = s.chans[ch].startRate s.clock v ∧
    (s.chans[ch].state.silent = true → (s.rateSet ch v).self.silentOn ch) ∧
    (s.chans[ch].state.silent = false → (s.rateSet ch v).self = s.self) ∧ Rest { chans := (· = ch) } s (s.rateSet ch v) := by
  have block : (s.setChannelRate ch v).chans[ch] = s.chans[ch].startRate s.clock v := by
    unfold State.setChannelRate
    rw [State.updChan_get, if_pos rfl]
  have own : Rest { chans := (· = ch) } s (s.setChannelRate ch v) := Rest.updChan ch _ s
  unfold State.rateSet
  cases silent : s.chans[ch].state.silent with
  | true =>
    rw [if_pos rfl]
    refine ⟨⟨?_, ?_, ?_, ?_, ?_, fun v => ?_⟩, ?_, fun _ => State.clearBusOffActive_silent ch _, nofun,
      own.trans (Rest.clearBusOffActive ch _).widen⟩
    case refine_7 => rwa [(State.clearBusOffActive_frame ch _).2.2.2.2.2.2.2.2.2.1]
    all_goals simp [State.setChannelRate]
  | false =>
    rw [if_neg Bool.false_ne_true]
    exact ⟨⟨rfl, rfl, rfl, rfl, rfl, fun _ => rfl⟩, block, nofun, fun _ => rfl, own⟩

end

/-- Settles O37: the two steps of recovery, and SET CHANNEL with a rate, which completes in its visit. -/
theorem recoveryReturnsTheChannel : Obligations.RecoveryReturnsTheChannel := by
  unfold Obligations.RecoveryReturnsTheChannel
  refine ⟨fun ch s run => ⟨fun at_ state timer => ?_, recoveryComplete_returns run⟩, ?_⟩
  · obtain ⟨link, _, clock, self, _, still, rest⟩ := (State.passesTo_advanceTo at_ s).event ch Channel.startRecovery
    exact ⟨_, exec_recoveryHoldExpiry run state timer, clock.trans (State.advanceTo_clock s at_), self, link, still, rest⟩
  intro v n ch rate policy s visits kind started h0 on h1 low high h3 idle free unused c p settings
  obtain ⟨_, _, _, posted, _⟩ := id visits
  have judged : s.judge n = .taken (.setChannel ch settings) :=
    State.judge_setChannel kind started h0 h1 low high h3 idle (.inr (State.busyOn_eq_zero.2 free)) unused
  obtain ⟨m, hM⟩ : ∃ m, m = s.rateSet ch settings := ⟨_, rfl⟩
  obtain ⟨sets, block, silenced, same, own⟩ := State.rateSet_frame ch settings s
  rw [← hM] at sets block silenced same own
  obtain ⟨G, hG⟩ : ∃ G, G = m.completeSlot n Config.stDone settings.result s.sweep.openEdition := ⟨_, rfl⟩
  have take : s.take n (.setChannel ch settings) = G := by
    have apply : s.applySetChannel ch settings = m := by
      unfold State.applySetChannel
      rw [hM, State.rateSet, if_neg (show settings.bitRate ≠ .off from on)]
    show (s.applySetChannel ch settings).doneNow n _ _ _ _ = _
    rw [apply, hG, ← sets.sweep]
    rfl
  obtain ⟨hexec, shows_, attention, clock, self, still, rest⟩ := sets.exec_completed v visits (final := Config.stDone) (by decide) settings.result
    (fun s => s.take n (.setChannel ch settings)) (take.trans hG) (State.visit_taken posted judged nofun)
    (d := { chans := (· = ch), slots := (· = n) }) rfl
    (own.mono (fun _ x => x) (fun _ x => x) (fun _ x => x) fun _ x => x.elim)
  have chans : G.chans = m.chans := by rw [hG]; simp
  have ok : G.sweepOk := fun runs => absurd (by rw [hG]; simpa [sets.sweep] using idle) runs
  have spent : G.chans[ch].spent := by
    rw [chans, block]
    exact ⟨rfl, rfl⟩
  unfold State.completedIn at hexec shows_ attention clock self still rest
  rw [← hG] at hexec shows_ attention clock self still rest
  have after : Rest {} G (State.stamp s G.settle) := (Rest.settle G).stamp s
  obtain ⟨queue, credits⟩ : (State.stamp s G.settle).chans[ch].spent := State.stamp_spent (State.settle_spent ok spent)
  have settlement : (State.stamp s G.settle).chans[ch].settlement = (false, none) := by
    rw [State.stamp_settlement, State.settle_settlement ok, chans, block]
    rfl
  refine ⟨_, hexec, ?_, queue, credits, congrArg Prod.fst settlement, fun was => ?_, fun x y => ?_, shows_, attention, clock, still, rest⟩
  · refine (after.links ch id).trans ?_
    rw [chans, block]
    rfl
  · rw [self]
    exact silenced (by rcases was with x | x <;> exact congrArg ChanState.silent x)
  · rw [self]
    refine same ?_
    show s.chans[ch].state.silent = false
    cases state : s.chans[ch].state with
    | busOff => exact absurd state x
    | recovering => exact absurd state y
    | _ => rfl

end Sys2Proof.Machine
end


section
/-! SUPPORT. The end of one context with an outcome for its unit and its orders, and one the sweep is told (R57, R58, R61, R112, R113,
R149, R152). -/

namespace Sys2Proof.Machine

/-- The request of a context ends with `out`; a sweep that waits for the unit is told `told` (R113, R149). -/
def State.endAs (k : CtxId) (out told : UnitOutcome) (s : State) : State :=
  (((s.requestEnded id k out).toldSweep k told).completeUnitOrders out (slotsOf s.ctxs[k].attached)).offerDelist s.ctxs[k].target

theorem State.endContext_eq_endAs (k : CtxId) (out : UnitOutcome) (s : State) : s.endContext k out = s.endAs k out out := by
  obtain ⟨_, _, _, _, ctxs, _⟩ := State.requestEnded_frame id k out s
  rw [State.endContext_eq_endWith, State.endWith, State.endCommitting_eq, ctxs]
  rfl

/-- A stopped read ends with one outcome, and the sweep may be told another (R152; log entry 27). -/
theorem State.endReadAs_eq_endAs {k : CtxId} (out told : UnitOutcome) {s : State} (reads : s.ctxs[k].purpose = .read) :
    s.endReadAs id k out told = s.endAs k out told := by
  have ctxs : (s.endRequestWith id s.ctxs[k].target out).ctxs = s.ctxs := by simp
  unfold State.endAs State.toldSweep State.requestEnded State.endReadAs
  rw [reads]
  dsimp only
  rw [ctxs, reads]

theorem State.endErase_eq_endAs {k : CtxId} (out told : UnitOutcome) {s : State} (erases : s.ctxs[k].purpose = .erase) :
    s.endErase k out = s.endAs k out told := by
  have ctxs : (s.writeEntry s.ctxs[k].target (DirEntry.endErase out)).ctxs = s.ctxs := by simp
  unfold State.endAs State.toldSweep State.requestEnded State.endErase
  rw [erases]
  dsimp only [id]
  rw [ctxs, erases]

/-! ### What is touched -/

theorem Channel.orphan_of_none {c : Channel} (none : c.frames = []) (k : CtxId) : c.orphan k = c := by
  obtain ⟨queue, deferred⟩ := List.append_eq_nil_iff.1 none
  obtain ⟨queue, outside⟩ := List.append_eq_nil_iff.1 queue
  cases c
  dsimp only at queue outside deferred
  subst queue outside deferred
  rfl

section
variable (k : CtxId) (out told : UnitOutcome) (s : State)

theorem State.toldSweep_get (j : CtxId) :
    (s.toldSweep k out).ctxs[j] = if j = k then Context.freed s.ctxs[k].revision s.ctxs[k].parity else s.ctxs[j] := by
  have freed : (s.freeContext k).ctxs[j] = if j = k then Context.freed s.ctxs[k].revision s.ctxs[k].parity else s.ctxs[j] := by
    unfold State.freeContext
    rw [State.updCtx_get, State.updChan_ctxs]
  have ctxs : (s.toldSweep k out).ctxs = (s.freeContext k).ctxs := by
    unfold State.toldSweep
    split <;> simp
  rw [← freed, ctxs]

theorem State.endAs_get (j : CtxId) :
    (s.endAs k out told).ctxs[j] = if j = k then Context.freed s.ctxs[k].revision s.ctxs[k].parity else s.ctxs[j] := by
  obtain ⟨_, _, _, _, ctxs, _⟩ := State.requestEnded_frame id k out s
  have told_ := State.toldSweep_get k told (s.requestEnded id k out) j
  rw [ctxs] at told_
  rw [← told_]
  simp [State.endAs]

theorem Rest.toldSweep : Rest { ctxs := (· = k), chans := (· = s.ctxs[k].channel) } s (s.toldSweep k told) := by
  unfold State.toldSweep
  split
  · exact (Rest.freeContext k s).trans (Rest.sweepTake _ _ _).widen
  · exact Rest.freeContext k s

theorem Rest.endAs :
    Rest { ctxs := (· = k), chans := (· = s.ctxs[k].channel), units := (· = s.ctxs[k].target)
           slots := fun n => hasSlot s.ctxs[k].attached n = true } s (s.endAs k out told) := by
  obtain ⟨_, _, _, _, ctxs, _⟩ := State.requestEnded_frame id k out s
  have freed := Rest.toldSweep k told (s.requestEnded id k out)
  rw [ctxs] at freed
  refine Rest.trans ?_ (Rest.offerDelist _ _).widen
  refine Rest.trans ?_ ((Rest.completeUnitOrders out _ _).mono (fun _ x => x.elim) (fun _ x => x.elim) (fun _ x => x.elim)
    fun _ x => mem_slotsOf.1 x)
  exact Rest.trans ((Rest.requestEnded id k out s).mono (fun _ x => x.elim) (fun _ x => x.elim) (fun _ x => x) fun _ x => x.elim)
    (freed.mono (fun _ x => x) (fun _ x => x) (fun _ x => x.elim) fun _ x => x.elim)

theorem State.endAs_completesOnly : s.completesOnly (s.endAs k out told) := by
  obtain ⟨_, mem, orders, _⟩ := State.requestEnded_frame id k out s
  obtain ⟨mem', orders', _⟩ := State.toldSweep_frame k told (s.requestEnded id k out)
  have completed := State.completesOnly_trans (State.completesOnly_same (mem'.trans mem) (orders'.trans orders))
    (State.completesOnly_orders out (slotsOf s.ctxs[k].attached) _)
  exact State.completesOnly_trans completed (State.completesOnly_same (by simp [State.endAs]) (by simp [State.endAs]))

/-- A channel with no frame waiting sees nothing of the release of a context. -/
theorem State.endAs_chans (none : s.chans[s.ctxs[k].channel].frames = []) (c : ChanId) :
    (s.endAs k out told).chans[c] = s.chans[c] := by
  obtain ⟨_, _, _, _, ctxs, chans⟩ := State.requestEnded_frame id k out s
  have freed : (s.endAs k out told).chans = ((s.requestEnded id k out).freeContext k).chans := by
    unfold State.endAs State.toldSweep
    split <;> simp
  rw [freed, State.freeContext, State.updCtx_chans, State.updChan_get, ctxs, chans]
  split
  · next same =>
    subst same
    exact Channel.orphan_of_none none k
  · rfl

end

/-! ### The unit's entry and the sweep -/

theorem State.writeEntry_other {u v : UnitId} (other : v ≠ u) (f : DirEntry → DirEntry) (s : State) :
    (s.writeEntry u f).dir[v] = s.dir[v] := by
  rw [State.writeEntry_get, if_neg fun x => other x.1]

theorem State.sweepTake_dir_other {u v : UnitId} (other : v ≠ u) (out : UnitOutcome) (s : State) :
    (s.sweepTake u out).dir[v] = s.dir[v] := by
  unfold State.sweepTake
  split
  · exact State.writeEntry_other other _ s
  · rfl

theorem State.offerDelist_dir_other {u v : UnitId} (other : v ≠ u) (s : State) : (s.offerDelist u).dir[v] = s.dir[v] := by
  have offered : ∀ (r : PoolRequest) (t : State), (t.offer r).dir[v] = t.dir[v] := fun r t => by
    rw [(State.offer_frame r t).2.2.2.2.1]
  have skipped : (s.skipPending u).dir[v] = s.dir[v] := by
    unfold State.skipPending
    split
    · exact State.writeEntry_other other _ s
    · rfl
  unfold State.offerDelist
  split
  · split
    · exact (offered _ _).trans skipped
    · exact skipped
  · rfl

/-- The count of lost channels and of stops, of which a delisting is none (R149). -/
def Tallies.losses (t : Tallies) : Nat × Nat := (t.channelLost, t.stopped)

/-- An offer for a delisting counts a skip at most, and leaves the sweep's course but for the edition it may open (R61). -/
theorem State.offerDelist_sweep {α : Type} (g : SweepCtl → α) (hg : ∀ x, g (SweepCtl.course x) = g x)
    (skip : ∀ x, g { x with tallies := { x.tallies with skipped := x.tallies.skipped + 1 } } = g x) (u : UnitId) (s : State) :
    g (s.offerDelist u).sweep = g s.sweep := by
  have skipped : g (s.skipPending u).sweep = g s.sweep := by
    unfold State.skipPending
    split
    · rw [State.updSweep_sweep, (State.writeEntry_frame u _ s).2.2.2.2.1]
      exact skip _
    · rfl
  unfold State.offerDelist
  split
  · split
    · exact (SweepCtl.course_congr (State.offer_course _ _) g hg).trans skipped
    · exact skipped
  · rfl

section
variable {k : CtxId} {out told : UnitOutcome} {s : State}

theorem State.endAs_dir_other {v : UnitId} (other : v ≠ s.ctxs[k].target) : (s.endAs k out told).dir[v] = s.dir[v] := by
  obtain ⟨_, _, _, _, ctxs, _⟩ := State.requestEnded_frame id k out s
  have ended : (s.requestEnded id k out).dir[v] = s.dir[v] := by
    rw [State.requestEnded_dir, State.writeEntry_get, if_neg fun x => other x.1]
  have freed : ((s.requestEnded id k out).toldSweep k told).dir[v] = (s.requestEnded id k out).dir[v] := by
    unfold State.toldSweep
    split
    · rw [ctxs, State.sweepTake_dir_other other, (State.freeContext_frame k _).2.2.2.2.2.1]
    · rw [(State.freeContext_frame k _).2.2.2.2.2.1]
  rw [State.endAs, State.offerDelist_dir_other other, (State.completeUnitOrders_frame _ _ _).2.2.1, freed, ended]

/-- The unit's entry but for its mark is what the end of the request writes. -/
theorem State.endAs_entry {α : Type} (h : DirEntry → α) (hh : ∀ x : DirEntry, h x.body = h x) :
    h (s.endAs k out told).dir[s.ctxs[k].target] =
      h (DirEntry.requestEnded id s.ctxs[k].purpose out s.sweep.openEdition s.dir[s.ctxs[k].target]) := by
  have body : (s.endAs k out told).dir[s.ctxs[k].target].body = (s.requestEnded id k out).dir[s.ctxs[k].target].body := by
    rw [State.endAs, State.offerDelist_body, (State.completeUnitOrders_frame _ _ _).2.2.1, State.toldSweep_body]
  exact (DirEntry.body_congr body h hh).trans (State.requestEnded_get rfl h fun x _ => (hh _).symm.trans (hh x))

/-- A sweep that waits for the unit takes what it is told of its read (R148, R149). -/
theorem State.endAs_pending (reads : s.ctxs[k].purpose = .read) (pending : s.dir[s.ctxs[k].target].mark = .pending) :
    (s.endAs k out told).dir[s.ctxs[k].target].mark = outcomeMark told ∧
      (s.endAs k out told).sweep.tallies = s.sweep.tallies.count told := by
  obtain ⟨_, _, _, sweep, ctxs, _⟩ := State.requestEnded_frame id k out s
  have mark : ((s.requestEnded id k out).freeContext k).dir[s.ctxs[k].target].mark = .pending := by
    rw [(State.freeContext_frame k _).2.2.2.2.2.1, State.requestEnded_get rfl (·.mark) fun _ _ => rfl, DirEntry.requestEnded_mark]
    exact pending
  have taken : (s.requestEnded id k out).toldSweep k told =
      ((s.requestEnded id k out).freeContext k).sweepTake s.ctxs[k].target told := by
    unfold State.toldSweep
    rw [ctxs, reads]
  obtain ⟨marks, tallies⟩ := State.sweepTake_pending (out := told) mark
  obtain ⟨G, hG⟩ : ∃ G, G = ((s.requestEnded id k out).toldSweep k told).completeUnitOrders out (slotsOf s.ctxs[k].attached) := ⟨_, rfl⟩
  have markG : G.dir[s.ctxs[k].target].mark = outcomeMark told := by
    rw [hG, (State.completeUnitOrders_frame _ _ _).2.2.1, taken, marks, if_pos rfl]
  obtain ⟨dir, course⟩ := State.offerDelist_unmarked (u := s.ctxs[k].target) (s := G) (by rw [markG]; exact outcomeMark_ne_pending told)
  rw [State.endAs, ← hG]
  refine ⟨by rw [dir]; exact markG, (SweepCtl.course_congr course (·.tallies) fun _ => rfl).trans ?_⟩
  rw [hG, (State.completeUnitOrders_frame _ _ _).2.1, taken, tallies, (State.freeContext_frame k _).2.2.2.2.1, sweep]

/-- What a sweep does not wait for it does not count (R148). -/
theorem State.endAs_unpending (h : ¬ (s.ctxs[k].purpose = .read ∧ s.dir[s.ctxs[k].target].mark = .pending)) :
    (s.endAs k out told).sweep.tallies.losses = s.sweep.tallies.losses := by
  obtain ⟨_, _, _, sweep, ctxs, _⟩ := State.requestEnded_frame id k out s
  have mark : ((s.requestEnded id k out).freeContext k).dir[s.ctxs[k].target].mark = s.dir[s.ctxs[k].target].mark := by
    rw [(State.freeContext_frame k _).2.2.2.2.2.1, State.requestEnded_get rfl (·.mark) fun _ _ => rfl, DirEntry.requestEnded_mark]
    rfl
  have untold : ((s.requestEnded id k out).toldSweep k told).sweep = s.sweep := by
    unfold State.toldSweep
    split
    · next reads =>
      rw [ctxs] at reads ⊢
      rw [State.sweepTake, if_neg (by rw [mark]; exact fun x => h ⟨reads, x⟩), (State.freeContext_frame k _).2.2.2.2.1, sweep]
    · rw [(State.freeContext_frame k _).2.2.2.2.1, sweep]
  rw [State.endAs, State.offerDelist_sweep (fun w => w.tallies.losses) (fun _ => rfl) (fun _ => rfl),
    (State.completeUnitOrders_frame _ _ _).2.1, untold]

/-- The sweep's course goes on but for its tallies. -/
theorem State.endAs_sweep {α : Type} (g : SweepCtl → α) (hg : ∀ x, g (SweepCtl.course x) = g x)
    (ht : ∀ x t, g { x with tallies := t } = g x) : g (s.endAs k out told).sweep = g s.sweep := by
  obtain ⟨_, _, _, sweep, ctxs, _⟩ := State.requestEnded_frame id k out s
  have taken : ∀ u (t : State), g (t.sweepTake u told).sweep = g t.sweep := fun u t => by
    unfold State.sweepTake
    split
    · rw [State.updSweep_sweep, (State.writeEntry_frame u _ t).2.2.2.2.1]
      exact ht _ _
    · rfl
  have counted : g ((s.requestEnded id k out).toldSweep k told).sweep = g s.sweep := by
    unfold State.toldSweep
    split
    · rw [taken, (State.freeContext_frame k _).2.2.2.2.1, sweep]
    · rw [(State.freeContext_frame k _).2.2.2.2.1, sweep]
  rw [State.endAs, State.offerDelist_sweep g hg fun _ => ht _ _, (State.completeUnitOrders_frame _ _ _).2.1, counted]

/-- The edition that is open stays open, and with no delisting behind the context none is opened (R61, R156). -/
theorem State.endAs_edition (h : s.sweep.openEdition ≠ 0 ∨ s.dir[s.ctxs[k].target].state ≠ .delisting) :
    (s.endAs k out told).sweep.openEdition = s.sweep.openEdition := by
  obtain ⟨_, _, _, sweep, ctxs, _⟩ := State.requestEnded_frame id k out s
  obtain ⟨G, hG⟩ : ∃ G, G = ((s.requestEnded id k out).toldSweep k told).completeUnitOrders out (slotsOf s.ctxs[k].attached) := ⟨_, rfl⟩
  have edition : G.sweep.openEdition = s.sweep.openEdition := by
    have counted : ((s.requestEnded id k out).toldSweep k told).sweep.openEdition = s.sweep.openEdition := by
      unfold State.toldSweep
      split
      · rw [(State.sweepTake_opening _ _ _).1, (State.freeContext_frame k _).2.2.2.2.1, sweep]
      · rw [(State.freeContext_frame k _).2.2.2.2.1, sweep]
    rw [hG, (State.completeUnitOrders_frame _ _ _).2.1, counted]
  rw [State.endAs, ← hG]
  rcases h with opened | stays
  · exact (State.opens_offerDelist ⟨edition, opened⟩ _).1
  · have state : G.dir[s.ctxs[k].target].state ≠ .delisting := by
      have body : G.dir[s.ctxs[k].target].body = (s.requestEnded id k out).dir[s.ctxs[k].target].body := by
        rw [hG, (State.completeUnitOrders_frame _ _ _).2.2.1, State.toldSweep_body]
      rw [DirEntry.body_congr body (·.state) fun _ => rfl, State.requestEnded_get rfl (·.state) fun _ _ => rfl,
        DirEntry.requestEnded_state]
      unfold endState
      rw [if_neg (show (id s.dir[s.ctxs[k].target]).state ≠ .delisting from stays)]
      cases s.ctxs[k].purpose <;> cases out <;> decide
    have unoffered : G.offerDelist s.ctxs[k].target = G := if_neg state
    rw [unoffered, edition]

/-- The orders that wait on the context complete with its outcome (R113, R168). -/
theorem State.endAs_done (hm : s.memOk) {n : SlotId} {x : Taken} (h : s.awaits k n x) :
    (s.endAs k out told).slotDone n (BitVec.ofNat 16 out.code) x.edition s.clock := by
  obtain ⟨attached, taken, order⟩ := h
  obtain ⟨clock, mem, orders, _⟩ := State.requestEnded_frame id k out s
  obtain ⟨mem', orders', clock', _⟩ := State.toldSweep_frame k told (s.requestEnded id k out)
  have order : x.order = .readUnit s.ctxs[k].target ∨ x.order = .eraseUnit s.ctxs[k].target := by
    split at order
    · exact .inl order
    · exact .inr order
  have hm' : ((s.requestEnded id k out).toldSweep k told).memOk := by
    rw [State.memOk, mem', mem]
    exact hm
  have done := State.completeUnitOrders_done (out := out) (slotsOf_nodup s.ctxs[k].attached) hm' (mem_slotsOf.2 attached)
    (by rw [orders', orders]; exact taken) order
  rw [clock', clock] at done
  exact (Rest.offerDelist _ _).slotDone ((State.completesOnly_orders out _ _).mem hm') id done

end

end Sys2Proof.Machine
end


section
/-! SUPPORT. The contexts of a lost channel, ended one after the other (R57, R58, R112, R113, R149, R152). -/

namespace Sys2Proof.Machine

/-! ### One context -/

/-- The context is busy on the channel (R93, R112). -/
@[reducible] def State.lostOn (s : State) (ch : ChanId) (k : CtxId) : Prop := s.ctxs[k].channel = ch ∧ s.ctxs[k].state.busy = true

/-- The context stops, and the sweep is told so: one that drains is told CHANNEL_LOST of its own read (R152; log entry 27). -/
@[reducible] def State.toldStop (s : State) (k : CtxId) : Prop :=
  s.ctxs[k].state = .stopping ∧ ¬ (s.sweep.state = .draining ∧ s.ctxs[k].attached = 0)

/-- A sweep waits for the read of the context that is lost (R149). -/
@[reducible] def State.countedOn (s : State) (ch : ChanId) (k : CtxId) : Prop :=
  s.lostOn ch k ∧ s.ctxs[k].purpose = .read ∧ s.dir[s.ctxs[k].target].mark = .pending

/-- The outcome of a lost context's request (R112, R113). -/
def State.lossOutcome (s : State) (k : CtxId) : UnitOutcome := if s.ctxs[k].state = .stopping then .stopped else .channelLost

/-- What the sweep is told of it. -/
def State.lossTold (s : State) (k : CtxId) : UnitOutcome := if s.toldStop k then .stopped else .channelLost

/-- The end of one context, as far as it is lost (R112). -/
theorem State.loseContext_cases (ch : ChanId) (k : CtxId) (s : State) :
    s.lostOn ch k ∧ s.loseContext ch k = s.endAs k (s.lossOutcome k) (s.lossTold k) ∨
      ¬ s.lostOn ch k ∧ s.loseContext ch k = s := by
  have ends : ∀ st : CtxState, s.ctxs[k].state = st → st ≠ .stopping →
      s.endContext k .channelLost = s.endAs k (s.lossOutcome k) (s.lossTold k) := fun st state other => by
    have goes : s.ctxs[k].state ≠ .stopping := by rw [state]; exact other
    rw [State.endContext_eq_endAs, State.lossOutcome, State.lossTold, if_neg goes, if_neg fun x => goes x.1]
  have stops : s.ctxs[k].state = .stopping → s.loseStopped k = s.endAs k (s.lossOutcome k) (s.lossTold k) := fun state => by
    have out : s.lossOutcome k = .stopped := if_pos state
    have told : s.lossTold k = if s.sweep.state = .draining ∧ s.ctxs[k].attached = 0 then .channelLost else .stopped := by
      unfold State.lossTold State.toldStop
      rw [state]
      by_cases own : s.sweep.state = .draining ∧ s.ctxs[k].attached = 0
      · rw [if_pos own, if_neg fun x => x.2 own]
      · rw [if_neg own, if_pos ⟨rfl, own⟩]
    unfold State.loseStopped
    split
    · next reads => rw [State.endReadAs_eq_endAs _ _ reads, out, told]
    · next erases => rw [State.endErase_eq_endAs _ (s.lossTold k) erases, out]
  unfold State.loseContext State.lostOn
  split
  · next channel =>
    cases state : s.ctxs[k].state with
    | stopping => exact .inl ⟨⟨channel, rfl⟩, stops state⟩
    | committing => exact .inr ⟨fun x => Bool.false_ne_true x.2, rfl⟩
    | free => exact .inr ⟨fun x => Bool.false_ne_true x.2, rfl⟩
    | _ => exact .inl ⟨⟨channel, rfl⟩, ends _ state nofun⟩
  · next other => exact .inr ⟨fun x => other x.1, rfl⟩

section
variable {ch : ChanId} {k : CtxId} {s : State}

theorem State.loseContext_freed (h : s.lostOn ch k) :
    (s.loseContext ch k).ctxs[k] = Context.freed s.ctxs[k].revision s.ctxs[k].parity := by
  rcases State.loseContext_cases ch k s with ⟨_, ended⟩ | ⟨kept, _⟩
  · rw [ended, State.endAs_get, if_pos rfl]
  · exact absurd h kept

theorem State.loseContext_kept {j : CtxId} (h : j ≠ k ∨ ¬ s.lostOn ch j) : (s.loseContext ch k).ctxs[j] = s.ctxs[j] := by
  rcases State.loseContext_cases ch k s with ⟨lost, ended⟩ | ⟨_, same⟩
  · rw [ended, State.endAs_get, if_neg]
    rintro rfl
    exact h.elim (fun x => x rfl) fun x => x lost
  · rw [same]

/-- A context that is still to be lost is as it was. -/
theorem State.loseContext_lostOn {j : CtxId} (h : (s.loseContext ch k).lostOn ch j) :
    s.lostOn ch j ∧ (s.loseContext ch k).ctxs[j] = s.ctxs[j] := by
  by_cases freed : j = k ∧ s.lostOn ch j
  · obtain ⟨rfl, lost⟩ := freed
    unfold State.lostOn at h
    rw [State.loseContext_freed lost] at h
    exact absurd h.2 Bool.false_ne_true
  · have same : (s.loseContext ch k).ctxs[j] = s.ctxs[j] := State.loseContext_kept (by tauto)
    unfold State.lostOn at h ⊢
    rw [same] at h
    exact ⟨h, same⟩

theorem State.loseContext_busy {j : CtxId} (h : (s.loseContext ch k).ctxs[j].state ≠ .free) :
    (s.loseContext ch k).ctxs[j] = s.ctxs[j] := by
  by_cases freed : j = k ∧ s.lostOn ch j
  · obtain ⟨rfl, lost⟩ := freed
    rw [State.loseContext_freed lost] at h
    exact absurd rfl h
  · exact State.loseContext_kept (by tauto)

theorem State.loseContext_apart (h : s.apart) : (s.loseContext ch k).apart := fun i j other busyI busyJ => by
  have sameI := State.loseContext_busy busyI
  have sameJ := State.loseContext_busy busyJ
  rw [sameI] at busyI
  rw [sameJ] at busyJ
  rw [sameI, sameJ]
  exact h i j other busyI busyJ

theorem State.loseContext_dir {v : UnitId} (h : s.lostOn ch k → v ≠ s.ctxs[k].target) : (s.loseContext ch k).dir[v] = s.dir[v] := by
  rcases State.loseContext_cases ch k s with ⟨lost, ended⟩ | ⟨_, same⟩
  · rw [ended, State.endAs_dir_other (h lost)]
  · rw [same]

theorem Rest.loseContext (ch : ChanId) (k : CtxId) (s : State) :
    Rest { ctxs := fun j => s.lostOn ch k ∧ j = k, chans := (· = ch), units := fun v => s.lostOn ch k ∧ v = s.ctxs[k].target
           slots := fun n => s.lostOn ch k ∧ hasSlot s.ctxs[k].attached n = true } s (s.loseContext ch k) := by
  rcases State.loseContext_cases ch k s with ⟨lost, ended⟩ | ⟨_, same⟩
  · rw [ended]
    exact (Rest.endAs k _ _ s).mono (fun _ x => ⟨lost, x⟩) (fun c x => (show c = s.ctxs[k].channel from x).trans lost.1)
      (fun _ x => ⟨lost, x⟩) fun _ x => ⟨lost, x⟩
  · rw [same]
    exact Rest.refl _ s

theorem State.loseContext_completesOnly (ch : ChanId) (k : CtxId) (s : State) : s.completesOnly (s.loseContext ch k) := by
  rcases State.loseContext_cases ch k s with ⟨_, ended⟩ | ⟨_, same⟩
  · rw [ended]
    exact State.endAs_completesOnly k _ _ s
  · rw [same]
    exact State.completesOnly_same rfl rfl

theorem State.loseContext_sweep {α : Type} (g : SweepCtl → α) (hg : ∀ x, g (SweepCtl.course x) = g x)
    (ht : ∀ x t, g { x with tallies := t } = g x) (ch : ChanId) (k : CtxId) (s : State) :
    g (s.loseContext ch k).sweep = g s.sweep := by
  rcases State.loseContext_cases ch k s with ⟨_, ended⟩ | ⟨_, same⟩
  · rw [ended, State.endAs_sweep g hg ht]
  · rw [same]

/-- The release of contexts changes nothing on a channel with no frame waiting. -/
theorem State.loseContext_chans (none : s.chans[ch].frames = []) (c : ChanId) : (s.loseContext ch k).chans[c] = s.chans[c] := by
  rcases State.loseContext_cases ch k s with ⟨lost, ended⟩ | ⟨_, same⟩
  · obtain ⟨rfl, _⟩ := lost
    rw [ended]
    exact State.endAs_chans k _ _ s none c
  · rw [same]

/-- What stays of an order that waits on another context (R97, R113). -/
theorem State.loseContext_awaits {j : CtxId} {n : SlotId} {x : Taken} (same : (s.loseContext ch k).ctxs[j] = s.ctxs[j])
    (other : s.lostOn ch k → hasSlot s.ctxs[k].attached n = false) (h : s.awaits j n x) : (s.loseContext ch k).awaits j n x := by
  obtain ⟨attached, taken, order⟩ := h
  have unswept : ¬ s.sweepSlot n := by
    rintro ⟨y, _, _, hy, sweep⟩
    rw [taken] at hy
    cases hy
    rw [sweep] at order
    split at order <;> cases order
  have stays : (s.loseContext ch k).orders.taken[n] = some x := by
    refine ((Rest.loseContext ch k s).taken n (fun x => ?_) unswept).trans taken
    obtain ⟨lost, attached⟩ := x
    rw [other lost] at attached
    exact Bool.false_ne_true attached
  unfold State.awaits
  rw [same]
  exact ⟨attached, stays, order⟩

end

/-! ### The request of one context, ended for the loss of its channel -/

/-- In `m` the request of context `k` in `s` has ended for the loss of its channel (R57, R58, R112, R113, R149). -/
structure State.lossEnds (s m : State) (k : CtxId) : Prop where
  state : m.dir[s.ctxs[k].target].state = endState .idle s.dir[s.ctxs[k].target]
  outcome : m.dir[s.ctxs[k].target].lastOutcome = s.lossOutcome k
  mark : s.ctxs[k].purpose = .read → s.dir[s.ctxs[k].target].mark = .pending → m.dir[s.ctxs[k].target].mark = .skipped
  done : ∀ n x, s.awaits k n x → m.slotDone n (BitVec.ofNat 16 (s.lossOutcome k).code) x.edition s.clock

theorem State.loseContext_ends {ch : ChanId} {k : CtxId} {s : State} (hm : s.memOk) (h : s.lostOn ch k) :
    s.lossEnds (s.loseContext ch k) k := by
  rcases State.loseContext_cases ch k s with ⟨_, ended⟩ | ⟨kept, _⟩
  · rw [ended]
    refine ⟨?_, ?_, fun reads pending => ?_, fun n x waits => State.endAs_done hm waits⟩
    · rw [State.endAs_entry (·.state) fun _ => rfl, DirEntry.requestEnded_state]
      have next : endNext s.ctxs[k].purpose (s.lossOutcome k) = .idle := by
        unfold State.lossOutcome
        cases s.ctxs[k].purpose <;> split <;> rfl
      rw [next]
      rfl
    · rw [State.endAs_entry (·.lastOutcome) fun _ => rfl, DirEntry.requestEnded_outcome]
    · rw [(State.endAs_pending reads pending).1]
      unfold State.lossTold
      split <;> rfl
  · exact absurd h kept

/-- The count that one lost context adds (R149, R152). -/
theorem State.loseContext_tallies (ch : ChanId) (k : CtxId) (s : State) : (s.loseContext ch k).sweep.tallies.losses =
    (s.sweep.tallies.channelLost + (if s.countedOn ch k ∧ ¬ s.toldStop k then 1 else 0),
      s.sweep.tallies.stopped + if s.countedOn ch k ∧ s.toldStop k then 1 else 0) := by
  rcases State.loseContext_cases ch k s with ⟨lost, ended⟩ | ⟨kept, same⟩
  · by_cases counted : s.ctxs[k].purpose = .read ∧ s.dir[s.ctxs[k].target].mark = .pending
    · rw [ended, (State.endAs_pending counted.1 counted.2).2]
      unfold State.lossTold
      by_cases stop : s.toldStop k
      · rw [if_pos stop, if_neg fun x => x.2 stop, if_pos ⟨⟨lost, counted⟩, stop⟩]
        rfl
      · rw [if_neg stop, if_pos ⟨⟨lost, counted⟩, stop⟩, if_neg fun x => stop x.2]
        rfl
    · rw [ended, State.endAs_unpending counted, if_neg fun x => counted x.1.2, if_neg fun x => counted x.1.2]
      rfl
  · rw [same, if_neg fun x => kept x.1.1, if_neg fun x => kept x.1.1]
    rfl

/-! ### Every context of a list -/

/-- The contexts of the list that are lost with the channel, ended in its order (R112). -/
def State.loseOf (ch : ChanId) (l : List CtxId) (s : State) : State := forEach l (State.loseContext ch) s

section
variable {ch : ChanId} {l : List CtxId} {s : State}

theorem State.loseOf_kept {k : CtxId} (h : k ∉ l ∨ ¬ s.lostOn ch k) : (s.loseOf ch l).ctxs[k] = s.ctxs[k] := by
  induction l generalizing s with
  | nil => rfl
  | cons a l ih =>
    have same : (s.loseContext ch a).ctxs[k] = s.ctxs[k] :=
      State.loseContext_kept (h.imp (fun x e => x (e ▸ List.mem_cons_self)) id)
    refine (ih (h.imp (fun x m => x (List.mem_cons_of_mem _ m)) fun x y => x (State.loseContext_lostOn y).1)).trans same

theorem State.loseOf_freed {k : CtxId} (mem : k ∈ l) (h : s.lostOn ch k) :
    (s.loseOf ch l).ctxs[k] = Context.freed s.ctxs[k].revision s.ctxs[k].parity := by
  induction l generalizing s with
  | nil => cases mem
  | cons a l ih =>
    by_cases first : k = a
    · subst first
      refine (State.loseOf_kept (s := s.loseContext ch k) (.inr fun x => ?_)).trans (State.loseContext_freed h)
      unfold State.lostOn at x
      rw [State.loseContext_freed h] at x
      exact Bool.false_ne_true x.2
    · have same : (s.loseContext ch a).ctxs[k] = s.ctxs[k] := State.loseContext_kept (.inl first)
      have lost : (s.loseContext ch a).lostOn ch k := by
        unfold State.lostOn
        rw [same]
        exact h
      refine (ih (s := s.loseContext ch a) ((List.mem_cons.1 mem).resolve_left first) lost).trans ?_
      rw [same]

theorem State.loseOf_dir {v : UnitId} (h : ∀ k ∈ l, s.lostOn ch k → v ≠ s.ctxs[k].target) : (s.loseOf ch l).dir[v] = s.dir[v] := by
  induction l generalizing s with
  | nil => rfl
  | cons a l ih =>
    refine (ih (s := s.loseContext ch a) fun k mem lost => ?_).trans (State.loseContext_dir (h a List.mem_cons_self))
    obtain ⟨was, same⟩ := State.loseContext_lostOn lost
    rw [same]
    exact h k (List.mem_cons_of_mem _ mem) was

/-- What the loss of the listed contexts touches (R112, R113). -/
theorem Rest.loseOf (ch : ChanId) (l : List CtxId) (s : State) :
    Rest { ctxs := fun k => k ∈ l ∧ s.lostOn ch k, chans := (· = ch)
           units := fun v => ∃ k ∈ l, s.lostOn ch k ∧ s.ctxs[k].target = v
           slots := fun n => ∃ k ∈ l, s.lostOn ch k ∧ hasSlot s.ctxs[k].attached n = true } s (s.loseOf ch l) := by
  induction l generalizing s with
  | nil => exact Rest.refl _ s
  | cons a l ih =>
    refine Rest.trans (t := s.loseContext ch a) ((Rest.loseContext ch a s).mono ?_ (fun _ x => x) ?_ ?_)
      ((ih (s.loseContext ch a)).mono ?_ (fun _ x => x) ?_ ?_)
    · rintro _ ⟨lost, rfl⟩
      exact ⟨List.mem_cons_self, lost⟩
    · rintro _ ⟨lost, rfl⟩
      exact ⟨a, List.mem_cons_self, lost, rfl⟩
    · rintro _ ⟨lost, attached⟩
      exact ⟨a, List.mem_cons_self, lost, attached⟩
    · rintro k ⟨mem, lost⟩
      exact ⟨List.mem_cons_of_mem _ mem, (State.loseContext_lostOn lost).1⟩
    · rintro v ⟨k, mem, lost, target⟩
      obtain ⟨was, same⟩ := State.loseContext_lostOn lost
      exact ⟨k, List.mem_cons_of_mem _ mem, was, same ▸ target⟩
    · rintro v ⟨k, mem, lost, attached⟩
      obtain ⟨was, same⟩ := State.loseContext_lostOn lost
      exact ⟨k, List.mem_cons_of_mem _ mem, was, same ▸ attached⟩

theorem State.loseOf_completesOnly (ch : ChanId) (l : List CtxId) (s : State) : s.completesOnly (s.loseOf ch l) :=
  forEach_invariant s.completesOnly _ (fun k t h => State.completesOnly_trans h (State.loseContext_completesOnly ch k t)) l s
    (State.completesOnly_same rfl rfl)

theorem State.loseOf_sweep {α : Type} (g : SweepCtl → α) (hg : ∀ x, g (SweepCtl.course x) = g x)
    (ht : ∀ x t, g { x with tallies := t } = g x) (ch : ChanId) (l : List CtxId) (s : State) :
    g (s.loseOf ch l).sweep = g s.sweep :=
  forEach_keeps (fun t : State => g t.sweep) _ (State.loseContext_sweep g hg ht ch) l s

theorem State.loseOf_chans (none : s.chans[ch].frames = []) (c : ChanId) : (s.loseOf ch l).chans[c] = s.chans[c] := by
  refine forEach_invariant (fun t : State => ∀ c : ChanId, t.chans[c] = s.chans[c]) _ (fun k t h c => ?_) l s (fun _ => rfl) c
  exact (State.loseContext_chans (by rw [h ch]; exact none) c).trans (h c)

section
variable (apart : s.apart) (nodup : l.Nodup)
include apart nodup

/-- Each of them ends as it would alone: no two concern one unit or one order (R52, R97). -/
theorem State.loseOf_ends (hm : s.memOk) {k : CtxId} (mem : k ∈ l) (h : s.lostOn ch k) : s.lossEnds (s.loseOf ch l) k := by
  induction l generalizing s with
  | nil => cases mem
  | cons a l ih =>
    obtain ⟨fresh, nodup⟩ := List.nodup_cons.1 nodup
    have notFree : ∀ {j : CtxId}, s.lostOn ch j → s.ctxs[j].state ≠ .free := fun lost free => by
      have busy := lost.2
      rw [free] at busy
      exact Bool.false_ne_true busy
    have hm1 : (s.loseContext ch a).memOk := (State.loseContext_completesOnly ch a s).mem hm
    by_cases first : k = a
    · subst first
      obtain ⟨state, outcome, mark, done⟩ := State.loseContext_ends hm h
      have others : ∀ j ∈ l, (s.loseContext ch k).lostOn ch j → s.lostOn ch j ∧ (s.loseContext ch k).ctxs[j] = s.ctxs[j] ∧ k ≠ j :=
        fun j mem lost => ⟨(State.loseContext_lostOn lost).1, (State.loseContext_lostOn lost).2, fun e => fresh (e ▸ mem)⟩
      have dir : ((s.loseContext ch k).loseOf ch l).dir[s.ctxs[k].target] = (s.loseContext ch k).dir[s.ctxs[k].target] :=
        State.loseOf_dir fun j mem lost => by
          obtain ⟨was, same, other⟩ := others j mem lost
          rw [same]
          exact (apart k j other (notFree h) (notFree was)).1
      refine ⟨(congrArg DirEntry.state dir).trans state, (congrArg DirEntry.lastOutcome dir).trans outcome,
        fun reads pending => (congrArg DirEntry.mark dir).trans (mark reads pending), fun n x waits => ?_⟩
      refine (Rest.loseOf ch l (s.loseContext ch k)).slotDone hm1 ?_ (done n x waits)
      rintro ⟨j, mem, lost, attached⟩
      obtain ⟨was, same, other⟩ := others j mem lost
      rw [same] at attached
      exact (apart k j other (notFree h) (notFree was)).2 n ⟨waits.1, attached⟩
    · have same : (s.loseContext ch a).ctxs[k] = s.ctxs[k] := State.loseContext_kept (.inl first)
      have lost : (s.loseContext ch a).lostOn ch k := by
        unfold State.lostOn
        rw [same]
        exact h
      obtain ⟨state, outcome, mark, done⟩ := ih (s := s.loseContext ch a) (State.loseContext_apart apart) nodup hm1
        ((List.mem_cons.1 mem).resolve_left first) lost
      have dir : (s.loseContext ch a).dir[s.ctxs[k].target] = s.dir[s.ctxs[k].target] :=
        State.loseContext_dir fun lostA => (apart k a first (notFree h) (notFree lostA)).1
      have out : (s.loseContext ch a).lossOutcome k = s.lossOutcome k := by
        unfold State.lossOutcome
        rw [same]
      have clock : (s.loseContext ch a).clock = s.clock := (State.loseContext_frame ch a s).1
      simp only [same, dir] at state outcome mark
      rw [out] at outcome done
      rw [clock] at done
      refine ⟨state, outcome, mark, fun n x waits => done n x (State.loseContext_awaits same (fun lostA => ?_) waits)⟩
      exact Bool.eq_false_iff.2 fun attached => (apart k a first (notFree h) (notFree lostA)).2 n ⟨waits.1, attached⟩

/-- The sweep counts each read it waited for, as it is told of it (R149, R152). -/
theorem State.loseOf_tallies : (s.loseOf ch l).sweep.tallies.losses =
    (s.sweep.tallies.channelLost + l.countP (fun k => decide (s.countedOn ch k ∧ ¬ s.toldStop k)),
      s.sweep.tallies.stopped + l.countP fun k => decide (s.countedOn ch k ∧ s.toldStop k)) := by
  induction l generalizing s with
  | nil => rfl
  | cons a l ih =>
    obtain ⟨fresh, nodup⟩ := List.nodup_cons.1 nodup
    have draining : (s.loseContext ch a).sweep.state = s.sweep.state :=
      State.loseContext_sweep (·.state) (fun _ => rfl) (fun _ _ => rfl) ch a s
    have told : ∀ k ∈ l, ((s.loseContext ch a).toldStop k ↔ s.toldStop k) := fun k mem => by
      have same : (s.loseContext ch a).ctxs[k] = s.ctxs[k] := State.loseContext_kept (.inl fun e => fresh (e ▸ mem))
      unfold State.toldStop
      rw [same, draining]
    have counted : ∀ k ∈ l, ((s.loseContext ch a).countedOn ch k ↔ s.countedOn ch k) := fun k mem => by
      have other : k ≠ a := fun e => fresh (e ▸ mem)
      have same : (s.loseContext ch a).ctxs[k] = s.ctxs[k] := State.loseContext_kept (.inl other)
      unfold State.countedOn State.lostOn
      simp only [same]
      refine and_congr_right fun lost => and_congr_right fun _ => ?_
      have dir : (s.loseContext ch a).dir[s.ctxs[k].target] = s.dir[s.ctxs[k].target] :=
        State.loseContext_dir fun lostA => by
          refine (apart k a other (fun free => ?_) fun free => ?_).1
          · rw [free] at lost
            exact Bool.false_ne_true lost.2
          · unfold State.lostOn at lostA
            rw [free] at lostA
            exact Bool.false_ne_true lostA.2
      rw [dir]
    have first := State.loseContext_tallies ch a s
    have rest := ih (s := s.loseContext ch a) (State.loseContext_apart apart) nodup
    rw [List.countP_congr (q := fun k => decide (s.countedOn ch k ∧ ¬ s.toldStop k)) fun k mem => by
        simp only [decide_eq_true_eq, told k mem, counted k mem],
      List.countP_congr (p := fun k => decide ((s.loseContext ch a).countedOn ch k ∧ (s.loseContext ch a).toldStop k))
        (q := fun k => decide (s.countedOn ch k ∧ s.toldStop k)) fun k mem => by
        simp only [decide_eq_true_eq, told k mem, counted k mem]] at rest
    refine rest.trans ?_
    rw [show (s.loseContext ch a).sweep.tallies.channelLost = _ from congrArg Prod.fst first,
      show (s.loseContext ch a).sweep.tallies.stopped = _ from congrArg Prod.snd first, List.countP_cons, List.countP_cons]
    simp only [decide_eq_true_eq]
    refine Prod.ext ?_ ?_ <;> dsimp only <;> omega

end

/-- A loss leaves no unit DELISTING that was not. -/
theorem State.loseContext_undelisting {k : CtxId} {v : UnitId} (h : s.dir[v].state ≠ .delisting) :
    (s.loseContext ch k).dir[v].state ≠ .delisting := by
  rcases State.loseContext_cases ch k s with ⟨_, ended⟩ | ⟨_, same⟩
  · rw [ended]
    by_cases own : v = s.ctxs[k].target
    · subst own
      rw [State.endAs_entry (·.state) fun _ => rfl, DirEntry.requestEnded_state, endState, if_neg (show (id _ : DirEntry).state ≠ _ from h)]
      unfold State.lossOutcome
      cases s.ctxs[k].purpose <;> split <;> decide
    · rw [State.endAs_dir_other own]
      exact h
  · rw [same]
    exact h

/-- The edition that is open stays open, and with no unit being delisted none is opened (R61, R156). -/
theorem State.loseOf_edition (h : s.sweep.openEdition ≠ 0 ∨ ∀ u : UnitId, s.dir[u].state ≠ .delisting) :
    (s.loseOf ch l).sweep.openEdition = s.sweep.openEdition := by
  have kept : (s.loseOf ch l).sweep.openEdition = s.sweep.openEdition ∧
      (s.sweep.openEdition ≠ 0 ∨ ∀ u : UnitId, (s.loseOf ch l).dir[u].state ≠ .delisting) := by
    refine forEach_invariant (fun t : State => t.sweep.openEdition = s.sweep.openEdition ∧
      (s.sweep.openEdition ≠ 0 ∨ ∀ u : UnitId, t.dir[u].state ≠ .delisting)) _ (fun k t ⟨same, quiet⟩ => ⟨?_, ?_⟩) l s ⟨rfl, h⟩
    · rcases State.loseContext_cases ch k t with ⟨_, ended⟩ | ⟨_, kept⟩
      · rw [ended, State.endAs_edition (by rw [same]; exact quiet.imp id fun x => x _), same]
      · rw [kept, same]
    · exact quiet.imp id fun x u => State.loseContext_undelisting (x u)
  exact kept.1

end

end Sys2Proof.Machine
end


section
/-! SUPPORT. A lost channel: its waits cleared, its contexts ended, and all that follows (R57, R58, R94, R112, R113, R120, R149). -/

namespace Sys2Proof.Machine

/-! ### The waits cleared -/

/-- A context that waits for no credit and no sending. -/
def Context.unwaiting (c : Context) : Context := { c with creditNeed := 0, frameQueued := none }

/-- A context after the line and the queue of its channel have been emptied. -/
def Context.clearedOn (ch : ChanId) (c : Context) : Context := if c.channel = ch ∧ c.state ≠ .free then c.unwaiting else c

theorem Context.clearedOn_congr {α : Sort _} (g : Context → α) (hg : ∀ c : Context, g c.unwaiting = g c) (ch : ChanId) (c : Context) :
    g (c.clearedOn ch) = g c := by
  unfold Context.clearedOn
  split
  · exact hg c
  · rfl

theorem State.clearWaits_get (ch : ChanId) (s : State) (k : CtxId) : (s.clearWaits ch).ctxs[k] = s.ctxs[k].clearedOn ch := by
  let clear := fun (a : CtxId) (t : State) =>
    if t.ctxs[a].channel = ch ∧ t.ctxs[a].state ≠ .free then t.updCtx a Context.unwaiting else t
  have step : ∀ (a : CtxId) (t : State), (clear a t).ctxs[k] = if k = a then t.ctxs[k].clearedOn ch else t.ctxs[k] := fun a t => by
    by_cases same : k = a
    · subst same
      rw [if_pos rfl]
      show (if t.ctxs[k].channel = ch ∧ t.ctxs[k].state ≠ .free then t.updCtx k Context.unwaiting else t).ctxs[k] = _
      unfold Context.clearedOn
      by_cases busy : t.ctxs[k].channel = ch ∧ t.ctxs[k].state ≠ .free
      · simp only [if_pos busy, State.updCtx_get, if_pos]
      · simp only [if_neg busy]
    · rw [if_neg same]
      show (if t.ctxs[a].channel = ch ∧ t.ctxs[a].state ≠ .free then t.updCtx a Context.unwaiting else t).ctxs[k] = _
      by_cases busy : t.ctxs[a].channel = ch ∧ t.ctxs[a].state ≠ .free
      · simp only [if_pos busy, State.updCtx_get, if_neg same]
      · simp only [if_neg busy]
  have twice : (s.ctxs[k].clearedOn ch).clearedOn ch = s.ctxs[k].clearedOn ch := by
    unfold Context.clearedOn
    by_cases busy : s.ctxs[k].channel = ch ∧ s.ctxs[k].state ≠ .free
    · rw [if_pos busy, if_pos (show s.ctxs[k].unwaiting.channel = ch ∧ s.ctxs[k].unwaiting.state ≠ .free from busy)]
      rfl
    · rw [if_neg busy, if_neg busy]
  have all : ∀ (l : List CtxId) (t : State), t.ctxs[k] = s.ctxs[k] ∨ t.ctxs[k] = s.ctxs[k].clearedOn ch →
      (k ∈ l ∨ t.ctxs[k] = s.ctxs[k].clearedOn ch) → (forEach l clear t).ctxs[k] = s.ctxs[k].clearedOn ch := by
    intro l
    induction l with
    | nil => exact fun t _ h => h.resolve_left List.not_mem_nil
    | cons a l ih =>
      intro t was h
      have next := step a t
      by_cases same : k = a
      · have cleared : (clear a t).ctxs[k] = s.ctxs[k].clearedOn ch := by
          rw [next, if_pos same]
          rcases was with x | x <;> rw [x]
          exact twice
        exact ih _ (.inr cleared) (.inr cleared)
      · rw [if_neg same] at next
        refine ih _ (by rw [next]; exact was) ?_
        rw [next]
        exact h.imp (fun mem => (List.mem_cons.1 mem).resolve_left same) id
  have every : ∀ k : CtxId, k ∈ allCtxs := by decide
  exact all allCtxs s (.inl rfl) (.inl (every k))

theorem Rest.clearWaits (ch : ChanId) (s : State) : Rest { ctxs := fun k => s.ctxs[k].channel = ch } s (s.clearWaits ch) := by
  obtain ⟨port, _, mem, orders, sweep, dir, _, pool, timing, chans, _, pending⟩ := State.clearWaits_frame ch s
  refine Rest.of_kept timing pending port pool orders mem (fun j other _ => ?_) (fun c _ => ?_) (fun v _ => by rw [dir]) sweep
  · rw [State.clearWaits_get, Context.clearedOn, if_neg fun x => other x.1]
    rfl
  · rw [chans]
    exact ⟨rfl, List.prefix_rfl⟩

/-! ### The loss as its contexts' ends show it -/

/-- In `x` the contexts of `b` that were busy on the channel are released and their requests ended, but for the orders of the slots
`own` (R112, R113, R149). -/
structure State.lossDone (b x : State) (ch : ChanId) (own : SlotId → Prop) : Prop where
  freed : ∀ k, b.lostOn ch k → x.ctxs[k] = Context.freed b.ctxs[k].revision b.ctxs[k].parity
  state : ∀ k, b.lostOn ch k → x.dir[b.ctxs[k].target].state = endState .idle b.dir[b.ctxs[k].target]
  outcome : ∀ k, b.lostOn ch k → x.dir[b.ctxs[k].target].lastOutcome = b.lossOutcome k
  mark : ∀ k, b.countedOn ch k → x.dir[b.ctxs[k].target].mark = .skipped
  done : ∀ k, b.lostOn ch k → ∀ n y, ¬ own n → b.awaits k n y → x.slotDone n (BitVec.ofNat 16 (b.lossOutcome k).code) y.edition b.clock
  tallies : x.sweep.tallies.losses =
    (b.sweep.tallies.channelLost + (List.finRange 8).countP (fun k => decide (b.countedOn ch k ∧ ¬ b.toldStop k)),
      b.sweep.tallies.stopped + (List.finRange 8).countP fun k => decide (b.countedOn ch k ∧ b.toldStop k))
  autoDue : x.sweep.autoDue = b.sweep.autoDue

theorem mem_allCtxs (k : CtxId) : k ∈ allCtxs := by
  revert k
  decide

theorem State.loseContexts_done {b : State} (hm : b.memOk) (apart : b.apart) (ch : ChanId) :
    b.lossDone (b.loseContexts ch) ch fun _ => False := by
  have nodup : allCtxs.Nodup := by decide
  rw [show b.loseContexts ch = b.loseOf ch allCtxs from rfl]
  have ends : ∀ k, b.lostOn ch k → b.lossEnds (b.loseOf ch allCtxs) k := fun k lost =>
    State.loseOf_ends apart nodup hm (mem_allCtxs k) lost
  refine ⟨fun k lost => State.loseOf_freed (mem_allCtxs k) lost, fun k lost => (ends k lost).state, fun k lost => (ends k lost).outcome,
    fun k counted => (ends k counted.1).mark counted.2.1 counted.2.2, fun k lost n y _ waits => (ends k lost).done n y waits, ?_, ?_⟩
  · have every : List.finRange 8 = allCtxs := by decide
    rw [every]
    exact State.loseOf_tallies apart nodup
  · exact State.loseOf_sweep (·.autoDue) (fun _ => rfl) (fun _ _ => rfl) ch allCtxs b

section
variable {b m x : State} {ch : ChanId} {own : SlotId → Prop}

/-- What comes after and concerns none of them leaves the ends as they are. -/
theorem State.lossDone.after {own' : SlotId → Prop} {d : Touch} (h : b.lossDone m ch own) (hm : m.memOk) (r : Rest d m x)
    (ctxs : x.ctxs = m.ctxs) (dir : ∀ k, b.lostOn ch k → x.dir[b.ctxs[k].target] = m.dir[b.ctxs[k].target]) (sweep : x.sweep = m.sweep)
    (owned : ∀ n, own n → own' n) (slots : ∀ n, ¬ own' n → m.orders.taken[n] = none → ¬ d.slots n) : b.lossDone x ch own' where
  freed k lost := by
    rw [ctxs]
    exact h.freed k lost
  state k lost := (congrArg DirEntry.state (dir k lost)).trans (h.state k lost)
  outcome k lost := (congrArg DirEntry.lastOutcome (dir k lost)).trans (h.outcome k lost)
  mark k counted := (congrArg DirEntry.mark (dir k counted.1)).trans (h.mark k counted)
  done k lost n y other waits := by
    have done := h.done k lost n y (fun x => other (owned n x)) waits
    exact r.slotDone hm (slots n other done.1) done
  tallies := sweep ▸ h.tallies
  autoDue := sweep ▸ h.autoDue

/-- The lost channel, once all that follows is done (R94, R112, R113, R149). -/
theorem State.lossDone.settled (h : b.lossDone x ch own) (hm : x.memOk) (s0 : State) : b.endsLost (State.stamp s0 x.settle) ch own := by
  have after : Rest {} x (State.stamp s0 x.settle) := (Rest.settle x).stamp s0
  refine ⟨fun k lost => ⟨?_, ⟨?_, fun calm => ?_⟩, fun n y other waits => ?_, fun counted calm => ?_⟩, fun calm => ?_⟩
  · have freed : x.ctxs[k].releasedFrom b.ctxs[k].parity := .inl (by rw [h.freed k lost]; rfl)
    exact (State.stamp_ctx_congr s0 _ k (Context.releasedFrom b.ctxs[k].parity) fun _ _ => rfl).mpr (State.settle_releasedFrom freed)
  · have state := h.state k lost
    rw [State.stamp_dir]
    split
    · next delisting => exact State.settle_delisting (state.trans (endState_delisting delisting))
    · next other =>
      obtain ⟨_, same | ⟨busy, _⟩⟩ := State.followed_settle x b.ctxs[k].target
      · exact .inl (same.1.trans (state.trans (if_neg other)))
      · exact .inr busy
  · rw [State.stamp_dir, State.settle_outcome (h.autoDue.trans calm), h.outcome k lost]
    rfl
  · have code : BitVec.ofNat 16 (b.lossOutcome k).code = if b.ctxs[k].state = .stopping then 7 else 6 := by
      unfold State.lossOutcome
      split <;> rfl
    have done := after.slotDone hm id (h.done k lost n y other waits)
    rwa [code] at done
  · rw [State.stamp_dir, State.settle_mark (h.autoDue.trans calm)]
    exact h.mark k counted
  · have tallies : (State.stamp s0 x.settle).sweep.tallies = x.sweep.tallies := by
      rw [State.stamp_sweep_congr s0 _ (·.tallies) fun _ _ => rfl, State.settle_tallies (h.autoDue.trans calm)]
    rw [tallies]
    exact ⟨congrArg Prod.fst h.tallies, congrArg Prod.snd h.tallies⟩

end

/-- What is said of the loss is said of the contexts but for their waits. -/
theorem State.endsLost_cleared {s b t : State} {ch : ChanId} {own : SlotId → Prop} (ctxs : ∀ k : CtxId, b.ctxs[k] = s.ctxs[k].clearedOn ch)
    (dir : b.dir = s.dir) (orders : b.orders = s.orders) (sweep : b.sweep = s.sweep) (clock : b.clock = s.clock)
    (h : b.endsLost t ch own) : s.endsLost t ch own := by
  have field : ∀ {α : Type} (g : Context → α), (∀ c : Context, g c.unwaiting = g c) → ∀ k : CtxId, g b.ctxs[k] = g s.ctxs[k] :=
    fun g hg k => by rw [ctxs, Context.clearedOn_congr g hg]
  have channel := field (·.channel) fun _ => rfl
  have state := field (·.state) fun _ => rfl
  have purpose := field (·.purpose) fun _ => rfl
  have target := field (·.target) fun _ => rfl
  have attached := field (·.attached) fun _ => rfl
  have parity := field (·.parity) fun _ => rfl
  simpa only [State.endsLost, State.released, State.unitEnds, State.awaits, channel, state, purpose, target, attached, parity, dir, orders,
    sweep, clock] using h

theorem State.apart_cleared {s b : State} {ch : ChanId} (ctxs : ∀ k : CtxId, b.ctxs[k] = s.ctxs[k].clearedOn ch) (h : s.apart) :
    b.apart := by
  have field : ∀ {α : Type} (g : Context → α), (∀ c : Context, g c.unwaiting = g c) → ∀ k : CtxId, g b.ctxs[k] = g s.ctxs[k] :=
    fun g hg k => by rw [ctxs, Context.clearedOn_congr g hg]
  have state := field (·.state) fun _ => rfl
  have target := field (·.target) fun _ => rfl
  have attached := field (·.attached) fun _ => rfl
  simpa only [State.apart, state, target, attached] using h

/-! ### No context busy on a channel off its bus -/

theorem State.assign_channel (k : CtxId) (u : UnitId) (p : Purpose) (s : State) : (s.assign k u p).ctxs[k].channel = s.dir[u].channel := by
  unfold State.assign
  dsimp only
  refine State.joinLine_induct (fun t => t.ctxs[k].channel = s.dir[u].channel) k _ _ (fun _ _ x => x) (fun t x => ?_) ?_
  · rw [State.placeGranted_get, if_pos rfl]
    exact x
  · rw [State.updCtx_get, if_pos rfl, State.updCtx_get, if_pos rfl]
    rfl

/-- What follows an event brings no context to a channel off its bus (R95). -/
theorem State.settle_unlost {ch : ChanId} {s : State} (off : s.chans[ch].state.joined = false) (h : ∀ k, ¬ s.lostOn ch k) (k : CtxId) :
    ¬ s.settle.lostOn ch k := by
  obtain ⟨W, hW⟩ : ∃ W, W = s.sweepTest.sweepTest.closeTest := ⟨_, rfl⟩
  have ctxs : W.ctxs = s.ctxs := by rw [hW]; simp
  have once := State.sweepTest_off off
  have block : W.chans[ch] = s.chans[ch] := by
    rw [hW, (State.closeTest_frame _).2.2.2.2.2.2.1, State.sweepTest_off (by rw [once]; exact off), once]
  have kept : (W.allocate 8).chans[ch] = s.chans[ch] ∧ ∀ k, ¬ (W.allocate 8).lostOn ch k := by
    refine State.allocate_induct (fun t => t.chans[ch] = s.chans[ch] ∧ ∀ k, ¬ t.lostOn ch k) (fun j u p t _ next ⟨same, unlost⟩ => ?_) 8 W
      ⟨block, fun k => by unfold State.lostOn; rw [ctxs]; exact h k⟩
    have elsewhere : t.dir[u].channel ≠ ch := by
      rintro rfl
      rw [← same, State.nextUnit_joined next] at off
      cases off
    refine ⟨(State.assign_chan_other elsewhere.symm).trans same, fun i lost => ?_⟩
    by_cases own : i = j
    · subst own
      exact elsewhere ((State.assign_channel i u p t).symm.trans lost.1)
    · unfold State.lostOn at lost
      rw [State.assign_other own] at lost
      exact unlost i lost
  have settle : s.settle = W.allocate 8 := by rw [hW]; rfl
  rw [settle]
  exact kept.2 k

theorem State.stamp_unlost {ch : ChanId} {s0 s : State} (h : ∀ k, ¬ s.lostOn ch k) (k : CtxId) : ¬ (State.stamp s0 s).lostOn ch k := by
  unfold State.lostOn
  rw [State.stamp_ctx_congr s0 s k (·.channel) fun _ _ => rfl, State.stamp_ctx_congr s0 s k (·.state) fun _ _ => rfl]
  exact h k

/-- Once its contexts are lost none is busy on the channel (R112). -/
theorem State.loseContexts_unlost (ch : ChanId) (s : State) (k : CtxId) : ¬ (s.loseContexts ch).lostOn ch k := by
  by_cases lost : s.lostOn ch k
  · have freed : (s.loseContexts ch).ctxs[k] = Context.freed s.ctxs[k].revision s.ctxs[k].parity :=
      State.loseOf_freed (mem_allCtxs k) lost
    unfold State.lostOn
    rw [freed]
    exact fun x => Bool.false_ne_true x.2
  · have kept : (s.loseContexts ch).ctxs[k] = s.ctxs[k] := State.loseOf_kept (l := allCtxs) (.inr lost)
    unfold State.lostOn
    rw [kept]
    exact lost

end Sys2Proof.Machine
end


section
/-! SUPPORT. A transmit error past 255 (R57, R58, R63, R112, R113, R115, R119, R120, R143). -/

namespace Sys2Proof.Machine

/-! ### The channel silenced -/

/-- The channel's block with its queue and its line emptied, and no context left waiting for them (R120, R128). -/
def State.silenced (ch : ChanId) (f : Channel → Channel) (s : State) : State := (s.updChan ch f).clearWaits ch

section
variable (ch : ChanId) (f : Channel → Channel) (s : State)

theorem State.silenced_frame : (s.silenced ch f).port = s.port ∧ (s.silenced ch f).clock = s.clock ∧ (s.silenced ch f).mem = s.mem ∧
    (s.silenced ch f).orders = s.orders ∧ (s.silenced ch f).sweep = s.sweep ∧ (s.silenced ch f).dir = s.dir ∧
    (s.silenced ch f).self = s.self ∧ (s.silenced ch f).chans[ch] = f s.chans[ch] := by
  obtain ⟨port, clock, mem, orders, sweep, dir, self, _, _, chans, _, _⟩ := State.clearWaits_frame ch (s.updChan ch f)
  refine ⟨port, clock, mem, orders, sweep, dir, self, ?_⟩
  unfold State.silenced
  rw [chans, State.updChan_get, if_pos rfl]

theorem State.silenced_get (k : CtxId) : (s.silenced ch f).ctxs[k] = s.ctxs[k].clearedOn ch := State.clearWaits_get ch (s.updChan ch f) k

theorem State.silenced_congr {α : Sort _} (g : Context → α) (hg : ∀ c : Context, g c.unwaiting = g c) (k : CtxId) :
    g (s.silenced ch f).ctxs[k] = g s.ctxs[k] := by
  rw [State.silenced_get, Context.clearedOn_congr g hg]

theorem State.silenced_lostOn (k : CtxId) : (s.silenced ch f).lostOn ch k ↔ s.lostOn ch k := by
  unfold State.lostOn
  rw [State.silenced_congr ch f s (·.channel) (fun _ => rfl) k, State.silenced_congr ch f s (·.state) (fun _ => rfl) k]

theorem Rest.silenced : Rest { ctxs := fun k => s.ctxs[k].channel = ch, chans := (· = ch) } s (s.silenced ch f) :=
  Rest.trans ((Rest.updChan ch f s).mono (fun _ x => x.elim) (fun _ x => x) (fun _ x => x) fun _ x => x)
    ((Rest.clearWaits ch (s.updChan ch f)).mono (fun _ x => x) (fun _ x => x.elim) (fun _ x => x) fun _ x => x)

/-- The loss of the channel's contexts behind it touches these, their units and their orders (R112, R113). -/
theorem Rest.silenced_lost :
    Rest { ctxs := fun k => s.ctxs[k].channel = ch, chans := (· = ch), units := fun v => ∃ k, s.lostOn ch k ∧ s.ctxs[k].target = v
           slots := fun n => ∃ k, s.lostOn ch k ∧ hasSlot s.ctxs[k].attached n = true } s ((s.silenced ch f).loseContexts ch) := by
  have target := State.silenced_congr ch f s (·.target) fun _ => rfl
  have attached := State.silenced_congr ch f s (·.attached) fun _ => rfl
  refine Rest.trans ((Rest.silenced ch f s).mono (fun _ x => x) (fun _ x => x) (fun _ x => x.elim) fun _ x => x.elim)
    ((Rest.loseOf ch allCtxs (s.silenced ch f)).mono ?_ (fun _ x => x) ?_ ?_)
  · rintro k ⟨_, lost⟩
    exact ((State.silenced_lostOn ch f s k).1 lost).1
  · rintro v ⟨k, _, lost, hits⟩
    exact ⟨k, (State.silenced_lostOn ch f s k).1 lost, (target k).symm.trans hits⟩
  · rintro n ⟨k, _, lost, waits⟩
    rw [attached k] at waits
    exact ⟨k, (State.silenced_lostOn ch f s k).1 lost, waits⟩

end

/-! ### Bus-off -/

/-- An occurrence that is logged as ACTIVE_NOW stands so, or has met a full history (R64, R66). -/
theorem State.logs_active {s t : State} {code : SelfCode} {mode : Byte} (h : s.logs t code mode true) :
    64 ≤ t.self.entries.length ∨ ∃ e ∈ t.self.entries, e.code = code ∧ e.mode = mode ∧ e.activeNow = true := by
  have found : ∀ e, t.self.entries.find? (fun e => e.code == code && e.mode == mode) = some e → e.activeNow = true →
      ∃ e ∈ t.self.entries, e.code = code ∧ e.mode = mode ∧ e.activeNow = true := fun e he active => by
    obtain ⟨hc, hm⟩ := SelfEntry.hasIdent_iff.1 (List.find?_some he)
    exact ⟨e, List.mem_of_find?_eq_some he, hc, hm, active⟩
  unfold State.logs at h
  dsimp only at h
  split at h
  · exact .inr (found _ h.1 (Bool.or_true _))
  · rcases h with ⟨entry, _⟩ | ⟨_, full⟩
    · exact .inr (found _ entry rfl)
    · exact .inl full

section
variable (ch : ChanId) (s : State)

/-- The controller off its bus and, but in an engine reset, its contexts ended (R112, R115, R120). -/
def State.busLost : State :=
  if s.resetting then s.silenced ch (Channel.enterBusOff s.clock)
  else (s.silenced ch (Channel.enterBusOff s.clock)).loseContexts ch

theorem State.busOff_eq : s.busOff ch = ((s.busLost ch).logSelf .busOff (BitVec.ofNat 8 ch.val) true).raiseAttn .channelFault := by
  have reset : (s.silenced ch (Channel.enterBusOff s.clock)).resetting = s.resetting := by
    unfold State.resetting
    rw [(State.silenced_frame ch _ s).2.2.2.1]
  unfold State.busOff State.busLost
  rw [← reset]
  rfl

theorem State.busLost_chan : (s.busLost ch).chans[ch] = s.chans[ch].enterBusOff s.clock := by
  obtain ⟨_, _, _, _, _, _, _, block⟩ := State.silenced_frame ch (Channel.enterBusOff s.clock) s
  unfold State.busLost
  by_cases reset : s.resetting = true
  · simp only [if_pos reset, block]
  · simp only [if_neg reset]
    refine (State.loseOf_chans (l := allCtxs) ?_ ch).trans block
    rw [block]
    rfl

theorem State.busLost_clock : (s.busLost ch).clock = s.clock := by
  obtain ⟨_, clock, _⟩ := State.silenced_frame ch (Channel.enterBusOff s.clock) s
  unfold State.busLost
  split
  · exact clock
  · exact (State.loseContexts_frame ch _).1.trans clock

theorem Rest.busLost :
    Rest { ctxs := fun k => s.ctxs[k].channel = ch, chans := (· = ch)
           units := fun v => s.orders.resetting = none ∧ ∃ k, s.lostOn ch k ∧ s.ctxs[k].target = v
           slots := fun n => s.orders.resetting = none ∧ ∃ k, s.lostOn ch k ∧ hasSlot s.ctxs[k].attached n = true } s (s.busLost ch) := by
  unfold State.busLost
  refine Rest.ite (fun _ => ?_) fun calm => ?_
  · exact (Rest.silenced ch _ s).mono (fun _ x => x) (fun _ x => x) (fun _ x => x.elim) fun _ x => x.elim
  · have none : s.orders.resetting = none := Option.isNone_iff_eq_none.1 (by simpa [State.resetting] using calm)
    exact (Rest.silenced_lost ch _ s).mono (fun _ x => x) (fun _ x => x) (fun _ x => ⟨none, x⟩) fun _ x => ⟨none, x⟩

end

/-- A transmit error past 255: the first part of O36. -/
theorem transmitError_stops {ch : ChanId} {kind : TxErrorKind} {s : State} (run : s.running) (joined : s.chans[ch].state.joined = true)
    (counts : ¬ (s.chans[ch].state = .passive ∧ kind = .acknowledgement)) (past : 247 < s.chans[ch].txErrors) :
    ∃ t, exec (.transmitError ch kind) s = .next t ∧
      t.chans[ch].link = (s.chans[ch].enterBusOff s.clock).link ∧
      t.chans[ch].txQueue = [] ∧ t.chans[ch].pacer.credits = 0 ∧ t.chans[ch].pacer.line = [] ∧
      t.chans[ch].settling = false ∧
      (s.orders.resetting = none → ∀ k : CtxId, ¬ t.lostOn ch k) ∧
      (s.orders.resetting ≠ none → ∀ k : CtxId, s.lostOn ch k →
        t.ctxs[k].same { s.ctxs[k] with creditNeed := 0, frameQueued := none }) ∧
      (s.orders.resetting = none → s.memOk → s.apart → s.endsLost t ch fun _ => False) ∧
      t.hasAttn .channelFault ∧
      (64 ≤ t.self.entries.length ∨
        ∃ e ∈ t.self.entries, e.code = .busOff ∧ e.mode = BitVec.ofNat 8 ch.val ∧ e.activeNow = true) ∧
      (s.orders.resetting ≠ none → s.logs t .busOff (BitVec.ofNat 8 ch.val) true) ∧
      t.clock = s.clock ∧
      Rest { ctxs := fun k => s.ctxs[k].channel = ch, chans := (· = ch)
             units := fun v => s.orders.resetting = none ∧ ∃ k, s.lostOn ch k ∧ s.ctxs[k].target = v
             slots := fun n => s.orders.resetting = none ∧ ∃ k, s.lostOn ch k ∧ hasSlot s.ctxs[k].attached n = true } s t := by
  obtain ⟨b, hB⟩ : ∃ b, b = s.silenced ch (Channel.enterBusOff s.clock) := ⟨_, rfl⟩
  obtain ⟨m, hM⟩ : ∃ m, m = s.busLost ch := ⟨_, rfl⟩
  obtain ⟨F, hF⟩ : ∃ F, F = (m.logSelf .busOff (BitVec.ofNat 8 ch.val) true).raiseAttn .channelFault := ⟨_, rfl⟩
  obtain ⟨_, clockB, memB, ordersB, sweepB, dirB, selfB, _⟩ := State.silenced_frame ch (Channel.enterBusOff s.clock) s
  rw [← hB] at clockB memB ordersB sweepB dirB selfB
  have getB : ∀ k : CtxId, b.ctxs[k] = s.ctxs[k].clearedOn ch := fun k => hB ▸ State.silenced_get ch _ s k
  have lostM : s.orders.resetting = none → m = b.loseContexts ch := fun calm => by
    rw [hM, hB]
    exact if_neg (by simp [State.resetting, calm])
  have frozenM : s.orders.resetting ≠ none → m = b := fun reset => by
    rw [hM, hB]
    exact if_pos (Option.isSome_iff_ne_none.2 reset)
  have ended : s.transmitError ch kind = F := by
    rw [hF, hM, ← State.busOff_eq]
    exact (if_neg counts).trans (if_pos (by omega))
  have logged : Rest {} m F := hF ▸ (Rest.logSelf _ _ _ m).trans (Rest.raiseAttn _ _)
  have own := (hM ▸ Rest.busLost ch s : Rest _ s m).trans logged.widen
  have after : Rest {} F (State.stamp s F.settle) := (Rest.settle F).stamp s
  have ctxsF : F.ctxs = m.ctxs := by rw [hF]; simp
  have dirF : F.dir = m.dir := by rw [hF]; simp
  have sweepF : F.sweep = m.sweep := by rw [hF]; simp
  have block : F.chans[ch] = s.chans[ch].enterBusOff s.clock := by
    have chans : F.chans = m.chans := by rw [hF]; simp
    rw [chans, hM, State.busLost_chan]
  have off : F.chans[ch].state.joined = false := by rw [block]; rfl
  have field : ∀ {α : Type} (g : Channel → α), (∀ (x : Channel) r, g { x with revision := r } = g x) →
      g (State.stamp s F.settle).chans[ch] = g (s.chans[ch].enterBusOff s.clock) := fun g hg => by
    rw [State.stamp_chan_congr s F.settle ch g hg, State.settle_off off, block]
  have logs : m.logs (State.stamp s F.settle) .busOff (BitVec.ofNat 8 ch.val) true := by
    refine State.logs_after (State.logs_logSelf _ _ _ m) (Rest.keepsLog (d := {}) ?_ ?_ _ _)
    · exact (hF ▸ Rest.raiseAttn .channelFault _ : Rest {} _ F).trans after
    · rw [State.stamp_self, (State.settle_frame F).2.1, hF, State.raiseAttn_self]
  refine ⟨_, ?_, field Channel.link fun _ _ => rfl, field (·.txQueue) fun _ _ => rfl, field (·.pacer.credits) fun _ _ => rfl,
    field (·.pacer.line) fun _ _ => rfl, field (·.settling) fun _ _ => rfl, fun calm => ?_, fun reset k lost => ?_,
    fun calm hm apart => ?_, ?_, State.logs_active logs, fun reset => ?_, ?_, own.settled⟩
  · rw [← ended]
    exact congrArg Host.Outcome.next ((if_pos joined).trans (settledEvent_eq _ s run))
  · refine State.stamp_unlost (State.settle_unlost off fun k => ?_)
    unfold State.lostOn
    rw [ctxsF, lostM calm]
    exact State.loseContexts_unlost ch b k
  · obtain ⟨n, resetting⟩ := Option.ne_none_iff_exists'.1 reset
    have frozen : F.settle.ctxs = b.ctxs := by
      rw [State.settle_resetting (n := n), ctxsF, frozenM reset]
      rw [show F.orders = b.orders by rw [hF, frozenM reset]; simp, ordersB]
      exact resetting
    have same := State.stamp_ctx_same s F.settle k
    rw [show F.settle.ctxs[k] = b.ctxs[k] by rw [frozen], getB, Context.clearedOn, if_pos] at same
    · exact same
    · exact ⟨lost.1, fun free => by
        have busy := lost.2
        rw [free] at busy
        exact Bool.false_ne_true busy⟩
  · have hmB : b.memOk := by rw [State.memOk, memB]; exact hm
    have done := State.loseContexts_done hmB (State.apart_cleared getB apart) ch
    rw [← lostM calm] at done
    have hmM : m.memOk := by
      rw [lostM calm]
      exact (State.loseOf_completesOnly ch allCtxs b).mem hmB
    have doneF : b.lossDone F ch fun _ => False :=
      done.after hmM logged ctxsF (fun k _ => by rw [dirF]) sweepF (fun _ x => x) fun _ _ _ => id
    exact State.endsLost_cleared getB dirB ordersB sweepB clockB (doneF.settled (logged.mem hmM).1 s)
  · refine hasAttn_rise ?_ after.attention
    rw [hF]
    exact attn_hasOr _ _
  · refine State.logs_before (Rest.keepsLog (d := { ctxs := fun k => s.ctxs[k].channel = ch, chans := (· = ch) }) ?_ ?_ _ _) ?_ logs
    · rw [frozenM reset, hB]
      exact Rest.silenced ch _ s
    · rw [frozenM reset, selfB]
    · rw [frozenM reset, memB]
  · rw [State.stamp_clock, State.settle_clock, hF]
    simp [hM, State.busLost_clock]

end Sys2Proof.Machine
end


section
/-! SUPPORT. SET CHANNEL with rate OFF (R66, R112, R118, R128, R142, R176). -/

namespace Sys2Proof.Machine

/-! ### Suspended reads of the channel -/

/-- The suspended requests of the channel's units that READ UNIT orders wait for, ended (R176). -/
def State.heldLost (ch : ChanId) (s : State) : State := forEach allUnits (State.loseHeld ch) s

theorem State.heldLost_frame (ch : ChanId) (s : State) : (s.heldLost ch).clock = s.clock ∧ (s.heldLost ch).mem = s.mem ∧
    (s.heldLost ch).orders = s.orders ∧ (s.heldLost ch).sweep = s.sweep ∧ (s.heldLost ch).pool = s.pool ∧
    (s.heldLost ch).ctxs = s.ctxs ∧ (s.heldLost ch).chans = s.chans := by
  simp [State.heldLost, forEach_keeps State.clock, forEach_keeps State.mem, forEach_keeps State.orders, forEach_keeps State.sweep,
    forEach_keeps State.pool, forEach_keeps State.ctxs, forEach_keeps State.chans]

section
variable {ch : ChanId} {u : UnitId} {s : State}

theorem State.loseHeld_unheld (h : ¬ (s.dir[u].state = .held ∧ s.dir[u].channel = ch)) : s.loseHeld ch u = s :=
  if_neg fun x => h ⟨x.1, x.2.1⟩

/-- A held entry whose request has ended for the loss of its channel (R56, R176). -/
def DirEntry.lostHeld (ed : Edition) (e0 e : DirEntry) : Prop :=
  e.state = .idle ∧ e.lastOutcome = .channelLost ∧ e.record = { e0.record with lastRead := ed }

theorem State.loseHeld_ended (held : s.dir[u].state = .held) (channel : s.dir[u].channel = ch) (waits : s.waitingReads u ≠ []) :
    DirEntry.lostHeld s.sweep.openEdition s.dir[u] (s.loseHeld ch u).dir[u] := by
  have taken : s.loseHeld ch u = s.endRequest u .channelLost := if_pos ⟨held, channel, waits⟩
  rw [taken, State.endRequest, State.endRequestWith_dir]
  refine ⟨(State.writeEntry_congr u _ s (·.state) fun _ _ => rfl).trans ?_, State.writeEntry_congr u _ s (·.lastOutcome) fun _ _ => rfl,
    State.writeEntry_congr u _ s DirEntry.record fun _ _ => rfl⟩
  exact if_neg (by rw [show (id s.dir[u]).state = .held from held]; decide)

theorem State.loseHeld_dir (u v : UnitId) (s : State) : (s.loseHeld ch u).dir[v] = s.dir[v] ∨
    v = u ∧ s.dir[u].state = .held ∧ s.dir[u].channel = ch ∧
      DirEntry.lostHeld s.sweep.openEdition s.dir[u] (s.loseHeld ch u).dir[u] := by
  by_cases h : s.dir[u].state = .held ∧ s.dir[u].channel = ch ∧ s.waitingReads u ≠ []
  · by_cases own : v = u
    · exact .inr ⟨own, h.1, h.2.1, State.loseHeld_ended h.1 h.2.1 h.2.2⟩
    · have taken : s.loseHeld ch u = s.endRequest u .channelLost := if_pos h
      rw [taken, State.endRequest, State.endRequestWith_dir]
      exact .inl (State.writeEntry_other own _ s)
  · exact .inl (congrArg (fun t : State => t.dir[v]) (if_neg h : s.loseHeld ch u = s))

/-- An entry that is not held on the channel stands through the loss. -/
theorem State.heldLost_kept (h : ¬ (s.dir[u].state = .held ∧ s.dir[u].channel = ch)) : (s.heldLost ch).dir[u] = s.dir[u] := by
  refine forEach_invariant (fun t : State => t.dir[u] = s.dir[u]) _ (fun v t same => ?_) allUnits s rfl
  rcases State.loseHeld_dir (ch := ch) v u t with kept | ⟨rfl, held, channel, _⟩
  · rw [kept, same]
  · exact absurd ⟨same ▸ held, same ▸ channel⟩ h

theorem State.heldLost_channel (ch : ChanId) (v : UnitId) (s : State) : (s.heldLost ch).dir[v].channel = s.dir[v].channel := by
  refine forEach_keeps (fun t : State => t.dir[v].channel) _ (fun u t => ?_) allUnits s
  rcases State.loseHeld_dir (ch := ch) u v t with kept | ⟨rfl, _, _, _, _, record⟩
  · rw [kept]
  · exact (congrArg DirEntry.channel record :)

theorem Rest.heldLost (ch : ChanId) (s : State) :
    Rest { units := fun v => s.dir[v].state = .held ∧ s.dir[v].channel = ch } s (s.heldLost ch) := by
  refine (forEach_invariant (fun t : State => Rest { units := fun v => s.dir[v].state = .held ∧ s.dir[v].channel = ch } s t ∧
    ∀ v : UnitId, t.dir[v].state = .held ∧ t.dir[v].channel = ch → s.dir[v].state = .held ∧ s.dir[v].channel = ch) _
    (fun u t ⟨rest, was⟩ => ⟨?_, fun v suspended => ?_⟩) allUnits s ⟨Rest.refl _ s, fun _ => id⟩).1
  · refine rest.trans ?_
    by_cases suspended : t.dir[u].state = .held ∧ t.dir[u].channel = ch
    · unfold State.loseHeld
      refine Rest.ite (fun _ => ?_) fun _ => Rest.refl _ t
      exact (Rest.endRequestWith id u .channelLost t).mono (fun _ x => x) (fun _ x => x)
        (fun v x => by obtain rfl : v = u := x; exact was v suspended) fun _ x => x
    · rw [State.loseHeld_unheld suspended]
      exact Rest.refl _ t
  · rcases State.loseHeld_dir (ch := ch) u v t with kept | ⟨rfl, _, _, idle, _⟩
    · rw [kept] at suspended
      exact was v suspended
    · rw [idle] at suspended
      cases suspended.1

theorem State.waitingReads_congr {t : State} (ctxs : t.ctxs = s.ctxs) (orders : t.orders = s.orders) : t.waitingReads u = s.waitingReads u := by
  unfold State.waitingReads State.waitingSlots State.attachedAll
  rw [ctxs, orders]

/-- A suspended request that some READ UNIT order waits for ends CHANNEL_LOST (R176). -/
theorem State.heldLost_ended (held : s.dir[u].state = .held) (channel : s.dir[u].channel = ch) (waits : s.waitingReads u ≠ []) :
    DirEntry.lostHeld s.sweep.openEdition s.dir[u] (s.heldLost ch).dir[u] := by
  have all : ∀ (l : List UnitId) (t : State), t.ctxs = s.ctxs → t.orders = s.orders → t.sweep = s.sweep →
      (t.dir[u] = s.dir[u] ∧ u ∈ l ∨ DirEntry.lostHeld s.sweep.openEdition s.dir[u] t.dir[u]) →
      DirEntry.lostHeld s.sweep.openEdition s.dir[u] (forEach l (State.loseHeld ch) t).dir[u] := by
    intro l
    induction l with
    | nil => exact fun t _ _ _ h => h.resolve_left fun x => List.not_mem_nil x.2
    | cons a l ih =>
      intro t ctxs orders sweep h
      obtain ⟨_, _, orders', sweep', _, ctxs', _⟩ := State.loseHeld_frame ch a t
      refine ih (t.loseHeld ch a) (ctxs'.trans ctxs) (orders'.trans orders) (sweep'.trans sweep) ?_
      rcases h with ⟨same, mem⟩ | ended
      · by_cases own : u = a
        · subst own
          have ended := State.loseHeld_ended (ch := ch) (u := u) (s := t) (by rw [same]; exact held) (by rw [same]; exact channel)
            (by rw [State.waitingReads_congr ctxs orders]; exact waits)
          rw [same, sweep] at ended
          exact .inr ended
        · rcases State.loseHeld_dir (ch := ch) a u t with kept | ⟨same', _⟩
          · exact .inl ⟨kept.trans same, (List.mem_cons.1 mem).resolve_left own⟩
          · exact absurd same' own
      · rcases State.loseHeld_dir (ch := ch) a u t with kept | ⟨same', was, _⟩
        · rw [kept]
          exact .inr ended
        · rw [← same', ended.1] at was
          cases was
  exact all allUnits s rfl rfl rfl (.inl ⟨rfl, List.mem_finRange u⟩)

end

/-! ### The orders on the channel's units -/

theorem State.loseContext_channel (ch : ChanId) (k : CtxId) (v : UnitId) (s : State) :
    (s.loseContext ch k).dir[v].channel = s.dir[v].channel := by
  rcases State.loseContext_cases ch k s with ⟨_, ended⟩ | ⟨_, same⟩
  · rw [ended]
    by_cases own : v = s.ctxs[k].target
    · subst own
      rw [State.endAs_entry (·.channel) fun _ => rfl]
      cases s.ctxs[k].purpose <;> rfl
    · rw [State.endAs_dir_other own]
  · rw [same]

theorem State.loseOf_channel (ch : ChanId) (l : List CtxId) (v : UnitId) (s : State) : (s.loseOf ch l).dir[v].channel = s.dir[v].channel :=
  forEach_keeps (fun t : State => t.dir[v].channel) (State.loseContext ch) (fun k t => State.loseContext_channel ch k v t) l s

/-- The slot holds a READ UNIT or ERASE UNIT order for a unit of the channel (R176). -/
def State.waitsOn (s : State) (ch : ChanId) (j : SlotId) : Prop :=
  ∃ x u, s.orders.taken[j] = some x ∧ (x.order = .readUnit u ∨ x.order = .eraseUnit u) ∧ u ≠ 0 ∧ s.dir[u].channel = ch

theorem State.ordersUnitOn_iff {s : State} {ch : ChanId} {o : Order} :
    s.ordersUnitOn ch o = true ↔ ∃ u, (o = .readUnit u ∨ o = .eraseUnit u) ∧ u ≠ 0 ∧ s.dir[u].channel = ch := by
  cases o with
  | readUnit u => simp [State.ordersUnitOn]
  | eraseUnit u => simp [State.ordersUnitOn]
  | _ => simp [State.ordersUnitOn]

end Sys2Proof.Machine
end


section
/-! SUPPORT. SET CHANNEL with rate OFF: the channel, its contexts and the orders on its units (R66, R112, R118, R128, R142, R176). -/

namespace Sys2Proof.Machine

/-! ### The orders on the channel's units end -/

/-- Suspended requests of the channel's units end, and the orders on its units that no context has attached complete CHANNEL_LOST (R176). -/
def State.ordersLost (ch : ChanId) (s : State) : State :=
  (s.heldLost ch).completeUnitOrders .channelLost ((s.heldLost ch).waitingSlots ((s.heldLost ch).ordersUnitOn ch))

section
variable {ch : ChanId} {s : State}

theorem State.mem_ordersLost {j : SlotId} : j ∈ (s.heldLost ch).waitingSlots ((s.heldLost ch).ordersUnitOn ch) ↔
    (∀ k : CtxId, hasSlot s.ctxs[k].attached j = false) ∧ s.waitsOn ch j := by
  obtain ⟨_, _, orders, _, _, ctxs, _⟩ := State.heldLost_frame ch s
  simp only [State.mem_waitingSlots, State.ordersUnitOn_iff, State.heldLost_channel, ctxs, orders, State.waitsOn]
  refine and_congr_right fun _ => ⟨?_, ?_⟩
  · rintro ⟨x, hx, u, order, nonzero, channel⟩
    exact ⟨x, u, hx, order, nonzero, channel⟩
  · rintro ⟨x, u, hx, order, nonzero, channel⟩
    exact ⟨x, hx, u, order, nonzero, channel⟩

variable (ch s)

theorem State.ordersLost_frame : (s.ordersLost ch).clock = s.clock ∧ (s.ordersLost ch).sweep = s.sweep ∧
    (s.ordersLost ch).dir = (s.heldLost ch).dir ∧ (s.ordersLost ch).ctxs = s.ctxs ∧ (s.ordersLost ch).chans = s.chans := by
  obtain ⟨clock, _, _, sweep, _, ctxs, chans⟩ := State.heldLost_frame ch s
  simp [State.ordersLost, clock, sweep, ctxs, chans]

theorem State.ordersLost_completesOnly : s.completesOnly (s.ordersLost ch) := by
  obtain ⟨_, mem, orders, _⟩ := State.heldLost_frame ch s
  exact State.completesOnly_trans (State.completesOnly_same mem orders) (State.completesOnly_orders _ _ _)

theorem Rest.ordersLost : Rest { units := fun v => s.dir[v].state = .held ∧ s.dir[v].channel = ch, slots := s.waitsOn ch } s
    (s.ordersLost ch) :=
  Rest.trans ((Rest.heldLost ch s).mono (fun _ x => x) (fun _ x => x) (fun _ x => x) fun _ x => x.elim)
    ((Rest.completeUnitOrders _ _ _).mono (fun _ x => x.elim) (fun _ x => x.elim) (fun _ x => x.elim)
      fun _ x => (State.mem_ordersLost.1 x).2)

variable {ch s}

/-- Each of these orders completes CHANNEL_LOST (R168, R176). -/
theorem State.ordersLost_done (hm : s.memOk) {j : SlotId} {x : Taken} (free : ∀ k : CtxId, hasSlot s.ctxs[k].attached j = false)
    (waits : s.waitsOn ch j) (taken : s.orders.taken[j] = some x) : (s.ordersLost ch).slotDone j 6 x.edition s.clock := by
  obtain ⟨clock, mem, orders, _⟩ := State.heldLost_frame ch s
  obtain ⟨y, u, same, order, _⟩ := id waits
  obtain rfl : x = y := Option.some.inj (taken.symm.trans same)
  have done := State.completeUnitOrders_done (out := .channelLost) (State.waitingSlots_nodup _ _) (s := s.heldLost ch)
    (by rw [State.memOk, mem]; exact hm) (State.mem_ordersLost.2 ⟨free, waits⟩) (by rw [orders]; exact taken) order
  rw [clock] at done
  exact done

end

/-! ### The channel set OFF -/

/-- SET CHANNEL with rate OFF sets the channel and the BUS_OFF entry of one that was silent (R66, R118). -/
def State.offSet (ch : ChanId) (v : ChanSettings) (s : State) : State :=
  if s.chans[ch].state.silent then (s.setChannelOff ch v).clearBusOffActive ch else s.setChannelOff ch v

/-- The contexts of a channel set OFF, ended (R112, R128). -/
def State.offLost (ch : ChanId) (v : ChanSettings) (s : State) : State := (s.silenced ch (Channel.stopRate v)).loseContexts ch

section
variable (ch : ChanId) (v : ChanSettings) (s : State)

theorem State.offLost_eq : s.offLost ch v = (s.silenced ch (Channel.stopRate v)).loseOf ch allCtxs := rfl

theorem Rest.offLost :
    Rest { ctxs := fun k => s.ctxs[k].channel = ch, chans := (· = ch), units := fun u => ∃ k, s.lostOn ch k ∧ s.ctxs[k].target = u
           slots := fun n => ∃ k, s.lostOn ch k ∧ hasSlot s.ctxs[k].attached n = true } s (s.offLost ch v) :=
  Rest.silenced_lost ch (Channel.stopRate v) s

theorem State.setChannelOff_eq : s.setChannelOff ch v = (s.offLost ch v).ordersLost ch := rfl

/-- The BUS_OFF entry apart, the channel is set OFF alike whatever its state was (R66). -/
theorem State.offSet_cases (P : State → Prop) (set_ : P ((s.offLost ch v).ordersLost ch))
    (entry : ∀ t, P t → P (t.clearBusOffActive ch)) : P (s.offSet ch v) := by
  unfold State.offSet
  rw [State.setChannelOff_eq]
  split
  · exact entry _ set_
  · exact set_

theorem State.offSet_frame : (s.offSet ch v).clock = s.clock ∧ (s.offSet ch v).sweep = (s.offLost ch v).sweep ∧
    (s.offSet ch v).dir = ((s.offLost ch v).heldLost ch).dir ∧ (s.offSet ch v).ctxs = (s.offLost ch v).ctxs ∧
    (s.offSet ch v).chans[ch] = s.chans[ch].stopRate v := by
  refine State.offSet_cases ch v s (fun t => t.clock = s.clock ∧ t.sweep = (s.offLost ch v).sweep ∧
    t.dir = ((s.offLost ch v).heldLost ch).dir ∧ t.ctxs = (s.offLost ch v).ctxs ∧ t.chans[ch] = s.chans[ch].stopRate v) ?_ fun t h => ?_
  · obtain ⟨_, clock, _, _, _, _, _, block⟩ := State.silenced_frame ch (Channel.stopRate v) s
    obtain ⟨clock', sweep, dir, ctxs, chans⟩ := State.ordersLost_frame ch (s.offLost ch v)
    refine ⟨clock'.trans ((State.loseContexts_frame ch _).1.trans clock), sweep, dir, ctxs, ?_⟩
    have quiet : (s.silenced ch (Channel.stopRate v)).chans[ch].frames = [] := by
      rw [block]
      rfl
    rw [chans, State.offLost_eq, State.loseOf_chans quiet, block]
  · simpa using h

theorem State.offLost_completesOnly : s.completesOnly (s.offLost ch v) := by
  obtain ⟨_, _, mem, orders, _⟩ := State.silenced_frame ch (Channel.stopRate v) s
  exact State.completesOnly_trans (State.completesOnly_same mem orders) (State.loseOf_completesOnly ch allCtxs _)

theorem State.offSet_completesOnly : s.completesOnly (s.offSet ch v) := by
  refine State.offSet_cases ch v s s.completesOnly ?_ fun t h => ?_
  · exact State.completesOnly_trans (State.offLost_completesOnly ch v s) (State.ordersLost_completesOnly ch _)
  · exact State.completesOnly_trans h (State.completesOnly_same (by simp) (by simp))

theorem Rest.offSet_ordersLost : Rest {} ((s.offLost ch v).ordersLost ch) (s.offSet ch v) :=
  State.offSet_cases ch v s (Rest {} _) (Rest.refl _ _) fun _ h => h.trans (Rest.clearBusOffActive ch _)

theorem State.offLost_channel (u : UnitId) : (s.offLost ch v).dir[u].channel = s.dir[u].channel := by
  obtain ⟨_, _, _, _, _, dir, _⟩ := State.silenced_frame ch (Channel.stopRate v) s
  rw [State.offLost_eq, State.loseOf_channel, dir]

/-- A unit that no lost context serves is as it was (R57). -/
theorem State.offLost_dir {u : UnitId} (h : ∀ k, s.lostOn ch k → u ≠ s.ctxs[k].target) : (s.offLost ch v).dir[u] = s.dir[u] := by
  obtain ⟨_, _, _, _, _, dir, _⟩ := State.silenced_frame ch (Channel.stopRate v) s
  rw [State.offLost_eq, State.loseOf_dir, dir]
  intro k _ lost
  rw [State.silenced_congr ch _ s (·.target) (fun _ => rfl) k]
  exact h k ((State.silenced_lostOn ch _ s k).1 lost)

/-- The loss of the contexts leaves no order waiting on the channel that was not. -/
theorem State.offLost_waitsOn {j : SlotId} (h : (s.offLost ch v).waitsOn ch j) : s.waitsOn ch j := by
  obtain ⟨x, u, taken, order, nonzero, channel⟩ := h
  rw [State.offLost_channel] at channel
  rcases (State.offLost_completesOnly ch v s).taken j with same | gone
  · exact ⟨x, u, same ▸ taken, order, nonzero, channel⟩
  · rw [gone] at taken
    cases taken

/-- An order that no context has attached waits on as before (R94). -/
theorem State.offLost_unattached {j : SlotId} {x : Taken} (free : ∀ k : CtxId, hasSlot s.ctxs[k].attached j = false)
    (taken : s.orders.taken[j] = some x) (plain : ∀ m b, x.order ≠ .sweep m b) :
    (s.offLost ch v).orders.taken[j] = some x ∧ ∀ k : CtxId, hasSlot (s.offLost ch v).ctxs[k].attached j = false := by
  have untouched : ¬ ∃ k, s.lostOn ch k ∧ hasSlot s.ctxs[k].attached j = true := fun ⟨k, _, attached⟩ =>
    Bool.false_ne_true ((free k).symm.trans attached)
  have unswept : ¬ s.sweepSlot j := fun ⟨y, m, b, same, order⟩ =>
    plain m b ((congrArg Taken.order (Option.some.inj (taken.symm.trans same))).trans order)
  have kept := (Rest.offLost ch v s).taken j untouched unswept
  refine ⟨kept.trans taken, fun k => ?_⟩
  by_cases lost : (s.silenced ch (Channel.stopRate v)).lostOn ch k
  · rw [State.offLost_eq, State.loseOf_freed (mem_allCtxs k) lost]
    simp [Context.freed, hasSlot]
  · rw [State.offLost_eq, State.loseOf_kept (.inr lost), State.silenced_congr ch _ s (·.attached) (fun _ => rfl) k]
    exact free k

/-- What a channel set OFF touches (R112, R118, R176). -/
theorem Rest.offSet :
    Rest { ctxs := fun k => s.ctxs[k].channel = ch, chans := (· = ch)
           units := fun u => s.dir[u].state = .held ∧ s.dir[u].channel = ch ∨ ∃ k, s.lostOn ch k ∧ s.ctxs[k].target = u
           slots := fun j => s.waitsOn ch j ∨ ∃ k, s.lostOn ch k ∧ hasSlot s.ctxs[k].attached j = true } s (s.offSet ch v) := by
  refine Rest.trans ?_ (Rest.offSet_ordersLost ch v s).widen
  refine Rest.trans ((Rest.offLost ch v s).mono (fun _ x => x) (fun _ x => x) (fun _ x => .inr x)
    fun _ x => .inr x) ?_
  refine (Rest.ordersLost ch (s.offLost ch v)).mono (fun _ x => x.elim) (fun _ x => x.elim) (fun u x => ?_)
    fun j x => .inl (State.offLost_waitsOn ch v s x)
  by_cases target : ∃ k, s.lostOn ch k ∧ s.ctxs[k].target = u
  · exact .inr target
  · have same := State.offLost_dir ch v s (u := u) fun k lost hits => target ⟨k, lost, hits.symm⟩
    exact .inl (same ▸ x)

/-- No context is busy on the channel any more (R112). -/
theorem State.offSet_unlost (k : CtxId) : ¬ (s.offSet ch v).lostOn ch k := by
  obtain ⟨_, _, _, ctxs, _⟩ := State.offSet_frame ch v s
  unfold State.lostOn
  rw [ctxs]
  exact State.loseContexts_unlost ch _ k

/-- The edition that is open stays open, and with no unit being delisted none is opened (R61, R156). -/
theorem State.offSet_edition (h : s.sweep.openEdition ≠ 0 ∨ ∀ u : UnitId, s.dir[u].state ≠ .delisting) :
    (s.offSet ch v).sweep.openEdition = s.sweep.openEdition := by
  obtain ⟨_, _, _, _, sweep, dir, _⟩ := State.silenced_frame ch (Channel.stopRate v) s
  obtain ⟨_, same, _⟩ := State.offSet_frame ch v s
  rw [same, State.offLost_eq, State.loseOf_edition, sweep]
  rw [sweep, dir]
  exact h

theorem State.offSet_autoDue : (s.offSet ch v).sweep.autoDue = s.sweep.autoDue := by
  obtain ⟨_, _, _, _, sweep, _⟩ := State.silenced_frame ch (Channel.stopRate v) s
  obtain ⟨_, same, _⟩ := State.offSet_frame ch v s
  rw [same, State.offLost_eq, State.loseOf_sweep (·.autoDue) (fun _ => rfl) (fun _ _ => rfl), sweep]

theorem State.offSet_silent (silent : s.chans[ch].state.silent = true) : (s.offSet ch v).self.silentOn ch := by
  unfold State.offSet
  rw [if_pos silent]
  exact State.clearBusOffActive_silent ch _

variable {ch v s}

/-- An order that waits on the channel and is attached to no context completes CHANNEL_LOST (R176). -/
theorem State.offSet_waits (hm : s.memOk) {j : SlotId} {x : Taken} (free : ∀ k : CtxId, hasSlot s.ctxs[k].attached j = false)
    (waits : s.waitsOn ch j) (taken : s.orders.taken[j] = some x) : (s.offSet ch v).slotDone j 6 x.edition s.clock := by
  obtain ⟨y, u, same, order, nonzero, channel⟩ := waits
  obtain rfl : x = y := Option.some.inj (taken.symm.trans same)
  obtain ⟨taken', free'⟩ := State.offLost_unattached ch v s free taken fun m b sweep => by
    rw [sweep] at order
    rcases order with x | x <;> cases x
  have hmL := (State.offLost_completesOnly ch v s).mem hm
  have clock : (s.offLost ch v).clock = s.clock :=
    (State.loseContexts_frame ch _).1.trans (State.silenced_frame ch (Channel.stopRate v) s).2.1
  have done := State.ordersLost_done hmL free' ⟨x, u, taken', order, nonzero, (State.offLost_channel ch v s u).trans channel⟩ taken'
  rw [clock] at done
  exact (Rest.offSet_ordersLost ch v s).slotDone ((State.ordersLost_completesOnly ch _).mem hmL) id done

/-- A suspended request for which a READ UNIT order waits ends CHANNEL_LOST (R56, R176). -/
theorem State.offSet_held {u : UnitId} {j : SlotId} {x : Taken} (held : s.dir[u].state = .held) (channel : s.dir[u].channel = ch)
    (taken : s.orders.taken[j] = some x) (order : x.order = .readUnit u) (free : ∀ k : CtxId, hasSlot s.ctxs[k].attached j = false)
    (unserved : ∀ k : CtxId, s.ctxs[k].state ≠ .free → s.ctxs[k].target ≠ u) :
    DirEntry.lostHeld (s.offSet ch v).sweep.openEdition s.dir[u] (s.offSet ch v).dir[u] := by
  obtain ⟨_, sweep, dir, _⟩ := State.offSet_frame ch v s
  obtain ⟨taken', free'⟩ := State.offLost_unattached ch v s free taken fun m b sweep => by
    rw [sweep] at order
    cases order
  have same := State.offLost_dir ch v s (u := u) fun k lost hits => unserved k (fun idle => by
    have busy := lost.2
    rw [idle] at busy
    cases busy) hits.symm
  have waits : (s.offLost ch v).waitingReads u ≠ [] := List.ne_nil_of_mem (a := j) (State.mem_waitingSlots.2
    ⟨free', x, taken', by rw [order]; exact beq_self_eq_true u⟩)
  have ended := State.heldLost_ended (ch := ch) (by rw [same]; exact held) (by rw [same]; exact channel) waits
  rw [sweep, dir, ← same]
  exact ended

/-- The lost contexts have ended before the orders that wait on their units, and stay so (R112, R113, R176). -/
theorem State.offSet_done (hm : s.memOk) (apart : s.apart) :
    (s.silenced ch (Channel.stopRate v)).lossDone (s.offSet ch v) ch fun _ => False := by
  obtain ⟨b, hB⟩ : ∃ b, b = s.silenced ch (Channel.stopRate v) := ⟨_, rfl⟩
  obtain ⟨_, _, mem, _⟩ := State.silenced_frame ch (Channel.stopRate v) s
  obtain ⟨_, sweep, dir, ctxs, _⟩ := State.offSet_frame ch v s
  have done : b.lossDone (s.offLost ch v) ch fun _ => False := by
    rw [State.offLost, ← hB]
    exact State.loseContexts_done (by rw [State.memOk, hB, mem]; exact hm)
      (State.apart_cleared (fun k => hB ▸ State.silenced_get ch _ s k) apart) ch
  rw [← hB]
  refine done.after ((State.offLost_completesOnly ch v s).mem hm)
    (Rest.trans (Rest.ordersLost ch (s.offLost ch v)) (Rest.offSet_ordersLost ch v s).widen) ctxs (fun k lost => ?_) sweep (fun _ x => x)
    fun n _ gone => ?_
  · rw [dir]
    refine State.heldLost_kept fun ⟨held, _⟩ => ?_
    rw [done.state k lost, endState] at held
    split at held <;> cases held
  · rintro ⟨x, _, taken, _⟩
    rw [gone] at taken
    cases taken

end

end Sys2Proof.Machine
end


section
/-! SUPPORT. O36 assembled: bus-off, and SET CHANNEL with rate OFF completed in its visit (R112, R118, R120, R128, R168, R176). -/

namespace Sys2Proof.Machine

theorem State.applySetChannel_off {ch : ChanId} {v : ChanSettings} {s : State} (off : v.bitRate = .off) :
    s.applySetChannel ch v = s.offSet ch v := by
  unfold State.applySetChannel
  rw [if_pos off]
  rfl

/-- The unit of a suspended request that has ended CHANNEL_LOST, through all that follows (R56, R94, R176). -/
theorem DirEntry.lostHeld.settled {s m : State} {u : UnitId} {ed : Edition} (h : DirEntry.lostHeld ed s.dir[u] m.dir[u])
    (held : s.dir[u].state = .held) (due : m.sweep.autoDue = s.sweep.autoDue) (s0 : State) :
    s.unitEnds (State.stamp s0 m.settle) u .idle .channelLost ∧
      (State.stamp s0 m.settle).dir[u].record = { s.dir[u].record with lastRead := ed } := by
  obtain ⟨idle, outcome, record⟩ := h
  rw [State.unitEnds, if_neg (by rw [held]; decide), State.stamp_dir]
  refine ⟨⟨DirEntry.followed_idle (State.followed_settle m u) idle, fun calm => ?_⟩, ?_⟩
  · rw [State.settle_outcome (due.trans calm), outcome]
  · rw [State.settle_record, record]

/-- The channel set OFF and the order completed (R118, R168). -/
def State.offDone (ch : ChanId) (v : ChanSettings) (n : SlotId) (s : State) : State :=
  (s.offSet ch v).doneSlot n v.result (s.offSet ch v).sweep.openEdition

/-- What the visit of the order leaves. -/
def State.offVisited (ch : ChanId) (v : ChanSettings) (n : SlotId) (s : State) : State := State.stamp s (s.offDone ch v n).settle

section
variable (ch : ChanId) (v : ChanSettings) (n : SlotId) (s : State)

theorem State.offDone_frame : (s.offDone ch v n).clock = s.clock ∧ (s.offDone ch v n).sweep = (s.offSet ch v).sweep ∧
    (s.offDone ch v n).dir = (s.offSet ch v).dir ∧ (s.offDone ch v n).self = (s.offSet ch v).self ∧
    (s.offDone ch v n).ctxs = (s.offSet ch v).ctxs ∧ (s.offDone ch v n).chans[ch] = s.chans[ch].stopRate v := by
  obtain ⟨clock, _, _, _, block⟩ := State.offSet_frame ch v s
  obtain ⟨clock', sweep, dir, self, _, ctxs, _, chans, _⟩ := State.doneSlot_frame n v.result (s.offSet ch v).sweep.openEdition (s.offSet ch v)
  exact ⟨clock'.trans clock, sweep, dir, self, ctxs, (congrArg (fun x : Vector Channel 4 => x[ch]) chans).trans block⟩

theorem State.offDone_completesOnly : s.completesOnly (s.offDone ch v n) :=
  State.completesOnly_trans (State.offSet_completesOnly ch v s) (State.completesOnly_done _ _ _ _)

theorem Rest.offDone : Rest { slots := (· = n) } (s.offSet ch v) (s.offDone ch v n) := Rest.completeSlot n _ _ _ _

theorem Rest.offVisited : Rest {} (s.offDone ch v n) (s.offVisited ch v n) := (Rest.settle _).stamp s

theorem State.offVisited_chan {α : Type} (g : Channel → α) (hg : ∀ (x : Channel) r, g { x with revision := r } = g x) :
    g (s.offVisited ch v n).chans[ch] = g (s.chans[ch].stopRate v) := by
  obtain ⟨_, _, _, _, _, block⟩ := State.offDone_frame ch v n s
  rw [State.offVisited, State.stamp_chan_congr s _ ch g hg, State.settle_off (by rw [block]; rfl), block]

theorem State.offVisited_clock : (s.offVisited ch v n).clock = s.clock := by
  obtain ⟨clock, _⟩ := State.offDone_frame ch v n s
  rw [State.offVisited, State.stamp_clock, State.settle_clock, clock]

theorem State.offVisited_self : (s.offVisited ch v n).self = (s.offSet ch v).self := by
  obtain ⟨_, _, _, self, _⟩ := State.offDone_frame ch v n s
  rw [State.offVisited, State.stamp_self, (State.settle_frame _).2.1, self]

theorem State.offVisited_unlost (k : CtxId) : ¬ (s.offVisited ch v n).lostOn ch k := by
  obtain ⟨_, _, _, _, ctxs, block⟩ := State.offDone_frame ch v n s
  refine State.stamp_unlost (State.settle_unlost (by rw [block]; rfl) fun k => ?_) k
  unfold State.lostOn
  rw [ctxs]
  exact State.offSet_unlost ch v s k

variable {ch v n s}

theorem State.offVisited_waits (hm : s.memOk) {j : SlotId} {x : Taken} (other : j ≠ n) (waits : s.waitsOn ch j)
    (free : ∀ k : CtxId, hasSlot s.ctxs[k].attached j = false) (taken : s.orders.taken[j] = some x) :
    (s.offVisited ch v n).slotDone j 6 x.edition s.clock := by
  have done : (s.offDone ch v n).slotDone j 6 x.edition s.clock :=
    (Rest.offDone ch v n s).slotDone ((State.offSet_completesOnly ch v s).mem hm) other (State.offSet_waits hm free waits taken)
  exact (Rest.offVisited ch v n s).slotDone ((State.offDone_completesOnly ch v n s).mem hm) id done

theorem State.offVisited_endsLost (hm : s.memOk) (apart : s.apart) : s.endsLost (s.offVisited ch v n) ch (· = n) := by
  obtain ⟨_, clock, _, orders, sweep, dir, _⟩ := State.silenced_frame ch (Channel.stopRate v) s
  obtain ⟨_, sweep', dir', _, ctxs', _⟩ := State.offDone_frame ch v n s
  have done := State.lossDone.after (own' := (· = n)) (State.offSet_done (v := v) hm apart) ((State.offSet_completesOnly ch v s).mem hm)
    (Rest.offDone ch v n s) ctxs' (fun k _ => by rw [dir']) sweep' (fun _ x => x.elim) fun _ other _ => other
  exact State.endsLost_cleared (State.silenced_get ch _ s) dir orders sweep clock
    (done.settled ((State.offDone_completesOnly ch v n s).mem hm) s)

/-- A suspended request for which a READ UNIT order waits ends CHANNEL_LOST, in the edition that is open then (R56, R176). -/
theorem State.offVisited_held {u : UnitId} {j : SlotId} {x : Taken} (held : s.dir[u].state = .held) (channel : s.dir[u].channel = ch)
    (taken : s.orders.taken[j] = some x) (order : x.order = .readUnit u) (free : ∀ k : CtxId, hasSlot s.ctxs[k].attached j = false)
    (unserved : ∀ k : CtxId, s.ctxs[k].state ≠ .free → s.ctxs[k].target ≠ u) :
    s.unitEnds (s.offVisited ch v n) u .idle .channelLost ∧
      (s.offVisited ch v n).dir[u].record = { s.dir[u].record with lastRead := (s.offSet ch v).sweep.openEdition } := by
  obtain ⟨_, sweep, dir, _⟩ := State.offDone_frame ch v n s
  have ended : DirEntry.lostHeld (s.offSet ch v).sweep.openEdition s.dir[u] (s.offDone ch v n).dir[u] := by
    rw [dir]
    exact State.offSet_held held channel taken order free unserved
  exact ended.settled held (by rw [sweep]; exact State.offSet_autoDue ch v s) s

/-- The order's own result: the settings as applied (R118, R168). -/
theorem State.offVisited_shows (hm : s.memOk) : (s.offVisited ch v n).slotShows n 3 v.result.code v.result.w0 v.result.w1 v.result.w2
    v.result.w3 (s.offSet ch v).sweep.openEdition s.clock ∧ (s.offVisited ch v n).hasAttn .orderDone := by
  obtain ⟨clock, _⟩ := State.offSet_frame ch v s
  obtain ⟨shown, _, attention⟩ := Rest.shows_done (Rest.offVisited ch v n s) ((State.offSet_completesOnly ch v s).mem hm)
  rw [clock] at shown
  exact ⟨shown, attention⟩

theorem Rest.offVisited_all :
    Rest { ctxs := fun k => s.ctxs[k].channel = ch, chans := (· = ch)
           units := fun u => s.dir[u].state = .held ∧ s.dir[u].channel = ch ∨ ∃ k, s.lostOn ch k ∧ s.ctxs[k].target = u
           slots := fun j => j = n ∨ s.waitsOn ch j ∨ ∃ k, s.lostOn ch k ∧ hasSlot s.ctxs[k].attached j = true }
      s (s.offVisited ch v n) := by
  refine Rest.trans ((Rest.offSet ch v s).mono (fun _ x => x) (fun _ x => x) (fun _ x => x) fun _ x => .inr x) ?_
  refine Rest.trans ((Rest.offDone ch v n s).mono (fun _ x => x.elim) (fun _ x => x.elim) (fun _ x => x.elim) fun _ x => .inl x) ?_
  exact (Rest.offVisited ch v n s).widen

/-- SET CHANNEL with rate OFF, its checks passed, completes in its visit (R166, R168). -/
theorem exec_setChannelOff (w : Word) (visits : s.visits n) (rate : v.bitRate = .off) (judged : s.judge n = .taken (.setChannel ch v)) :
    exec (.signalWrite w) s = .next ((s.offVisited ch v n).setHalt none) := by
  obtain ⟨_, hm, _, _, only⟩ := id visits
  have completes := State.offDone_completesOnly ch v n s
  have take : s.take n (.setChannel ch v) = s.offDone ch v n := by
    show (s.applySetChannel ch v).doneNow n _ _ _ _ = _
    rw [State.applySetChannel_off rate]
    rfl
  rw [State.offVisited, ← take]
  rw [← take] at completes
  exact execSignalWrite_takes w visits judged nofun (completes.mem hm) fun j other =>
    State.completesOnly_unposted completes hm (only j other)

end

/-- Settles O36: bus-off silences the channel and ends its contexts, and so does SET CHANNEL with rate OFF, which also ends what waits on
the channel's units and completes in its visit. -/
theorem busOffStopsTheChannel : Obligations.BusOffStopsTheChannel := by
  unfold Obligations.BusOffStopsTheChannel
  refine ⟨fun ch kind s run joined counts past => transmitError_stops run joined counts past, ?_⟩
  intro w n ch policy s visits kind started h0 h1 low high h3 idle unused c lost waits settings
  obtain ⟨_, hm, _⟩ := id visits
  have judged : s.judge n = .taken (.setChannel ch settings) :=
    State.judge_setChannel kind started h0 (by rw [h1]; rfl) low high h3 idle (.inl rfl) unused
  have command := exec_setChannelOff w visits rfl judged
  have field : ∀ {α : Type} (g : Channel → α), (∀ (x : Channel) r, g { x with revision := r } = g x) → _ := fun g hg =>
    State.offVisited_chan ch settings n s g hg
  have unlost := State.offVisited_unlost ch settings n s
  have orders : ∀ j x, j ≠ n → s.waitsOn ch j → _ → s.orders.taken[j] = some x → _ := fun j x other waits free taken =>
    State.offVisited_waits (v := settings) hm other waits free taken
  have ends := State.offVisited_endsLost (ch := ch) (v := settings) (n := n) hm
  have edition := State.offSet_edition ch settings s
  obtain ⟨shown, attention⟩ := State.offVisited_shows (ch := ch) (v := settings) (n := n) hm
  have clock := State.offVisited_clock ch settings n s
  have self := State.offVisited_self ch settings n s
  have rest := (Rest.offVisited_all (ch := ch) (v := settings) (n := n) (s := s)).setHalt none
  have held : ∀ (u : UnitId) (j : SlotId) (x : Taken), s.dir[u].state = .held → s.dir[u].channel = ch → s.orders.taken[j] = some x →
      x.order = .readUnit u → (∀ k : CtxId, hasSlot s.ctxs[k].attached j = false) →
      (∀ k : CtxId, s.ctxs[k].state ≠ .free → s.ctxs[k].target ≠ u) → _ := fun u j x held channel taken order free unserved =>
    State.offVisited_held (v := settings) (n := n) held channel taken order free unserved
  generalize s.offVisited ch settings n = U at *
  refine ⟨_, command, field Channel.link fun _ _ => rfl, field (·.txQueue) fun _ _ => rfl, field (·.pacer.credits) fun _ _ => rfl,
    field (·.pacer.line) fun _ _ => rfl, field (·.settling) fun _ _ => rfl, unlost,
    fun j x other waits free taken => orders j x other waits free taken, ends, fun u j x _ suspended channel _ taken order free unserved => ?_,
    fun was => ?_, ⟨_, shown, edition⟩, attention, clock, rest⟩
  · obtain ⟨unit, record⟩ := held u j x suspended channel taken order free unserved
    exact ⟨unit, fun quiet => edition quiet ▸ record⟩
  · rw [State.setHalt, State.updOrders_self, self]
    exact State.offSet_silent ch settings s (by rcases was with x | x <;> exact congrArg ChanState.silent x)

end Sys2Proof.Machine
end
